-- ==== Sys2Proof/Word.lean ====
section
/-! DEFINITION. The words of the part: bytes, texts, pace values and check values.
A bit vector stands only where the manual shifts, masks or wraps a value; plain numbers are Nat. -/

namespace Sys2Proof

/-- One byte of a notice, of a glyph memory or of a text. -/
abbrev Byte := BitVec 8

/-- A text is a list of character codes (00_scope.md, Texts and codes). -/
abbrev Text := List Byte

/-- A pace value, 32 bits and cyclic (R5 (7)). -/
abbrev Pace := BitVec 32

/-- A value of the CRC computation, 16 bits (R4). -/
abbrev Digest := BitVec 16

/-- A pixel colour: red, green, blue, in that order (R150). -/
abbrev Colour := BitVec 3

end Sys2Proof
end

