-- ==== Sys2Proof/Syntax.lean ====
section
/-! DEFINITION. The commands of the part: one constructor per row of spec/opcode_table.json.
An operand is what comes from outside the part and is not held in its state. -/

namespace Sys2Proof

/-- The 49 events of the part, in the order of the table. -/
inductive Instr where
  /-- COLD_RESET (R188): RESET/ is asserted. -/
  | coldReset
  /-- RESET_RELEASE (R189): RESET/ is released; the straps NODE5 to NODE0 and GLYPORT stand as given. -/
  | resetRelease (node : BitVec 6) (glyport : Bool)
  /-- GLYPH_READ_COMPLETE (R190): GRDY is seen with `data` on GD7 to GD0. -/
  | glyphReadComplete (data : Byte)
  /-- GLYPH_READ_TIMEOUT (R190): 16 µs have passed with no GRDY. -/
  | glyphReadTimeout
  /-- LISTEN_TIMER_EXPIRY (R197). -/
  | listenTimerExpiry
  /-- DISCARD_END (R16): the receiver in DISCARD has sampled `bits`, oldest first. -/
  | discardEnd (bits : List Bool)
  /-- FRAME_HEADER (R17): the 40 header bits, as five bytes in line order. -/
  | frameHeader (kind sender group sequence length : Byte)
  /-- RECEIVE_BYTE (R21): the eight bits of one body byte. -/
  | receiveByte (data : Byte)
  /-- FRAME_END (R19): the 16 check bits, as the value taken low byte first (R4). -/
  | frameEnd (check : Digest)
  /-- CHAIN_COMPLETE (R25). -/
  | chainComplete
  /-- BUSY_PERIOD_LIMIT (R30): a busy period reaches 20 ms; `bits` have been sampled up to there, oldest first, in
  DISCARD or HUNT or of the header, body byte or check bits in reception (log entries 16 and 17). -/
  | busyPeriodLimit (bits : List Bool)
  /-- TX_ATTEMPT_START (R33): the first bit time in which the line is idle (R32). -/
  | txAttemptStart
  /-- TX_SUCCESS (R33): the last check bit has been sent with no difference. -/
  | txSuccess
  /-- COLLISION (R34): in the bit time `bit` of the frame, counted from 0, another node drives the line. -/
  | collision (bit : Nat)
  /-- JAM_END (R34): the 16 jam bit times have passed. -/
  | jamEnd
  /-- BACKOFF_END (R35): the backoff wait has run out. -/
  | backoffEnd
  /-- NAME_APPLY (R44): completion of a NAME table work. -/
  | nameApply
  /-- SERVICE_APPLY (R52): completion of a SERVICE table work. -/
  | serviceApply
  /-- AMEND_APPLY (R59): completion of an AMEND table work. -/
  | amendApply
  /-- WITHDRAW_APPLY (R62): completion of a WITHDRAW table work. -/
  | withdrawApply
  /-- SWEEP_OPEN (R75): completion of a SWEEP-OPEN table work. -/
  | sweepOpen
  /-- SWEEP_CLOSE (R77): completion of a SWEEP-CLOSE table work. -/
  | sweepClose
  /-- CLOCK (R82): completion of a CLOCK table work. -/
  | clock
  /-- HEADER_ONLY_APPLY (R71): completion of the table work of a header-only chain. -/
  | headerOnlyApply
  /-- REFRESH_TIMER_EXPIRY (R61): the refresh timer of the service expires. -/
  | refreshTimerExpiry (service : Nat)
  /-- REFRESH_TABLE_WORK (R61): completion of a refresh table work. -/
  | refreshTableWork
  /-- FEEDER_LIFETIME_EXPIRY (R74): the lifetime timer of the feeder of that node expires. -/
  | feederLifetimeExpiry (node : Nat)
  /-- FEEDER_LIFETIME_TABLE_WORK (R74): completion of a lifetime table work. -/
  | feederLifetimeTableWork
  /-- SWEEP_LIMIT_EXPIRY (R79): the sweep limit timer of the feeder of that node expires. -/
  | sweepLimitExpiry (node : Nat)
  /-- SWEEP_LIMIT_TABLE_WORK (R79): completion of a sweep limit table work. -/
  | sweepLimitTableWork
  /-- SECOND_TIMER_EXPIRY (R83). -/
  | secondTimerExpiry
  /-- TICK_TABLE_WORK (R83): completion of a tick table work. -/
  | tickTableWork
  /-- WINDOW_RELEASE (R93): the reading stage of a pass ends. -/
  | windowRelease
  /-- COMPOSE_COMPLETE (R95): the digest stage of a pass ends. -/
  | composeComplete
  /-- DIGEST_NOTICE (R117): the Agreement Unit takes the delivered DIGEST. -/
  | digestNotice
  /-- PACE_NOTICE (R116): the Agreement Unit takes the delivered PACE. -/
  | paceNotice
  /-- STATUS_NOTICE (R116): the Agreement Unit takes the delivered STATUS. -/
  | statusNotice
  /-- PEER_LIFETIME_EXPIRY (R118): the lifetime timer of the peer entry of that segment index expires. -/
  | peerLifetimeExpiry (index : Nat)
  /-- AGREEMENT_TIMER_EXPIRY (R128). -/
  | agreementTimerExpiry
  /-- PACE_TICK (R130). -/
  | paceTick
  /-- BEACON_TIMER_EXPIRY (R133). -/
  | beaconTimerExpiry
  /-- FRAME_EVENT (R144): the frame timer expires. -/
  | frameEvent
  /-- FRAME_COMPLETE (R147): the last panel line has been shifted and latched. -/
  | frameComplete
  /-- DIM (R157): the Painter takes the delivered DIM. -/
  | dim
  /-- STAFF_NOTICE (R164): the Banner Unit takes the delivered STAFF. -/
  | staffNotice
  /-- QUERY (R184): the Report Unit takes the delivered QUERY. -/
  | query
  /-- INTERVAL_TIMER_EXPIRY (R181): interval timer `index` expires. -/
  | intervalTimerExpiry (index : Nat)
  /-- RESTART (R198): the Start-up Control takes the delivered RESTART. -/
  | restart
  /-- START_MARK (R16): the receiver in HUNT has sampled `bits`, oldest first. -/
  | startMark (bits : List Bool)
deriving DecidableEq, Repr

end Sys2Proof
end

