-- ==== Sys2Proof/Decode.lean ====
section
/-! DEFINITION. The command a word spells by the table's bits. spec/opcode_table.json gives no row any
bits (the reader's counts in 98_reader.md: n_rows_with_fixed 0), so no word spells a command. -/

namespace Sys2Proof

/-- The command spelt by `w` in `nbits` bits: none, because no row of the table gives bits. -/
def decodeTableWord (_nbits _w : Nat) : Option Instr := none

end Sys2Proof
end

