-- ==== Sys2Proof/Config.lean ====
section
/-! DEFINITION. What the part fixes (capacities) and what the manual leaves open (free values). -/

namespace Sys2Proof.Config

/-- Slots of the intake ring (R23). -/
def ringSlots : Nat := 24
/-- Bytes of one intake slot (R23). -/
def slotBytes : Nat := 64
/-- Bytes of the receive FIFO (R21). -/
def fifoBytes : Nat := 48
/-- Entries of the service table (R39). -/
def serviceCapacity : Nat := 64
/-- Cells of the stop pool (R41). -/
def poolCells : Nat := 640
/-- Numbers on the refusal list (R46). -/
def refusalCapacity : Nat := 16
/-- Entries of the feeder table (R70). -/
def feederCapacity : Nat := 8
/-- Entries of each attention list (R161). -/
def attentionCapacity : Nat := 8
/-- Where each count of the Report Unit stops (R179). -/
def countLimit : Nat := 65535
/-- Clock age at which station time is stale (R84). -/
def staleAge : Nat := 900

/-- Free value: the number from which the backoff is drawn at the k-th draw (R35: drawn uniformly).
Log entry 5; only its remainder by the bound of R35 is used. -/
opaque backoffDraw : Nat → Nat

/-- Free value: which of several waiting table works begins first at the k-th choice (R50: any of them
may begin first). Log entry 4; only its remainder by the number of waiting works is used. -/
opaque workChoice : Nat → Nat

/-- Free value: the leftmost columns of the fallback glyph of a code, in one of its 7 rows (R195 calls
the 64 glyphs fixed and does not draw them). Log entry 6; five columns, the leftmost in bit 4. -/
opaque fallbackColumns : (code row : Nat) → BitVec 5

end Sys2Proof.Config
end

