-- ==== Sys2Proof/Machine/State.lean ====
section
/-! DEFINITION. Everything the spec gives the part to hold, block by block, and the state right after a
cold reset. Where two names of the spec share one store, the store is held once and the other name is a
function of it in Machine/Ops.lean (log entry 14). -/

namespace Sys2Proof.Machine

/-! ### Start-up Control -/

/-- The standing of the whole part (10_start_up_profile_and_font.md). -/
inductive NodeState where
  | reset | load | listen | run
deriving DecidableEq, Repr

/-- Where the profile or the font in force came from: READ, or the built-in substitute (DEFAULT for the
profile, FALLBACK for the font). -/
inductive Source where
  | read | builtIn
deriving DecidableEq, Repr

/-- Platform suffix (R7). -/
inductive Suffix where
  | none | a | b | c | d
deriving DecidableEq, Repr

/-- A platform is the pair of number and suffix (R7). -/
structure Platform where
  number : Nat
  suffix : Suffix
deriving DecidableEq, Repr

/-- The platform set of the profile: ALL, or its members (R45). -/
inductive PlatformSet where
  | all
  | members (platforms : List Platform)
deriving DecidableEq, Repr

/-- The shape of a segment's panel and of the board area on it (07_the_painter.md, section 7.1). -/
structure Geometry where
  panelWidth : Nat
  panelLines : Nat
  windowBegin : Nat
  windowEnd : Nat
  topLine : Nat
  rowCount : Nat
deriving DecidableEq, Repr

/-- The settings of the profile block (R191). -/
structure Profile where
  group : Nat
  segmentIndex : Nat
  segmentCount : Nat
  platforms : PlatformSet
  geometry : Geometry
  hideMinutes : Nat
  stopTimes : Bool
  leadIn : Nat
  paceTick : Nat
  enableA : Bool
  enableB : Bool
  enableC : Bool
  /-- Bit k − 1 enables staff slot k. -/
  slotEnables : BitVec 8
  bannerDuration : Nat
  bannerGap : Nat
  delayThreshold : Nat
  brightness : Nat
  /-- Bit k masks report kind k. -/
  masks : BitVec 19
  /-- The interval index of each report kind, kind 0 first. -/
  intervals : List Nat
  /-- The lengths of intervals 0, 1 and 2, in units of 0.25 s. -/
  intervalLengths : List Nat
  /-- The 16 colours of the palette, entry 0 first. -/
  palette : List Colour
  /-- The palette entry of each of the nine classes, in the order of R191. -/
  classMap : List Nat
deriving DecidableEq, Repr

/-- The state of the Start-up Control. -/
structure Sc where
  node : NodeState
  /-- The NODE strap value (R189). -/
  nodeNumber : BitVec 6
  /-- The GLYPORT strap value (R189). -/
  glyphStrap : Bool
  profile : Option Profile
  profileSource : Option Source
  fontSource : Option Source
  /-- The address of the glyph port read in flight (R190). -/
  loadPosition : Option Nat
  /-- The profile bytes read so far in this LOAD. -/
  profileBytes : List Byte
  /-- The font bytes read so far in this LOAD. -/
  fontBytes : List Byte
  /-- The 3 s listen timer is running. -/
  listenTimer : Bool
deriving DecidableEq, Repr

/-! ### Line Controller -/

/-- The states of the receiver (section 2.1). -/
inductive ReceiverState where
  | off | suspended | discard | hunt | header | store | foreign | skip | lockout
deriving DecidableEq, Repr

/-- The five header bytes of a notice (R3). -/
structure Header where
  kind : Byte
  sender : Byte
  group : Byte
  sequence : Byte
  length : Byte
deriving DecidableEq, Repr

/-- How far the look for a start mark has come in HUNT (R16). -/
structure Hunt where
  /-- Alternating bits in a row up to the last one sampled; held up to the 8 that R16 asks for. -/
  run : Nat
  /-- The last bit of that run. -/
  last : Bool
  /-- Bits of the mark 0, 0, 1, 1 sampled after the run. -/
  mark : Nat
deriving DecidableEq, Repr

/-- The receiver. -/
structure Receiver where
  state : ReceiverState
  headerRegister : Header
  checkRegister : Digest
  /-- Consecutive 1 bits counted in DISCARD (R16). -/
  ones : Nat
  /-- Body bytes still to come of the frame followed (R19). -/
  remaining : Nat
  /-- The look for a start mark; it means something in HUNT (R16). -/
  hunt : Hunt
deriving DecidableEq, Repr

/-- A chain of intake slots that is READY or IN-WORK: the bytes it stores, 64 to a slot (R23). -/
structure Chain where
  headerOnly : Bool
  bytes : List Byte
deriving DecidableEq, Repr

/-- The FILLING chain: the bytes that have reached its slots, and whether its frame has passed its
check (R25). -/
structure Filling where
  headerOnly : Bool
  passed : Bool
  bytes : List Byte
deriving DecidableEq, Repr

/-- The intake ring: the run of slots in use, from its oldest end: the IN-WORK chain, the READY chains,
the FILLING chain (R23). Every other slot is FREE. -/
structure Ring where
  /-- Slot number of the oldest end. -/
  oldest : Nat
  inWork : Option Chain
  ready : List Chain
  filling : Option Filling
deriving DecidableEq, Repr

/-- The agreement states (section 6.2). -/
inductive AgreementState where
  | empty | pending | agreed | diverged
deriving DecidableEq, Repr

/-- What a STATUS reports beside its segment index and pace (R12, R182). -/
structure StatusReport where
  node : NodeState
  agreement : AgreementState
  shownDigest : Digest
  pendingKinds : BitVec 19
  counts : List Nat
  geometryCut : Nat
  profileSource : Source
  fontSource : Source
  knownFeeders : Nat
deriving DecidableEq, Repr

/-- A board notice offered to the transmit queue, complete but for its pace field (R31). -/
inductive BoardNotice where
  | digest (segment : Nat) (composeNumber : BitVec 16) (digest : Digest) (origin : Pace)
      (rowCount boardWidth : Nat)
  | pace (segment : Nat)
  | status (segment : Nat) (report : StatusReport)
deriving DecidableEq, Repr

/-- The states of the transmitter (section 2.7). -/
inductive TransmitterState where
  | idle | wait | send | jam | backoff
deriving DecidableEq, Repr

/-- The transmitter. -/
structure Transmitter where
  state : TransmitterState
  notice : Option BoardNotice
  attempts : Nat
  /-- The backoff wait, in slots of 96 bit times. -/
  slots : Nat
  /-- Header, body and check bytes of the frame in SEND. -/
  frame : List Byte
  /-- The collision being jammed was late (R34). -/
  late : Bool
deriving DecidableEq, Repr

/-- The line-busy watch (R30). -/
structure Watch where
  /-- Consecutive bit times sampled at 1; held up to the 64 of an idle line. -/
  idleRun : Nat
  /-- Bit times of the busy period; held up to the 5000 that R30 reports, 0 on an idle line. -/
  busyBits : Nat
  /-- LINE_STUCK has been raised for the busy period. -/
  reported : Bool
  /-- Bit times already counted of the header, body byte or check bits in reception, before their own command
  (log entry 17). -/
  ahead : Nat
deriving DecidableEq, Repr

/-- The state of the Line Controller. -/
structure Lc where
  receiver : Receiver
  fifo : List Byte
  ring : Ring
  queue : List BoardNotice
  transmitter : Transmitter
  watch : Watch
deriving DecidableEq, Repr

/-! ### Table Builder -/

/-- A timer of the part: stopped, running, or expired and not restarted since (log entry 3). -/
inductive Timer where
  | stopped | running | expired
deriving DecidableEq, Repr

/-- Running state of a service (R7). -/
inductive ServiceStatus where
  | onTime | expected | delayed | cancelled | departed
deriving DecidableEq, Repr

/-- The contents of a cell of the stop pool (R41); the links are the order of the lists of cells. -/
structure StopCell where
  name : Nat
  time : Option Nat
deriving DecidableEq, Repr

/-- A service entry in use (R39). -/
structure Service where
  number : Nat
  edition : BitVec 8
  /-- Owning feeder, a node number. -/
  owner : Nat
  platform : Platform
  scheduled : Nat
  expected : Option Nat
  status : ServiceStatus
  destination : Nat
  via : Option Nat
  coaches : Option Nat
  /-- The cells of the calling chain in calling order; the first is the head cell. -/
  chain : List Nat
  cut : Bool
  mark : Bool
  refresh : Timer
deriving DecidableEq, Repr

/-- The stop pool (R41): the contents of its 640 cells, and the free list from its head. -/
structure StopPool where
  cells : List StopCell
  free : List Nat
deriving DecidableEq, Repr

/-- A feeder entry in use (R70); its stale flag is its place in the stale order. -/
structure Feeder where
  node : Nat
  expectedSequence : Option (BitVec 8)
  sweeping : Bool
  epoch : BitVec 8
  count : Nat
  spoiled : Bool
  lifetime : Timer
  limit : Timer
deriving DecidableEq, Repr

/-- Station time (R81 to R84). The clock state is UNSET exactly while no second of day is held. -/
structure StationTime where
  second : Option Nat
  elapsed : Nat
  age : Nat
  stale : Bool
  secondTimer : Bool
deriving DecidableEq, Repr

/-- An expiry of a TB timer that claims a table work (R47, R48). -/
inductive Expiry where
  | refresh (service : Nat)
  | lifetime (node : Nat)
  | sweepLimit (node : Nat)
  | tick
deriving DecidableEq, Repr

/-- The table work in flight (R47). `apply` works on the IN-WORK chain; a refresh carries what the TB
found when it examined the entry at the beginning of the work (R61). -/
inductive TableWork where
  | apply
  | refresh (service : Nat) (live : Bool)
  | lifetime (node : Nat)
  | sweepLimit (node : Nat)
  | tick
deriving DecidableEq, Repr

/-- The table state (section 3.5). -/
inductive TableState where
  | free
  | working (work : TableWork)
  | window
deriving DecidableEq, Repr

/-- The state of the Table Builder. -/
structure Tb where
  services : List Service
  pool : StopPool
  /-- The defined names: number and text, numbers strictly rising, no empty text (R43). -/
  names : List (Nat × Text)
  /-- The refusal list, oldest first (R46). -/
  refusals : List Nat
  state : TableState
  /-- The IN-WORK notice waits for its apply to begin (R48). -/
  waitingApply : Bool
  waiting : List Expiry
  windowRequest : Bool
  feeders : List Feeder
  /-- Nodes of the stale entries, in the order in which they became stale (R70). -/
  staleOrder : List Nat
  time : StationTime
deriving DecidableEq, Repr

/-! ### Composer -/

/-- Where the Composer stands in a pass (section 5.1). -/
inductive PassState where
  | idle | asking | reading | digesting
deriving DecidableEq, Repr

/-- The status class of a LEAD or FOLLOW row (R102). -/
inductive StatusClass where
  | onTime | late | cancelled
deriving DecidableEq, Repr

/-- The fields a LEAD and a FOLLOW row share (R100). -/
structure ServiceRow where
  service : Nat
  edition : BitVec 8
  time : Text
  destination : Text
  platform : Option Text
  status : StatusClass
  statusText : Text
deriving DecidableEq, Repr

/-- A row record (R100); its row number is its place in the set. -/
inductive Row where
  | blank
  | phrase (text : Text)
  | follow (row : ServiceRow)
  | lead (row : ServiceRow) (calling : Text) (width : Nat)
deriving DecidableEq, Repr

/-- A composed set (R95). -/
structure ComposedSet where
  rows : List Row
  digest : Digest
  number : BitVec 16
  rowCount : Nat
  boardWidth : Nat
deriving DecidableEq, Repr

/-- The state of the Composer. -/
structure Co where
  request : Bool
  pass : PassState
  working : List Row
  nameMiss : Bool
  composed : Option ComposedSet
  number : BitVec 16
deriving DecidableEq, Repr

/-! ### Agreement Unit -/

/-- A peer entry (R115). Its lifetime timer runs exactly while it is LIVE. -/
structure Peer where
  live : Bool
  node : Option Nat
  digest : Option Digest
  origin : Option Pace
deriving DecidableEq, Repr

/-- A set copied at an adoption, with its origin (R120). -/
structure AdoptedSet where
  rows : List Row
  digest : Digest
  rowCount : Nat
  boardWidth : Nat
  callingWidth : Nat
  origin : Pace
deriving DecidableEq, Repr

/-- The state of the Agreement Unit. -/
structure Au where
  /-- The entries of segment indexes 0 to 7. -/
  peers : List Peer
  agreement : AgreementState
  composedDigest : Option Digest
  ownProposal : Option Pace
  agreementTimer : Bool
  swapBuffer : Option AdoptedSet
  shown : Option AdoptedSet
  shownDigest : Option Digest
  pace : Pace
  paceTimer : Bool
  beaconTimer : Bool
  sent : Bool
deriving DecidableEq, Repr

/-! ### Painter -/

/-- A glyph: its width in columns and its row bytes, top row first, bit 7 leftmost (R148, R194). -/
structure Glyph where
  width : Nat
  rows : List Byte
deriving DecidableEq, Repr

/-- The layout widths (R149). -/
structure Layout where
  time : Nat
  status : Nat
  platform : Nat
deriving DecidableEq, Repr

/-- What the Painter samples at a frame start (R144). -/
structure FrameSample where
  node : NodeState
  shown : Option AdoptedSet
  pace : Pace
  second : Option Nat
  stale : Bool
  /-- The text and take pace of the banner in force, where it is SHOWING. -/
  banner : Option (Text × Pace)
  brightness : Nat
deriving DecidableEq, Repr

/-- The paint states (section 7.2). -/
inductive PaintState where
  | dark | painting | waiting
deriving DecidableEq, Repr

/-- One panel line as it leaves the panel port: PHF (true is active, log entry 27), PLN4 to PLN0, and the pixels,
column 0 first (R147). -/
structure PanelLine where
  half : Bool
  line : BitVec 5
  pixels : List Colour
deriving DecidableEq, Repr

/-- The panel port output of one frame: its lines, and for how many sixteenths PEN/ is active (R147). -/
structure PanelOutput where
  lines : List PanelLine
  duty : Nat
deriving DecidableEq, Repr

/-- The state of the Painter. -/
structure Pa where
  geometry : Option Geometry
  fontHeight : Option Nat
  /-- The glyphs of codes 20H to BFH, in code order. -/
  glyphs : List Glyph
  layout : Option Layout
  palette : List Colour
  classMap : List Nat
  brightness : Option Nat
  swapPending : Bool
  sample : Option FrameSample
  paint : PaintState
  frameTimer : Bool
  geometryCut : Bool
  /-- The output of the frame in flight; none while PEN/ is held inactive. -/
  panel : Option PanelOutput
deriving DecidableEq, Repr

/-! ### Banner Unit -/

/-- The attention groups, in order of preference (section 8.1). -/
inductive Group where
  | a | b | c | d
deriving DecidableEq, Repr

/-- The argument of an attention entry (R161). -/
inductive Argument where
  | none
  | platform (platform : Platform)
  | delay (minutes : Nat)
deriving DecidableEq, Repr

/-- An entry of an attention list (R161). -/
structure Attention where
  service : Nat
  argument : Argument
deriving DecidableEq, Repr

/-- The state of a group (R166). -/
inductive GroupState where
  | quiet | requesting | held
deriving DecidableEq, Repr

/-- The state of the banner line (section 8.5). -/
inductive LineState where
  | idle | showing | gap
deriving DecidableEq, Repr

/-- A staff message (R164). -/
structure StaffMessage where
  text : Text
  repeats : Nat
deriving DecidableEq, Repr

/-- The banner in force (R170). -/
structure Banner where
  group : Group
  text : Text
  takePace : Pace
  endMark : Nat
  gapMark : Nat
deriving DecidableEq, Repr

/-- The state of the Banner Unit. -/
structure Bu where
  listA : List Attention
  listB : List Attention
  listC : List Attention
  /-- Staff slots 1 to 8. -/
  slots : List (Option StaffMessage)
  groupA : GroupState
  groupB : GroupState
  groupC : GroupState
  groupD : GroupState
  line : LineState
  banner : Option Banner
deriving DecidableEq, Repr

/-! ### Report Unit -/

/-- The report kinds, in the order of their numbers (R12, R178). -/
inductive ReportKind where
  | lineCrc | intakeOverflow | txGiveup | txLate | lineStuck | seqGap | sweepSpoiled | tableFull
  | poolCut | nameMiss | orphan | feederFull | agreeDiverged | segmentClash | attentionLost
  | clockStale | profileDefault | fontFallback | restarted
deriving DecidableEq, Repr

/-- The start-up marks (R186). -/
structure StartMarks where
  profileDefault : Bool
  fontFallback : Bool
  geometryCut : Bool
  restarted : Bool
deriving DecidableEq, Repr

/-- The state of the Report Unit. Masks, interval indexes and lengths are in the profile in force. -/
structure Ru where
  /-- The counts of kinds 0 to 18. -/
  counts : List Nat
  geometryCut : Nat
  /-- Bit k is the pending flag of kind k. -/
  pending : BitVec 19
  /-- Bit k says that kind k is in the listed set (R183). -/
  listed : BitVec 19
  /-- Interval timers 0, 1 and 2: running or idle. -/
  timers : List Bool
  marks : StartMarks
deriving DecidableEq, Repr

/-! ### The machine -/

/-- The whole part, the queue of its waiting commands (first in, first out), and the index of the next
free value (log entry 8). -/
structure State where
  sc : Sc
  lc : Lc
  tb : Tb
  co : Co
  au : Au
  pa : Pa
  bu : Bu
  ru : Ru
  pending : List Instr
  freeCounter : Nat
deriving DecidableEq, Repr

/-- Why a command may fault. The spec names no condition that stops the part. -/
inductive Fault where
  /-- Raised by no meaning: every condition of the spec leaves the part running. Safe. -/
  | neverRaised
deriving DecidableEq, Repr

/-- Why a command may be refused. -/
inductive Refusal where
  /-- Raised by Machine/Dispatch.lean for a command that has no meaning yet; at present by none. Safe. -/
  | notModelled (mnemonic : String)
deriving DecidableEq, Repr

/-- R188: the Start-up Control while RESET/ is asserted. The strap values are log entry 7. -/
def Sc.reset : Sc where
  node := .reset
  nodeNumber := 0
  glyphStrap := false
  profile := none
  profileSource := none
  fontSource := none
  loadPosition := none
  profileBytes := []
  fontBytes := []
  listenTimer := false

/-- A cleared header register. -/
def Header.cleared : Header := ⟨0, 0, 0, 0, 0⟩

/-- R16: no bit of a start mark has been sampled. -/
def Hunt.fresh : Hunt := ⟨0, false, 0⟩

/-- R37: the receiver after a cold reset. The check register, the counts and the look for a start mark are
log entry 7. -/
def Receiver.reset : Receiver := ⟨.off, .cleared, 0, 0, 0, .fresh⟩

/-- R37: the ring after a cold reset. -/
def Ring.reset : Ring := ⟨0, none, [], none⟩

/-- R37: the transmitter with no notice. -/
def Transmitter.reset : Transmitter := ⟨.idle, none, 0, 0, [], false⟩

/-- R37: the line-busy watch at zero. -/
def Watch.reset : Watch := ⟨0, 0, false, 0⟩

/-- R37: the Line Controller after a cold reset. -/
def Lc.reset : Lc := ⟨.reset, [], .reset, [], .reset, .reset⟩

/-- R68: the stop pool after a cold reset. The contents of the free cells are log entry 7. -/
def StopPool.reset : StopPool :=
  ⟨List.replicate Config.poolCells ⟨0, none⟩, List.range Config.poolCells⟩

/-- R86: station time UNSET. -/
def StationTime.reset : StationTime := ⟨none, 0, 0, false, false⟩

/-- R68 and R86: the Table Builder after a cold reset. -/
def Tb.reset : Tb where
  services := []
  pool := .reset
  names := []
  refusals := []
  state := .free
  waitingApply := false
  waiting := []
  windowRequest := false
  feeders := []
  staleOrder := []
  time := .reset

/-- R113: the Composer after a cold reset. -/
def Co.reset : Co := ⟨false, .idle, [], false, none, 0⟩

/-- An ABSENT peer entry that holds nothing (R136). -/
def Peer.absent : Peer := ⟨false, none, none, none⟩

/-- R136: the Agreement Unit after a cold reset. -/
def Au.reset : Au where
  peers := List.replicate 8 .absent
  agreement := .empty
  composedDigest := none
  ownProposal := none
  agreementTimer := false
  swapBuffer := none
  shown := none
  shownDigest := none
  pace := 0
  paceTimer := false
  beaconTimer := false
  sent := false

/-- R159: the Painter after a cold reset. -/
def Pa.reset : Pa where
  geometry := none
  fontHeight := none
  glyphs := []
  layout := none
  palette := []
  classMap := []
  brightness := none
  swapPending := false
  sample := none
  paint := .dark
  frameTimer := false
  geometryCut := false
  panel := none

/-- R176: the Banner Unit after a cold reset. -/
def Bu.reset : Bu where
  listA := []
  listB := []
  listC := []
  slots := List.replicate 8 none
  groupA := .quiet
  groupB := .quiet
  groupC := .quiet
  groupD := .quiet
  line := .idle
  banner := none

/-- No start-up mark is set (R188). -/
def StartMarks.clear : StartMarks := ⟨false, false, false, false⟩

/-- R187: the Report Unit after a cold reset. -/
def Ru.reset : Ru where
  counts := List.replicate 19 0
  geometryCut := 0
  pending := 0
  listed := 0
  timers := [false, false, false]
  marks := .clear

/-- The part right after the assertion of RESET/ (R188): every block at its cold-reset values, no command
waiting. -/
def State.reset : State :=
  ⟨.reset, .reset, .reset, .reset, .reset, .reset, .reset, .reset, [], 0⟩

end Sys2Proof.Machine
end

