-- ==== Sys2Proof/Machine/Bits.lean ====
section
/-! DEFINITION. Bits, bytes and numbers: the CRC computation, byte order, the cyclic comparisons, and the
fixed texts. -/

namespace Sys2Proof.Machine

/-! ### Byte order (R1, R5) -/

/-- The bits of a byte in line order, least significant first (R1). -/
def byteBits (b : Byte) : List Bool := (List.range 8).map fun i => b.getLsbD i

/-- The number that bytes carry, low byte first (R5 (1)). -/
def leNat : List Byte → Nat
  | [] => 0
  | b :: rest => b.toNat + 256 * leNat rest

/-- The low `k` bytes of a number, low byte first (R5 (1)). -/
def toLe : (k n : Nat) → List Byte
  | 0, _ => []
  | k + 1, n => BitVec.ofNat 8 n :: toLe k (n / 256)

/-- Byte `i` of a body. -/
def byteAt (body : List Byte) (i : Nat) : Byte := body.getD i 0

/-- The one-byte number at offset `i`. -/
def num1 (body : List Byte) (i : Nat) : Nat := (byteAt body i).toNat

/-- The two-byte number at offset `i`. -/
def num2 (body : List Byte) (i : Nat) : Nat := leNat [byteAt body i, byteAt body (i + 1)]

/-- The four-byte pace value at offset `i` (R5 (7)). -/
def paceAt (body : List Byte) (i : Nat) : Pace :=
  BitVec.ofNat 32
    (leNat [byteAt body i, byteAt body (i + 1), byteAt body (i + 2), byteAt body (i + 3)])

/-! ### The check (R4) -/

/-- One bit taken into the check register (R4 (2)). -/
def crcBit (register : Digest) (bit : Bool) : Digest :=
  if register.msb != bit then (register <<< 1) ^^^ 0x1021#16 else register <<< 1

/-- Bytes taken into the check register, in line order. -/
def crcFeed (register : Digest) (bytes : List Byte) : Digest :=
  bytes.foldl (fun r b => (byteBits b).foldl crcBit r) register

/-- The register before the first bit (R4 (1)). -/
def crcStart : Digest := 0xFFFF#16

/-- The CRC value of a sequence of bytes (R4 (3)). -/
def crcValue (bytes : List Byte) : Digest := ~~~ (crcFeed crcStart bytes)

/-! ### Cyclic comparisons (R13, R14) -/

/-- Edition `n` is newer than edition `o` (R13 (1)). -/
def editionNewer (n o : BitVec 8) : Bool := decide (1 ≤ (n - o).toNat ∧ (n - o).toNat ≤ 127)

/-- Edition `n` is older than edition `o` (R13 (1)). -/
def editionOlder (n o : BitVec 8) : Bool := decide (128 ≤ (n - o).toNat)

/-- Pace `q` is ahead of pace `p` (R14 (1)). -/
def paceAhead (q p : Pace) : Bool := decide (1 ≤ (q - p).toNat ∧ (q - p).toNat ≤ 2 ^ 31 - 1)

/-- The offset of minute of day `t` from minute `m` (R14 (2)). -/
def minuteOffset (t m : Nat) : Int := ((t : Int) - m + 720) % 1440 - 720

/-! ### Texts (R88, R101) -/

/-- Codes of printable characters (R88). -/
def codes (characters : List Char) : Text := characters.map fun c => BitVec.ofNat 8 c.toNat

/-- A number in decimal without leading zeros. -/
def decimal (n : Nat) : Text := codes (Nat.toDigits 10 n)

/-- A number below 100 in two digits. -/
def twoDigits (n : Nat) : Text := [BitVec.ofNat 8 (48 + n / 10), BitVec.ofNat 8 (48 + n % 10)]

/-- A minute of day as "hh:mm" (R101). -/
def hourMinute (m : Nat) : Text := twoDigits (m / 60) ++ codes [':'] ++ twoDigits (m % 60)

/-- A second of day as "hh:mm:ss" (R154). -/
def hourMinuteSecond (s : Nat) : Text :=
  hourMinute (s / 60) ++ codes [':'] ++ twoDigits (s % 60)

/-- A code of a text lies in 20H to BFH (R5 (4)). -/
def codeOk (c : Byte) : Bool := decide (0x20 ≤ c.toNat ∧ c.toNat ≤ 0xBF)

/-- A platform as text: the number, then its suffix letter (R103). -/
def platformText (p : Platform) : Text :=
  decimal p.number ++
    match p.suffix with
    | .none => []
    | .a => codes ['A']
    | .b => codes ['B']
    | .c => codes ['C']
    | .d => codes ['D']

/-- Texts joined by a separator. -/
def joinTexts (separator : Text) : List Text → Text
  | [] => []
  | [t] => t
  | t :: rest => t ++ separator ++ joinTexts separator rest

/-! ### Insertion into an ordered list -/

/-- `x` inserted before the first element it does not follow. -/
def insertBy {α : Type} (before : α → α → Bool) (x : α) : List α → List α
  | [] => [x]
  | y :: rest => if before x y then x :: y :: rest else y :: insertBy before x rest

/-- A list sorted by insertion. -/
def sortBy {α : Type} (before : α → α → Bool) (l : List α) : List α :=
  l.foldr (insertBy before) []

end Sys2Proof.Machine
end

