-- ==== Sys2Proof/Machine/Profile.lean ====
section
/-! DEFINITION. The profile: the built-in default (R193), the profile block (R191) and its examination
(R192), and the settings the other blocks read from it. -/

namespace Sys2Proof.Machine

/-- The number of a report kind (R12). -/
def ReportKind.number : ReportKind → Nat
  | .lineCrc => 0
  | .intakeOverflow => 1
  | .txGiveup => 2
  | .txLate => 3
  | .lineStuck => 4
  | .seqGap => 5
  | .sweepSpoiled => 6
  | .tableFull => 7
  | .poolCut => 8
  | .nameMiss => 9
  | .orphan => 10
  | .feederFull => 11
  | .agreeDiverged => 12
  | .segmentClash => 13
  | .attentionLost => 14
  | .clockStale => 15
  | .profileDefault => 16
  | .fontFallback => 17
  | .restarted => 18

/-- The default geometry (R139 (3)). -/
def defaultGeometry : Geometry := ⟨128, 64, 0, 127, 0, 3⟩

/-- The default interval of each report kind, kind 0 first (R178). -/
def defaultIntervals : List Nat := [2, 1, 1, 1, 0, 2, 1, 1, 2, 2, 2, 1, 0, 0, 1, 1, 0, 0, 0]

/-- The default palette (R150). -/
def defaultPalette : List Colour :=
  [0b000#3, 0b110#3, 0b010#3, 0b100#3, 0b110#3, 0b111#3] ++ List.replicate 10 0b000#3

/-- The default class map (R150), in the order TEXT, TIME, ON_TIME, LATE, CANCELLED, CALLING, BANNER,
CLOCK, CLOCK_STALE. -/
def defaultClassMap : List Nat := [1, 1, 2, 4, 3, 5, 5, 1, 3]

/-- The built-in default profile (R193). -/
def defaultProfile : Profile where
  group := 1
  segmentIndex := 0
  segmentCount := 1
  platforms := .all
  geometry := defaultGeometry
  hideMinutes := 2
  stopTimes := false
  leadIn := 150
  paceTick := 20
  enableA := true
  enableB := true
  enableC := true
  slotEnables := 0xFF
  bannerDuration := 400
  bannerGap := 100
  delayThreshold := 5
  brightness := 12
  masks := 0
  intervals := defaultIntervals
  intervalLengths := [0, 8, 120]
  palette := defaultPalette
  classMap := defaultClassMap

/-! ### The profile block (R191) -/

/-- A platform suffix from its byte (R7); bytes above 04H are no suffix. -/
def suffixOf (b : Nat) : Option Suffix :=
  match b with
  | 0 => some .none
  | 1 => some .a
  | 2 => some .b
  | 3 => some .c
  | 4 => some .d
  | _ => none

/-- The number that `n` bytes from offset `i` carry, low byte first. -/
def numN (body : List Byte) (i n : Nat) : Nat := leNat ((body.drop i).take n)

/-- The four bits number `k` of a value. -/
def nibble (value k : Nat) : Nat := value / 16 ^ k % 16

/-- The platform at place `k` of the block. -/
def blockPlatform (block : List Byte) (k : Nat) : Platform :=
  ⟨num1 block (4 + 2 * k), (suffixOf (num1 block (5 + 2 * k))).getD .none⟩

/-- The platform set of the block; a platform named twice is held once (R192). -/
def blockPlatforms (block : List Byte) : PlatformSet :=
  if num1 block 3 = 0 then .all
  else .members (((List.range (num1 block 3)).map (blockPlatform block)).eraseDups)

/-- The settings of a profile block (R191). -/
def profileOfBlock (block : List Byte) : Profile where
  group := num1 block 0
  segmentIndex := num1 block 1
  segmentCount := num1 block 2
  platforms := blockPlatforms block
  geometry :=
    { panelWidth := num1 block 13 + 1
      panelLines := num1 block 14
      windowBegin := num1 block 15
      windowEnd := num1 block 16
      topLine := num1 block 17
      rowCount := num1 block 12 }
  hideMinutes := num1 block 18
  stopTimes := (byteAt block 19).getLsbD 0
  leadIn := num2 block 20
  paceTick := num1 block 22
  enableA := (byteAt block 23).getLsbD 0
  enableB := (byteAt block 23).getLsbD 1
  enableC := (byteAt block 23).getLsbD 2
  slotEnables := byteAt block 24
  bannerDuration := num2 block 25
  bannerGap := num2 block 27
  delayThreshold := num1 block 29
  brightness := num1 block 30
  masks := BitVec.ofNat 19 (numN block 31 3)
  intervals := (List.range 19).map fun k => numN block 34 5 / 4 ^ k % 4
  intervalLengths := [num1 block 39, num1 block 40, num1 block 41]
  palette := (List.range 16).map fun k => BitVec.ofNat 3 (nibble (numN block 42 8) k)
  classMap := (List.range 9).map fun k => nibble (numN block 50 5) k

/-- A platform place of the block is in range: a platform within the count, zeros beyond it (R191). -/
def blockPlatformOk (block : List Byte) (k : Nat) : Bool :=
  if k < num1 block 3 then
    decide (1 ≤ num1 block (4 + 2 * k) ∧ num1 block (4 + 2 * k) ≤ 63 ∧ num1 block (5 + 2 * k) ≤ 4)
  else decide (num1 block (4 + 2 * k) = 0 ∧ num1 block (5 + 2 * k) = 0)

/-- Settings of offsets 0 to 19 are in range (R191). -/
def blockShapeOk (block : List Byte) : Bool :=
  decide (1 ≤ num1 block 0 ∧ num1 block 0 ≤ 15) &&
  decide (num1 block 1 ≤ 7 ∧ num1 block 1 < num1 block 2) &&
  decide (1 ≤ num1 block 2 ∧ num1 block 2 ≤ 8) &&
  decide (num1 block 3 ≤ 4) && (List.range 4).all (blockPlatformOk block) &&
  decide (2 ≤ num1 block 12 ∧ num1 block 12 ≤ 8) &&
  decide (1 ≤ num1 block 14 ∧ num1 block 14 ≤ 64) &&
  decide (num1 block 15 ≤ num1 block 16) &&
  decide (num1 block 16 < num1 block 13 + 1) &&
  decide (num1 block 17 < num1 block 14) &&
  decide (num1 block 18 ≤ 15) && decide (num1 block 19 ≤ 1)

/-- Settings of offsets 20 to 30 are in range (R191). -/
def blockTimesOk (block : List Byte) : Bool :=
  decide (num2 block 20 ≤ 1023) &&
  decide (10 ≤ num1 block 22 ∧ num1 block 22 ≤ 40) &&
  decide (num1 block 23 ≤ 7) &&
  decide (100 ≤ num2 block 25 ∧ num2 block 25 ≤ 1000) &&
  decide (num2 block 27 ≤ 500) &&
  decide (1 ≤ num1 block 29 ∧ num1 block 29 ≤ 60) &&
  decide (num1 block 30 ≤ 15)

/-- Settings of offsets 31 to 61 are in range and every bit set to 0 is 0 (R191). -/
def blockReportsOk (block : List Byte) : Bool :=
  decide (numN block 31 3 < 2 ^ 19) &&
  (List.range 19).all (fun k => decide (numN block 34 5 / 4 ^ k % 4 ≤ 2)) &&
  decide (numN block 34 5 < 2 ^ 38) &&
  (List.range 16).all (fun k => decide (nibble (numN block 42 8) k < 8)) &&
  decide (numN block 50 5 < 2 ^ 36) &&
  decide (numN block 55 7 = 0)

/-- The examination of a whole profile block (R192). -/
def blockPasses (block : List Byte) : Bool :=
  decide (num2 block 62 = (crcValue (block.take 62)).toNat) &&
  blockShapeOk block && blockTimesOk block && blockReportsOk block

/-! ### Settings in force -/

/-- The profile in force. In RESET and LOAD none is in force and no block reads one (log entry 22). -/
def State.prof (s : State) : Profile := s.sc.profile.getD defaultProfile

/-- The geometry in force (R140). -/
def State.geometry (s : State) : Geometry := s.pa.geometry.getD defaultGeometry

/-- Window width W (section 7.1). -/
def Geometry.windowWidth (g : Geometry) : Nat := g.windowEnd - g.windowBegin + 1

/-- Board width B (05_composing_the_board.md). -/
def State.boardWidth (s : State) : Nat := s.prof.segmentCount * s.geometry.windowWidth

/-- The part receives: the node state is LISTEN or RUN (R15). -/
def State.following (s : State) : Bool :=
  match s.sc.node with
  | .listen | .run => true
  | .reset | .load => false

/-- The part may send: RUN with a node number of 1 to 62 (R31, R32). -/
def State.maySend (s : State) : Bool :=
  decide (s.sc.node = .run ∧ 1 ≤ s.sc.nodeNumber.toNat ∧ s.sc.nodeNumber.toNat ≤ 62)

/-- A platform is in the set (R45). -/
def PlatformSet.contains (set : PlatformSet) (p : Platform) : Bool :=
  match set with
  | .all => true
  | .members ms => ms.any fun m => m.number == p.number && (m.suffix == p.suffix || m.suffix == .none)

/-- Rows carry a platform text (R103). -/
def Profile.carriesPlatform (p : Profile) : Bool :=
  match p.platforms with
  | .all => true
  | .members ms => decide (2 ≤ ms.length)

/-- Staff slot `k` (0 for slot 1) is enabled. -/
def Profile.slotEnabled (p : Profile) (k : Nat) : Bool := p.slotEnables.getLsbD k

/-- A group is enabled (R165). -/
def Profile.groupEnabled (p : Profile) : Group → Bool
  | .a => p.enableA
  | .b => p.enableB
  | .c => p.enableC
  | .d => decide (p.slotEnables ≠ 0)

/-- The interval a report kind is bound to. -/
def Profile.intervalOf (p : Profile) (k : ReportKind) : Nat := p.intervals.getD k.number 0

/-- The kinds bound to interval `i`, as bits. -/
def Profile.boundTo (p : Profile) (i : Nat) : BitVec 19 :=
  (List.range 19).foldl
    (fun bits k => if p.intervals.getD k 0 = i then bits ||| (1#19 <<< k) else bits) 0

end Sys2Proof.Machine
end

