-- ==== Sys2Proof/Machine/Operands.lean ====
section
/-! DEFINITION. The operand forms of the part: the headers and bodies of its notices, what makes them
well-formed (R3, R5 to R12), and the bytes of the notices it sends (R11, R12). -/

namespace Sys2Proof.Machine

/-! ### Kinds and headers (R3, R17) -/

/-- The fourteen kinds of notice (R3). -/
inductive NoticeKind where
  | name | service | amend | withdraw | sweepOpen | sweepClose | clock | staff | dim | query | restart
  | digest | pace | status
deriving DecidableEq, Repr

/-- The kind a kind code names (R3). -/
def noticeKind (code : Byte) : Option NoticeKind :=
  match code.toNat with
  | 0x01 => some .name
  | 0x02 => some .service
  | 0x03 => some .amend
  | 0x04 => some .withdraw
  | 0x05 => some .sweepOpen
  | 0x06 => some .sweepClose
  | 0x07 => some .clock
  | 0x08 => some .staff
  | 0x09 => some .dim
  | 0x0A => some .query
  | 0x0B => some .restart
  | 0x41 => some .digest
  | 0x42 => some .pace
  | 0x43 => some .status
  | _ => none

/-- The kinds boards send (R3). -/
def NoticeKind.isBoard : NoticeKind → Bool
  | .digest | .pace | .status => true
  | .name | .service | .amend | .withdraw | .sweepOpen | .sweepClose | .clock | .staff | .dim | .query
  | .restart => false

/-- The body lengths allowed at the header (R17). -/
def NoticeKind.lengthOk (k : NoticeKind) (l : Nat) : Bool :=
  match k with
  | .name => decide (4 ≤ l ∧ l ≤ 217)
  | .service => decide (16 ≤ l ∧ l ≤ 176 ∧ (l - 16) % 4 = 0)
  | .amend => decide (l = 9)
  | .withdraw | .sweepClose | .clock => decide (l = 3)
  | .sweepOpen | .dim | .query | .restart => decide (l = 1)
  | .staff => decide (3 ≤ l ∧ l ≤ 99)
  | .digest => decide (l = 16)
  | .pace => decide (l = 5)
  | .status => decide (l = 55)

/-- The group field is in range for the kind (R17 (3)). -/
def NoticeKind.groupOk (k : NoticeKind) (g : Nat) : Bool :=
  if k.isBoard then decide (1 ≤ g ∧ g ≤ 15) else decide (g ≤ 15)

/-- The kind of a header that passes its examination (R17). -/
def Header.examine (h : Header) : Option NoticeKind :=
  match noticeKind h.kind with
  | none => none
  | some k =>
    if decide (1 ≤ h.sender.toNat ∧ h.sender.toNat ≤ 62) && k.groupOk h.group.toNat &&
        k.lengthOk h.length.toNat then
      some k
    else none

/-- The header bytes in line order (R3). -/
def Header.bytes (h : Header) : List Byte := [h.kind, h.sender, h.group, h.sequence, h.length]

/-- The receiver's state after a passing header (R18). -/
def nextReceiverState (k : NoticeKind) (headerGroup ownGroup : Nat) : ReceiverState :=
  match k with
  | .digest | .pace | .status => if headerGroup = ownGroup then .store else .skip
  | .query | .restart => .store
  | .name | .service | .amend | .withdraw | .sweepOpen | .sweepClose | .clock | .staff | .dim =>
    if headerGroup = 0 ∨ headerGroup = ownGroup then .store else .foreign

/-- The header of a stored chain. -/
def headerOf (bytes : List Byte) : Header :=
  ⟨byteAt bytes 0, byteAt bytes 1, byteAt bytes 2, byteAt bytes 3, byteAt bytes 4⟩

/-- The body of a stored chain. -/
def bodyOf (bytes : List Byte) : List Byte := bytes.drop 5

/-- The kind of a stored chain. -/
def Chain.kind (c : Chain) : Option NoticeKind := noticeKind (headerOf c.bytes).kind

/-- The sender of a stored chain. -/
def Chain.sender (c : Chain) : Nat := (headerOf c.bytes).sender.toNat

/-- The group a stored chain addresses. -/
def Chain.group (c : Chain) : Nat := (headerOf c.bytes).group.toNat

/-- The sequence number of a stored chain. -/
def Chain.sequence (c : Chain) : BitVec 8 := (headerOf c.bytes).sequence

/-- The body of a stored chain. -/
def Chain.body (c : Chain) : List Byte := bodyOf c.bytes

/-! ### Field encodings (R5) -/

/-- A minute of day, or absent (R5 (2)). -/
def minuteField (n : Nat) : Option Nat := if n = 0xFFFF then none else some n

/-- A minute-of-day field that may be absent is in range. -/
def minuteFieldOk (n : Nat) : Bool := decide (n < 1440 ∨ n = 0xFFFF)

/-- A number field in which 0 marks absence (R5 (3)). -/
def optionalField (n : Nat) : Option Nat := if n = 0 then none else some n

/-- A name number is in range (R5 (3)). -/
def nameNumberOk (n : Nat) : Bool := decide (1 ≤ n ∧ n ≤ 511)

/-- A running state from its byte (R7). -/
def serviceStatusOf (b : Nat) : Option ServiceStatus :=
  match b with
  | 0 => some .onTime
  | 1 => some .expected
  | 2 => some .delayed
  | 3 => some .cancelled
  | 4 => some .departed
  | _ => none

/-- The platform in two bytes from offset `i` (R7). -/
def platformField (body : List Byte) (i : Nat) : Platform :=
  ⟨num1 body i, (suffixOf (num1 body (i + 1))).getD .none⟩

/-- The platform in two bytes from offset `i` is in range (R7). -/
def platformFieldOk (body : List Byte) (i : Nat) : Bool :=
  decide (1 ≤ num1 body i ∧ num1 body i ≤ 63 ∧ num1 body (i + 1) ≤ 4)

/-! ### NAME (R6) -/

/-- `count` definitions taken from the front of the bytes, with the bytes left over. -/
def takeDefinitions : (count : Nat) → List Byte → Option (List (Nat × Text) × List Byte)
  | 0, rest => some ([], rest)
  | count + 1, bytes =>
    if bytes.length < 3 ∨ bytes.length < 3 + num1 bytes 2 then none
    else
      match takeDefinitions count (bytes.drop (3 + num1 bytes 2)) with
      | none => none
      | some (more, rest) => some ((num2 bytes 0, (bytes.drop 3).take (num1 bytes 2)) :: more, rest)

/-- The definitions of a NAME body, where its counts agree with its length (R6, R25). -/
def nameDefinitions (body : List Byte) : Option (List (Nat × Text)) :=
  if 1 ≤ num1 body 0 ∧ num1 body 0 ≤ 8 then
    match takeDefinitions (num1 body 0) (body.drop 1) with
    | some (ds, []) => some ds
    | some (_, _ :: _) => none
    | none => none
  else none

/-- A definition is in range (R6). -/
def definitionOk (d : Nat × Text) : Bool :=
  nameNumberOk d.1 && decide (d.2.length ≤ 24) && d.2.all codeOk

/-! ### SERVICE (R7) -/

/-- The record of a SERVICE. -/
structure ServiceRecord where
  number : Nat
  edition : BitVec 8
  platform : Platform
  scheduled : Nat
  expected : Option Nat
  status : ServiceStatus
  destination : Nat
  via : Option Nat
  coaches : Option Nat
  stops : List StopCell
deriving DecidableEq, Repr

/-- Stop `k` of a SERVICE body. -/
def stopAt (body : List Byte) (k : Nat) : StopCell :=
  ⟨num2 body (16 + 4 * k), minuteField (num2 body (18 + 4 * k))⟩

/-- A stop of a SERVICE body is in range. -/
def stopOk (body : List Byte) (k : Nat) : Bool :=
  nameNumberOk (num2 body (16 + 4 * k)) && minuteFieldOk (num2 body (18 + 4 * k))

/-- The record a SERVICE body carries (R7). -/
def serviceRecord (body : List Byte) : ServiceRecord where
  number := num2 body 0
  edition := byteAt body 2
  platform := platformField body 3
  scheduled := num2 body 5
  expected := minuteField (num2 body 7)
  status := (serviceStatusOf (num1 body 9)).getD .onTime
  destination := num2 body 10
  via := optionalField (num2 body 12)
  coaches := optionalField (num1 body 14)
  stops := (List.range (num1 body 15)).map (stopAt body)

/-- Every body field of a SERVICE is in range (R5, R7). -/
def serviceOk (body : List Byte) : Bool :=
  decide (num2 body 0 ≠ 0) && platformFieldOk body 3 && decide (num2 body 5 < 1440) &&
  minuteFieldOk (num2 body 7) && decide (num1 body 9 ≤ 4) && nameNumberOk (num2 body 10) &&
  decide (num2 body 12 ≤ 511) && decide (num1 body 14 ≤ 24) && decide (num1 body 15 ≤ 40) &&
  (List.range (num1 body 15)).all (stopOk body) &&
  !(decide (num1 body 9 = 1) && decide (num2 body 7 = 0xFFFF))

/-! ### AMEND and WITHDRAW (R8) -/

/-- What an AMEND carries; each field present where the change mask selects it. -/
structure Amendment where
  number : Nat
  edition : BitVec 8
  platform : Option Platform
  /-- The new expected time, or its clearing. -/
  expected : Option (Option Nat)
  status : Option ServiceStatus
deriving DecidableEq, Repr

/-- The amendment an AMEND body carries (R8). -/
def amendment (body : List Byte) : Amendment where
  number := num2 body 0
  edition := byteAt body 2
  platform := if (byteAt body 3).getLsbD 0 then some (platformField body 4) else none
  expected := if (byteAt body 3).getLsbD 1 then some (minuteField (num2 body 6)) else none
  status := if (byteAt body 3).getLsbD 2 then serviceStatusOf (num1 body 8) else none

/-- Every examined field of an AMEND is in range (R8). -/
def amendOk (body : List Byte) : Bool :=
  decide (num2 body 0 ≠ 0) && decide (num1 body 3 ≤ 7) &&
  (!(byteAt body 3).getLsbD 0 || platformFieldOk body 4) &&
  (!(byteAt body 3).getLsbD 1 || minuteFieldOk (num2 body 6)) &&
  (!(byteAt body 3).getLsbD 2 || decide (num1 body 8 ≤ 4))

/-- The service number of a WITHDRAW is in range (R8). -/
def withdrawOk (body : List Byte) : Bool := decide (num2 body 0 ≠ 0)

/-! ### CLOCK, STAFF, targets (R9, R10) -/

/-- The second of day a CLOCK carries. -/
def clockSecond (body : List Byte) : Nat := leNat [byteAt body 0, byteAt body 1, byteAt body 2]

/-- The second of day is in range (R9). -/
def clockOk (body : List Byte) : Bool := decide (clockSecond body < 86400)

/-- The text of a STAFF. -/
def staffText (body : List Byte) : Text := (body.drop 3).take (num1 body 2)

/-- Every body field of a STAFF is in range (R10 (1), R164). -/
def staffOk (body : List Byte) : Bool :=
  decide (1 ≤ num1 body 0 ∧ num1 body 0 ≤ 8) && decide (1 ≤ num1 body 1 ∧ num1 body 1 ≤ 15) &&
  (staffText body).all codeOk

/-- The brightness of a DIM is in range (R10 (2)). -/
def dimOk (body : List Byte) : Bool := decide (num1 body 0 ≤ 15)

/-- The target of a QUERY or RESTART is in range (R10). -/
def targetOk (body : List Byte) : Bool := decide (1 ≤ num1 body 0 ∧ num1 body 0 ≤ 63)

/-- A well-formed QUERY or RESTART names the part (R184, R198). -/
def State.named (s : State) (target group : Nat) : Bool :=
  decide ((1 ≤ target ∧ target ≤ 62 ∧ target = s.sc.nodeNumber.toNat) ∨
    (target = 63 ∧ (group = 0 ∨ group = s.prof.group)))

/-! ### Board notices (R11, R12) -/

/-- The body fields of a DIGEST, PACE or STATUS are in range (R11, R12). -/
def boardNoticeOk (k : NoticeKind) (body : List Byte) : Bool :=
  decide (num1 body 0 ≤ 7) &&
  match k with
  | .digest =>
    decide (2 ≤ num1 body 13 ∧ num1 body 13 ≤ 8) &&
    decide (1 ≤ num2 body 14 ∧ num2 body 14 ≤ 2048)
  | .status =>
    decide (num1 body 5 ≤ 3) && decide (num1 body 6 ≤ 3) && decide (num1 body 11 ≤ 7) &&
    decide (num1 body 52 ≤ 1) && decide (num1 body 53 ≤ 1) && decide (num1 body 54 ≤ 8)
  | _ => true

/-- The body length agrees with the counts the body carries (R25). -/
def countsAgree (k : NoticeKind) (body : List Byte) : Bool :=
  match k with
  | .name => (nameDefinitions body).isSome
  | .service => decide (num1 body 15 = (body.length - 16) / 4)
  | .staff => decide (num1 body 2 = body.length - 3)
  | .amend | .withdraw | .sweepOpen | .sweepClose | .clock | .dim | .query | .restart | .digest
  | .pace | .status => true

/-! ### The notices the part sends -/

/-- The kind of a board notice. -/
def BoardNotice.kind : BoardNotice → NoticeKind
  | .digest _ _ _ _ _ _ => .digest
  | .pace _ => .pace
  | .status _ _ => .status

/-- The kind code of a board notice (R3). -/
def BoardNotice.code : BoardNotice → Byte
  | .digest _ _ _ _ _ _ => 0x41
  | .pace _ => 0x42
  | .status _ _ => 0x43

/-- The code of a node state (R12). -/
def NodeState.code : NodeState → Byte
  | .reset => 0
  | .load => 1
  | .listen => 2
  | .run => 3

/-- The code of an agreement state (R12). -/
def AgreementState.code : AgreementState → Byte
  | .empty => 0
  | .pending => 1
  | .agreed => 2
  | .diverged => 3

/-- The code of a source (R12). -/
def Source.code : Source → Byte
  | .read => 0
  | .builtIn => 1

/-- The bytes of a STATUS after the common five (R12). -/
def StatusReport.bytes (r : StatusReport) : List Byte :=
  [r.node.code, r.agreement.code] ++ toLe 2 r.shownDigest.toNat ++ toLe 3 r.pendingKinds.toNat ++
    r.counts.flatMap (toLe 2) ++ toLe 2 r.geometryCut ++
    [r.profileSource.code, r.fontSource.code, BitVec.ofNat 8 r.knownFeeders]

/-- The body of a board notice with its pace field written (R11, R12, R33 (2)). -/
def BoardNotice.body (n : BoardNotice) (pace : Pace) : List Byte :=
  match n with
  | .digest segment number value origin rows width =>
    BitVec.ofNat 8 segment :: toLe 4 pace.toNat ++ toLe 2 number.toNat ++ toLe 2 value.toNat ++
      toLe 4 origin.toNat ++ [BitVec.ofNat 8 rows] ++ toLe 2 width
  | .pace segment => BitVec.ofNat 8 segment :: toLe 4 pace.toNat
  | .status segment report => BitVec.ofNat 8 segment :: toLe 4 pace.toNat ++ report.bytes

/-- Header, body and check bytes of the frame that carries a board notice (R2, R33). -/
def frameBytes (n : BoardNotice) (pace : Pace) (node group : Nat) : List Byte :=
  let body := n.body pace
  let covered :=
    [n.code, BitVec.ofNat 8 node, BitVec.ofNat 8 group, 0, BitVec.ofNat 8 body.length] ++ body
  covered ++ toLe 2 (crcValue covered).toNat

/-- The preamble and the start mark (R2 (1), (2)). -/
def preambleBits : List Bool :=
  [true, false, true, false, true, false, true, false, true, false, true, false, true, false,
    false, false, true, true]

/-- The bits of a frame in line order (R2). -/
def frameBits (bytes : List Byte) : List Bool := preambleBits ++ bytes.flatMap byteBits

/-- Bits of the claim window: preamble, start mark and header (R34). -/
def claimWindowBits : Nat := 58

end Sys2Proof.Machine
end

