-- ==== Sys2Proof/Machine/Ops.lean ====
section
/-! DEFINITION. The shared operations of the part: one setter per block, the intake ring and receive FIFO
(R21 to R29), the transmit queue (R31, R32), and the arbitration of the tables (R48 to R50, R90 to R92). -/

namespace Sys2Proof.Machine

/-! ### One setter per block -/

def State.setSc (s : State) (x : Sc) : State := { s with sc := x }
def State.setLc (s : State) (x : Lc) : State := { s with lc := x }
def State.setTb (s : State) (x : Tb) : State := { s with tb := x }
def State.setCo (s : State) (x : Co) : State := { s with co := x }
def State.setAu (s : State) (x : Au) : State := { s with au := x }
def State.setPa (s : State) (x : Pa) : State := { s with pa := x }
def State.setBu (s : State) (x : Bu) : State := { s with bu := x }
def State.setRu (s : State) (x : Ru) : State := { s with ru := x }
def State.setFree (s : State) (x : Nat) : State := { s with freeCounter := x }

/-! ### The intake ring (R23, R24) -/

/-- Slots that `n` stored bytes hold (R24). -/
def slotsFor (n : Nat) : Nat := (n + 63) / 64

/-- Slots in use (R23). -/
def Ring.used (r : Ring) : Nat :=
  (match r.inWork with
    | none => 0
    | some c => slotsFor c.bytes.length) +
  (r.ready.map fun c => slotsFor c.bytes.length).sum +
  (match r.filling with
    | none => 0
    | some f => slotsFor f.bytes.length)

/-- The slot the next claim will take (R23): the one after the run of slots in use. -/
def Ring.fillPosition (r : Ring) : Nat := (r.oldest + r.used) % Config.ringSlots

/-- The ownership states of a slot (R23). -/
inductive SlotState where
  | free | filling | ready | inWork
deriving DecidableEq, Repr

/-- What one intake slot holds (R23); chain length and header-only mark stand in the first slot of a
chain and read as 0 and clear elsewhere. -/
structure Slot where
  state : SlotState
  bytes : List Byte
  chainLength : Nat
  headerOnly : Bool
deriving DecidableEq, Repr

/-- The slots of one chain, first slot first. -/
def chainSlots (state : SlotState) (headerOnly : Bool) (bytes : List Byte) : List Slot :=
  (List.range (slotsFor bytes.length)).map fun k =>
    { state := state
      bytes := (bytes.drop (64 * k)).take 64
      chainLength := if k = 0 then slotsFor bytes.length else 0
      headerOnly := decide (k = 0) && headerOnly }

/-- The run of slots in use, oldest first (R23). -/
def Ring.slotsInUse (r : Ring) : List Slot :=
  (match r.inWork with
    | none => []
    | some c => chainSlots .inWork c.headerOnly c.bytes) ++
  r.ready.flatMap (fun c => chainSlots .ready c.headerOnly c.bytes) ++
  (match r.filling with
    | none => []
    | some f => chainSlots .filling f.headerOnly f.bytes)

/-- Intake slot `i` of 0 to 23 (R23). -/
def Ring.slot (r : Ring) (i : Nat) : Slot :=
  r.slotsInUse.getD ((i + Config.ringSlots - r.oldest % Config.ringSlots) % Config.ringSlots)
    ⟨.free, [], 0, false⟩

/-- Bytes pass from the FIFO to the chain, oldest first, each 1st, 65th, 129th or 193rd byte claiming one
of the `free` slots (R21, R24). Answers the stored bytes and those that wait. -/
def drainBytes : (free : Nat) → (stored fifo : List Byte) → List Byte × List Byte
  | _, stored, [] => (stored, [])
  | free, stored, b :: rest =>
    if stored.length % 64 = 0 then
      match free with
      | 0 => (stored, b :: rest)
      | free' + 1 => drainBytes free' (stored ++ [b]) rest
    else drainBytes free (stored ++ [b]) rest

/-- The FIFO drains into the ring as far as slots are FREE (R21). -/
def Lc.drain (lc : Lc) : Lc :=
  match lc.ring.filling with
  | none => lc
  | some f =>
    let moved := drainBytes (Config.ringSlots - lc.ring.used) f.bytes lc.fifo
    { lc with
      ring := { lc.ring with filling := some { f with bytes := moved.1 } }
      fifo := moved.2 }

/-- A frame's bytes enter an empty FIFO and begin a chain (R21, R24, R26). -/
def Lc.beginFrame (lc : Lc) (headerOnly passed : Bool) (bytes : List Byte) : Lc :=
  Lc.drain
    { lc with
      ring := { lc.ring with filling := some ⟨headerOnly, passed, []⟩ }
      fifo := bytes }

/-- The FILLING slots return to FREE and the bytes of their frame leave the FIFO (R15, R20, R22, R25). -/
def Lc.freeFilling (lc : Lc) : Lc :=
  { lc with ring := { lc.ring with filling := none }, fifo := [] }

/-! ### Dispatch and completion (R27, R29, R48) -/

/-- The Table Builder owns the notice of a chain (R27). -/
def Chain.forTables (c : Chain) : Bool :=
  c.headerOnly ||
  match c.kind with
  | some .name | some .service | some .amend | some .withdraw | some .sweepOpen | some .sweepClose
  | some .clock => true
  | _ => false

/-- A notice delivered to the Table Builder begins its apply or waits (R48). -/
def Tb.deliver (tb : Tb) : Tb :=
  if tb.state = .free then { tb with state := .working .apply } else { tb with waitingApply := true }

/-- The dispatcher takes the oldest READY chain when none is IN-WORK (R27). -/
def State.dispatch (s : State) : State :=
  match s.lc.ring.inWork, s.lc.ring.ready with
  | none, c :: rest =>
    let t := s.setLc { s.lc with ring := { s.lc.ring with inWork := some c, ready := rest } }
    if c.forTables then t.setTb t.tb.deliver else t
  | _, _ => s

/-- The slots of the IN-WORK chain return to FREE (R29). -/
def Ring.freeInWork (r : Ring) : Ring :=
  match r.inWork with
  | none => r
  | some c =>
    { r with oldest := (r.oldest + slotsFor c.bytes.length) % Config.ringSlots, inWork := none }

/-- Completion of the delivered notice: its slots are freed, the FIFO drains, the next chain is
dispatched (R21, R27, R29). -/
def State.completeNotice (s : State) : State :=
  (s.setLc (Lc.drain { s.lc with ring := s.lc.ring.freeInWork })).dispatch

/-! ### The transmit queue (R31, R32) -/

/-- A placed notice replaces the one of its kind, joins the end, or is refused (R31). -/
def placeNotice (queue : List BoardNotice) (n : BoardNotice) : List BoardNotice :=
  if queue.any (fun m => m.kind == n.kind) then
    match n with
    | .pace _ => queue
    | .digest _ _ _ _ _ _ | .status _ _ => queue.map fun m => if m.kind == n.kind then n else m
  else queue ++ [n]

/-- An IDLE transmitter takes the oldest notice (R32); the take of a STATUS empties the listed set (R183). -/
def State.takeNotice (s : State) : State :=
  if s.lc.transmitter.state = .idle ∧ s.maySend = true then
    match s.lc.queue with
    | [] => s
    | n :: rest =>
      let t := s.setLc { s.lc with queue := rest, transmitter := ⟨.wait, some n, 0, 0, [], false⟩ }
      if n.kind = .status then t.setRu { t.ru with listed := 0 } else t
  else s

/-- A board notice is offered to the transmit queue (R31), and an IDLE transmitter takes (log entry 10). -/
def State.offer (s : State) (n : BoardNotice) : State :=
  if s.maySend then (s.setLc { s.lc with queue := placeNotice s.lc.queue n }).takeNotice else s

/-! ### The tables and the read window (R48 to R50, R90 to R92) -/

/-- The stored entry of a service number. -/
def Tb.find (tb : Tb) (n : Nat) : Option Service := tb.services.find? fun v => v.number == n

/-- The entry of a service is in use and its refresh timer has not been restarted since it expired (R61). -/
def Tb.refreshLive (tb : Tb) (n : Nat) : Bool :=
  match tb.find n with
  | none => false
  | some v => decide (v.refresh = .expired)

/-- The table work an expiry starts; a refresh is examined here, at its beginning (R61). -/
def Tb.workOf (tb : Tb) : Expiry → TableWork
  | .refresh n => .refresh n (tb.refreshLive n)
  | .lifetime node => .lifetime node
  | .sweepLimit node => .sweepLimit node
  | .tick => .tick

/-- A TB timer has expired: its table work begins, or it joins the waiting expiries once (R48). -/
def Tb.claim (tb : Tb) (e : Expiry) : Tb :=
  if tb.state = .free then { tb with state := .working (tb.workOf e) }
  else if e ∈ tb.waiting then tb
  else { tb with waiting := tb.waiting ++ [e] }

/-- A claimant that waits for the tables. -/
inductive Claim where
  | apply
  | expiry (e : Expiry)
deriving DecidableEq, Repr

/-- The waiting table works (R50). -/
def Tb.claims (tb : Tb) : List Claim :=
  (if tb.waitingApply then [.apply] else []) ++ tb.waiting.map .expiry

/-- A waiting table work begins (R50). -/
def Tb.start (tb : Tb) : Claim → Tb
  | .apply => { tb with state := .working .apply, waitingApply := false }
  | .expiry e => { tb with state := .working (tb.workOf e), waiting := tb.waiting.erase e }

/-- One of the waiting table works begins, or the tables become FREE (R50). Where several wait, which
begins first is a free value (log entry 4). -/
def State.beginWaiting (s : State) : State :=
  match s.tb.claims with
  | [] => s.setTb { s.tb with state := .free }
  | [c] => s.setTb (s.tb.start c)
  | c :: d :: rest =>
    let k := Config.workChoice s.freeCounter % (rest.length + 2)
    (s.setTb (s.tb.start ((c :: d :: rest).getD k c))).setFree (s.freeCounter + 1)

/-- The read window is granted to a Composer in ASKING: the pass begins (R92), or the grant is given back
because a swap is pending (R91). -/
def State.grantWindow (s : State) : State :=
  if s.pa.swapPending then
    (s.setCo { s.co with pass := .idle }).beginWaiting
  else
    (s.setTb { s.tb with state := .window }).setCo
      { s.co with request := false, pass := .reading, working := [], nameMiss := false }

/-- The TB settles the waiting claims at the completion of a table work (R50 (1)). -/
def State.arbitrate (s : State) : State :=
  if s.tb.windowRequest then (s.setTb { s.tb with windowRequest := false }).grantWindow
  else s.beginWaiting

/-- The CO asks for the read window when all of R90 hold; the TB grants it or notes the request (R49). -/
def State.askWindow (s : State) : State :=
  if s.following = true ∧ s.co.pass = .idle ∧ s.co.request = true ∧ s.pa.swapPending = false then
    let t := s.setCo { s.co with pass := .asking }
    if s.tb.state = .free then t.grantWindow else t.setTb { t.tb with windowRequest := true }
  else s

/-- A compose is requested (R89). -/
def State.requestCompose (s : State) : State := s.setCo { s.co with request := true }

end Sys2Proof.Machine
end

