-- ==== Sys2Proof/Machine/Flags.lean ====
section
/-! DEFINITION. The flags of the part: counts, pending flags and interval timers of the report kinds
(R179 to R183), and the STATUS they lead to. -/

namespace Sys2Proof.Machine

/-- The bit of a report kind in the pending field (R12). -/
def ReportKind.bit (k : ReportKind) : BitVec 19 := 1#19 <<< k.number

/-- A count rises by 1 and stops at 65535 (R179 (1)). -/
def bump (n : Nat) : Nat := if n < Config.countLimit then n + 1 else n

/-- The pending flag of a kind is set, and its interval timer starts where the part may send and the timer
is idle (R179 (2), (3)). A running timer is not restarted. -/
def State.flag (s : State) (k : ReportKind) : State :=
  s.setRu
    { s.ru with
      pending := s.ru.pending ||| k.bit
      timers := if s.maySend then s.ru.timers.set (s.prof.intervalOf k) true else s.ru.timers }

/-- One event of a report kind (R179). -/
def State.count (s : State) (k : ReportKind) : State :=
  (s.setRu { s.ru with counts := s.ru.counts.modify k.number bump }).flag k

/-- One event of GEOMETRY_CUT (R180). -/
def State.countGeometryCut (s : State) : State :=
  (s.setRu { s.ru with geometryCut := bump s.ru.geometryCut }).flag .profileDefault

/-- The known-feeder number (R70). -/
def Tb.knownFeeders (tb : Tb) : Nat := tb.feeders.length

/-- The pending field of a STATUS offered now (R182, R183). -/
def Ru.pendingField (ru : Ru) : BitVec 19 := ru.pending ||| ru.listed

/-- The body of a STATUS offered now (R182). The shown-set digest is the shown digest, and 0000H while EMPTY (R12,
R119). That it is 0000H also in PENDING entered from EMPTY, before any adoption, where no rule gives it a value, is
log entry 28, the model's choice. A source is held wherever a STATUS is offered (log entry 22). -/
def State.statusReport (s : State) : StatusReport where
  node := s.sc.node
  agreement := s.au.agreement
  shownDigest := s.au.shownDigest.getD 0
  pendingKinds := s.ru.pendingField
  counts := s.ru.counts
  geometryCut := s.ru.geometryCut
  profileSource := s.sc.profileSource.getD .builtIn
  fontSource := s.sc.fontSource.getD .builtIn
  knownFeeders := s.tb.knownFeeders

/-- A STATUS is offered; the listed set becomes its pending field, and the flags outside `keep` clear
(R181 (1), R182, R183, R184). Outside RUN and in listen-only mode none is offered (R185). -/
def State.offerStatus (s : State) (keep : BitVec 19) : State :=
  if s.maySend then
    (s.setRu { s.ru with listed := s.ru.pendingField, pending := s.ru.pending &&& keep }).offer
      (.status s.prof.segmentIndex s.statusReport)
  else s

/-- Interval timer `i` expires (R181). -/
def State.expireInterval (s : State) (i : Nat) : State :=
  let t := s.setRu { s.ru with timers := s.ru.timers.set i false }
  if s.ru.pending &&& s.prof.boundTo i &&& ~~~ s.prof.masks = 0 then t
  else t.offerStatus s.prof.masks

/-- Interval timer `i` of length 0 expires at the moment it starts (R181). -/
def State.expireIfZero (s : State) (i : Nat) : State :=
  if s.ru.timers.getD i false = true ∧ s.prof.intervalLengths.getD i 0 = 0 then s.expireInterval i
  else s

/-- The expiries of the intervals of length 0, after the events raised together (log entry 9). -/
def State.expireZeros (s : State) : State := ((s.expireIfZero 0).expireIfZero 1).expireIfZero 2

/-- Events raised together are each taken, and intervals of length 0 then expire (R179, R181). -/
def State.raiseAll (s : State) (ks : List ReportKind) : State :=
  match ks with
  | [] => s
  | k :: rest => (rest.foldl State.count (s.count k)).expireZeros

/-- One event of a report kind at its moment of detection (R179). -/
def State.raise (s : State) (k : ReportKind) : State := s.raiseAll [k]

end Sys2Proof.Machine
end

