-- ==== Sys2Proof/Machine/Tables.lean ====
section
/-! DEFINITION. The structures of the Table Builder and what each table work does to them (R39 to R87).
A table work's effects are gathered in one record and take place together at its completion (R47). -/

namespace Sys2Proof.Machine

/-- A message of the Table Builder to the Banner Unit (section 3.9). -/
inductive Message where
  | raise (group : Group) (service : Nat) (argument : Argument)
  | update (service : Nat) (minutes : Nat)
  | release (group : Group) (service : Nat)
  | releaseAll (service : Nat)
deriving DecidableEq, Repr

/-- What a table work leaves at its completion (R47). -/
structure Effect where
  tb : Tb
  messages : List Message
  reports : List ReportKind
  compose : Bool
deriving DecidableEq, Repr

/-- A table work that changes nothing. -/
def Effect.none (tb : Tb) : Effect := ⟨tb, [], [], false⟩

/-- A body that is not well-formed raises LINE_CRC and changes no table (R51). -/
def Effect.malformed (tb : Tb) : Effect := ⟨tb, [], [.lineCrc], false⟩

/-- The effect with the reports of the header note before its own (R71 (1)). -/
def Effect.after (fx : Effect) (noteReports : List ReportKind) : Effect :=
  { fx with reports := noteReports ++ fx.reports }

/-! ### Station time (R81 to R84) -/

/-- The present minute, while the clock is RUNNING (section 4.4). -/
def StationTime.minute (t : StationTime) : Option Nat := t.second.map (· / 60)

/-! ### Times of services (R40, R66) -/

/-- Display time (R40). -/
def displayTime (scheduled : Nat) (expected : Option Nat) : Nat := expected.getD scheduled

/-- What display times are compared by: the offset while the clock holds a minute, the plain minute while
it is UNSET (R40, R98). -/
def displayKey (minute : Option Nat) (scheduled : Nat) (expected : Option Nat) : Int :=
  match minute with
  | some m => minuteOffset (displayTime scheduled expected) m
  | none => displayTime scheduled expected

/-- The display key of a stored service. -/
def Service.key (v : Service) (minute : Option Nat) : Int := displayKey minute v.scheduled v.expected

/-- A service is later than another: a greater key, or an equal key and a higher number (R40). -/
def laterThan (keyA : Int) (numberA : Nat) (keyB : Int) (numberB : Nat) : Bool :=
  decide (keyB < keyA ∨ (keyA = keyB ∧ numberB < numberA))

/-- The delay of a service in minutes (R66). -/
def delayOf (scheduled : Nat) (expected : Option Nat) : Int :=
  match expected with
  | none => 0
  | some e => minuteOffset e scheduled

/-- The delay of a stored service. -/
def Service.delay (v : Service) : Int := delayOf v.scheduled v.expected

/-! ### The stop pool (R41, R42) -/

/-- The free head: the first cell of the free list, or the end mark (R41). -/
def StopPool.head (p : StopPool) : Option Nat := p.free.head?

/-- The free count (R41). -/
def StopPool.freeCount (p : StopPool) : Nat := p.free.length

/-- The cell that follows `c` on a list of cells, or the end mark: the link of `c` (R41). -/
def linkOn (c : Nat) : List Nat → Option Nat
  | [] => none
  | x :: rest => if x = c then rest.head? else linkOn c rest

/-- The stop count of a service (R39). -/
def Service.stopCount (v : Service) : Nat := v.chain.length

/-- The cells at `at` receive the stops, in order (R42 (1)). -/
def writeCells (cells : List StopCell) : (at_ : List Nat) → (stops : List StopCell) → List StopCell
  | c :: cs, x :: xs => writeCells (cells.set c x) cs xs
  | _, _ => cells

/-- A calling list takes cells from the front of the free list, as many as it has stops, or all (R42, R57). -/
def StopPool.take (p : StopPool) (stops : List StopCell) : StopPool :=
  { cells := writeCells p.cells (p.free.take stops.length) stops
    free := p.free.drop stops.length }

/-- A chain joins the front of the free list in its own order (R42 (2)). -/
def StopPool.give (p : StopPool) (chain : List Nat) : StopPool := { p with free := chain ++ p.free }

/-! ### The service table (R39, R60) -/

/-- The entry of its number is replaced, or a free entry comes into use. -/
def putService (v : Service) : List Service → List Service
  | [] => [v]
  | w :: rest => if w.number = v.number then v :: rest else w :: putService v rest

/-- The tables without the service: its entry out of use and its chain freed (R60). -/
def Tb.drop (tb : Tb) (v : Service) : Tb :=
  { tb with
    services := tb.services.filter (fun w => w.number ≠ v.number)
    pool := tb.pool.give v.chain }

/-- A removal, with its RELEASE-ALL and compose request (R60, R67). -/
def Tb.removal (tb : Tb) (v : Service) : Effect := ⟨tb.drop v, [.releaseAll v.number], [], true⟩

/-- A number joins the refusal list as the newest (R46). -/
def refuse (n : Nat) (l : List Nat) : List Nat :=
  if n ∈ l then l.erase n ++ [n]
  else if l.length < Config.refusalCapacity then l ++ [n]
  else l.drop 1 ++ [n]

/-- The latest stored service by R40. -/
def latestOf (minute : Option Nat) : List Service → Option Service
  | [] => none
  | v :: rest =>
    match latestOf minute rest with
    | none => some v
    | some w =>
      if laterThan (w.key minute) w.number (v.key minute) v.number then some w else some v

/-- The entry a record gives when its stops take the cells `chain` (R53). -/
def ServiceRecord.entry (r : ServiceRecord) (sender : Nat) (chain : List Nat) : Service where
  number := r.number
  edition := r.edition
  owner := sender
  platform := r.platform
  scheduled := r.scheduled
  expected := r.expected
  status := r.status
  destination := r.destination
  via := r.via
  coaches := r.coaches
  chain := chain
  cut := decide (chain.length < r.stops.length)
  mark := true
  refresh := .running

/-- The record is written into the tables: cells taken, entry put in use (R42, R53, R55, R57). -/
def Tb.write (tb : Tb) (sender : Nat) (r : ServiceRecord) : Tb :=
  { tb with
    services := putService (r.entry sender (tb.pool.free.take r.stops.length)) tb.services
    pool := tb.pool.take r.stops }

/-- POOL_CUT, where the calling list is cut (R57). -/
def Tb.cutReports (tb : Tb) (r : ServiceRecord) : List ReportKind :=
  if tb.pool.freeCount < r.stops.length then [.poolCut] else []

/-! ### Attentions (R64 to R66) -/

/-- The messages for group A on a change of cancellation (R64). -/
def cancelMessages (n : Nat) (before after : Bool) : List Message :=
  if !before && after then [.raise .a n .none]
  else if before && !after then [.release .a n]
  else []

/-- The messages for group C on a change of delay (R66). -/
def delayMessages (threshold : Nat) (n : Nat) (before after : Int) : List Message :=
  if before < threshold then
    if after < threshold then [] else [.raise .c n (.delay after.toNat)]
  else if after < threshold then [.release .c n]
  else if before = after then []
  else [.update n after.toNat]

/-- The messages of a change of a stored service that stays stored (R55, R59). -/
def changeMessages (threshold : Nat) (old new : Service) : List Message :=
  cancelMessages new.number (old.status == .cancelled) (new.status == .cancelled) ++
  (if old.platform = new.platform then [] else [.raise .b new.number (.platform new.platform)]) ++
  delayMessages threshold new.number old.delay new.delay

/-- The messages of a store (R53, R64 to R66). -/
def storeMessages (threshold : Nat) (wasRefused : Bool) (r : ServiceRecord) : List Message :=
  cancelMessages r.number false (r.status == .cancelled) ++
  (if wasRefused then [.raise .b r.number (.platform r.platform)] else []) ++
  delayMessages threshold r.number 0 (delayOf r.scheduled r.expected)

/-! ### SERVICE (R52 to R57) -/

/-- The outcomes of a SERVICE apply (section 3.6). -/
inductive ServiceOutcome where
  | stored | refused | dropped | replaced | movedOut | refreshed | older | malformed
deriving DecidableEq, Repr

/-- A service is stored into a free entry (R53). -/
def Tb.store (tb : Tb) (p : Profile) (sender : Nat) (r : ServiceRecord) : Effect :=
  { tb := { tb.write sender r with refusals := tb.refusals.erase r.number }
    messages := storeMessages p.delayThreshold (decide (r.number ∈ tb.refusals)) r
    reports := tb.cutReports r
    compose := true }

/-- A store that may have to evict (R52 (2), R54). The RELEASE-ALL of the evicted service stands before the
newcomer's messages: R67 leaves the order open, and it decides an ATTENTION_LOST where an attention list is full
and lists the evicted service (log entry 23, the model's choice). -/
def Tb.takeIn (tb : Tb) (p : Profile) (sender : Nat) (r : ServiceRecord) : Effect × ServiceOutcome :=
  if tb.services.length < Config.serviceCapacity then (tb.store p sender r, .stored)
  else
    match latestOf tb.time.minute tb.services with
    | none => (⟨tb, [], [.tableFull], false⟩, .dropped)
    | some v =>
      if laterThan (v.key tb.time.minute) v.number
          (displayKey tb.time.minute r.scheduled r.expected) r.number then
        let fx := (tb.drop v).store p sender r
        ({ fx with
            messages := .releaseAll v.number :: fx.messages
            reports := .tableFull :: fx.reports }, .stored)
      else (⟨tb, [], [.tableFull], false⟩, .dropped)

/-- A newer record replaces the entry's contents (R55). -/
def Tb.replace (tb : Tb) (p : Profile) (sender : Nat) (old : Service) (r : ServiceRecord) : Effect :=
  let freed := { tb with pool := tb.pool.give old.chain }
  { tb := freed.write sender r
    messages :=
      changeMessages p.delayThreshold old (r.entry sender (freed.pool.free.take r.stops.length))
    reports := freed.cutReports r
    compose := true }

/-- An equal edition sets mark and owner and restarts the timer (R56). -/
def Tb.refresh (tb : Tb) (sender : Nat) (old : Service) : Effect :=
  .none { tb with
    services := putService { old with mark := true, owner := sender, refresh := .running } tb.services }

/-- A well-formed SERVICE is decided by the first case that fits (R52). -/
def Tb.applyService (tb : Tb) (p : Profile) (sender : Nat) (r : ServiceRecord) : Effect × ServiceOutcome :=
  match tb.find r.number with
  | none =>
    if p.platforms.contains r.platform then tb.takeIn p sender r
    else (.none { tb with refusals := refuse r.number tb.refusals }, .refused)
  | some old =>
    if editionOlder r.edition old.edition then (.none tb, .older)
    else if !p.platforms.contains r.platform then
      let fx := tb.removal old
      ({ fx with tb := { fx.tb with refusals := refuse r.number fx.tb.refusals } }, .movedOut)
    else if editionNewer r.edition old.edition then (tb.replace p sender old r, .replaced)
    else (tb.refresh sender old, .refreshed)

/-- The outcomes that add to the sweep count (R76). -/
def ServiceOutcome.counts : ServiceOutcome → Bool
  | .stored | .replaced | .refreshed | .movedOut | .refused | .dropped => true
  | .older | .malformed => false

/-! ### The feeder table (R70 to R76) -/

/-- The entry in use of a node. -/
def Tb.feeder (tb : Tb) (node : Nat) : Option Feeder := tb.feeders.find? fun f => f.node == node

/-- The stale flag of a node's entry (R70). -/
def Tb.isStale (tb : Tb) (node : Nat) : Bool := decide (node ∈ tb.staleOrder)

/-- The entry of a node is changed by `f`. -/
def Tb.updateFeeder (tb : Tb) (node : Nat) (f : Feeder → Feeder) : Tb :=
  { tb with feeders := tb.feeders.map fun x => if x.node = node then f x else x }

/-- The starting values of a feeder entry (R72 (3)). -/
def Feeder.fresh (node : Nat) : Feeder := ⟨node, none, false, 0, 0, false, .stopped, .stopped⟩

/-- A note finds, revives, takes or reuses its feeder's entry (R72); the answer says whether it has one. -/
def Tb.learn (tb : Tb) (sender : Nat) : Tb × Bool :=
  match tb.feeder sender with
  | some _ => ({ tb with staleOrder := tb.staleOrder.erase sender }, true)
  | none =>
    if tb.feeders.length < Config.feederCapacity then
      ({ tb with feeders := tb.feeders ++ [Feeder.fresh sender] }, true)
    else
      match tb.staleOrder with
      | [] => (tb, false)
      | old :: rest =>
        ({ tb with
            feeders := tb.feeders.map (fun x => if x.node = old then Feeder.fresh sender else x)
            staleOrder := rest }, true)

/-- The sequence number is other than the expected one (R73 (3)). -/
def Feeder.gap (f : Feeder) (sequence : BitVec 8) : Bool :=
  match f.expectedSequence with
  | none => false
  | some e => decide (e ≠ sequence)

/-- A note's effect on its entry: the expected sequence, the spoiled flag, the lifetime timer (R73, R74). -/
def Feeder.noted (f : Feeder) (sequence : BitVec 8) : Feeder :=
  { f with
    expectedSequence := some (sequence + 1)
    spoiled := f.spoiled || (f.gap sequence && f.sweeping)
    lifetime := .running }

/-- A header note (R71 to R74): the tables after it and what it raises. -/
def Tb.note (tb : Tb) (sender : Nat) (sequence : BitVec 8) : Tb × List ReportKind :=
  match tb.learn sender with
  | (t, false) => (t, [.feederFull])
  | (t, true) =>
    (t.updateFeeder sender (fun f => f.noted sequence),
      match t.feeder sender with
      | none => []
      | some f => if f.gap sequence then [.seqGap] else [])

/-- A taken SERVICE adds to the sweep count of a SWEEPING sender (R76). The count holds at 65535, which
R70 says it cannot reach (log entry 15). -/
def Tb.countSweep (tb : Tb) (sender : Nat) : Tb :=
  tb.updateFeeder sender fun f => if f.sweeping then { f with count := bump f.count } else f

/-- The work of a SERVICE after its note, with the sweep count of its outcome (R51, R52, R58, R76). -/
def Tb.serviceWork (tb : Tb) (p : Profile) (sender : Nat) (body : List Byte) : Effect :=
  if serviceOk body then
    let done := tb.applyService p sender (serviceRecord body)
    if done.2.counts then { done.1 with tb := done.1.tb.countSweep sender } else done.1
  else .malformed tb

/-! ### AMEND and WITHDRAW (R59, R62) -/

/-- The entry an applied AMEND leaves, with EXPECTED turned to DELAYED where no expected time is left (R59). -/
def Amendment.entry (a : Amendment) (old : Service) : Service :=
  let status := a.status.getD old.status
  let expected := a.expected.getD old.expected
  { old with
    edition := a.edition
    platform := a.platform.getD old.platform
    expected := expected
    status := if status = .expected ∧ expected = none then .delayed else status
    refresh := .running }

/-- A well-formed AMEND (R59). -/
def Tb.applyAmend (tb : Tb) (p : Profile) (a : Amendment) : Effect :=
  match tb.find a.number with
  | none => ⟨tb, [], [.orphan], false⟩
  | some old =>
    if !editionNewer a.edition old.edition then .none tb
    else if !p.platforms.contains (a.platform.getD old.platform) then
      let fx := tb.removal old
      { fx with tb := { fx.tb with refusals := refuse a.number fx.tb.refusals } }
    else
      { tb := { tb with services := putService (a.entry old) tb.services }
        messages := changeMessages p.delayThreshold old (a.entry old)
        reports := []
        compose := true }

/-- The work of an AMEND after its note (R51, R59). -/
def Tb.amendWork (tb : Tb) (p : Profile) (body : List Byte) : Effect :=
  if amendOk body then tb.applyAmend p (amendment body) else .malformed tb

/-- The work of a WITHDRAW after its note (R51, R62). -/
def Tb.withdrawWork (tb : Tb) (body : List Byte) : Effect :=
  if withdrawOk body then
    match tb.find (num2 body 0) with
    | none => .none tb
    | some old => if editionOlder (byteAt body 2) old.edition then .none tb else tb.removal old
  else .malformed tb

/-! ### NAME (R43, R44) -/

/-- The text of a name, empty where the name is undefined (R43). -/
def nameText (names : List (Nat × Text)) (n : Nat) : Text :=
  ((names.find? fun d => d.1 == n).map (·.2)).getD []

/-- One definition written into the name table, which stays in its canonical form (R44). -/
def defineName (names : List (Nat × Text)) (d : Nat × Text) : List (Nat × Text) :=
  let others := names.filter fun e => e.1 ≠ d.1
  if d.2 = [] then others else insertBy (fun a b => decide (a.1 < b.1)) d others

/-- A NAME's definitions, taken in order (R44). -/
def Tb.applyNames (tb : Tb) (ds : List (Nat × Text)) : Effect :=
  let names := ds.foldl defineName tb.names
  ⟨{ tb with names := names }, [], [], decide (names ≠ tb.names)⟩

/-- The work of a NAME after its note (R44, R51). -/
def Tb.nameWork (tb : Tb) (body : List Byte) : Effect :=
  match nameDefinitions body with
  | none => .malformed tb
  | some ds => if ds.all definitionOk then tb.applyNames ds else .malformed tb

/-! ### Sweeps (R75, R77, R78) -/

/-- The work of a SWEEP-OPEN after its note (R75). -/
def Tb.sweepOpenWork (tb : Tb) (sender : Nat) (body : List Byte) : Effect :=
  match tb.feeder sender with
  | none => .none tb
  | some _ =>
    let opened := tb.updateFeeder sender fun f =>
      { f with sweeping := true, epoch := byteAt body 0, count := 0, spoiled := false, limit := .running }
    .none { opened with
      services := tb.services.map fun v => if v.owner = sender then { v with mark := false } else v }

/-- A feeder entry whose sweep has ended (R77 to R79). -/
def Feeder.idle (f : Feeder) : Feeder := { f with sweeping := false, spoiled := false, limit := .stopped }

/-- The services an accepted close removes (R78). -/
def Tb.unannounced (tb : Tb) (sender : Nat) : List Service :=
  tb.services.filter fun v => v.owner == sender && !v.mark

/-- An accepted SWEEP-CLOSE (R78). The freed chains join the free list in table order (log entry 15). -/
def Tb.acceptSweep (tb : Tb) (sender : Nat) : Effect :=
  let gone := tb.unannounced sender
  { tb := (gone.foldl Tb.drop tb).updateFeeder sender Feeder.idle
    messages := gone.map fun v => .releaseAll v.number
    reports := []
    compose := decide (gone ≠ []) }

/-- The work of a SWEEP-CLOSE after its note (R77). -/
def Tb.sweepCloseWork (tb : Tb) (sender : Nat) (body : List Byte) : Effect :=
  match tb.feeder sender with
  | none => .none tb
  | some f =>
    if !f.sweeping || decide (f.epoch ≠ byteAt body 0) then .none tb
    else if f.spoiled || decide (f.count ≠ num2 body 1) then
      ⟨tb.updateFeeder sender Feeder.idle, [], [.sweepSpoiled], false⟩
    else tb.acceptSweep sender

/-! ### CLOCK and tick (R82 to R84) -/

/-- The work of a CLOCK after its note (R51, R82). -/
def Tb.clockWork (tb : Tb) (body : List Byte) : Effect :=
  if clockOk body then
    let time : StationTime := ⟨some (clockSecond body), 0, 0, false, true⟩
    ⟨{ tb with time := time }, [], [], decide (tb.time.minute ≠ time.minute)⟩
  else .malformed tb

/-- The work of a header-only chain after its note (R71, R76). -/
def Tb.headerOnlyWork (tb : Tb) (sender : Nat) (kind : Option NoticeKind) : Effect :=
  if kind = some .service then .none (tb.countSweep sender) else .none tb

/-- A tick table work (R83, R84). -/
def Tb.tickWork (tb : Tb) : Effect :=
  match tb.time.second with
  | none => .none tb
  | some second =>
    if tb.time.elapsed = 0 then .none tb
    else
      let age := min Config.staleAge (tb.time.age + tb.time.elapsed)
      let turnsStale := decide (age = Config.staleAge) && !tb.time.stale
      let time : StationTime :=
        { tb.time with
          second := some ((second + tb.time.elapsed) % 86400)
          elapsed := 0
          age := age
          stale := tb.time.stale || turnsStale }
      { tb := { tb with time := time }
        messages := []
        reports := if turnsStale then [.clockStale] else []
        compose := decide (tb.time.minute ≠ time.minute) }

/-! ### Expiries (R61, R74, R79) -/

/-- A refresh table work (R61). -/
def Tb.refreshWork (tb : Tb) (n : Nat) (live : Bool) : Effect :=
  if live then
    match tb.find n with
    | none => .none tb
    | some v => tb.removal v
  else .none tb

/-- A feeder becomes stale (R74 (1)). -/
def Feeder.silent (f : Feeder) : Feeder :=
  { f with
    expectedSequence := none
    sweeping := false
    spoiled := if f.sweeping then false else f.spoiled
    lifetime := .stopped
    limit := if f.sweeping then .stopped else f.limit }

/-- A lifetime table work (R74). -/
def Tb.lifetimeWork (tb : Tb) (node : Nat) : Effect :=
  match tb.feeder node with
  | none => .none tb
  | some f =>
    if f.lifetime = .expired then
      let t := tb.updateFeeder node Feeder.silent
      .none { t with staleOrder := t.staleOrder ++ [node] }
    else .none tb

/-- A sweep limit table work (R79). -/
def Tb.sweepLimitWork (tb : Tb) (node : Nat) : Effect :=
  match tb.feeder node with
  | none => .none tb
  | some f =>
    if f.sweeping = true ∧ f.limit = .expired then
      ⟨tb.updateFeeder node Feeder.idle, [], [.sweepSpoiled], false⟩
    else .none tb

end Sys2Proof.Machine
end

