-- ==== Sys2Proof/Machine/Attentions.lean ====
section
/-! DEFINITION. The Banner Unit: attention lists, staff slots, group states and the banner line (R161 to
R175). -/

namespace Sys2Proof.Machine

/-! ### Lists and group states -/

/-- The attention list of a group; group D has none (section 8.2). -/
def Bu.list (bu : Bu) : Group → List Attention
  | .a => bu.listA
  | .b => bu.listB
  | .c => bu.listC
  | .d => []

/-- A list replaced. -/
def Bu.setList (bu : Bu) (g : Group) (l : List Attention) : Bu :=
  match g with
  | .a => { bu with listA := l }
  | .b => { bu with listB := l }
  | .c => { bu with listC := l }
  | .d => bu

/-- The state of a group (R166). -/
def Bu.group (bu : Bu) : Group → GroupState
  | .a => bu.groupA
  | .b => bu.groupB
  | .c => bu.groupC
  | .d => bu.groupD

/-- The state of a group replaced. -/
def Bu.setGroup (bu : Bu) (g : Group) (x : GroupState) : Bu :=
  match g with
  | .a => { bu with groupA := x }
  | .b => { bu with groupB := x }
  | .c => { bu with groupC := x }
  | .d => { bu with groupD := x }

/-- Slot `k` (0 for slot 1) is enabled and holds a text. -/
def Bu.slotReady (bu : Bu) (p : Profile) (k : Nat) : Bool :=
  p.slotEnabled k && (bu.slots.getD k none).isSome

/-- A group has content (R166). -/
def Bu.hasContent (bu : Bu) (p : Profile) (g : Group) : Bool :=
  p.groupEnabled g &&
  match g with
  | .a => decide (bu.listA ≠ [])
  | .b => decide (bu.listB ≠ [])
  | .c => decide (bu.listC ≠ [])
  | .d => (List.range 8).any (bu.slotReady p)

/-- A QUIET group that has content becomes REQUESTING (R166). -/
def Bu.examine (bu : Bu) (p : Profile) (g : Group) : Bu :=
  if bu.group g = .quiet ∧ bu.hasContent p g = true then bu.setGroup g .requesting else bu

/-! ### Messages of the Table Builder (R162, R163) -/

/-- The list holds an entry for the service. -/
def listed (l : List Attention) (n : Nat) : Bool := l.any fun e => e.service == n

/-- The argument of the service's entry replaced. -/
def withArgument (l : List Attention) (n : Nat) (a : Argument) : List Attention :=
  l.map fun e => if e.service = n then { e with argument := a } else e

/-- The list without the service's entry. -/
def withoutService (l : List Attention) (n : Nat) : List Attention := l.filter fun e => e.service ≠ n

/-- A RAISE (R162); the answer says that it was dropped. -/
def Bu.raise (bu : Bu) (p : Profile) (g : Group) (n : Nat) (a : Argument) : Bu × Bool :=
  if listed (bu.list g) n then (bu.setList g (withArgument (bu.list g) n a), false)
  else if (bu.list g).length < Config.attentionCapacity then
    ((bu.setList g (bu.list g ++ [⟨n, a⟩])).examine p g, false)
  else (bu, true)

/-- A RELEASE-ALL (R163 (3)). -/
def Bu.releaseAll (bu : Bu) (n : Nat) : Bu :=
  { bu with
    listA := withoutService bu.listA n
    listB := withoutService bu.listB n
    listC := withoutService bu.listC n }

/-- One message of the Table Builder (R162, R163); the answer says that a RAISE was dropped. -/
def Bu.take (bu : Bu) (p : Profile) : Message → Bu × Bool
  | .raise g n a => bu.raise p g n a
  | .update n d => ({ bu with listC := withArgument bu.listC n (.delay d) }, false)
  | .release g n => (bu.setList g (withoutService (bu.list g) n), false)
  | .releaseAll n => (bu.releaseAll n, false)

/-- The messages of one table work, with one ATTENTION_LOST for each RAISE dropped (R162 (3)). -/
def Bu.takeAll (bu : Bu) (p : Profile) : List Message → Bu × List ReportKind
  | [] => (bu, [])
  | m :: rest =>
    let one := bu.take p m
    let more := one.1.takeAll p rest
    (more.1, if one.2 then .attentionLost :: more.2 else more.2)

/-! ### Staff slots (R164) -/

/-- A well-formed STAFF fills or clears its slot (R164); slot `k` is 0 for slot 1. -/
def Bu.staff (bu : Bu) (p : Profile) (k repeats : Nat) (text : Text) : Bu :=
  if text = [] then { bu with slots := bu.slots.set k none }
  else
    let filled := { bu with slots := bu.slots.set k (some ⟨text, repeats⟩) }
    if p.slotEnabled k then filled.examine p .d else filled

/-! ### Banner texts (R173) -/

/-- The common beginning: time text, and the destination text where it is not empty (R173 (1)). -/
def bannerStart (row : ServiceRow) : Text :=
  row.time ++ if row.destination = [] then [] else codes [' '] ++ row.destination

/-- The text of a banner of group A, B or C (R173). -/
def bannerText (g : Group) (row : ServiceRow) (a : Argument) : Text :=
  bannerStart row ++
  match g, a with
  | .b, .platform p =>
    codes [' ', 'n', 'o', 'w', ' ', 'd', 'e', 'p', 'a', 'r', 't', 's', ' ', 'f', 'r', 'o', 'm', ' ',
      'p', 'l', 'a', 't', 'f', 'o', 'r', 'm', ' '] ++ platformText p
  | .c, .delay d =>
    codes [' ', 'i', 's', ' ', 'd', 'e', 'l', 'a', 'y', 'e', 'd', ' ', 'b', 'y', ' '] ++ decimal d ++
      codes [' ', 'm', 'i', 'n', 'u', 't', 'e'] ++ (if d = 1 then [] else codes ['s'])
  | _, _ => codes [' ', 'i', 's', ' ', 'c', 'a', 'n', 'c', 'e', 'l', 'l', 'e', 'd']

/-- The default text of a group (R173). -/
def defaultText : Group → Text
  | .a =>
    codes ['S', 'o', 'm', 'e', ' ', 's', 'e', 'r', 'v', 'i', 'c', 'e', 's', ' ', 'a', 'r', 'e', ' ',
      'c', 'a', 'n', 'c', 'e', 'l', 'l', 'e', 'd']
  | .b =>
    codes ['P', 'l', 'a', 't', 'f', 'o', 'r', 'm', ' ', 'a', 'l', 't', 'e', 'r', 'a', 't', 'i', 'o',
      'n', 's', ':', ' ', 'p', 'l', 'e', 'a', 's', 'e', ' ', 'c', 'h', 'e', 'c', 'k']
  | .c =>
    codes ['S', 'o', 'm', 'e', ' ', 's', 'e', 'r', 'v', 'i', 'c', 'e', 's', ' ', 'a', 'r', 'e', ' ',
      'd', 'e', 'l', 'a', 'y', 'e', 'd']
  | .d =>
    codes ['P', 'l', 'e', 'a', 's', 'e', ' ', 'l', 'i', 's', 't', 'e', 'n', ' ', 'f', 'o', 'r', ' ',
      'a', 'n', 'n', 'o', 'u', 'n', 'c', 'e', 'm', 'e', 'n', 't', 's']

/-! ### The take (R170 to R172) -/

/-- The service row of a LEAD or FOLLOW row. -/
def Row.serviceRow? : Row → Option ServiceRow
  | .lead r _ _ => some r
  | .follow r => some r
  | .blank => none
  | .phrase _ => none

/-- The LEAD and FOLLOW rows of a shown set, in row order; none where there is no shown set. -/
def shownServiceRows (shown : Option AdoptedSet) : List ServiceRow :=
  match shown with
  | none => []
  | some x => x.rows.filterMap Row.serviceRow?

/-- The entries of a list whose service stands on the shown set (R171 (1)). -/
def eligible (rows : List ServiceRow) (l : List Attention) : List Attention :=
  l.filter fun e => rows.any fun r => r.service == e.service

/-- The row a take chooses: the lowest-numbered row with an eligible entry, and that entry (R171 (2)). -/
def chooseRow (l : List Attention) : List ServiceRow → Option (ServiceRow × Attention)
  | [] => none
  | r :: rest =>
    match l.find? fun e => e.service == r.service with
    | some e => some (r, e)
    | none => chooseRow l rest

/-- The text of a take of group A, B or C, and the lists after it (R171). -/
def Bu.takeList (bu : Bu) (g : Group) (shown : Option AdoptedSet) : Bu × Text :=
  let rows := shownServiceRows shown
  let remaining := eligible rows (bu.list g)
  match chooseRow remaining rows with
  | some (r, e) => (bu.setList g (withoutService remaining e.service), bannerText g r e.argument)
  | none => (bu.setList g remaining, defaultText g)

/-- The text of a take of group D, and the slots after it (R172). -/
def Bu.takeSlot (bu : Bu) (p : Profile) : Bu × Text :=
  match (List.range 8).find? (bu.slotReady p) with
  | none => (bu, defaultText .d)
  | some k =>
    match bu.slots.getD k none with
    | none => (bu, defaultText .d)
    | some m =>
      ({ bu with
          slots := bu.slots.set k (if m.repeats ≤ 1 then none else some { m with repeats := m.repeats - 1 }) },
        m.text)

/-- The first REQUESTING group in the order A, B, C, D (R170). -/
def Bu.firstRequesting (bu : Bu) : Option Group :=
  if bu.groupA = .requesting then some .a
  else if bu.groupB = .requesting then some .b
  else if bu.groupC = .requesting then some .c
  else if bu.groupD = .requesting then some .d
  else none

/-- The text a take chooses for a group (R170 (1)). -/
def Bu.chooseText (bu : Bu) (p : Profile) (shown : Option AdoptedSet) (g : Group) : Bu × Text :=
  match g with
  | .a | .b | .c => bu.takeList g shown
  | .d => bu.takeSlot p

/-- A take at a take boundary (R170). -/
def Bu.makeTake (bu : Bu) (p : Profile) (shown : Option AdoptedSet) (takePace : Pace) : Bu :=
  match bu.firstRequesting with
  | none => bu
  | some g =>
    let chosen := bu.chooseText p shown g
    { chosen.1.setGroup g .held with
      line := .showing
      banner := some ⟨g, chosen.2, takePace, p.bannerDuration, p.bannerDuration + p.bannerGap⟩ }

/-! ### The pace step (R167 to R169) -/

/-- The step crosses a take boundary (R168). -/
def crossesBoundary (p0 p1 : Pace) : Bool := decide (64 - p0.toNat % 64 ≤ (p1 - p0).toNat)

/-- The last multiple of 64 a step passes (R168). -/
def takePaceOf (p1 : Pace) : Pace := p1 &&& 0xFFFFFFC0#32

/-- The discards at a take boundary (R165); slots are indexed from 0. -/
def Bu.discard (bu : Bu) (p : Profile) : Bu :=
  { bu with
    listA := if p.enableA then bu.listA else []
    listB := if p.enableB then bu.listB else []
    listC := if p.enableC then bu.listC else []
    slots := bu.slots.zipIdx.map fun x => if p.slotEnabled x.2 then x.1 else none }

/-- End of SHOWING (R167 (1), R169). -/
def Bu.endShowing (bu : Bu) (p : Profile) (p1 : Pace) : Bu :=
  match bu.line, bu.banner with
  | .showing, some b =>
    if b.endMark ≤ (p1 - b.takePace).toNat then
      ({ bu with line := .gap }.setGroup b.group .quiet).examine p b.group
    else bu
  | _, _ => bu

/-- End of GAP (R167 (2)). -/
def Bu.endGap (bu : Bu) (p1 : Pace) : Bu :=
  match bu.line, bu.banner with
  | .gap, some b =>
    if b.gapMark ≤ (p1 - b.takePace).toNat then { bu with line := .idle, banner := none } else bu
  | _, _ => bu

/-- The take boundary (R167 (3)). -/
def Bu.boundary (bu : Bu) (p : Profile) (shown : Option AdoptedSet) (p0 p1 : Pace) : Bu :=
  if crossesBoundary p0 p1 then
    let kept := bu.discard p
    if kept.line = .idle then kept.makeTake p shown (takePaceOf p1) else kept
  else bu

/-- A pace step taken by the Banner Unit in RUN, in the order of R167. -/
def Bu.paceStep (bu : Bu) (p : Profile) (shown : Option AdoptedSet) (p0 p1 : Pace) : Bu :=
  ((bu.endShowing p p1).endGap p1).boundary p shown p0 p1

/-- A change of the pace, handed to the Banner Unit as a pace step (R132, R167). -/
def State.changePace (s : State) (p1 : Pace) : State :=
  let t := s.setAu { s.au with pace := p1 }
  if s.sc.node = .run then t.setBu (s.bu.paceStep s.prof s.au.shown s.au.pace p1) else t

end Sys2Proof.Machine
end

