-- ==== Sys2Proof/Machine/Glyphs.lean ====
section
/-! DEFINITION. Glyphs and widths (R148, R149, R195): the fallback font and the rendering of texts. -/

namespace Sys2Proof.Machine

/-- The glyph of a code in a glyph store (R148). -/
def glyphOf (glyphs : List Glyph) (c : Byte) : Glyph := glyphs.getD (c.toNat - 0x20) ⟨0, []⟩

/-- Columns a code renders as: its glyph's width, or 3 where that is 0 (R148). -/
def codeWidth (glyphs : List Glyph) (c : Byte) : Nat :=
  if (glyphOf glyphs c).width = 0 then 3 else (glyphOf glyphs c).width

/-- The width of a text in columns (R148). -/
def textWidth (glyphs : List Glyph) (t : Text) : Nat := (t.map (codeWidth glyphs)).sum

/-- Pixel of a glyph at row `n`, column `x` (R148, R194): bit 7 is the leftmost column. -/
def Glyph.lit (g : Glyph) (n x : Nat) : Bool :=
  decide (x < g.width) && (g.rows.getD n 0).getLsbD (7 - x)

/-- Pixel of a rendered text at row `n`, column `x` (R148). -/
def textLit (glyphs : List Glyph) (n : Nat) : Text → (x : Nat) → Bool
  | [], _ => false
  | c :: rest, x =>
    if x < codeWidth glyphs c then (glyphOf glyphs c).lit n x
    else textLit glyphs n rest (x - codeWidth glyphs c)

/-- The greatest width among codes `first` to `first + count − 1`. -/
def greatestWidth (glyphs : List Glyph) (first count : Nat) : Nat :=
  ((List.range count).map fun k => codeWidth glyphs (BitVec.ofNat 8 (first + k))).foldl max 0

/-! ### Fixed texts of the board -/

def onTimeText : Text := codes ['O', 'n', ' ', 't', 'i', 'm', 'e']
def delayedText : Text := codes ['D', 'e', 'l', 'a', 'y', 'e', 'd']
def cancelledText : Text := codes ['C', 'a', 'n', 'c', 'e', 'l', 'l', 'e', 'd']
def expText : Text := codes ['E', 'x', 'p', ' ']
def noDeparturesText : Text :=
  codes ['N', 'o', ' ', 'd', 'e', 'p', 'a', 'r', 't', 'u', 'r', 'e', 's']
def startingText : Text := codes ['S', 't', 'a', 'r', 't', 'i', 'n', 'g']

/-- The layout widths of a font (R149). -/
def layoutOf (glyphs : List Glyph) : Layout :=
  let d := greatestWidth glyphs 0x30 10
  let t := 4 * d + codeWidth glyphs 0x3A
  { time := t
    status :=
      max (max (textWidth glyphs onTimeText) (textWidth glyphs delayedText))
        (max (textWidth glyphs cancelledText) (textWidth glyphs expText + t))
    platform := 2 * d + greatestWidth glyphs 0x41 4 }

/-! ### The internal fallback font (R195) -/

/-- Row `n` of the fallback glyph of a code 20H to 5FH: the space has width 4, every other glyph width 6
with its rightmost column dark. The pictures are free values (log entry 6). -/
def fallbackRow (c n : Nat) : Byte :=
  if c = 0x20 then ((Config.fallbackColumns c n).setWidth 8 <<< 3) &&& 0xF0
  else (Config.fallbackColumns c n).setWidth 8 <<< 3

/-- The fallback glyph of a code 20H to 5FH. -/
def fallbackFixed (c : Nat) : Glyph :=
  ⟨if c = 0x20 then 4 else 6, (List.range 7).map (fallbackRow c)⟩

/-- The fallback glyph of any code: 61H to 7AH render as 41H to 5AH, every other code has width 0. -/
def fallbackGlyph (c : Nat) : Glyph :=
  if 0x20 ≤ c ∧ c ≤ 0x5F then fallbackFixed c
  else if 0x61 ≤ c ∧ c ≤ 0x7A then fallbackFixed (c - 0x20)
  else ⟨0, List.replicate 7 0⟩

/-- The glyph store filled with the internal fallback font. -/
def fallbackGlyphs : List Glyph := (List.range 160).map fun k => fallbackGlyph (0x20 + k)

end Sys2Proof.Machine
end

