-- ==== Sys2Proof/Machine/Rows.lean ====
section
/-! DEFINITION. Composing the board: selection and order of services, row records, the calling line and the
digest (R97 to R112). -/

namespace Sys2Proof.Machine

/-! ### Selection and order (R97 to R99) -/

/-- A service is selected (R97). -/
def Service.selected (v : Service) (minute : Option Nat) (hideMinutes : Nat) : Bool :=
  decide (v.status ≠ .departed) &&
  match minute with
  | none => true
  | some _ => decide (-(hideMinutes : Int) ≤ v.key minute)

/-- The Composer's order: the smaller key first, equal keys by the lower service number (R98). -/
def rowBefore (minute : Option Nat) (v w : Service) : Bool :=
  decide (v.key minute < w.key minute ∨ (v.key minute = w.key minute ∧ v.number < w.number))

/-- The services of the board's rows, in row order (R97 to R99). -/
def boardServices (services : List Service) (minute : Option Nat) (hideMinutes rows : Nat) :
    List Service :=
  (sortBy (rowBefore minute) (services.filter fun v => v.selected minute hideMinutes)).take rows

/-! ### Row texts (R101 to R103) -/

/-- The destination text (R101). -/
def destinationText (names : List (Nat × Text)) (v : Service) : Text :=
  let name := nameText names v.destination
  if name = [] then []
  else
    match v.via with
    | none => name
    | some n =>
      if nameText names n = [] then name
      else name ++ codes [' ', 'v', 'i', 'a', ' '] ++ nameText names n

/-- The row met an undefined destination or via name (R110). -/
def rowMisses (names : List (Nat × Text)) (v : Service) : Bool :=
  decide (nameText names v.destination = []) ||
  match v.via with
  | none => false
  | some n => decide (nameText names n = [])

/-- The status class (R102). A DEPARTED service is not selected. -/
def statusClassOf : ServiceStatus → StatusClass
  | .onTime => .onTime
  | .expected => .late
  | .delayed => .late
  | .cancelled => .cancelled
  | .departed => .onTime

/-- The status text (R102). -/
def statusTextOf (v : Service) : Text :=
  match v.status with
  | .onTime => onTimeText
  | .expected => expText ++ hourMinute (v.expected.getD v.scheduled)
  | .delayed => delayedText
  | .cancelled => cancelledText
  | .departed => []

/-- The fields a LEAD and a FOLLOW row share (R100 to R103). -/
def serviceRowOf (p : Profile) (names : List (Nat × Text)) (v : Service) : ServiceRow where
  service := v.number
  edition := v.edition
  time := hourMinute v.scheduled
  destination := destinationText names v
  platform := if p.carriesPlatform then some (platformText v.platform) else none
  status := statusClassOf v.status
  statusText := statusTextOf v

/-! ### The calling line (R105 to R108) -/

/-- A listed stop's text, with its time where the option is set (R106). -/
def stopText (names : List (Nat × Text)) (stopTimes : Bool) (x : StopCell) : Text :=
  nameText names x.name ++
  match x.time, stopTimes with
  | some m, true => codes [' ', '('] ++ hourMinute m ++ codes [')']
  | _, _ => []

/-- Some stop of the list has a defined name. -/
def someListed (names : List (Nat × Text)) (l : List StopCell) : Bool :=
  l.any fun x => decide (nameText names x.name ≠ [])

/-- What reading the chain gives: the texts of the stops written, whether the line ran out of room, and
whether an undefined name was met (R105 to R107, R110). -/
structure Listing where
  items : List Text
  room : Bool
  miss : Bool
deriving DecidableEq, Repr

/-- The columns of code the separator before the next stop takes (R106, R107). -/
def separatorLength (first lastListed cut : Bool) : Nat :=
  if first then 0 else if lastListed && !cut then 5 else 2

/-- The stops of a chain, read in calling order; `used` codes are already written (R105 to R107). -/
def listStops (names : List (Nat × Text)) (stopTimes cut : Bool) :
    (used : Nat) → (first : Bool) → List StopCell → Listing
  | _, _, [] => ⟨[], false, false⟩
  | used, first, x :: rest =>
    if nameText names x.name = [] then
      { listStops names stopTimes cut used first rest with miss := true }
    else
      let item := stopText names stopTimes x
      let length := used + separatorLength first (!someListed names rest) cut + item.length
      if 1500 < length then ⟨[], true, false⟩
      else
        let more := listStops names stopTimes cut length false rest
        { more with items := item :: more.items }

def callingAtText : Text := codes ['C', 'a', 'l', 'l', 'i', 'n', 'g', ' ', 'a', 't', ' ']
def commaText : Text := codes [',', ' ']
def andText : Text := codes [' ', 'a', 'n', 'd', ' ']

/-- The items of a whole stop part: separated by commas, the last two by "and" (R106). -/
def joinListed : List Text → Text
  | [] => []
  | [x] => x
  | [x, y] => x ++ andText ++ y
  | x :: y :: z :: rest => x ++ commaText ++ joinListed (y :: z :: rest)

/-- The stop part, and the text that goes before a coach sentence after it (R106 to R108). -/
def stopPart (cut : Bool) (l : Listing) : Text × Text :=
  if cut || l.room then
    (callingAtText ++
      (match l.items with
        | [] => codes ['.', '.', '.']
        | _ :: _ => joinTexts commaText l.items ++ codes [',', ' ', '.', '.', '.']),
      codes [' '])
  else
    match l.items with
    | [] => ([], [])
    | [x] => (callingAtText ++ x ++ codes [' ', 'o', 'n', 'l', 'y'], codes ['.', ' '])
    | x :: y :: rest => (callingAtText ++ joinListed (x :: y :: rest), codes ['.', ' '])

/-- The coach sentence (R108). -/
def coachSentence (n : Nat) : Text :=
  codes ['T', 'h', 'i', 's', ' ', 't', 'r', 'a', 'i', 'n', ' ', 'h', 'a', 's', ' '] ++ decimal n ++
    codes [' ', 'c', 'o', 'a', 'c', 'h'] ++ (if n = 1 then [] else codes ['e', 's']) ++ codes ['.']

/-- "This service is cancelled" (R105 (1)). -/
def serviceCancelledText : Text :=
  codes ['T', 'h', 'i', 's', ' ', 's', 'e', 'r', 'v', 'i', 'c', 'e', ' ', 'i', 's', ' ', 'c', 'a',
    'n', 'c', 'e', 'l', 'l', 'e', 'd']

/-- The cells of a service's calling chain, in calling order (R41). -/
def StopPool.stops (p : StopPool) (v : Service) : List StopCell :=
  v.chain.map fun c => p.cells.getD c ⟨0, none⟩

/-- The calling line of the lead service, and whether it met an undefined stop name (R105 to R108). -/
def callingLine (p : Profile) (tb : Tb) (v : Service) : Text × Bool :=
  if v.status = .cancelled then (serviceCancelledText, false)
  else
    let l := listStops tb.names p.stopTimes v.cut callingAtText.length true (tb.pool.stops v)
    let part := stopPart v.cut l
    (part.1 ++
      (match v.coaches with
        | none => []
        | some n => part.2 ++ coachSentence n),
      l.miss)

/-! ### The working set (R99, R100, R104, R110) -/

/-- The rows a pass builds, and whether it met an undefined name (R99 to R110). -/
def buildRows (p : Profile) (rowCount : Nat) (tb : Tb) (width : Text → Nat) : List Row × Bool :=
  match boardServices tb.services tb.time.minute p.hideMinutes rowCount with
  | [] => (.phrase noDeparturesText :: List.replicate (rowCount - 1) .blank, false)
  | v :: rest =>
    let line := callingLine p tb v
    (.lead (serviceRowOf p tb.names v) line.1 (width line.1) ::
        rest.map (fun w => .follow (serviceRowOf p tb.names w)) ++
        List.replicate (rowCount - 1 - rest.length) .blank,
      (v :: rest).any (rowMisses tb.names) || line.2)

/-! ### The digest (R111, R112) -/

/-- A text as a length byte and its codes. -/
def textBytes (t : Text) : List Byte := BitVec.ofNat 8 t.length :: t

/-- The code of a status class (R111). -/
def StatusClass.code : StatusClass → Byte
  | .onTime => 0
  | .late => 1
  | .cancelled => 2

/-- The bytes LEAD and FOLLOW rows share (R111). -/
def ServiceRow.digestBytes (r : ServiceRow) : List Byte :=
  toLe 2 r.service ++ [r.edition, r.status.code] ++ textBytes r.time ++ textBytes r.destination ++
    textBytes (r.platform.getD []) ++ textBytes r.statusText

/-- The bytes of one row (R111). -/
def Row.digestBytes : Row → List Byte
  | .blank => [0x00]
  | .lead r calling _ => 0x01 :: r.digestBytes ++ toLe 2 calling.length ++ calling
  | .follow r => 0x02 :: r.digestBytes
  | .phrase t => 0x03 :: textBytes t

/-- The digest sequence of a set of rows on a board shape (R111). -/
def digestSequence (rowCount boardWidth segmentCount : Nat) (rows : List Row) : List Byte :=
  [BitVec.ofNat 8 rowCount] ++ toLe 2 boardWidth ++ [BitVec.ofNat 8 segmentCount] ++
    rows.flatMap Row.digestBytes

/-- The digest of a set of rows (R112). -/
def digestOf (rowCount boardWidth segmentCount : Nat) (rows : List Row) : Digest :=
  crcValue (digestSequence rowCount boardWidth segmentCount rows)

/-- The calling line width of the lead row, 0 where row 1 is no LEAD row (R134). -/
def callingWidthOf (rows : List Row) : Nat :=
  match rows with
  | .lead _ _ width :: _ => width
  | _ => 0

end Sys2Proof.Machine
end

