-- ==== Sys2Proof/Machine/Agreement.lean ====
section
/-! DEFINITION. The Agreement Unit: peers, adoption, agreement, the pace and the marquee position (R115 to
R134). -/

namespace Sys2Proof.Machine

/-! ### Peers (R115, R117, R119) -/

/-- The peer entry of a segment index. -/
def Au.peer (au : Au) (i : Nat) : Peer := au.peers.getD i .absent

/-- An index is that of a peer: not the own one, below the segment count (R115). -/
def Profile.isPeer (p : Profile) (i : Nat) : Bool :=
  decide (i ≠ p.segmentIndex ∧ i < p.segmentCount)

/-- The last digest of a considered peer (R115). -/
def Au.considered (au : Au) (p : Profile) (i : Nat) : Option Digest :=
  if p.isPeer i && (au.peer i).live then (au.peer i).digest else none

/-- Every considered peer holds a digest (R119, R127). -/
def Au.allHold (au : Au) (p : Profile) (d : Digest) : Bool :=
  (List.range 8).all fun i =>
    match au.considered p i with
    | none => true
    | some e => decide (e = d)

/-- The evaluation of agreement (R119). -/
def Au.evaluation (au : Au) (p : Profile) : AgreementState :=
  match au.shownDigest with
  | none => .agreed
  | some d => if au.allHold p d then .agreed else .diverged

/-- The agreement state becomes `x`; an entry into DIVERGED raises AGREE_DIVERGED (R119). -/
def State.setAgreement (s : State) (x : AgreementState) : State :=
  let t := s.setAu { s.au with agreement := x }
  if x = .diverged ∧ s.au.agreement ≠ .diverged then t.raise .agreeDiverged else t

/-! ### Adoption (R120, R121) -/

/-- The set an adoption places in the swap buffer (R120). -/
def ComposedSet.adopt (c : ComposedSet) (origin : Pace) : AdoptedSet where
  rows := c.rows
  digest := c.digest
  rowCount := c.rowCount
  boardWidth := c.boardWidth
  callingWidth := callingWidthOf c.rows
  origin := origin

/-- An adoption of the current composed set with an origin (R120). -/
def State.adopt (s : State) (origin : Pace) : State :=
  match s.co.composed with
  | none => s
  | some c =>
    (s.setAu { s.au with
        swapBuffer := some (c.adopt origin)
        shownDigest := some c.digest }).setPa
      { s.pa with swapPending := true }

/-- The candidate for the origin at a segment index (R121 (1)). -/
def Au.candidate (au : Au) (p : Profile) (i : Nat) : Option Pace :=
  if i = p.segmentIndex then au.ownProposal
  else if (au.considered p i).isSome then (au.peer i).origin
  else none

/-- The running choice over candidates in index order (R121 (1)). -/
def chooseOrigin : (choice : Option Pace) → List Pace → Option Pace
  | choice, [] => choice
  | none, c :: rest => chooseOrigin (some c) rest
  | some r, c :: rest => chooseOrigin (some (if paceAhead c r then c else r)) rest

/-- The origin of an adoption on agreement (R121 (1)). -/
def Au.agreedOrigin (au : Au) (p : Profile) : Pace :=
  (chooseOrigin none ((List.range 8).filterMap (au.candidate p))).getD 0

/-- The origin of an adoption with the own proposal alone (R121 (2), (3)). -/
def Au.ownOrigin (au : Au) : Pace := au.ownProposal.getD 0

/-! ### The agreement rules (R125 to R129) -/

/-- The check for adoption in PENDING (R127). -/
def State.checkAdoption (s : State) : State :=
  if s.au.agreement = .pending ∧ s.au.allHold s.prof (s.au.composedDigest.getD 0) = true then
    let t := s.adopt (s.au.agreedOrigin s.prof)
    t.setAu { t.au with agreement := .agreed, agreementTimer := false }
  else s

/-- A move from AGREED to DIVERGED is deferred: a compose is requested or a pass is in flight (R129). -/
def Co.busy (co : Co) : Bool := co.request || decide (co.pass ≠ .idle)

/-- The agreement rule after an update by a DIGEST in RUN (R117, R127, R129). -/
def State.agreementAfterDigest (s : State) : State :=
  match s.au.agreement with
  | .empty => s
  | .pending => s.checkAdoption
  | .agreed =>
    if s.au.evaluation s.prof = .diverged ∧ s.co.busy = true then s
    else s.setAgreement (s.au.evaluation s.prof)
  | .diverged => s.setAgreement (s.au.evaluation s.prof)

/-- The agreement rule after a peer expiry in RUN; AGREED stays AGREED (R118, R127, R129). -/
def State.agreementAfterExpiry (s : State) : State :=
  match s.au.agreement with
  | .empty => s
  | .pending => s.checkAdoption
  | .agreed => s
  | .diverged => s.setAgreement (s.au.evaluation s.prof)

/-- The agreement rule of a compose completion in RUN with one segment (R126). -/
def State.agreeAlone (s : State) (digest : Digest) : State :=
  if s.au.agreement = .empty ∨ s.au.shownDigest ≠ some digest then
    let t := s.adopt s.au.ownOrigin
    t.setAu { t.au with agreement := .agreed }
  else s

/-- The agreement rule of a compose completion in RUN with 2 to 8 segments (R125). -/
def State.agreeWithPeers (s : State) (digest : Digest) : State :=
  match s.au.agreement with
  | .pending =>
    if s.au.shownDigest = some digest then
      (s.setAu { s.au with agreementTimer := false }).setAgreement (s.au.evaluation s.prof)
    else s.checkAdoption
  | .empty =>
    (s.setAu { s.au with agreement := .pending, agreementTimer := true }).checkAdoption
  | .agreed | .diverged =>
    if s.au.shownDigest = some digest then s.setAgreement (s.au.evaluation s.prof)
    else (s.setAu { s.au with agreement := .pending, agreementTimer := true }).checkAdoption

/-- A compose completion taken by the Agreement Unit in RUN (R124 to R126). -/
def State.takeCompletion (s : State) (c : ComposedSet) : State :=
  let proposal := s.au.pace + BitVec.ofNat 32 s.prof.leadIn
  let t := s.setAu { s.au with composedDigest := some c.digest, ownProposal := some proposal }
  let u := t.offer (.digest s.prof.segmentIndex c.number c.digest proposal c.rowCount c.boardWidth)
  if s.prof.segmentCount = 1 then u.agreeAlone c.digest else u.agreeWithPeers c.digest

/-! ### Board notices (R116, R117, R131) -/

/-- The notice's pace is taken where it is ahead of the own pace (R131). -/
def State.adoptPace (s : State) (q : Pace) : State :=
  if paceAhead q s.au.pace then s.changePace q else s

/-- A notice from `sender` at segment index `i` is a segment clash (R116). -/
def State.isClash (s : State) (i sender : Nat) : Bool :=
  decide (s.prof.segmentCount ≤ i ∨ i = s.prof.segmentIndex ∨
    ((s.au.peer i).live = true ∧ (s.au.peer i).node ≠ some sender))

/-- The update of the peer entry by a well-formed notice (R117). -/
def Peer.update (q : Peer) (sender : Nat) (digest : Option (Digest × Pace)) : Peer :=
  match digest with
  | none => { q with live := true, node := some sender }
  | some x => ⟨true, some sender, some x.1, some x.2⟩

/-- The digest and proposed origin of a DIGEST body (R11). -/
def digestFields (body : List Byte) : Digest × Pace :=
  (BitVec.ofNat 16 (num2 body 7), paceAt body 9)

/-- Steps (2) to (4) of R116 for a notice whose pace has been taken. -/
def State.judgeBoardNotice (s : State) (k : NoticeKind) (sender : Nat) (body : List Byte) : State :=
  if !boardNoticeOk k body then s.raise .lineCrc
  else if s.isClash (num1 body 0) sender then s.raise .segmentClash
  else
    let fields := if k = .digest then some (digestFields body) else none
    let t := s.setAu { s.au with
      peers := s.au.peers.set (num1 body 0) ((s.au.peer (num1 body 0)).update sender fields) }
    if k = .digest ∧ s.sc.node = .run then t.agreementAfterDigest else t

/-- The delivery of a DIGEST, PACE or STATUS to the Agreement Unit (R116). -/
def State.takeBoardNotice (s : State) (k : NoticeKind) (c : Chain) : State :=
  ((s.adoptPace (paceAt c.body 1)).judgeBoardNotice k c.sender c.body).completeNotice

/-! ### The marquee position (R134) -/

/-- The column of a line `l` columns wide that board column `x` shows, on a board `b` columns wide, with
origin `o` at pace `p` (R134). -/
def marqueeColumn (b l : Nat) (o p : Pace) (x : Nat) : Option Nat :=
  if l ≤ b then if x < l then some x else none
  else
    let shift := if paceAhead p o then (b + (p - o).toNat) % (l + b) else b
    if b ≤ x + shift ∧ x + shift - b < l then some (x + shift - b) else none

end Sys2Proof.Machine
end

