-- ==== Sys2Proof/Machine/Painting.lean ====
section
/-! DEFINITION. The Painter: the geometry check, the frame sample and the colour of every pixel (R139 to
R156). -/

namespace Sys2Proof.Machine

/-! ### Geometry (R139) -/

/-- The greatest row count from `r` down to 2 for which (R + 2) × h lines fit (R139 (1), (2)). -/
def fitRows (h available : Nat) : (r : Nat) → Option Nat
  | 0 => none
  | r + 1 =>
    if r + 1 < 2 then none
    else if (r + 3) * h ≤ available then some (r + 1)
    else fitRows h available r

/-- Panel lines available to the board (R139). -/
def Geometry.available (g : Geometry) : Nat := g.panelLines - g.topLine

/-- The geometry check: the geometry in force and the geometry-cut mark (R139). -/
def geometryCheck (g : Geometry) (h : Nat) : Geometry × Bool :=
  match fitRows h g.available g.rowCount with
  | some r => ({ g with rowCount := r }, decide (r ≠ g.rowCount))
  | none =>
    match fitRows h defaultGeometry.available defaultGeometry.rowCount with
    | some r => ({ defaultGeometry with rowCount := r }, true)
    | none => (defaultGeometry, true)

/-! ### Classes (R150) -/

/-- The nine classes of text (R150). -/
inductive TextClass where
  | text | time | onTime | late | cancelled | calling | banner | clock | clockStale
deriving DecidableEq, Repr

/-- The place of a class in the class map (R191). -/
def TextClass.number : TextClass → Nat
  | .text => 0
  | .time => 1
  | .onTime => 2
  | .late => 3
  | .cancelled => 4
  | .calling => 5
  | .banner => 6
  | .clock => 7
  | .clockStale => 8

/-- The class of a row's status field (R102). -/
def StatusClass.textClass : StatusClass → TextClass
  | .onTime => .onTime
  | .late => .late
  | .cancelled => .cancelled

/-- What painting reads beside the sample: fixed from the end of LOAD. -/
structure Brush where
  geometry : Geometry
  height : Nat
  glyphs : List Glyph
  layout : Layout
  palette : List Colour
  classMap : List Nat
  segmentIndex : Nat
  boardWidth : Nat
  carriesPlatform : Bool
deriving DecidableEq, Repr

/-- The brush of the part. -/
def State.brush (s : State) : Brush where
  geometry := s.geometry
  height := s.pa.fontHeight.getD 7
  glyphs := s.pa.glyphs
  layout := s.pa.layout.getD ⟨0, 0, 0⟩
  palette := s.pa.palette
  classMap := s.pa.classMap
  segmentIndex := s.prof.segmentIndex
  boardWidth := s.boardWidth
  carriesPlatform := s.prof.carriesPlatform

/-- The colour of a class (R150). -/
def Brush.colour (k : Brush) (c : TextClass) : Colour :=
  k.palette.getD (k.classMap.getD c.number 0) 0

/-- A pixel of a text in a class: its colour where lit, dark elsewhere (R150). -/
def Brush.ink (k : Brush) (c : TextClass) (t : Text) (n x : Nat) : Colour :=
  if textLit k.glyphs n t x then k.colour c else 0

/-! ### Fields of a row (R151, R152) -/

/-- The codes of a destination that fit: those whose glyphs end at or before the last column E, from
column `x` on; `reserve` is the number of board columns right of E (R152). -/
def fitText (k : Brush) (reserve : Nat) : (x : Nat) → Text → Text
  | _, [] => []
  | x, c :: rest =>
    if x + codeWidth k.glyphs c + reserve ≤ k.boardWidth then
      c :: fitText k reserve (x + codeWidth k.glyphs c) rest
    else []

/-- Board columns right of the destination field's last column E (R152). -/
def Brush.reserve (k : Brush) : Nat :=
  if k.carriesPlatform then k.layout.status + k.layout.platform + 8 else k.layout.status + 4

/-- The destination field of a text: what of it is painted (R152). -/
def Brush.destination (k : Brush) (t : Text) : Text := fitText k k.reserve (k.layout.time + 4) t

/-- The pixel of the destination field, if board column `x` belongs to it (R151 (2), R152). -/
def Brush.destinationPixel (k : Brush) (t : Text) (n x : Nat) : Option Colour :=
  let kept := k.destination t
  if k.layout.time + 4 ≤ x ∧ x < k.layout.time + 4 + textWidth k.glyphs kept then
    some (k.ink .text kept n (x - (k.layout.time + 4)))
  else none

/-- The pixel of a right-aligned text whose last column is B − 1 − `margin`, if `x` belongs to it (R151
(3), (4)). -/
def Brush.rightPixel (k : Brush) (c : TextClass) (margin : Nat) (t : Text) (n x : Nat) : Option Colour :=
  let w := textWidth k.glyphs t
  if x + margin < k.boardWidth ∧ k.boardWidth ≤ x + margin + w then
    some (k.ink c t n (x + margin + w - k.boardWidth))
  else none

/-- A pixel of a LEAD or FOLLOW row; a column belongs to the first field that reaches it, in the order
status, platform, time, destination (R151). -/
def Brush.rowPixel (k : Brush) (r : ServiceRow) (n x : Nat) : Colour :=
  match k.rightPixel r.status.textClass 0 r.statusText n x with
  | some c => c
  | none =>
    match r.platform.bind (fun t => k.rightPixel .text (k.layout.status + 4) t n x) with
    | some c => c
    | none =>
      if x < textWidth k.glyphs r.time then k.ink .time r.time n x
      else (k.destinationPixel r.destination n x).getD 0

/-- A pixel of a row on its first text line (R151, R152). -/
def Brush.firstLine (k : Brush) (row : Row) (n x : Nat) : Colour :=
  match row with
  | .blank => 0
  | .phrase t => (k.destinationPixel t n x).getD 0
  | .follow r => k.rowPixel r n x
  | .lead r _ _ => k.rowPixel r n x

/-- A pixel of the calling line on text line 1 (R153). -/
def Brush.callingPixel (k : Brush) (shown : AdoptedSet) (pace : Pace) (n x : Nat) : Colour :=
  match shown.rows with
  | .lead _ calling _ :: _ =>
    match marqueeColumn shown.boardWidth shown.callingWidth shown.origin pace x with
    | some column => k.ink .calling calling n column
    | none => 0
  | _ => 0

/-! ### The bottom line (R154 to R156) -/

/-- A pixel of a centred text (R155). -/
def Brush.centredPixel (k : Brush) (c : TextClass) (t : Text) (n x : Nat) : Colour :=
  let w := textWidth k.glyphs t
  let start := (k.boardWidth - w) / 2
  if start ≤ x ∧ x < start + w then k.ink c t n (x - start) else 0

/-- A pixel of a banner (R156). -/
def Brush.bannerPixel (k : Brush) (t : Text) (takePace pace : Pace) (n x : Nat) : Colour :=
  let w := textWidth k.glyphs t
  if w ≤ k.boardWidth then k.centredPixel .banner t n x
  else
    match marqueeColumn k.boardWidth w takePace pace x with
    | some column => k.ink .banner t n column
    | none => 0

/-- A pixel of the bottom line (R154). -/
def Brush.bottomPixel (k : Brush) (f : FrameSample) (n x : Nat) : Colour :=
  match f.node with
  | .run =>
    match f.banner with
    | some b => k.bannerPixel b.1 b.2 f.pace n x
    | none =>
      match f.second with
      | none => 0
      | some second =>
        k.centredPixel (if f.stale then .clockStale else .clock) (hourMinuteSecond second) n x
  | _ => k.centredPixel .text startingText n x

/-! ### The whole panel (R141, R142, R145, R147) -/

/-- A pixel of text line `j` at glyph row `n` and board column `x` (R141, R145). -/
def Brush.linePixel (k : Brush) (f : FrameSample) (j n x : Nat) : Colour :=
  if j = k.geometry.rowCount + 1 then k.bottomPixel f n x
  else
    match f.node, f.shown with
    | .run, some shown =>
      if j = 0 then k.firstLine (shown.rows.getD 0 .blank) n x
      else if j = 1 then k.callingPixel shown f.pace n x
      else k.firstLine (shown.rows.getD (j - 1) .blank) n x
    | _, _ => 0

/-- The colour of the pixel at a panel line and a panel column (R141, R142). -/
def Brush.pixel (k : Brush) (f : FrameSample) (line column : Nat) : Colour :=
  let g := k.geometry
  if g.topLine ≤ line ∧ line < g.topLine + (g.rowCount + 2) * k.height ∧
      g.windowBegin ≤ column ∧ column ≤ g.windowEnd then
    k.linePixel f ((line - g.topLine) / k.height) ((line - g.topLine) % k.height)
      (k.segmentIndex * g.windowWidth + (column - g.windowBegin))
  else 0

/-- A panel line as it leaves the panel port (R147). R147 has PHF select the half and gives no level: that it is
active for lines 32 to 63 and inactive for lines 0 to 31 is log entry 27, the model's choice. -/
def Brush.panelLine (k : Brush) (f : FrameSample) (line : Nat) : PanelLine where
  half := decide (32 ≤ line)
  line := BitVec.ofNat 5 line
  pixels := (List.range k.geometry.panelWidth).map (k.pixel f line)

/-- The panel port output of a frame: line 0 first, PEN/ active for the brightness in sixteenths (R147). -/
def Brush.paint (k : Brush) (f : FrameSample) : PanelOutput where
  lines := (List.range k.geometry.panelLines).map (k.panelLine f)
  duty := f.brightness

/-! ### The frame start (R122, R144) -/

/-- The swap (R122, R144 (1)). -/
def State.swap (s : State) : State :=
  if s.pa.swapPending then
    (s.setAu { s.au with shown := s.au.swapBuffer, swapBuffer := none }).setPa
      { s.pa with swapPending := false }
  else s

/-- The banner in force where it is SHOWING (R144 (2) (e)). -/
def Bu.showing (bu : Bu) : Option (Text × Pace) :=
  match bu.line, bu.banner with
  | .showing, some b => some (b.text, b.takePace)
  | _, _ => none

/-- The frame sample taken now (R144 (2)). -/
def State.sampleNow (s : State) : FrameSample where
  node := s.sc.node
  shown := s.au.shown
  pace := s.au.pace
  second := s.tb.time.second
  stale := s.tb.time.stale
  banner := s.bu.showing
  brightness := s.pa.brightness.getD 0

/-- The sample is taken and the frame is painted from it (R144 (2), (3), R147). -/
def State.sampleAndPaint (s : State) : State :=
  s.setPa { s.pa with
    sample := some s.sampleNow
    paint := .painting
    panel := some (s.brush.paint s.sampleNow) }

/-- A frame start (R144). -/
def State.frameStart (s : State) : State := s.swap.sampleAndPaint

end Sys2Proof.Machine
end

