-- ==== Sys2Proof/Machine/Startup.lean ====
section
/-! DEFINITION. The Start-up Control: LOAD and its end, the entries to LISTEN and RUN, and what each block
holds after a cold reset and after a warm restart (R37, R38, R188 to R198). -/

namespace Sys2Proof.Machine

/-! ### The font (R194, R195) -/

/-- The font header passes (R195). -/
def fontHeaderOk (bytes : List Byte) : Bool :=
  decide (7 ≤ num1 bytes 0 ∧ num1 bytes 0 ≤ 16) && decide (num1 bytes 1 = 0x20) &&
  decide (num1 bytes 2 = 160) && decide (num1 bytes 3 = 0)

/-- The bytes a font of height `h` takes (R194). -/
def fontSize (h : Nat) : Nat := 4 + 160 * (1 + h) + 2

/-- The glyph record number `k` of font bytes of height `h` (R194). -/
def glyphRecord (bytes : List Byte) (h k : Nat) : Glyph :=
  ⟨num1 bytes (4 + k * (1 + h)), (bytes.drop (5 + k * (1 + h))).take h⟩

/-- A row byte is 0 to the right of the width (R194). -/
def rowByteOk (width : Nat) (row : Byte) : Bool := decide (row <<< width = 0)

/-- A glyph record is in range (R195). -/
def glyphOk (g : Glyph) : Bool := decide (g.width ≤ 8) && g.rows.all (rowByteOk g.width)

/-- The glyphs of a whole font. -/
def fontGlyphs (bytes : List Byte) (h : Nat) : List Glyph := (List.range 160).map (glyphRecord bytes h)

/-- A whole font passes (R195). -/
def fontPasses (bytes : List Byte) : Bool :=
  let h := num1 bytes 0
  let size := fontSize h
  fontHeaderOk bytes && (fontGlyphs bytes h).all glyphOk &&
  decide (num2 bytes (size - 2) = (crcValue (bytes.take (size - 2))).toNat)

/-- Whole glyph records among the font bytes read so far: each is written into the glyph store as it is
read (R195). -/
def recordsRead (bytes : List Byte) : List Glyph :=
  (List.range (min 160 ((bytes.length - 4) / (1 + num1 bytes 0)))).map (glyphRecord bytes (num1 bytes 0))

/-! ### Entry to LISTEN (R15, R137, R143, R196) -/

/-- The receiver enters DISCARD (R15, R16). -/
def Receiver.toDiscard (r : Receiver) : Receiver := { r with state := .discard, ones := 0 }

/-- The geometry check made at the end of LOAD (R139). -/
def State.loadCheck (s : State) : Geometry × Bool :=
  geometryCheck s.prof.geometry (s.pa.fontHeight.getD 7)

/-- The blocks take up the profile and the font, and the start-up marks are set (R196 (1), (2)). -/
def State.takeUp (s : State) : State :=
  let check := s.loadCheck
  (s.setPa { s.pa with
      geometry := some check.1
      geometryCut := check.2
      layout := some (layoutOf s.pa.glyphs)
      palette := s.prof.palette
      classMap := s.prof.classMap
      brightness := some s.prof.brightness }).setRu
    { s.ru with marks :=
        { s.ru.marks with
          profileDefault := decide (s.sc.profileSource = some .builtIn)
          fontFallback := decide (s.sc.fontSource = some .builtIn)
          geometryCut := check.2 } }

/-- The node state becomes LISTEN, with the timers and the receiver started (R15, R137, R143, R196 (3)). -/
def State.enterListen (s : State) : State :=
  { s with
    sc := { s.sc with node := .listen, listenTimer := true, loadPosition := none }
    lc := { s.lc with receiver := s.lc.receiver.toDiscard }
    au := { s.au with paceTimer := true }
    pa := { s.pa with frameTimer := true } }

/-- End of LOAD (R196), with the frame event that comes at once (R143). -/
def State.endLoad (s : State) : State := s.takeUp.enterListen.frameStart

/-! ### The reads of LOAD (R189, R190, R192, R195) -/

/-- The built-in default profile is in force (R192, R193). -/
def State.useDefaultProfile (s : State) : State :=
  s.setSc { s.sc with profile := some defaultProfile, profileSource := some .builtIn }

/-- The internal fallback font is in the glyph store (R195). -/
def State.useFallbackFont (s : State) : State :=
  (s.setPa { s.pa with fontHeight := some 7, glyphs := fallbackGlyphs }).setSc
    { s.sc with fontSource := some .builtIn }

/-- The font read has failed: the fallback font, and the end of LOAD (R190, R195). -/
def State.fontFails (s : State) : State := s.useFallbackFont.endLoad

/-- The font read has passed: the font stands in the glyph store, and LOAD ends (R195). -/
def State.fontStands (s : State) (bytes : List Byte) : State :=
  ((s.setPa { s.pa with
      fontHeight := some (num1 bytes 0)
      glyphs := fontGlyphs bytes (num1 bytes 0) }).setSc
    { s.sc with fontSource := some .read, fontBytes := bytes }).endLoad

/-- The first glyph port address of the font (R190). -/
def fontBase : Nat := 0x40

/-- The font read begins (R190 (2)). -/
def State.beginFont (s : State) : State := s.setSc { s.sc with loadPosition := some fontBase }

/-- The profile read has ended with the 64th byte: the block is examined, and the font read begins (R192). -/
def State.endProfile (s : State) (block : List Byte) : State :=
  (if blockPasses block then
    s.setSc { s.sc with
      profileBytes := block
      profile := some (profileOfBlock block)
      profileSource := some .read }
  else s.useDefaultProfile).beginFont

/-- A profile byte is read (R190 (1), R192). -/
def State.readProfileByte (s : State) (a : Nat) (b : Byte) : State :=
  let block := s.sc.profileBytes ++ [b]
  if a + 1 = fontBase then s.endProfile block
  else s.setSc { s.sc with profileBytes := block, loadPosition := some (a + 1) }

/-- A font byte is read: the header is judged at its 4th byte, the font at its last (R190 (2), R195). -/
def State.readFontByte (s : State) (a : Nat) (b : Byte) : State :=
  let bytes := s.sc.fontBytes ++ [b]
  if bytes.length = 4 ∧ fontHeaderOk bytes = false then s.fontFails
  else if 4 ≤ bytes.length ∧ bytes.length = fontSize (num1 bytes 0) then
    if fontPasses bytes then s.fontStands bytes else s.fontFails
  else
    (s.setPa { s.pa with glyphs := recordsRead bytes }).setSc
      { s.sc with fontBytes := bytes, loadPosition := some (a + 1) }

/-! ### Entry to RUN (R185, R186, R197) -/

/-- The kinds raised from the start-up marks but GEOMETRY_CUT (R186). -/
def StartMarks.kinds (m : StartMarks) : List ReportKind :=
  (if m.profileDefault then [.profileDefault] else []) ++
  (if m.fontFallback then [.fontFallback] else []) ++
  (if m.restarted then [.restarted] else [])

/-- The start-up kinds are raised and the marks clear (R186). -/
def State.raiseStartKinds (s : State) : State :=
  let t := s.ru.marks.kinds.foldl State.count s
  let u := if s.ru.marks.geometryCut then t.countGeometryCut else t
  u.setRu { u.ru with marks := .clear }

/-- Interval timer `i` starts at the entry to RUN where a kind bound to it is pending (R185). -/
def State.startInterval (s : State) (i : Nat) : State :=
  if s.maySend = true ∧ s.ru.pending &&& s.prof.boundTo i ≠ 0 then
    s.setRu { s.ru with timers := s.ru.timers.set i true }
  else s

/-- The interval timers that start together at the entry to RUN (R185). -/
def State.startIntervals (s : State) : State := ((s.startInterval 0).startInterval 1).startInterval 2

/-- The Report Unit at the entry to RUN: the start-up kinds with the expiries of the intervals of length 0 they
start, then the interval timers of kinds still pending with theirs (R181, R185, R186; log entry 9). -/
def State.reportsAtRun (s : State) : State := s.raiseStartKinds.expireZeros.startIntervals.expireZeros

/-- Entry to RUN (R197). -/
def State.enterRun (s : State) : State :=
  let t := { s with
    sc := { s.sc with node := .run, listenTimer := false }
    co := { s.co with request := true }
    au := { s.au with beaconTimer := true, sent := false } }
  t.reportsAtRun.askWindow

/-! ### Cold reset (R188) -/

/-- Every block at its cold-reset values; the queue of commands and the free counter are no part of the
hardware and stay (R188). -/
def State.coldReset (s : State) : State :=
  { State.reset with pending := s.pending, freeCounter := s.freeCounter }

/-! ### Warm restart (R198) -/

/-- R38: the Line Controller. -/
def Lc.restart (lc : Lc) : Lc where
  receiver := { lc.receiver.toDiscard with headerRegister := .cleared }
  fifo := []
  ring := ⟨lc.ring.fillPosition, none, [], none⟩
  queue := []
  transmitter := .reset
  watch := .reset

/-- R138: the Agreement Unit. -/
def Au.restart : Au := { Au.reset with paceTimer := true }

/-- R146, R158, R160: the Painter. -/
def Pa.restart (pa : Pa) (brightness : Nat) : Pa :=
  { pa with
    swapPending := false
    brightness := some brightness
    paint := .waiting
    panel := if pa.paint = .painting then none else pa.panel }

/-- R187: the Report Unit. -/
def Ru.restart (ru : Ru) : Ru :=
  { ru with
    listed := 0
    timers := [false, false, false]
    marks := { ru.marks with restarted := true } }

/-- A warm restart: at one moment every block takes its warm-restart values, and the part enters LISTEN
(R198). The working set is emptied in every pass state: R114 speaks of READING and DIGESTING alone (log entry 25,
the model's choice). -/
def State.warmRestart (s : State) : State :=
  { s with
    sc := { s.sc with node := .listen, listenTimer := true }
    lc := s.lc.restart
    tb := .reset
    co := .reset
    au := .restart
    pa := s.pa.restart s.prof.brightness
    bu := .reset
    ru := s.ru.restart }

end Sys2Proof.Machine
end

