-- ==== Sys2Proof/Machine/Receive.lean ====
section
/-! DEFINITION. The receive family: the receiver, the receive FIFO, the intake ring and the line-busy watch
(R15 to R30). -/

namespace Sys2Proof.Machine

/-- The answer of every command: the part never stops (log entry 2). -/
abbrev Answer := Host.Outcome State Fault Refusal

/-- The receiver's fields changed. -/
def State.setReceiver (s : State) (r : Receiver) : State := s.setLc { s.lc with receiver := r }

/-! ### The idle line and the busy period (R30) -/

/-- Bit times at 1 that make an idle line: the inter-notice gap (R30). -/
def idleBits : Nat := 64

/-- Bit times of a busy period that is reported (R30). -/
def stuckBits : Nat := 5000

/-- The receiver's state forbids an idle line (R30). -/
def ReceiverState.inFrame : ReceiverState → Bool
  | .header | .store | .foreign | .skip | .lockout => true
  | .off | .suspended | .discard | .hunt => false

/-- The line is idle (R30). -/
def Lc.lineIdle (lc : Lc) : Bool := decide (lc.watch.idleRun = idleBits) && !lc.receiver.state.inFrame

/-- One bit time of a busy line, sampled at `b` (R30). -/
def Watch.count (w : Watch) (b : Bool) : Watch :=
  { w with
    idleRun := if b then min idleBits (w.idleRun + 1) else 0
    busyBits := min stuckBits (w.busyBits + 1) }

/-- An idle line ends the busy period and its report (R30). -/
def Watch.settle (w : Watch) (inFrame : Bool) : Watch :=
  if w.idleRun = idleBits ∧ inFrame = false then { w with busyBits := 0, reported := false } else w

/-- Bit times of a frame being followed, in which the line cannot be idle (R30). -/
def Watch.follow (w : Watch) (bits : List Bool) : Watch := bits.foldl Watch.count w

/-- Bit times in which the own transmitter drives the line; they count as busy (R30). -/
def Watch.drive (w : Watch) (bits : Nat) : Watch :=
  { w with idleRun := 0, busyBits := min stuckBits (w.busyBits + bits) }

/-- The watch stands at `w`. A busy period that has reached its limit raises LINE_STUCK, once for that period
(R30); with what command it is raised is log entry 17, the model's choice. -/
def State.tally (s : State) (w : Watch) : State :=
  if w.busyBits = stuckBits ∧ w.reported = false then
    (s.setLc { s.lc with watch := { w with reported := true } }).raise .lineStuck
  else s.setLc { s.lc with watch := w }

/-- The bits of the header (R17), the body byte or the check bits (R19) that the receiver is taking; none outside
a frame. -/
def Receiver.unitBits (r : Receiver) : Nat :=
  match r.state with
  | .header => 40
  | .store | .foreign | .skip | .lockout => if r.remaining = 0 then 16 else 8
  | .off | .suspended | .discard | .hunt => 0

/-- The watch over the first bits of a header, body byte or check bits whose own command is still to come. The last
of them comes with that command (R30, log entry 17). -/
def State.watchAhead (s : State) (bits : List Bool) : State :=
  let first := bits.take (s.lc.receiver.unitBits - 1 - s.lc.watch.ahead)
  s.tally { s.lc.watch.follow first with ahead := s.lc.watch.ahead + first.length }

/-- The watch over the bits of a header, body byte or check bits that are not counted yet, with all of which the
receiver is still in the frame (R30). -/
def State.watchBits (s : State) (bits : List Bool) : State :=
  s.tally ({ s.lc.watch with ahead := 0 }.follow (bits.drop s.lc.watch.ahead))

/-- The same with bits with the last of which the receiver leaves the frame: in that bit time the line may be idle
again (R30, log entry 17). -/
def State.watchEnd (s : State) (bits : List Bool) : State :=
  let t := s.watchBits bits.dropLast
  t.tally ((t.lc.watch.follow (bits.drop (bits.length - 1))).settle false)

/-! ### DISCARD and HUNT (R16) -/

/-- A run of alternating bits that begins with this bit (R16). -/
def Hunt.afresh (b : Bool) : Hunt := ⟨1, b, 0⟩

/-- The look after one more bit, or none where that bit is the last of the start mark. A bit that breaks the
pattern is the first of the next one (R16). -/
def Hunt.next (h : Hunt) (b : Bool) : Option Hunt :=
  match h.mark with
  | 0 =>
    if h.run = 0 ∨ b ≠ h.last then some ⟨min 8 (h.run + 1), b, 0⟩
    else if h.run = 8 ∧ b = false then some { h with mark := 1 }
    else some (.afresh b)
  | 1 => some (if b then .afresh b else { h with mark := 2 })
  | 2 => some (if b then { h with mark := 3 } else .afresh b)
  | _ => if b then none else some (.afresh b)

/-- The receiver after one bit sampled in DISCARD or HUNT (R16). -/
def Receiver.sample (r : Receiver) (b : Bool) : Receiver :=
  match r.state with
  | .discard =>
    let ones := if b then r.ones + 1 else 0
    if 32 ≤ ones then { r with state := .hunt, ones := ones, hunt := .fresh } else { r with ones := ones }
  | .hunt =>
    match r.hunt.next b with
    | some h => { r with hunt := h }
    | none => { r with state := .header, headerRegister := .cleared, checkRegister := crcStart }
  | .off | .suspended | .header | .store | .foreign | .skip | .lockout => r

/-- One bit sampled in DISCARD or HUNT, with the watch (R16, R30). In HEADER no bit is taken: the header's
bits come with FRAME_HEADER (log entry 16). -/
def State.sampleBit (s : State) (b : Bool) : State :=
  if s.lc.receiver.state = .discard ∨ s.lc.receiver.state = .hunt then
    let r := s.lc.receiver.sample b
    (s.setReceiver r).tally ((s.lc.watch.count b).settle r.state.inFrame)
  else s

/-- Bits sampled in DISCARD or HUNT, oldest first. -/
def State.sampleBits (s : State) (bits : List Bool) : State := bits.foldl State.sampleBit s

/-- DISCARD_END (R16): the bits sampled from DISCARD on; 32 consecutive 1 bits lead to HUNT. -/
def execDiscardEnd (bits : List Bool) (s : State) : Answer :=
  if s.lc.receiver.state = .discard then .next (s.sampleBits bits) else .next s

/-- START_MARK (R16): the bits sampled in HUNT; the last bit of the pattern leads to HEADER, with header
register and check register set. -/
def execStartMark (bits : List Bool) (s : State) : Answer :=
  if s.lc.receiver.state = .hunt then .next (s.sampleBits bits) else .next s

/-! ### Chains (R25) -/

/-- The FILLING chain has passed its check and its last byte has reached its slot (R25). -/
def Lc.chainDue (lc : Lc) : Option Filling :=
  match lc.ring.filling with
  | none => none
  | some f => if f.passed ∧ lc.fifo = [] then some f else none

/-- The counts of a whole chain's body agree with its length; a header-only chain has none (R25, R26). -/
def Filling.agrees (f : Filling) : Bool :=
  f.headerOnly ||
  match noticeKind (headerOf f.bytes).kind with
  | none => true
  | some k => countsAgree k (bodyOf f.bytes)

/-- Completion of a chain that is due: READY and dispatched, or freed with LINE_CRC (R25, R27). -/
def State.completeDue (s : State) : State :=
  match s.lc.chainDue with
  | none => s
  | some f =>
    if f.agrees then
      (s.setLc { s.lc with ring :=
        { s.lc.ring with
          ready := s.lc.ring.ready ++ [⟨f.headerOnly, f.bytes⟩]
          filling := none } }).dispatch
    else (s.setLc s.lc.freeFilling).raise .lineCrc

/-- CHAIN_COMPLETE (R25). -/
def execChainComplete (s : State) : Answer := .next s.completeDue

/-! ### HEADER (R17, R18) -/

/-- Entry to STORE: the header bytes are offered to the FIFO, or the frame is lost to overflow because the
FIFO holds bytes of an earlier frame (R18, R22 (2)). -/
def State.enterStore (s : State) : State :=
  let t := s.completeDue
  if t.lc.fifo = [] then
    t.setLc
      { t.lc.beginFrame false false t.lc.receiver.headerRegister.bytes with
        receiver := { t.lc.receiver with state := .store } }
  else
    (t.setReceiver { t.lc.receiver with state := .lockout }).raise .intakeOverflow

/-- What a passing header leads to (R18). -/
def State.followFrame (s : State) (k : NoticeKind) : State :=
  let r := s.lc.receiver
  match nextReceiverState k r.headerRegister.group.toNat s.prof.group with
  | .store => s.enterStore
  | .foreign => s.setReceiver { r with state := .foreign }
  | _ => s.setReceiver { r with state := .skip, headerRegister := .cleared }

/-- FRAME_HEADER (R17, R18): the 40 header bits are taken and examined. No rule says what the header register holds
after a header that fails, in STORE and LOCKOUT, and after a stored frame: that it keeps the five bytes there is log
entry 29, the model's choice. -/
def execFrameHeader (kind sender group sequence length : Byte) (s : State) : Answer :=
  if s.lc.receiver.state = .header then
    let h : Header := ⟨kind, sender, group, sequence, length⟩
    let r := { s.lc.receiver with
      headerRegister := h
      checkRegister := crcFeed s.lc.receiver.checkRegister h.bytes
      remaining := length.toNat }
    let bits := h.bytes.flatMap byteBits
    match h.examine with
    | none => .next (((s.watchEnd bits).setReceiver r.toDiscard).raise .lineCrc)
    | some k => .next (((s.watchBits bits).setReceiver r).followFrame k)
  else .next s

/-! ### The body (R19, R21, R22) -/

/-- A byte is offered to the FIFO in STORE: it enters and drains, or the frame is lost to overflow (R21,
R22 (1)). -/
def State.offerByte (s : State) (b : Byte) : State :=
  if s.lc.fifo.length < Config.fifoBytes then
    s.setLc (Lc.drain { s.lc with fifo := s.lc.fifo ++ [b] })
  else
    (s.setLc { s.lc.freeFilling with receiver := { s.lc.receiver with state := .lockout } }).raise
      .intakeOverflow

/-- A body byte fed to the check register (R19). -/
def State.feedByte (s : State) (b : Byte) : State :=
  s.setReceiver { s.lc.receiver with
    checkRegister := crcFeed s.lc.receiver.checkRegister [b]
    remaining := s.lc.receiver.remaining - 1 }

/-- RECEIVE_BYTE (R19, R21): a body byte of the frame followed. -/
def execReceiveByte (data : Byte) (s : State) : Answer :=
  if s.lc.receiver.remaining = 0 then .next s
  else
    let t := s.watchBits (byteBits data)
    match s.lc.receiver.state with
    | .store => .next ((t.feedByte data).offerByte data)
    | .foreign => .next (t.feedByte data)
    | .skip | .lockout =>
      .next (t.setReceiver { s.lc.receiver with remaining := s.lc.receiver.remaining - 1 })
    | .off | .suspended | .discard | .hunt | .header => .next s

/-! ### The end of a frame (R19, R20, R25, R26) -/

/-- The receiver enters HUNT and looks afresh (R16, R19). -/
def State.toHunt (s : State) : State :=
  s.setReceiver { s.lc.receiver with state := .hunt, hunt := .fresh }

/-- A stored frame ends: passed, or freed with LINE_CRC (R20, R25). -/
def State.endStored (s : State) (passes : Bool) : State :=
  if passes then
    (s.setLc { s.lc with ring :=
      { s.lc.ring with filling := s.lc.ring.filling.map fun f => { f with passed := true } } }).toHunt
  else (s.setLc s.lc.freeFilling).toHunt.raise .lineCrc

/-- The header of a foreign frame leaves the header register (R18, R20, R26). -/
def State.dropHeader (s : State) : State :=
  s.setReceiver { s.lc.receiver with headerRegister := .cleared }

/-- A foreign frame ends: a header-only chain, its loss to overflow, or LINE_CRC (R20, R26). -/
def State.endForeign (s : State) (passes : Bool) : State :=
  if passes then
    let t := s.toHunt.completeDue
    if t.lc.fifo = [] then
      (t.setLc (t.lc.beginFrame true true t.lc.receiver.headerRegister.bytes)).dropHeader
    else t.dropHeader.raise .intakeOverflow
  else s.toHunt.dropHeader.raise .lineCrc

/-- The check bits on the line: low byte first, and least significant bit first in each (R1, R4). -/
def checkBits (check : Digest) : List Bool := (toLe 2 check.toNat).flatMap byteBits

/-- FRAME_END (R19): the check bits have been sampled. -/
def execFrameEnd (check : Digest) (s : State) : Answer :=
  if s.lc.receiver.remaining = 0 then
    let passes := decide (~~~ s.lc.receiver.checkRegister = check)
    let t := s.watchEnd (checkBits check)
    match s.lc.receiver.state with
    | .store => .next (t.endStored passes)
    | .foreign => .next (t.endForeign passes)
    | .skip | .lockout => .next t.toHunt
    | .off | .suspended | .discard | .hunt | .header => .next s
  else .next s

/-! ### The limit of a busy period (R30) -/

/-- BUSY_PERIOD_LIMIT (R30): the receiver has sampled `bits` up to the limit, which may be none, in DISCARD or HUNT
or of the header, body byte or check bits in reception; where the busy period stands at its limit and has not been
reported, LINE_STUCK is raised for it (log entries 16 and 17). -/
def execBusyPeriodLimit (bits : List Bool) (s : State) : Answer :=
  if s.following then
    if s.lc.receiver.state.inFrame then .next (s.watchAhead bits)
    else
      let t := s.sampleBits bits
      .next (t.tally t.lc.watch)
  else .next s

end Sys2Proof.Machine
end

