-- ==== Sys2Proof/Machine/Transmit.lean ====
section
/-! DEFINITION. The transmit family (R32 to R36). -/

namespace Sys2Proof.Machine

/-- The transmitter's fields changed. -/
def State.setTransmitter (s : State) (x : Transmitter) : State := s.setLc { s.lc with transmitter := x }

/-- The transmitter holds no notice and is IDLE, and takes the oldest queued one (R32, R33, R35, R36). -/
def State.releaseNotice (s : State) : State := (s.setTransmitter .reset).takeNotice

/-- The transmitter leaves SEND or JAM after `bits` bit times: the receiver enters DISCARD (R15), and the line
is busy until it has rested from here on (R30, R33). -/
def State.resumeReceiver (s : State) (bits : Nat) : State :=
  s.setLc { s.lc with receiver := s.lc.receiver.toDiscard, watch := s.lc.watch.drive bits }

/-- Bit times of a jam (R34). -/
def jamBits : Nat := 16

/-- The start of an attempt (R33 (1) to (5)): the receiver is SUSPENDED (R15), the AU sets the sent flag
(R133), and a busy period begins on the line that was idle (R30). -/
def State.beginAttempt (s : State) (n : BoardNotice) : State :=
  let x := s.lc.transmitter
  (s.setLc { s.lc with
      receiver := { s.lc.receiver with state := .suspended }
      transmitter :=
        { x with
          state := .send
          attempts := x.attempts + 1
          frame := frameBytes n s.au.pace s.sc.nodeNumber.toNat s.prof.group }
      watch := .reset }).setAu
    { s.au with sent := true }

/-- TX_ATTEMPT_START (R32, R33): in WAIT, on an idle line (R30). -/
def execTxAttemptStart (s : State) : Answer :=
  if s.lc.transmitter.state = .wait ∧ s.lc.lineIdle = true ∧ s.maySend = true then
    match s.lc.transmitter.notice with
    | some n => .next (s.beginAttempt n)
    | none => .next s
  else .next s

/-- TX_SUCCESS (R33): the notice is discarded and the transmitter is IDLE. -/
def execTxSuccess (s : State) : Answer :=
  if s.lc.transmitter.state = .send then
    .next (s.resumeReceiver (frameBits s.lc.transmitter.frame).length).releaseNotice
  else .next s

/-- COLLISION (R34): in a bit time in which a 1 was sent and a 0 sampled. A sender that drives 0 samples 0
(R1), so no other bit time can differ. -/
def execCollision (bit : Nat) (s : State) : Answer :=
  if s.lc.transmitter.state = .send ∧ (frameBits s.lc.transmitter.frame).getD bit false = true then
    .next (s.setLc { s.lc with
      transmitter := { s.lc.transmitter with
        state := .jam, frame := [], late := decide (claimWindowBits ≤ bit) }
      watch := s.lc.watch.drive (bit + 1) })
  else .next s

/-- Attempts after which a notice is given up (R35). -/
def attemptLimit : Nat := 10

/-- The number drawn for the backoff after `n` attempts: 0 to 2^min(n, 5) − 1 (R35, log entry 5). -/
def backoffSlots (draw n : Nat) : Nat := Config.backoffDraw draw % 2 ^ min n 5

/-- After an early collision with attempts left: BACKOFF, or WAIT at once where 0 is drawn (R35). -/
def State.backOff (s : State) : State :=
  let r := backoffSlots s.freeCounter s.lc.transmitter.attempts
  (s.setTransmitter { s.lc.transmitter with
    state := if r = 0 then .wait else .backoff
    slots := r }).setFree (s.freeCounter + 1)

/-- JAM_END (R34 to R36): the line is released, and the collision has its outcome. -/
def execJamEnd (s : State) : Answer :=
  if s.lc.transmitter.state = .jam then
    let t := s.resumeReceiver jamBits
    if s.lc.transmitter.late then .next (t.raise .txLate).releaseNotice
    else if s.lc.transmitter.attempts < attemptLimit then .next t.backOff
    else .next (t.raise .txGiveup).releaseNotice
  else .next s

/-- BACKOFF_END (R35). -/
def execBackoffEnd (s : State) : Answer :=
  if s.lc.transmitter.state = .backoff then
    .next (s.setTransmitter { s.lc.transmitter with state := .wait, slots := 0 })
  else .next s

end Sys2Proof.Machine
end

