-- ==== Sys2Proof/Machine/TableWorks.lean ====
section
/-! DEFINITION. The table works of the Table Builder and the expiries of its timers (R44 to R87). -/

namespace Sys2Proof.Machine

/-! ### The completion of a table work (R47, R50, R63) -/

/-- The tables and the attention lists after a work's effects (R47, R162, R163). -/
def State.place (s : State) (fx : Effect) : State :=
  (s.setTb fx.tb).setBu (s.bu.takeAll s.prof fx.messages).1

/-- The report events of a work: its own, and one ATTENTION_LOST for each RAISE dropped (R47, R162). -/
def State.workReports (s : State) (fx : Effect) : List ReportKind :=
  fx.reports ++ (s.bu.takeAll s.prof fx.messages).2

/-- All effects of a work together, its compose request included (R47). -/
def State.takeEffects (s : State) (fx : Effect) : State :=
  let t := (s.place fx).raiseAll (s.workReports fx)
  if fx.compose then t.requestCompose else t

/-- The completion of a work: the Composer asks where a compose was requested (R90), and the TB settles
the waiting claims (R50). -/
def State.closeWork (s : State) (asked : Bool) : State :=
  (if asked then s.askWindow else s).arbitrate

/-- Completion of the table work of a TB timer's expiry (R47). -/
def State.completeExpiry (s : State) (fx : Effect) : State := (s.takeEffects fx).closeWork fx.compose

/-- Completion of an apply: its effects, its chain's completion, and the next claim (R29, R47, R50). -/
def State.completeApply (s : State) (fx : Effect) : State :=
  (s.takeEffects fx).completeNotice.closeWork fx.compose

/-- The chain being applied, where it is a whole chain of the kind (R47 (1)). -/
def State.applying (s : State) (k : NoticeKind) : Option Chain :=
  match s.tb.state, s.lc.ring.inWork with
  | .working .apply, some c => if c.headerOnly = false ∧ c.kind = some k then some c else none
  | _, _ => none

/-- The effect of an apply: the header note first, then the body against the tables it left (R71 (1)). -/
def Tb.withNote (tb : Tb) (c : Chain) (work : Tb → Effect) : Effect :=
  (work (tb.note c.sender c.sequence).1).after (tb.note c.sender c.sequence).2

/-! ### Applies -/

/-- NAME_APPLY (R44). -/
def execNameApply (s : State) : Answer :=
  match s.applying .name with
  | none => .next s
  | some c => .next (s.completeApply (s.tb.withNote c fun tb => tb.nameWork c.body))

/-- SERVICE_APPLY (R52). -/
def execServiceApply (s : State) : Answer :=
  match s.applying .service with
  | none => .next s
  | some c => .next (s.completeApply (s.tb.withNote c fun tb => tb.serviceWork s.prof c.sender c.body))

/-- AMEND_APPLY (R59). -/
def execAmendApply (s : State) : Answer :=
  match s.applying .amend with
  | none => .next s
  | some c => .next (s.completeApply (s.tb.withNote c fun tb => tb.amendWork s.prof c.body))

/-- WITHDRAW_APPLY (R62). -/
def execWithdrawApply (s : State) : Answer :=
  match s.applying .withdraw with
  | none => .next s
  | some c => .next (s.completeApply (s.tb.withNote c fun tb => tb.withdrawWork c.body))

/-- SWEEP_OPEN (R75). -/
def execSweepOpen (s : State) : Answer :=
  match s.applying .sweepOpen with
  | none => .next s
  | some c => .next (s.completeApply (s.tb.withNote c fun tb => tb.sweepOpenWork c.sender c.body))

/-- SWEEP_CLOSE (R77). -/
def execSweepClose (s : State) : Answer :=
  match s.applying .sweepClose with
  | none => .next s
  | some c => .next (s.completeApply (s.tb.withNote c fun tb => tb.sweepCloseWork c.sender c.body))

/-- CLOCK (R82). -/
def execClock (s : State) : Answer :=
  match s.applying .clock with
  | none => .next s
  | some c => .next (s.completeApply (s.tb.withNote c fun tb => tb.clockWork c.body))

/-- The header-only chain being applied (R47 (1)). -/
def State.applyingHeader (s : State) : Option Chain :=
  match s.tb.state, s.lc.ring.inWork with
  | .working .apply, some c => if c.headerOnly then some c else none
  | _, _ => none

/-- HEADER_ONLY_APPLY (R71, R76). -/
def execHeaderOnlyApply (s : State) : Answer :=
  match s.applyingHeader with
  | none => .next s
  | some c => .next (s.completeApply (s.tb.withNote c fun tb => tb.headerOnlyWork c.sender c.kind))

/-! ### Expiries of TB timers (R48) -/

/-- REFRESH_TIMER_EXPIRY (R61): a running refresh timer expires and claims a table work. -/
def execRefreshTimerExpiry (service : Nat) (s : State) : Answer :=
  match s.tb.find service with
  | none => .next s
  | some v =>
    if v.refresh = .running then
      .next (s.setTb (Tb.claim
        { s.tb with services := putService { v with refresh := .expired } s.tb.services }
        (.refresh service)))
    else .next s

/-- FEEDER_LIFETIME_EXPIRY (R74). -/
def execFeederLifetimeExpiry (node : Nat) (s : State) : Answer :=
  match s.tb.feeder node with
  | none => .next s
  | some f =>
    if f.lifetime = .running then
      .next (s.setTb ((s.tb.updateFeeder node fun g => { g with lifetime := .expired }).claim
        (.lifetime node)))
    else .next s

/-- SWEEP_LIMIT_EXPIRY (R79). -/
def execSweepLimitExpiry (node : Nat) (s : State) : Answer :=
  match s.tb.feeder node with
  | none => .next s
  | some f =>
    if f.limit = .running then
      .next (s.setTb ((s.tb.updateFeeder node fun g => { g with limit := .expired }).claim
        (.sweepLimit node)))
    else .next s

/-- SECOND_TIMER_EXPIRY (R83): the timer restarts itself, the elapsed seconds rise up to 255. -/
def execSecondTimerExpiry (s : State) : Answer :=
  if s.tb.time.secondTimer then
    .next (s.setTb (Tb.claim
      { s.tb with time := { s.tb.time with elapsed := min 255 (s.tb.time.elapsed + 1) } } .tick))
  else .next s

/-! ### Table works of expiries -/

/-- REFRESH_TABLE_WORK (R61). -/
def execRefreshTableWork (s : State) : Answer :=
  match s.tb.state with
  | .working (.refresh n live) => .next (s.completeExpiry (s.tb.refreshWork n live))
  | _ => .next s

/-- FEEDER_LIFETIME_TABLE_WORK (R74). -/
def execFeederLifetimeTableWork (s : State) : Answer :=
  match s.tb.state with
  | .working (.lifetime node) => .next (s.completeExpiry (s.tb.lifetimeWork node))
  | _ => .next s

/-- SWEEP_LIMIT_TABLE_WORK (R79). -/
def execSweepLimitTableWork (s : State) : Answer :=
  match s.tb.state with
  | .working (.sweepLimit node) => .next (s.completeExpiry (s.tb.sweepLimitWork node))
  | _ => .next s

/-- TICK_TABLE_WORK (R83). -/
def execTickTableWork (s : State) : Answer :=
  match s.tb.state with
  | .working .tick => .next (s.completeExpiry s.tb.tickWork)
  | _ => .next s

end Sys2Proof.Machine
end

