-- ==== Sys2Proof/Machine/Composing.lean ====
section
/-! DEFINITION. The stages of a compose pass (R93 to R96). -/

namespace Sys2Proof.Machine

/-- The working set of the pass, built from the tables as the window shows them (R93, R97 to R110). -/
def State.buildWorking (s : State) : List Row × Bool :=
  buildRows s.prof s.geometry.rowCount s.tb (textWidth s.pa.glyphs)

/-- WINDOW_RELEASE (R93): the reading stage ends; the working set stands, the window is released, and the
TB goes on (R50 (2)). -/
def execWindowRelease (s : State) : Answer :=
  if s.co.pass = .reading then
    .next (s.setCo { s.co with
      pass := .digesting
      working := s.buildWorking.1
      nameMiss := s.co.nameMiss || s.buildWorking.2 }).beginWaiting
  else .next s

/-- The set the pass completes with (R95 (1), (2), R112). -/
def State.completedSet (s : State) : ComposedSet where
  rows := s.co.working
  digest := digestOf s.geometry.rowCount s.boardWidth s.prof.segmentCount s.co.working
  number := s.co.number + 1
  rowCount := s.geometry.rowCount
  boardWidth := s.boardWidth

/-- Points (1) to (4) of R95; a completion in LISTEN is not taken by the AU (R123). R95 does not say that its
points come in turn: that NAME_MISS, with its expiry where its interval is 0, comes before the AU takes the
completion (R124), and that AGREE_DIVERGED is then an event of its own, is log entry 26, the model's choice. -/
def State.completePass (s : State) : State :=
  let c := s.completedSet
  let t := s.setCo { s.co with composed := some c, number := c.number }
  let u := if s.co.nameMiss then t.raise .nameMiss else t
  if s.sc.node = .run then u.takeCompletion c else u

/-- COMPOSE_COMPLETE (R95): the pass completes, and the CO asks again where R90 allows. -/
def execComposeComplete (s : State) : Answer :=
  if s.co.pass = .digesting then
    let t := s.completePass
    .next (t.setCo { t.co with pass := .idle }).askWindow
  else .next s

end Sys2Proof.Machine
end

