-- ==== Sys2Proof/Machine/Agreeing.lean ====
section
/-! DEFINITION. The agreement family: board notices delivered to the Agreement Unit and the expiries of its
timers (R116 to R133). -/

namespace Sys2Proof.Machine

/-- The IN-WORK chain, where it is a whole chain of the kind (R27). -/
def State.delivered (s : State) (k : NoticeKind) : Option Chain :=
  match s.lc.ring.inWork with
  | none => none
  | some c => if c.headerOnly = false ∧ c.kind = some k then some c else none

/-- DIGEST_NOTICE (R116, R117). -/
def execDigestNotice (s : State) : Answer :=
  match s.delivered .digest with
  | none => .next s
  | some c => .next (s.takeBoardNotice .digest c)

/-- PACE_NOTICE (R116, R117). -/
def execPaceNotice (s : State) : Answer :=
  match s.delivered .pace with
  | none => .next s
  | some c => .next (s.takeBoardNotice .pace c)

/-- STATUS_NOTICE (R116, R117). -/
def execStatusNotice (s : State) : Answer :=
  match s.delivered .status with
  | none => .next s
  | some c => .next (s.takeBoardNotice .status c)

/-- The entry an expired peer leaves: ABSENT, its node number still recorded (R118). -/
def Peer.expire (q : Peer) : Peer := ⟨false, q.node, none, none⟩

/-- PEER_LIFETIME_EXPIRY (R118). -/
def execPeerLifetimeExpiry (index : Nat) (s : State) : Answer :=
  if (s.au.peer index).live then
    let t := s.setAu { s.au with peers := s.au.peers.set index (s.au.peer index).expire }
    if s.sc.node = .run then .next t.agreementAfterExpiry else .next t
  else .next s

/-- AGREEMENT_TIMER_EXPIRY (R128). -/
def execAgreementTimerExpiry (s : State) : Answer :=
  if s.au.agreementTimer then
    let t := s.setAu { s.au with agreementTimer := false }
    if s.au.agreement = .pending then .next ((t.adopt s.au.ownOrigin).setAgreement .diverged)
    else .next t
  else .next s

/-- PACE_TICK (R130, R132): the pace advances by 1, modulo 2³², and the timer restarts. -/
def execPaceTick (s : State) : Answer :=
  if s.au.paceTimer then .next (s.changePace (s.au.pace + 1)) else .next s

/-- BEACON_TIMER_EXPIRY (R133): a PACE is offered where nothing was sent; the flag clears, the timer
restarts. -/
def execBeaconTimerExpiry (s : State) : Answer :=
  if s.au.beaconTimer then
    let t := if s.au.sent then s else s.offer (.pace s.prof.segmentIndex)
    .next (t.setAu { t.au with sent := false })
  else .next s

end Sys2Proof.Machine
end

