-- ==== Sys2Proof/Machine/Panel.lean ====
section
/-! DEFINITION. The frames of the Painter (R143, R144, R147). -/

namespace Sys2Proof.Machine

/-- FRAME_EVENT (R144): the frame start, after which the CO may ask (R90). A frame event in DARK or
PAINTING does not arise (R143). -/
def execFrameEvent (s : State) : Answer :=
  if s.pa.frameTimer = true ∧ s.pa.paint = .waiting then .next s.frameStart.askWindow else .next s

/-- FRAME_COMPLETE (R147). -/
def execFrameComplete (s : State) : Answer :=
  if s.pa.paint = .painting then .next (s.setPa { s.pa with paint := .waiting }) else .next s

end Sys2Proof.Machine
end

