-- ==== Sys2Proof/Machine/Notices.lean ====
section
/-! DEFINITION. The notices completed at their delivery with a direct note (R28, R71 (2)): DIM, STAFF, QUERY
and RESTART; and the interval timers of the Report Unit (R181). -/

namespace Sys2Proof.Machine

/-- The direct note of a delivered notice (R71 (2)). It acts, and its reports are raised with the expiries of
intervals of length 0 that they start, before the owning block's work at the same delivery: R28 has the two
alongside each other and gives no order (log entry 24, the model's choice). -/
def State.directNote (s : State) (c : Chain) : State :=
  (s.setTb (s.tb.note c.sender c.sequence).1).raiseAll (s.tb.note c.sender c.sequence).2

/-- What a DIM does at the Painter (R157). -/
def State.applyDim (s : State) (body : List Byte) : State :=
  if dimOk body then s.setPa { s.pa with brightness := some (num1 body 0) } else s.raise .lineCrc

/-- DIM (R157), after its direct note (log entry 24). -/
def execDim (s : State) : Answer :=
  match s.delivered .dim with
  | none => .next s
  | some c => .next ((s.directNote c).applyDim c.body).completeNotice

/-- What a STAFF does at the Banner Unit (R164). -/
def State.applyStaff (s : State) (body : List Byte) : State :=
  if staffOk body then
    s.setBu (s.bu.staff s.prof (num1 body 0 - 1) (num1 body 1) (staffText body))
  else s.raise .lineCrc

/-- STAFF_NOTICE (R164). The reports of its direct note come before its own LINE_CRC (log entry 24). -/
def execStaffNotice (s : State) : Answer :=
  match s.delivered .staff with
  | none => .next s
  | some c => .next ((s.directNote c).applyStaff c.body).completeNotice

/-- What a QUERY does at the Report Unit (R184). -/
def State.applyQuery (s : State) (group : Nat) (body : List Byte) : State :=
  if targetOk body then
    if s.named (num1 body 0) group then s.offerStatus 0 else s
  else s.raise .lineCrc

/-- QUERY (R184). Its direct note comes first, so a feeder it learns, a SEQ_GAP or a FEEDER_FULL stands in the
STATUS that answers it (log entry 24). -/
def execQuery (s : State) : Answer :=
  match s.delivered .query with
  | none => .next s
  | some c => .next ((s.directNote c).applyQuery c.group c.body).completeNotice

/-- RESTART (R198). A RESTART that names the part frees its own chain with the ring (R38 (4)). The reports of its
direct note come before its own LINE_CRC, with the expiries they start between them (log entry 24). -/
def execRestart (s : State) : Answer :=
  match s.delivered .restart with
  | none => .next s
  | some c =>
    let t := s.directNote c
    if targetOk c.body then
      if s.named (num1 c.body 0) c.group then .next t.warmRestart else .next t.completeNotice
    else .next (t.raise .lineCrc).completeNotice

/-- INTERVAL_TIMER_EXPIRY (R181). -/
def execIntervalTimerExpiry (index : Nat) (s : State) : Answer :=
  if s.ru.timers.getD index false then .next (s.expireInterval index) else .next s

end Sys2Proof.Machine
end

