-- ==== Sys2Proof/Machine/Resets.lean ====
section
/-! DEFINITION. The start-up family: RESET/, LOAD and the listen timer (R188 to R197). -/

namespace Sys2Proof.Machine

/-- COLD_RESET (R188). -/
def execColdReset (s : State) : Answer := .next s.coldReset

/-- RESET_RELEASE (R189, R190): the straps are sampled, and the reads begin or the substitutes are taken. -/
def execResetRelease (node : BitVec 6) (glyport : Bool) (s : State) : Answer :=
  if s.sc.node = .reset then
    let t := s.setSc { s.sc with node := .load, nodeNumber := node, glyphStrap := glyport }
    if glyport then .next (t.setSc { t.sc with loadPosition := some 0 })
    else .next t.useDefaultProfile.fontFails
  else .next s

/-- GLYPH_READ_COMPLETE (R190). -/
def execGlyphReadComplete (data : Byte) (s : State) : Answer :=
  match s.sc.node, s.sc.loadPosition with
  | .load, some a =>
    if a < fontBase then .next (s.readProfileByte a data) else .next (s.readFontByte a data)
  | _, _ => .next s

/-- GLYPH_READ_TIMEOUT (R190): the profile read or the font read ends at that byte as failed. -/
def execGlyphReadTimeout (s : State) : Answer :=
  match s.sc.node, s.sc.loadPosition with
  | .load, some a =>
    if a < fontBase then .next s.useDefaultProfile.beginFont else .next s.fontFails
  | _, _ => .next s

/-- LISTEN_TIMER_EXPIRY (R197). -/
def execListenTimerExpiry (s : State) : Answer :=
  if s.sc.node = .listen ∧ s.sc.listenTimer = true then .next s.enterRun else .next s

end Sys2Proof.Machine
end

