-- ==== Sys2Proof/Machine/Dispatch.lean ====
section
/-! DEFINITION. What each command does to everything but the queue: one direct call of a meaning per row of
spec/opcode_table.json. -/

namespace Sys2Proof.Machine

def exec (i : Instr) (s : State) : Host.Outcome State Fault Refusal :=
  match i with
  | .coldReset => Sys2Proof.Machine.execColdReset s
  | .resetRelease node glyport => Sys2Proof.Machine.execResetRelease node glyport s
  | .glyphReadComplete data => Sys2Proof.Machine.execGlyphReadComplete data s
  | .glyphReadTimeout => Sys2Proof.Machine.execGlyphReadTimeout s
  | .listenTimerExpiry => Sys2Proof.Machine.execListenTimerExpiry s
  | .discardEnd bits => Sys2Proof.Machine.execDiscardEnd bits s
  | .frameHeader kind sender group sequence length => Sys2Proof.Machine.execFrameHeader kind sender group sequence length s
  | .receiveByte data => Sys2Proof.Machine.execReceiveByte data s
  | .frameEnd check => Sys2Proof.Machine.execFrameEnd check s
  | .chainComplete => Sys2Proof.Machine.execChainComplete s
  | .busyPeriodLimit bits => Sys2Proof.Machine.execBusyPeriodLimit bits s
  | .txAttemptStart => Sys2Proof.Machine.execTxAttemptStart s
  | .txSuccess => Sys2Proof.Machine.execTxSuccess s
  | .collision bit => Sys2Proof.Machine.execCollision bit s
  | .jamEnd => Sys2Proof.Machine.execJamEnd s
  | .backoffEnd => Sys2Proof.Machine.execBackoffEnd s
  | .nameApply => Sys2Proof.Machine.execNameApply s
  | .serviceApply => Sys2Proof.Machine.execServiceApply s
  | .amendApply => Sys2Proof.Machine.execAmendApply s
  | .withdrawApply => Sys2Proof.Machine.execWithdrawApply s
  | .sweepOpen => Sys2Proof.Machine.execSweepOpen s
  | .sweepClose => Sys2Proof.Machine.execSweepClose s
  | .clock => Sys2Proof.Machine.execClock s
  | .headerOnlyApply => Sys2Proof.Machine.execHeaderOnlyApply s
  | .refreshTimerExpiry service => Sys2Proof.Machine.execRefreshTimerExpiry service s
  | .refreshTableWork => Sys2Proof.Machine.execRefreshTableWork s
  | .feederLifetimeExpiry node => Sys2Proof.Machine.execFeederLifetimeExpiry node s
  | .feederLifetimeTableWork => Sys2Proof.Machine.execFeederLifetimeTableWork s
  | .sweepLimitExpiry node => Sys2Proof.Machine.execSweepLimitExpiry node s
  | .sweepLimitTableWork => Sys2Proof.Machine.execSweepLimitTableWork s
  | .secondTimerExpiry => Sys2Proof.Machine.execSecondTimerExpiry s
  | .tickTableWork => Sys2Proof.Machine.execTickTableWork s
  | .windowRelease => Sys2Proof.Machine.execWindowRelease s
  | .composeComplete => Sys2Proof.Machine.execComposeComplete s
  | .digestNotice => Sys2Proof.Machine.execDigestNotice s
  | .paceNotice => Sys2Proof.Machine.execPaceNotice s
  | .statusNotice => Sys2Proof.Machine.execStatusNotice s
  | .peerLifetimeExpiry index => Sys2Proof.Machine.execPeerLifetimeExpiry index s
  | .agreementTimerExpiry => Sys2Proof.Machine.execAgreementTimerExpiry s
  | .paceTick => Sys2Proof.Machine.execPaceTick s
  | .beaconTimerExpiry => Sys2Proof.Machine.execBeaconTimerExpiry s
  | .frameEvent => Sys2Proof.Machine.execFrameEvent s
  | .frameComplete => Sys2Proof.Machine.execFrameComplete s
  | .dim => Sys2Proof.Machine.execDim s
  | .staffNotice => Sys2Proof.Machine.execStaffNotice s
  | .query => Sys2Proof.Machine.execQuery s
  | .intervalTimerExpiry index => Sys2Proof.Machine.execIntervalTimerExpiry index s
  | .restart => Sys2Proof.Machine.execRestart s
  | .startMark bits => Sys2Proof.Machine.execStartMark bits s

end Sys2Proof.Machine
end

