-- ==== Sys2Proof/Safety.lean ====
section
/-! DEFINITION. The properties that claims speak of: what the part holds after a cold reset and through LOAD,
the invariants of its blocks, and what one command leaves unchanged. -/

namespace Sys2Proof.Machine

/-! ### Cold reset and LOAD -/

/-- The Line Controller at its cold-reset values (R37). -/
def Lc.AtReset (lc : Lc) : Prop :=
  lc.receiver.state = .off ∧ lc.receiver.headerRegister = ⟨0, 0, 0, 0, 0⟩ ∧ lc.fifo = [] ∧
  lc.ring = ⟨0, none, [], none⟩ ∧ lc.queue = [] ∧ lc.transmitter.state = .idle ∧
  lc.transmitter.notice = none ∧ lc.transmitter.attempts = 0 ∧ lc.transmitter.slots = 0 ∧
  lc.transmitter.frame = [] ∧ lc.watch = ⟨0, 0, false, 0⟩

/-- The Table Builder at its cold-reset values (R68, R86). -/
def Tb.AtReset (tb : Tb) : Prop :=
  tb.services = [] ∧ tb.pool.cells.length = 640 ∧ tb.pool.free = List.range 640 ∧ tb.names = [] ∧
  tb.refusals = [] ∧ tb.state = .free ∧ tb.waitingApply = false ∧ tb.waiting = [] ∧
  tb.windowRequest = false ∧ tb.feeders = [] ∧ tb.staleOrder = [] ∧
  tb.time = ⟨none, 0, 0, false, false⟩

/-- The Agreement Unit at its cold-reset values (R136). -/
def Au.AtReset (au : Au) : Prop :=
  au = { peers := List.replicate 8 ⟨false, none, none, none⟩, agreement := .empty,
         composedDigest := none, ownProposal := none, agreementTimer := false, swapBuffer := none,
         shown := none, shownDigest := none, pace := 0, paceTimer := false, beaconTimer := false,
         sent := false }

/-- The Painter at its cold-reset values but for the glyph store, the font height, the palette and the class
map, which LOAD fills (R159). -/
def Pa.AtReset (pa : Pa) : Prop :=
  pa.paint = .dark ∧ pa.panel = none ∧ pa.frameTimer = false ∧ pa.swapPending = false ∧
  pa.sample = none ∧ pa.geometry = none ∧ pa.layout = none ∧ pa.brightness = none ∧
  pa.geometryCut = false

/-- The Banner Unit at its cold-reset values (R176). -/
def Bu.AtReset (bu : Bu) : Prop :=
  bu = { listA := [], listB := [], listC := [], slots := List.replicate 8 none, groupA := .quiet,
         groupB := .quiet, groupC := .quiet, groupD := .quiet, line := .idle, banner := none }

/-- The Report Unit at its cold-reset values (R187). -/
def Ru.AtReset (ru : Ru) : Prop :=
  ru = ⟨List.replicate 19 0, 0, 0, 0, [false, false, false], ⟨false, false, false, false⟩⟩

/-- Every block but the Start-up Control at its cold-reset values (R188). -/
def State.BlocksAtReset (s : State) : Prop :=
  s.lc.AtReset ∧ s.tb.AtReset ∧ s.co = ⟨false, .idle, [], false, none, 0⟩ ∧ s.au.AtReset ∧
  s.pa.AtReset ∧ s.bu.AtReset ∧ s.ru.AtReset

/-- The values the spec gives the whole part while RESET/ is asserted (R188). -/
def State.ColdResetValues (s : State) : Prop :=
  s.sc.node = .reset ∧ s.sc.profile = none ∧ s.sc.profileSource = none ∧ s.sc.fontSource = none ∧
  s.sc.loadPosition = none ∧ s.sc.listenTimer = false ∧ s.BlocksAtReset

/-- The part is in RESET or LOAD. -/
def State.starting (s : State) : Prop := s.sc.node = .reset ∨ s.sc.node = .load

/-- The part is in LISTEN or RUN. -/
def State.started (s : State) : Prop := s.sc.node = .listen ∨ s.sc.node = .run

/-- What the start-up leaves in LISTEN and RUN (R130, R143, R196). -/
def State.StartedValues (s : State) : Prop :=
  s.sc.profile.isSome = true ∧ s.sc.profileSource.isSome = true ∧ s.sc.fontSource.isSome = true ∧
  s.sc.loadPosition = none ∧ s.pa.geometry.isSome = true ∧ s.pa.layout.isSome = true ∧
  s.pa.fontHeight.isSome = true ∧ s.pa.brightness.isSome = true ∧ s.pa.paint ≠ .dark ∧
  s.pa.frameTimer = true ∧ s.au.paceTimer = true

/-- The start-up invariant: reset values are held in RESET and through LOAD; LOAD has a read in flight, and
the font read begins with a profile in force; LISTEN and RUN have what LOAD leaves; the segment index of a
profile in force lies below its segment count (R191); the listen timer runs exactly in LISTEN and the beacon timer exactly in RUN (R133, R188, R190, R196, R197). -/
def State.StartupSound (s : State) : Prop :=
  (s.sc.node = .reset → s.ColdResetValues) ∧
  (s.sc.node = .load → s.BlocksAtReset ∧ ∃ a, s.sc.loadPosition = some a ∧
    (fontBase ≤ a → s.sc.profile.isSome = true ∧ s.sc.profileSource.isSome = true)) ∧
  (s.started → s.StartedValues) ∧
  (∀ p, s.sc.profile = some p → p.segmentIndex < p.segmentCount ∧ p.segmentCount ≤ 8) ∧
  (s.sc.listenTimer = true ↔ s.sc.node = .listen) ∧
  (s.au.beaconTimer = true ↔ s.sc.node = .run)

/-- From `s` in LOAD the part has entered LISTEN at `t` with profile `p`, font height `h` and `glyphs` in force
(R15, R137, R139, R143, R149, R186, R196): the first frame is being painted, and the tables, the Composer, the
banners and the counts stand. -/
def EntersListen (s t : State) (p : Profile) (h : Nat) (glyphs : List Glyph) : Prop :=
  t.sc.node = .listen ∧ t.sc.listenTimer = true ∧ t.sc.loadPosition = none ∧ t.sc.profile = some p ∧
  t.lc = { s.lc with receiver := { s.lc.receiver with state := .discard, ones := 0 } } ∧
  t.tb = s.tb ∧ t.co = s.co ∧ t.bu = s.bu ∧ t.pending = s.pending ∧ t.freeCounter = s.freeCounter ∧
  t.au = { s.au with paceTimer := true } ∧
  t.pa.geometry = some (geometryCheck p.geometry h).1 ∧
  t.pa.geometryCut = (geometryCheck p.geometry h).2 ∧
  t.pa.fontHeight = some h ∧ t.pa.glyphs = glyphs ∧ t.pa.layout = some (layoutOf glyphs) ∧
  t.pa.palette = p.palette ∧ t.pa.classMap = p.classMap ∧ t.pa.brightness = some p.brightness ∧
  t.pa.swapPending = false ∧ t.pa.frameTimer = true ∧ t.pa.paint = .painting ∧
  t.pa.sample = some ⟨.listen, none, s.au.pace, s.tb.time.second, s.tb.time.stale, none, p.brightness⟩ ∧
  t.ru = { s.ru with marks :=
    { profileDefault := decide (t.sc.profileSource = some .builtIn)
      fontFallback := decide (t.sc.fontSource = some .builtIn)
      geometryCut := (geometryCheck p.geometry h).2
      restarted := s.ru.marks.restarted } }

/-! ### Report events -/

/-- The counts after one event of each kind of the list (R179 (1)). -/
def countsAfter (counts : List Nat) (ks : List ReportKind) : List Nat :=
  ks.foldl (fun c k => c.modify k.number bump) counts

/-- From `s` to `t` exactly the events `ks` are counted; with no event the Report Unit, the transmit queue
and the transmitter stay as they were (R179). -/
def Reported (s t : State) (ks : List ReportKind) : Prop :=
  t.ru.counts = countsAfter s.ru.counts ks ∧ t.ru.geometryCut = s.ru.geometryCut ∧
  t.ru.marks = s.ru.marks ∧
  (ks = [] → t.ru = s.ru ∧ t.lc.queue = s.lc.queue ∧ t.lc.transmitter = s.lc.transmitter)

/-! ### The Line Controller -/

/-- Between `s` and `t`, `bits` bit times apart, only the receiver and the watch differ, and what the busy
periods report that have reached their limit of 5000 bit times between them (R30, log entry 17). -/
def ReceiverOnly (s t : State) (bits : Nat) : Prop :=
  ∃ periods, 5000 * periods ≤ s.lc.watch.busyBits + bits ∧
    Reported s t (List.replicate periods .lineStuck) ∧
    t = { s with
      lc := { s.lc with
        receiver := t.lc.receiver, watch := t.lc.watch
        queue := t.lc.queue, transmitter := t.lc.transmitter }
      ru := t.ru }

/-- From `s` to `t` the watch comes to stand at `w`: a busy period at its limit of 5000 bit times raises LINE_STUCK
and is then reported, and any other leaves the rest of the part as it was (R30). -/
def WatchStands (s t : State) (w : Watch) : Prop :=
  (w.busyBits = 5000 → w.reported = false →
    t = { s with lc := { s.lc with watch := { w with reported := true } } }.raise .lineStuck) ∧
  (w.busyBits ≠ 5000 ∨ w.reported = true → t = { s with lc := { s.lc with watch := w } })

/-- A start mark with its preamble (R16): at least 8 alternating bits that end in a 0, then 0, 0, 1, 1. -/
def StartPattern (bits : List Bool) : Prop :=
  ∃ run : List Bool, 8 ≤ run.length ∧ (∀ i, i + 1 < run.length → run[i]? ≠ run[i + 1]?) ∧
    run.getLast? = some false ∧ bits = run ++ [false, false, true, true]

/-- Bits with which such a pattern may begin (R16). -/
def BeginsPattern (bits : List Bool) : Prop := ∃ more, StartPattern (bits ++ more)

/-- The watch in its ranges (R30): on an idle line no busy period is counted and nothing is reported, and
what is reported has reached the limit. Bit times are counted ahead of their own command in a frame alone, and
never the last of a header, a body byte or the check bits (log entry 17). -/
def Lc.WatchSound (lc : Lc) : Prop :=
  lc.watch.idleRun ≤ 64 ∧ lc.watch.busyBits ≤ 5000 ∧
  (lc.lineIdle = true → lc.watch.busyBits = 0 ∧ lc.watch.reported = false) ∧
  (lc.watch.reported = true → lc.watch.busyBits = 5000) ∧
  (lc.watch.ahead = 0 ∨ lc.watch.ahead < lc.receiver.unitBits)

/-- The intake invariant: capacities of R21 and R23, the FIFO and the receiver's STORE belong to the one
FILLING chain (R21), the receiver is SUSPENDED exactly in SEND and JAM (R15), the transmit queue never
holds two notices of one kind (R31), and the watch is in its ranges (R30). -/
def State.IntakeSound (s : State) : Prop :=
  s.StartupSound ∧
  s.lc.fifo.length ≤ 48 ∧ s.lc.ring.used ≤ 24 ∧ s.lc.ring.oldest < 24 ∧
  (s.lc.fifo ≠ [] → s.lc.ring.filling.isSome = true) ∧
  (s.lc.receiver.state = .store ↔ ∃ f, s.lc.ring.filling = some f ∧ f.passed = false) ∧
  (s.lc.receiver.state = .suspended ↔
    s.lc.transmitter.state = .send ∨ s.lc.transmitter.state = .jam) ∧
  (s.lc.transmitter.state = .idle ↔ s.lc.transmitter.notice = none) ∧
  (s.lc.queue.map BoardNotice.kind).Nodup ∧ s.lc.queue.length ≤ 3 ∧ s.lc.WatchSound

/-! ### The Table Builder -/

/-- The cells of all calling chains. -/
def Tb.chained (tb : Tb) : List Nat := tb.services.flatMap fun v => v.chain

/-- The service table and the stop pool: 64 entries with distinct numbers, every cell on the free list or
in exactly one chain (R39, R41), and an expected time in every entry of status EXPECTED (R39). -/
def Tb.ServicesSound (tb : Tb) : Prop :=
  tb.services.length ≤ 64 ∧ (tb.services.map fun v => v.number).Nodup ∧
  tb.pool.cells.length = 640 ∧ (tb.pool.free ++ tb.chained).Perm (List.range 640) ∧
  ∀ v ∈ tb.services, v.status = .expected → v.expected.isSome = true

/-- The refusal list holds up to 16 numbers without duplicates (R46). -/
def Tb.RefusalsSound (tb : Tb) : Prop := tb.refusals.length ≤ 16 ∧ tb.refusals.Nodup

/-- The name table in its one form: name numbers rise strictly, and no listed text is empty (R43, log
entry 14). -/
def Tb.NamesSound (tb : Tb) : Prop :=
  (tb.names.map fun d => d.1).Pairwise (· < ·) ∧ ∀ d ∈ tb.names, d.2 ≠ []

/-- The feeder table: up to 8 entries with distinct nodes, the stale order among them without duplicates, a
stale entry IDLE, with no expected sequence and its lifetime timer stopped (R70, R74). -/
def Tb.FeedersSound (tb : Tb) : Prop :=
  tb.feeders.length ≤ 8 ∧ (tb.feeders.map fun f => f.node).Nodup ∧ tb.staleOrder.Nodup ∧
  (∀ n ∈ tb.staleOrder, n ∈ tb.feeders.map fun f => f.node) ∧
  (∀ f ∈ tb.feeders, f.node ∈ tb.staleOrder →
    f.expectedSequence = none ∧ f.sweeping = false ∧ f.lifetime = .stopped) ∧
  ∀ f ∈ tb.feeders, f.count ≤ 65535

/-- Station time: UNSET holds nothing and its timer stands (R81), a held second is a second of day, the
clock age reaches 900 exactly with the stale flag (R84), the elapsed seconds stop at 255 (R83). -/
def StationTime.Sound (t : StationTime) : Prop :=
  (t.second = none → t = ⟨none, 0, 0, false, false⟩) ∧
  (∀ x, t.second = some x → x < 86400 ∧ t.secondTimer = true) ∧
  t.elapsed ≤ 255 ∧ t.age ≤ 900 ∧ (t.stale = true ↔ t.age = 900)

/-- The invariant of the tables. -/
def Tb.Sound (tb : Tb) : Prop :=
  tb.ServicesSound ∧ tb.RefusalsSound ∧ tb.NamesSound ∧ tb.FeedersSound ∧ tb.time.Sound

/-- Every stored service's platform is in the board's platform set (R45). -/
def State.PlatformsInSet (s : State) : Prop :=
  ∀ v ∈ s.tb.services, s.prof.platforms.contains v.platform = true

/-- The IN-WORK chain belongs to the Table Builder. -/
def State.tableChain (s : State) : Prop := ∃ c, s.lc.ring.inWork = some c ∧ c.forTables = true

/-- The arbitration invariant (R48 to R50, R90 to R92): the window is held exactly in READING and asked for
exactly in ASKING, then with a table work in flight; a Table Builder chain is IN-WORK exactly while its
apply runs or waits; nothing waits while the tables are FREE; an expiry waits at most once. -/
def State.WindowSound (s : State) : Prop :=
  (s.tb.state = .window ↔ s.co.pass = .reading) ∧
  (s.tb.windowRequest = true ↔ s.co.pass = .asking) ∧
  (s.tb.windowRequest = true → ∃ w, s.tb.state = .working w) ∧
  (s.tableChain ↔ s.tb.state = .working .apply ∨ s.tb.waitingApply = true) ∧
  ¬(s.tb.state = .working .apply ∧ s.tb.waitingApply = true) ∧
  (s.tb.state = .free → s.tb.waitingApply = false ∧ s.tb.waiting = []) ∧
  s.tb.waiting.Nodup

/-! ### The Agreement Unit and the Painter -/

/-- A peer entry as R115 describes it. -/
def Peer.Sound (q : Peer) : Prop :=
  (q.live = true → q.node.isSome = true) ∧ (q.digest.isSome = q.origin.isSome) ∧
  (q.live = false → q.digest = none ∧ q.origin = none)

/-- The agreement invariant (R115, R119, R120, R122, R128): eight peer entries, only peers LIVE; nothing
adopted while EMPTY, and EMPTY throughout LISTEN; the timer runs exactly in PENDING; a composed digest,
once taken, is that of the composed set; one segment is never PENDING or DIVERGED (R126); swap-pending says that the swap buffer holds a set; the shown
digest is that of the last adopted set. -/
def State.AgreementSound (s : State) : Prop :=
  s.StartupSound ∧
  s.au.peers.length = 8 ∧ (∀ q ∈ s.au.peers, q.Sound) ∧
  (∀ i, (s.au.peer i).live = true → s.prof.isPeer i = true) ∧
  (s.au.agreement = .empty → s.au.swapBuffer = none ∧ s.au.shown = none ∧ s.au.shownDigest = none) ∧
  (s.sc.node = .listen → s.au.agreement = .empty ∧ s.au.composedDigest = none) ∧
  (s.au.agreementTimer = true ↔ s.au.agreement = .pending) ∧
  (s.au.agreement = .agreed ∨ s.au.agreement = .diverged → s.au.shownDigest.isSome = true) ∧
  (s.au.agreement ≠ .empty → s.au.composedDigest.isSome = true) ∧
  (s.au.composedDigest.isSome = true → s.au.ownProposal.isSome = true ∧
    s.co.composed.map (fun c => c.digest) = s.au.composedDigest) ∧
  (s.prof.segmentCount = 1 → s.au.agreement = .empty ∨ s.au.agreement = .agreed) ∧
  (s.pa.swapPending = s.au.swapBuffer.isSome) ∧
  s.au.shownDigest = ((s.au.swapBuffer.or s.au.shown).map fun x => x.digest)

/-! ### The Banner Unit -/

/-- An attention list holds at most 8 entries and never two for one service (R161). -/
def AttentionsSound (l : List Attention) : Prop :=
  l.length ≤ 8 ∧ (l.map fun e => e.service).Nodup

/-- The banner invariant (R161, R165, R166, R174): the lists, eight slots, a banner in force exactly outside
IDLE, a group HELD exactly while its banner is SHOWING, a group that is not enabled QUIET, the line IDLE
outside RUN. -/
def State.BannerSound (s : State) : Prop :=
  s.StartupSound ∧
  AttentionsSound s.bu.listA ∧ AttentionsSound s.bu.listB ∧ AttentionsSound s.bu.listC ∧
  s.bu.slots.length = 8 ∧ (s.bu.line = .idle ↔ s.bu.banner = none) ∧
  (∀ g, s.bu.group g = .held ↔ s.bu.line = .showing ∧ s.bu.banner.map (fun b => b.group) = some g) ∧
  (∀ g, s.prof.groupEnabled g = false → s.bu.group g = .quiet) ∧
  (s.sc.node ≠ .run → s.bu.line = .idle)

/-- The Banner Unit after the ends of a pace step to `p1` (R167 (1), (2), R169): a banner below its marks stands,
the end mark ends SHOWING, and the gap mark, which one step may reach with the end mark, ends the GAP. -/
def EndsReached (bu : Bu) (p : Profile) (p1 : Pace) (ended : Bu) : Prop :=
  (bu.line = .idle → ended = bu) ∧
  ∀ b, bu.banner = some b →
    (bu.line = .showing → (p1 - b.takePace).toNat < b.endMark → ended = bu) ∧
    (bu.line = .gap → (p1 - b.takePace).toNat < b.gapMark → ended = bu) ∧
    (bu.line = .gap → b.gapMark ≤ (p1 - b.takePace).toNat →
      ended = { bu with line := .idle, banner := none }) ∧
    (bu.line = .showing → b.endMark ≤ (p1 - b.takePace).toNat →
      ended = { bu.setGroup b.group (if bu.hasContent p b.group then .requesting else .quiet) with
        line := if b.gapMark ≤ (p1 - b.takePace).toNat then .idle else .gap
        banner := if b.gapMark ≤ (p1 - b.takePace).toNat then none else bu.banner })

/-- The Banner Unit after the discards at a take boundary (R165): what groups and slots that are not enabled hold
is gone. -/
def Discarded (bu : Bu) (p : Profile) (kept : Bu) : Prop :=
  kept = { bu with
    listA := if p.enableA then bu.listA else []
    listB := if p.enableB then bu.listB else []
    listC := if p.enableC then bu.listC else []
    slots := kept.slots } ∧
  kept.slots.length = bu.slots.length ∧
  ∀ k, k < bu.slots.length →
    kept.slots.getD k none = if p.slotEnabled k then bu.slots.getD k none else none

/-! ### The Report Unit -/

/-- The report invariant (R179, R181, R183, R185): 19 counts that stop at 65535, three interval timers that
run only where the part may send, and a listed set only while a STATUS stands in the transmit queue. -/
def State.ReportsSound (s : State) : Prop :=
  s.StartupSound ∧ s.ru.counts.length = 19 ∧ (∀ n ∈ s.ru.counts, n ≤ 65535) ∧ s.ru.geometryCut ≤ 65535 ∧
  s.ru.timers.length = 3 ∧ (true ∈ s.ru.timers → s.maySend = true) ∧
  (s.ru.listed ≠ 0 → ∃ n ∈ s.lc.queue, n.kind = .status)

/-! ### What a command does -/

/-- The delivered notice: a whole chain of the kind is IN-WORK (R27). -/
def State.Delivered (s : State) (k : NoticeKind) (c : Chain) : Prop :=
  s.lc.ring.inWork = some c ∧ c.headerOnly = false ∧ c.kind = some k

/-- The apply of that notice is the table work in flight (R47, R48). -/
def State.Applying (s : State) (k : NoticeKind) (c : Chain) : Prop :=
  s.tb.state = .working .apply ∧ s.Delivered k c

/-- The IN-WORK chain is completed: its slots are FREE, the FIFO has drained, the next chain may be IN-WORK
(R29); the rest of the receive side stands. -/
def ChainCompleted (s t : State) : Prop :=
  t.lc.ring = s.completeNotice.lc.ring ∧ t.lc.fifo = s.completeNotice.lc.fifo ∧
  t.lc.receiver = s.lc.receiver ∧ t.lc.watch = s.lc.watch

/-- Every block a table work has no business with is unchanged (R47). -/
def OutsideTables (s t : State) : Prop :=
  t.sc = s.sc ∧ t.au = s.au ∧ t.pa = s.pa ∧ t.pending = s.pending ∧
  t.co.composed = s.co.composed ∧ t.co.number = s.co.number

/-- A compose is requested: the flag stands, or the pass it asks for has begun (R89, R92). Where none is
requested and no window request waits, the Composer is unchanged. -/
def ComposeAsked (s t : State) (asked : Bool) : Prop :=
  (asked = true → t.co.request = true ∨ t.co.pass = .reading) ∧
  (asked = false ∧ s.tb.windowRequest = false → t.co = s.co)

/-- What every apply does beside its effect on tables, lists and reports: its chain is completed, and the
other blocks stand (R29, R47). -/
def ApplyFrame (s t : State) (reports : List ReportKind) (asked : Bool) : Prop :=
  OutsideTables s t ∧ ChainCompleted s t ∧ Reported s t reports ∧ ComposeAsked s t asked

/-- What the table work of an expiry does beside its effect: no chain is touched (R47). -/
def ExpiryFrame (s t : State) (reports : List ReportKind) (asked : Bool) : Prop :=
  OutsideTables s t ∧ t.lc.ring = s.lc.ring ∧ t.lc.fifo = s.lc.fifo ∧
  t.lc.receiver = s.lc.receiver ∧ t.lc.watch = s.lc.watch ∧ Reported s t reports ∧
  ComposeAsked s t asked

/-- The header note of a chain: the feeder table and the stale order after it, and what it raises. -/
def State.noted (s : State) (c : Chain) : Tb × List ReportKind := s.tb.note c.sender c.sequence

/-- The tables other than the feeder table are unchanged. -/
def TablesKept (s t : State) : Prop :=
  t.tb.services = s.tb.services ∧ t.tb.pool = s.tb.pool ∧ t.tb.names = s.tb.names ∧
  t.tb.refusals = s.tb.refusals ∧ t.tb.time = s.tb.time

/-- The feeder table and the stale order are as the header note leaves them. -/
def FeedersNoted (s t : State) (c : Chain) : Prop :=
  t.tb.feeders = (s.noted c).1.feeders ∧ t.tb.staleOrder = (s.noted c).1.staleOrder

/-- Every service but that of number `n` stands as it did. -/
def OthersStand (s t : State) (n : Nat) : Prop := ∀ m, m ≠ n → t.tb.find m = s.tb.find m

/-- The feeder table after a note and the sweep count of R76: a SWEEPING sender's count rises by 1. -/
def SweepCounted (s t : State) (c : Chain) : Prop :=
  t.tb.staleOrder = (s.noted c).1.staleOrder ∧
  t.tb.feeders = (s.noted c).1.feeders.map fun f =>
    if f.node = c.sender ∧ f.sweeping = true then { f with count := bump f.count } else f

/-- What an apply does beside the tables: its messages reach the Banner Unit, its reports are those of the
header note, its own, and an ATTENTION_LOST for each RAISE dropped (R47, R71, R162). -/
def Applied (s t : State) (c : Chain) (own : List ReportKind) (messages : List Message) (asked : Bool) :
    Prop :=
  ApplyFrame s t ((s.noted c).2 ++ own ++ (s.bu.takeAll s.prof messages).2) asked ∧
  t.bu = (s.bu.takeAll s.prof messages).1

/-- An apply that changes the feeder table alone, by its header note. -/
def OnlyNoted (s t : State) (c : Chain) (own : List ReportKind) : Prop :=
  Applied s t c own [] false ∧ TablesKept s t ∧ FeedersNoted s t c

/-- The refusal list with a number as its newest (R46). -/
def refusedNewest (n : Nat) (l : List Nat) : List Nat :=
  if n ∈ l then l.erase n ++ [n] else if l.length < 16 then l ++ [n] else l.drop 1 ++ [n]

/-- The tables after the removal of a stored service (R42, R60). -/
def Removed (s t : State) (v : Service) : Prop :=
  t.tb.find v.number = none ∧ OthersStand s t v.number ∧
  t.tb.pool = ⟨s.tb.pool.cells, v.chain ++ s.tb.pool.free⟩ ∧ t.tb.names = s.tb.names ∧
  t.tb.time = s.tb.time

/-- A board notice delivered to the Agreement Unit leaves everything but the pace, the peers, the agreement
fields, the banners and the reports; its chain is completed (R29, R116). -/
def BoardFrame (s t : State) : Prop :=
  t.sc = s.sc ∧ t.tb = s.completeNotice.tb ∧ t.co = s.co ∧ t.pending = s.pending ∧
  t.freeCounter = s.freeCounter ∧ ChainCompleted s t

/-- The pace the part goes on with after a board notice (R131), and what the banners make of it. -/
def PaceTaken (s t : State) (q : Pace) : Prop :=
  t.au.pace = (if paceAhead q s.au.pace then q else s.au.pace) ∧
  t.bu = (if paceAhead q s.au.pace = true ∧ s.sc.node = .run then
    s.bu.paceStep s.prof s.au.shown s.au.pace q else s.bu)

/-- Every considered peer holds the digest (R119): each LIVE peer that holds one. -/
def AllHold (s : State) (d : Digest) : Prop :=
  ∀ i, i < 8 → i ≠ s.prof.segmentIndex → i < s.prof.segmentCount → (s.au.peer i).live = true →
    ∀ e, (s.au.peer i).digest = some e → e = d

/-- From `s` to `t` a composed set is adopted with an origin (R120): into the swap buffer, with its digest as
the shown digest, and swap-pending set. -/
def Adopted (t : State) (c : ComposedSet) (origin : Pace) : Prop :=
  t.au.swapBuffer = some ⟨c.rows, c.digest, c.rowCount, c.boardWidth, callingWidthOf c.rows, origin⟩ ∧
  t.au.shownDigest = some c.digest ∧ t.pa.swapPending = true

/-- What a notice completed with a direct note does (R28, R71 (2)): the note, its own reports, and the
completion of its chain. -/
def Noticed (s t : State) (c : Chain) (own : List ReportKind) : Prop :=
  TablesKept s t ∧ FeedersNoted s t c ∧ ChainCompleted s t ∧ Reported s t ((s.noted c).2 ++ own) ∧
  t.sc = s.sc ∧ t.co = s.co ∧ t.au = s.au ∧ t.pending = s.pending ∧ t.freeCounter = s.freeCounter

/-- A TB timer has expired and claims a table work (R48): the work begins on FREE tables, and otherwise the
expiry waits once; the tables but for the services and the feeders stand. -/
def Claimed (before after : Tb) (e : Expiry) (w : TableWork) : Prop :=
  after.state = (if before.state = .free then .working w else before.state) ∧
  after.waiting = (if before.state = .free ∨ e ∈ before.waiting then before.waiting
    else before.waiting ++ [e]) ∧
  after.waitingApply = before.waitingApply ∧ after.windowRequest = before.windowRequest ∧
  after.pool = before.pool ∧ after.names = before.names ∧ after.refusals = before.refusals ∧
  after.staleOrder = before.staleOrder

/-! ### Reading fields back -/

/-- The bit of kind `k` in a field of kinds. -/
def kindBit (field : BitVec 19) (k : ReportKind) : Bool := field.getLsbD k.number

/-- What a STATUS offered in RUN says of the blocks other than the Report Unit (R182). -/
def State.DescribedBy (s : State) (r : StatusReport) : Prop :=
  r.node = .run ∧ r.agreement = s.au.agreement ∧ r.shownDigest = s.au.shownDigest.getD 0 ∧
  r.profileSource = s.sc.profileSource.getD .builtIn ∧
  r.fontSource = s.sc.fontSource.getD .builtIn ∧ r.knownFeeders = s.tb.feeders.length

/-- A RESTART that names the part (R198). -/
def State.Restarting (s : State) (c : Chain) : Prop :=
  s.Delivered .restart c ∧ targetOk c.body = true ∧ s.named (num1 c.body 0) c.group = true

/-- A board notice whose fields lie in their ranges (R11, R12). -/
def BoardNotice.InRange : BoardNotice → Prop
  | .digest segment _ _ _ rows width => segment ≤ 7 ∧ 2 ≤ rows ∧ rows ≤ 8 ∧ 1 ≤ width ∧ width ≤ 2048
  | .pace segment => segment ≤ 7
  | .status segment r => segment ≤ 7 ∧ r.counts.length = 19 ∧ (∀ n ∈ r.counts, n ≤ 65535) ∧
      r.geometryCut ≤ 65535 ∧ r.knownFeeders ≤ 8

/-- What the fields of a board notice's body read back as (R11, R12). -/
def BoardNotice.ReadBack (n : BoardNotice) (body : List Byte) : Prop :=
  match n with
  | .digest segment number value origin rows width =>
    num1 body 0 = segment ∧ num2 body 5 = number.toNat ∧ digestFields body = (value, origin) ∧
    num1 body 13 = rows ∧ num2 body 14 = width
  | .pace segment => num1 body 0 = segment
  | .status segment r =>
    num1 body 0 = segment ∧ byteAt body 5 = r.node.code ∧ byteAt body 6 = r.agreement.code ∧
    num2 body 7 = r.shownDigest.toNat ∧ numN body 9 3 = r.pendingKinds.toNat ∧
    (∀ k, k < 19 → num2 body (12 + 2 * k) = r.counts.getD k 0) ∧ num2 body 50 = r.geometryCut ∧
    byteAt body 52 = r.profileSource.code ∧ byteAt body 53 = r.fontSource.code ∧
    num1 body 54 = r.knownFeeders

end Sys2Proof.Machine
end

