-- ==== Sys2Proof/Certificates/Slice0/Obligations.lean ====
section
/-! DEFINITION. The statements for the provers, one definition each; OBLIGATIONS.json gives their titles, their
tiers and the rules they rest on. -/

open Sys2Proof Sys2Proof.Machine

/-! ### The machine as a whole -/

/-- The queue of log entry 1: a step runs the command at its front, and idles where there is none. -/
def Obligations.StepRunsFrontCommand : Prop :=
  (∀ (c : Instr) (rest : List Instr) (s : State),
    step { s with pending := c :: rest } = exec c { s with pending := rest }) ∧
  ∀ s : State, s.pending = [] → step s = .next s

/-- No command stops the part, and none touches the queue (log entries 1 and 2). -/
def Obligations.ExecAnswersNextAndKeepsQueue : Prop :=
  ∀ (c : Instr) (s : State), ∃ t, exec c s = .next t ∧ t.pending = s.pending

/-- The model's choice of log entry 2: a command whose event cannot occur in the state changes nothing. -/
def Obligations.ImpossibleEventsChangeNothing : Prop :=
  (∀ s node strap, s.sc.node ≠ .reset → exec (.resetRelease node strap) s = .next s) ∧
  (∀ s b, s.sc.node ≠ .load ∨ s.sc.loadPosition = none →
    exec (.glyphReadComplete b) s = .next s ∧ exec .glyphReadTimeout s = .next s) ∧
  (∀ s, s.sc.node ≠ .listen ∨ s.sc.listenTimer = false → exec .listenTimerExpiry s = .next s) ∧
  (∀ s bits, s.lc.receiver.state ≠ .discard → exec (.discardEnd bits) s = .next s) ∧
  (∀ s bits, s.lc.receiver.state ≠ .hunt → exec (.startMark bits) s = .next s) ∧
  (∀ s k a g q l, s.lc.receiver.state ≠ .header → exec (.frameHeader k a g q l) s = .next s) ∧
  (∀ s b v, s.lc.receiver.state ≠ .store → s.lc.receiver.state ≠ .foreign →
    s.lc.receiver.state ≠ .skip → s.lc.receiver.state ≠ .lockout →
    exec (.receiveByte b) s = .next s ∧ exec (.frameEnd v) s = .next s) ∧
  (∀ s b, s.lc.receiver.remaining = 0 → exec (.receiveByte b) s = .next s) ∧
  (∀ s v, s.lc.receiver.remaining ≠ 0 → exec (.frameEnd v) s = .next s) ∧
  (∀ s, s.lc.chainDue = none → exec .chainComplete s = .next s) ∧
  (∀ s bits, s.starting → exec (.busyPeriodLimit bits) s = .next s) ∧
  (∀ s, s.lc.watch.busyBits ≠ 5000 ∨ s.lc.watch.reported = true →
    exec (.busyPeriodLimit []) s = .next s) ∧
  (∀ s, s.lc.transmitter.state ≠ .wait ∨ s.lc.lineIdle = false → exec .txAttemptStart s = .next s) ∧
  (∀ s b, s.lc.transmitter.state ≠ .send →
    exec .txSuccess s = .next s ∧ exec (.collision b) s = .next s) ∧
  (∀ s, s.lc.transmitter.state ≠ .jam → exec .jamEnd s = .next s) ∧
  (∀ s, s.lc.transmitter.state ≠ .backoff → exec .backoffEnd s = .next s) ∧
  (∀ s i, i ∈ [Instr.nameApply, .serviceApply, .amendApply, .withdrawApply, .sweepOpen, .sweepClose,
      .clock, .headerOnlyApply] →
    s.tb.state ≠ .working .apply ∨ s.lc.ring.inWork = none → exec i s = .next s) ∧
  (∀ s i, i ∈ [Instr.refreshTableWork, .feederLifetimeTableWork, .sweepLimitTableWork, .tickTableWork] →
    s.tb.state = .free ∨ s.tb.state = .window ∨ s.tb.state = .working .apply → exec i s = .next s) ∧
  (∀ s n, s.tb.find n = none → exec (.refreshTimerExpiry n) s = .next s) ∧
  (∀ s n, s.tb.feeder n = none →
    exec (.feederLifetimeExpiry n) s = .next s ∧ exec (.sweepLimitExpiry n) s = .next s) ∧
  (∀ s, s.tb.time.secondTimer = false → exec .secondTimerExpiry s = .next s) ∧
  (∀ s, s.co.pass ≠ .reading → exec .windowRelease s = .next s) ∧
  (∀ s, s.co.pass ≠ .digesting → exec .composeComplete s = .next s) ∧
  (∀ s i, i ∈ [Instr.digestNotice, .paceNotice, .statusNotice, .dim, .staffNotice, .query, .restart] →
    s.lc.ring.inWork = none → exec i s = .next s) ∧
  (∀ s i, (s.au.peer i).live = false → exec (.peerLifetimeExpiry i) s = .next s) ∧
  (∀ s, s.au.agreementTimer = false → exec .agreementTimerExpiry s = .next s) ∧
  (∀ s, s.au.paceTimer = false → exec .paceTick s = .next s) ∧
  (∀ s, s.au.beaconTimer = false → exec .beaconTimerExpiry s = .next s) ∧
  (∀ s, s.pa.frameTimer = false ∨ s.pa.paint ≠ .waiting → exec .frameEvent s = .next s) ∧
  (∀ s, s.pa.paint ≠ .painting → exec .frameComplete s = .next s) ∧
  (∀ s i, s.ru.timers.getD i false = false → exec (.intervalTimerExpiry i) s = .next s)

/-- The values the spec gives the part while RESET/ is asserted: the reset state has them, and a cold reset
in any state gives them. -/
def Obligations.ColdResetGivesColdResetValues : Prop :=
  State.reset.ColdResetValues ∧
  ∀ s : State, ∃ t, exec .coldReset s = .next t ∧ t.ColdResetValues ∧ t.pending = s.pending ∧
    t.freeCounter = s.freeCounter

/-! ### Invariants -/

/-- Every invariant holds of the reset state. -/
def Obligations.InvariantsHoldAtReset : Prop :=
  State.reset.StartupSound ∧ State.reset.IntakeSound ∧ State.reset.tb.Sound ∧
  State.reset.PlatformsInSet ∧ State.reset.WindowSound ∧ State.reset.AgreementSound ∧
  State.reset.BannerSound ∧ State.reset.ReportsSound

/-- Every step keeps the start-up invariant. -/
def Obligations.StartupInvariantKept : Prop :=
  ∀ s t : State, s.StartupSound → step s = .next t → t.StartupSound

/-- Every step keeps the intake invariant. -/
def Obligations.IntakeInvariantKept : Prop :=
  ∀ s t : State, s.IntakeSound → step s = .next t → t.IntakeSound

/-- Every step keeps the invariant of the tables. -/
def Obligations.TablesInvariantKept : Prop :=
  ∀ s t : State, s.tb.Sound → step s = .next t → t.tb.Sound

/-- Membership in the platform set, and that every step keeps the stored platforms in it. -/
def Obligations.StoredPlatformsStayInSet : Prop :=
  (∀ p, PlatformSet.all.contains p = true) ∧
  (∀ (ms : List Platform) (p : Platform), (PlatformSet.members ms).contains p = true ↔
    p ∈ ms ∨ ∃ m ∈ ms, m.number = p.number ∧ m.suffix = .none) ∧
  (∀ (n : Nat) (x : Suffix), (PlatformSet.members [⟨n, .none⟩]).contains ⟨n, x⟩ = true) ∧
  (∀ (n : Nat) (p : Platform),
    (PlatformSet.members [⟨n, .a⟩]).contains p = true ↔ p = ⟨n, .a⟩) ∧
  (∀ p q : Platform, p.number ≠ q.number ∨ p.suffix ≠ q.suffix → p ≠ q) ∧
  ∀ s t : State, s.StartupSound → s.PlatformsInSet → step s = .next t → t.PlatformsInSet

/-- Every step keeps the arbitration invariant. -/
def Obligations.WindowInvariantKept : Prop :=
  ∀ s t : State, s.WindowSound → step s = .next t → t.WindowSound

/-- Every step keeps the agreement invariant. -/
def Obligations.AgreementInvariantKept : Prop :=
  ∀ s t : State, s.AgreementSound → step s = .next t → t.AgreementSound

/-- Every step keeps the banner invariant. -/
def Obligations.BannerInvariantKept : Prop :=
  ∀ s t : State, s.BannerSound → step s = .next t → t.BannerSound

/-- Every step keeps the report invariant. -/
def Obligations.ReportsInvariantKept : Prop :=
  ∀ s t : State, s.ReportsSound → step s = .next t → t.ReportsSound

/-! ### Reports -/

/-- R179: what one event does, what a list of events does, and that only a cold reset lowers a count. -/
def Obligations.ReportEventCountsAndFlags : Prop :=
  (∀ (s : State) (k : ReportKind), s.ru.counts.length = 19 → s.ru.timers.length = 3 →
    s.prof.intervalOf k < 3 →
    (s.count k).ru.counts.getD k.number 0 =
      (if s.ru.counts.getD k.number 0 < 65535 then s.ru.counts.getD k.number 0 + 1
        else s.ru.counts.getD k.number 0) ∧
    (∀ j : ReportKind, j ≠ k →
      (s.count k).ru.counts.getD j.number 0 = s.ru.counts.getD j.number 0) ∧
    kindBit (s.count k).ru.pending k = true ∧
    (∀ j : ReportKind, j ≠ k → kindBit (s.count k).ru.pending j = kindBit s.ru.pending j) ∧
    (∀ i, (s.count k).ru.timers.getD i false =
      (s.ru.timers.getD i false || (s.maySend && decide (i = s.prof.intervalOf k)))) ∧
    s.count k = { s with ru := { s.ru with
      counts := (s.count k).ru.counts
      pending := (s.count k).ru.pending
      timers := (s.count k).ru.timers } }) ∧
  (∀ (s : State) (ks : List ReportKind), (s.raiseAll ks).ru.counts = countsAfter s.ru.counts ks) ∧
  ∀ (c : Instr) (s t : State), exec c s = .next t → c ≠ .coldReset →
    ∀ k : ReportKind, s.ru.counts.getD k.number 0 ≤ 65535 →
      s.ru.counts.getD k.number 0 ≤ t.ru.counts.getD k.number 0 ∧
      t.ru.counts.getD k.number 0 ≤ 65535

/-- R180: a GEOMETRY_CUT event counts under its own count and acts on the pending flag, mask and interval
timer of PROFILE_DEFAULT; both counts stand in the STATUS body at offsets 44 and 50. -/
def Obligations.GeometryCutActsOnProfileDefault : Prop :=
  (∀ s : State,
    s.countGeometryCut.ru.geometryCut =
      (if s.ru.geometryCut < 65535 then s.ru.geometryCut + 1 else s.ru.geometryCut) ∧
    s.countGeometryCut.ru.counts = s.ru.counts ∧
    s.countGeometryCut.ru.pending = (s.count .profileDefault).ru.pending ∧
    s.countGeometryCut.ru.timers = (s.count .profileDefault).ru.timers ∧
    s.countGeometryCut = { s with ru := { s.ru with
      geometryCut := s.countGeometryCut.ru.geometryCut
      pending := s.countGeometryCut.ru.pending
      timers := s.countGeometryCut.ru.timers } } ∧
    kindBit s.countGeometryCut.ru.pendingField .profileDefault = true) ∧
  ∀ (segment : Nat) (r : StatusReport) (pace : Pace), r.counts.length = 19 →
    (∀ n ∈ r.counts, n ≤ 65535) → r.geometryCut ≤ 65535 →
    num2 ((BoardNotice.status segment r).body pace) 44 = r.counts.getD 16 0 ∧
    num2 ((BoardNotice.status segment r).body pace) 50 = r.geometryCut ∧
    (numN ((BoardNotice.status segment r).body pace) 9 3).testBit 16 =
      kindBit r.pendingKinds .profileDefault

/-- Between one cold or warm reset and the next the pace never moves backwards (R130, R131). -/
def Obligations.PaceNeverMovesBack : Prop :=
  ∀ (c : Instr) (s t : State), exec c s = .next t → c ≠ .coldReset → c ≠ .restart →
    t.au.pace = s.au.pace ∨ paceAhead t.au.pace s.au.pace = true

/-! ### Cyclic comparisons and other computations -/

/-- R13 and R14: editions, sequence numbers, pace values and minutes of day. -/
def Obligations.CyclicComparisons : Prop :=
  (∀ n o : BitVec 8,
    ((n.toNat + 256 - o.toNat) % 256 = 0 ↔ n = o) ∧
    (editionNewer n o = true ↔
      1 ≤ (n.toNat + 256 - o.toNat) % 256 ∧ (n.toNat + 256 - o.toNat) % 256 ≤ 127) ∧
    (editionOlder n o = true ↔
      128 ≤ (n.toNat + 256 - o.toNat) % 256 ∧ (n.toNat + 256 - o.toNat) % 256 ≤ 255) ∧
    ((n.toNat + 256 - o.toNat) % 256 = 128 → editionOlder n o = true ∧ editionOlder o n = true)) ∧
  (∀ (f : Feeder) (q : BitVec 8),
    (∃ e, (f.noted q).expectedSequence = some e ∧ e.toNat = (q.toNat + 1) % 256) ∧
    (f.gap q = true ↔ ∃ e, f.expectedSequence = some e ∧ q ≠ e) ∧
    (f.noted q).gap q = true ∧ (f.noted q).gap (q + 1) = false) ∧
  (∀ q p : Pace,
    (paceAhead q p = true ↔
      1 ≤ (q.toNat + 2 ^ 32 - p.toNat) % 2 ^ 32 ∧ (q.toNat + 2 ^ 32 - p.toNat) % 2 ^ 32 ≤ 2 ^ 31 - 1) ∧
    paceAhead p p = false ∧
    ((q.toNat + 2 ^ 32 - p.toNat) % 2 ^ 32 = 2 ^ 31 →
      paceAhead q p = false ∧ paceAhead p q = false)) ∧
  (∀ t m : Nat, t < 1440 → m < 1440 →
    minuteOffset t m = ((t : Int) - m + 720) % 1440 - 720 ∧
    -720 ≤ minuteOffset t m ∧ minuteOffset t m ≤ 719 ∧
    ((t + 720) % 1440 = m → minuteOffset t m = -720)) ∧
  (∀ (v w : Service) (m : Nat), v.key (some m) < w.key (some m) ↔
    minuteOffset (v.expected.getD v.scheduled) m < minuteOffset (w.expected.getD w.scheduled) m) ∧
  ∀ c : StationTime, c.minute = c.second.map (· / 60)

/-- R168: when a pace step crosses a take boundary, and its take pace. -/
def Obligations.PaceStepCrossesBoundary : Prop :=
  (∀ p0 p1 : Pace,
    (crossesBoundary p0 p1 = true ↔
      ∃ j, 1 ≤ j ∧ j ≤ (p1 - p0).toNat ∧ (p0 + BitVec.ofNat 32 j).toNat % 64 = 0) ∧
    (crossesBoundary p0 p1 = true ↔ 64 - p0.toNat % 64 ≤ (p1 - p0).toNat)) ∧
  (∀ p0 : Pace, crossesBoundary p0 (p0 + 1) = true ↔ (p0 + 1).toNat % 64 = 0) ∧
  (∀ p0 p1 : Pace, crossesBoundary p0 p1 = true →
    ∃ j, 1 ≤ j ∧ j ≤ (p1 - p0).toNat ∧ takePaceOf p1 = p0 + BitVec.ofNat 32 j ∧
      (takePaceOf p1).toNat % 64 = 0 ∧
      ∀ i, j < i → i ≤ (p1 - p0).toNat → (p0 + BitVec.ofNat 32 i).toNat % 64 ≠ 0) ∧
  (∀ p1 : Pace, paceAhead (takePaceOf p1) p1 = false ∧ (p1 - takePaceOf p1).toNat ≤ 63) ∧
  ∀ (bu : Bu) (p : Profile) (shown : Option AdoptedSet) (p0 p1 : Pace), 100 ≤ p.bannerDuration →
    bu.line = .idle →
    (bu.boundary p shown p0 p1).line = .idle ∨
    ∃ b, (bu.boundary p shown p0 p1).banner = some b ∧ (p1 - b.takePace).toNat < b.endMark

/-- R155: where a centred text stands, and that a segment paints no column beyond the board. -/
def Obligations.CentredTextPlace : Prop :=
  (∀ (k : Brush) (c : TextClass) (t : Text) (n x : Nat), textWidth k.glyphs t ≤ k.boardWidth →
    k.centredPixel c t n x =
      if (k.boardWidth - textWidth k.glyphs t) / 2 ≤ x ∧
          x < (k.boardWidth - textWidth k.glyphs t) / 2 + textWidth k.glyphs t
      then k.ink c t n (x - (k.boardWidth - textWidth k.glyphs t) / 2) else 0) ∧
  (∀ (k : Brush) (c : TextClass) (t : Text) (n x : Nat), k.boardWidth < textWidth k.glyphs t →
    x < k.boardWidth → k.centredPixel c t n x = k.ink c t n x) ∧
  ∀ (k : Brush) (f : FrameSample) (line column : Nat), f.node = .listen → 0 < k.height →
    k.geometry.windowBegin ≤ column → column ≤ k.geometry.windowEnd →
    k.geometry.topLine + (k.geometry.rowCount + 1) * k.height ≤ line →
    line < k.geometry.topLine + (k.geometry.rowCount + 2) * k.height →
    k.pixel f line column =
      k.centredPixel .text startingText
        (line - (k.geometry.topLine + (k.geometry.rowCount + 1) * k.height))
        (k.segmentIndex * k.geometry.windowWidth + (column - k.geometry.windowBegin)) ∧
    ∀ count, k.segmentIndex < count →
      k.segmentIndex * k.geometry.windowWidth + (column - k.geometry.windowBegin) <
        count * k.geometry.windowWidth

/-- R158: the brightness in force after a warm restart, a DIM and a cold reset. -/
def Obligations.BrightnessThroughResets : Prop :=
  (∀ (s : State) (c : Chain), s.Restarting c → ∃ t, exec .restart s = .next t ∧
    t.pa.brightness = some s.prof.brightness) ∧
  (∀ (s : State) (c : Chain), s.Delivered .dim c → dimOk c.body = true →
    ∃ t, exec .dim s = .next t ∧ t.pa.brightness = some (num1 c.body 0)) ∧
  (∀ s : State, ∃ t, exec .coldReset s = .next t ∧ t.pa.brightness = none ∧ t.pa.paint = .dark) ∧
  ∀ s t : State, s.StartupSound → step s = .next t → t.starting →
    t.pa.brightness = none ∧ t.pa.paint = .dark

/-- The frame of a board notice, read by the receiving side: its header passes, its check passes, its body is
well-formed and every field reads back as it was written (R2 to R5, R11, R12, R17, R33). -/
def Obligations.BoardFramesReadBack : Prop :=
  ∀ (n : BoardNotice) (pace : Pace) (node group : Nat), n.InRange → 1 ≤ node → node ≤ 62 →
    1 ≤ group → group ≤ 15 →
    let bytes := frameBytes n pace node group
    let header := headerOf bytes
    let body := (bytes.drop 5).take header.length.toNat
    header.examine = some n.kind ∧ header.sender.toNat = node ∧ header.group.toNat = group ∧
    header.sequence = 0 ∧ bytes.length = 5 + header.length.toNat + 2 ∧
    num2 bytes (5 + header.length.toNat) =
      (~~~ (crcFeed crcStart (header.bytes ++ body))).toNat ∧
    boardNoticeOk n.kind body = true ∧ countsAgree n.kind body = true ∧ paceAt body 1 = pace ∧
    n.ReadBack body

/-! ### Start-up -/

/-- The release of RESET/ (R189, R190): the straps are held, and the reads begin or both substitutes are
taken and LOAD ends at once. -/
def Obligations.ResetReleaseSamplesStraps : Prop :=
  (∀ (s : State) (node : BitVec 6), s.sc.node = .reset →
    exec (.resetRelease node true) s = .next { s with sc := { s.sc with
      node := .load, nodeNumber := node, glyphStrap := true, loadPosition := some 0 } }) ∧
  ∀ (s : State) (node : BitVec 6), s.StartupSound → s.sc.node = .reset →
    ∃ t, exec (.resetRelease node false) s = .next t ∧ t.sc.nodeNumber = node ∧
      t.sc.glyphStrap = false ∧ t.sc.profileSource = some .builtIn ∧ t.sc.fontSource = some .builtIn ∧
      EntersListen s t defaultProfile 7 fallbackGlyphs

/-- The profile read (R190, R192): a byte before the last goes on, the last byte settles the block, a timeout
fails it; the font read follows in each case. -/
def Obligations.ProfileReadSettlesProfile : Prop :=
  ∀ (s : State) (a : Nat) (b : Byte), s.sc.node = .load → s.sc.loadPosition = some a → a < 64 →
    (a + 1 < 64 → exec (.glyphReadComplete b) s = .next { s with sc := { s.sc with
      profileBytes := s.sc.profileBytes ++ [b], loadPosition := some (a + 1) } }) ∧
    (a = 63 → blockPasses (s.sc.profileBytes ++ [b]) = true →
      exec (.glyphReadComplete b) s = .next { s with sc := { s.sc with
        profileBytes := s.sc.profileBytes ++ [b]
        profile := some (profileOfBlock (s.sc.profileBytes ++ [b]))
        profileSource := some .read
        loadPosition := some 64 } }) ∧
    (a = 63 → blockPasses (s.sc.profileBytes ++ [b]) = false →
      exec (.glyphReadComplete b) s = .next { s with sc := { s.sc with
        profile := some defaultProfile, profileSource := some .builtIn, loadPosition := some 64 } }) ∧
    exec .glyphReadTimeout s = .next { s with sc := { s.sc with
      profile := some defaultProfile, profileSource := some .builtIn, loadPosition := some 64 } }

/-- The font read (R190, R195, R196): a header out of range, a record or check word that fails, and a timeout
give the fallback font; a font that passes stands; either way LOAD ends there. Any other byte goes on, and
whole records stand in the glyph store as they are read. -/
def Obligations.FontReadEndsLoad : Prop :=
  ∀ (s : State) (a : Nat) (b : Byte) (p : Profile), s.StartupSound → s.sc.node = .load →
    s.sc.loadPosition = some a → 64 ≤ a → s.sc.profile = some p →
    (∃ t, exec .glyphReadTimeout s = .next t ∧ t.sc.fontSource = some .builtIn ∧
      EntersListen s t p 7 fallbackGlyphs) ∧
    ((s.sc.fontBytes ++ [b]).length = 4 → fontHeaderOk (s.sc.fontBytes ++ [b]) = false →
      ∃ t, exec (.glyphReadComplete b) s = .next t ∧ t.sc.fontSource = some .builtIn ∧
        EntersListen s t p 7 fallbackGlyphs) ∧
    ((s.sc.fontBytes ++ [b]).length = fontSize (num1 (s.sc.fontBytes ++ [b]) 0) →
      fontPasses (s.sc.fontBytes ++ [b]) = true →
      ∃ t, exec (.glyphReadComplete b) s = .next t ∧ t.sc.fontSource = some .read ∧
        EntersListen s t p (num1 (s.sc.fontBytes ++ [b]) 0)
          (fontGlyphs (s.sc.fontBytes ++ [b]) (num1 (s.sc.fontBytes ++ [b]) 0))) ∧
    ((s.sc.fontBytes ++ [b]).length = fontSize (num1 (s.sc.fontBytes ++ [b]) 0) →
      fontPasses (s.sc.fontBytes ++ [b]) = false →
      ∃ t, exec (.glyphReadComplete b) s = .next t ∧ t.sc.fontSource = some .builtIn ∧
        EntersListen s t p 7 fallbackGlyphs) ∧
    ((s.sc.fontBytes ++ [b]).length ≠ fontSize (num1 (s.sc.fontBytes ++ [b]) 0) →
      ¬((s.sc.fontBytes ++ [b]).length = 4 ∧ fontHeaderOk (s.sc.fontBytes ++ [b]) = false) →
      exec (.glyphReadComplete b) s = .next { s with
        sc := { s.sc with
          fontBytes := s.sc.fontBytes ++ [b], loadPosition := some (a + 1) }
        pa := { s.pa with glyphs := recordsRead (s.sc.fontBytes ++ [b]) } })

/-- The entry to RUN (R133, R181 to R186, R197): the start-up kinds are counted, flagged and their marks clear; the
interval timers of pending kinds run, and where an unmasked one is bound to an interval of length 0 one STATUS of
all of them is sent off; the beacon timer runs, and a compose is requested, whose pass begins at once where the
Composer is IDLE, no swap is pending and the tables are FREE. That the expiries the start-up kinds cause come
before R185's start of the other timers is log entry 9. -/
def Obligations.ListenExpiryEntersRun : Prop :=
  ∀ (s : State) (up : List ReportKind) (raised pends : ReportKind → Prop),
    s.sc.node = .listen → s.sc.listenTimer = true →
    up = (if s.ru.marks.profileDefault then [.profileDefault] else []) ++
      (if s.ru.marks.fontFallback then [.fontFallback] else []) ++
      (if s.ru.marks.restarted then [.restarted] else []) →
    (∀ k, raised k ↔ k ∈ up ∨ (s.ru.marks.geometryCut = true ∧ k = .profileDefault)) →
    (∀ k, pends k ↔ kindBit s.ru.pending k = true ∨ raised k) →
    ∃ t, exec .listenTimerExpiry s = .next t ∧
      t.sc = { s.sc with node := .run, listenTimer := false } ∧
      t.au = { s.au with beaconTimer := true, sent := false } ∧
      t.ru.marks = ⟨false, false, false, false⟩ ∧ t.ru.counts = countsAfter s.ru.counts up ∧
      t.ru.geometryCut = (if s.ru.marks.geometryCut then bump s.ru.geometryCut else s.ru.geometryCut) ∧
      (s.sc.nodeNumber = 0 ∨ s.sc.nodeNumber = 63 → true ∉ s.ru.timers →
        t.ru.timers = s.ru.timers ∧ t.lc = s.lc ∧ t.ru.listed = s.ru.listed ∧
        ∀ k, kindBit t.ru.pending k = true ↔ pends k) ∧
      (1 ≤ s.sc.nodeNumber.toNat → s.sc.nodeNumber.toNat ≤ 62 → s.ru.timers = [false, false, false] →
        ((∀ i k, i < 3 → s.prof.intervalLengths.getD i 0 = 0 → s.prof.intervalOf k = i → pends k →
            kindBit s.prof.masks k = true) →
          t.lc = s.lc ∧ t.ru.listed = s.ru.listed ∧
          (∀ k, kindBit t.ru.pending k = true ↔ pends k) ∧
          ∀ i, i < 3 → (t.ru.timers.getD i false = true ↔
            s.prof.intervalLengths.getD i 0 ≠ 0 ∧ ∃ k, s.prof.intervalOf k = i ∧ pends k)) ∧
        (s.lc.transmitter.state = .idle → s.lc.queue = [] →
          (∃ i k, i < 3 ∧ s.prof.intervalLengths.getD i 0 = 0 ∧ s.prof.intervalOf k = i ∧ pends k ∧
            kindBit s.prof.masks k = false) →
          (∃ r, t.lc = { s.lc with
              transmitter := ⟨.wait, some (.status s.prof.segmentIndex r), 0, 0, [], false⟩ } ∧
            s.DescribedBy r ∧ r.counts = t.ru.counts ∧ r.geometryCut = t.ru.geometryCut ∧
            ∀ k, kindBit r.pendingKinds k = true ↔ pends k ∨ kindBit s.ru.listed k = true) ∧
          t.ru.listed = 0 ∧
          (∀ k, kindBit t.ru.pending k = true ↔ pends k ∧ kindBit s.prof.masks k = true) ∧
          ∀ early : Prop, (early ↔ ∃ i first k, i < 3 ∧ s.prof.intervalLengths.getD i 0 = 0 ∧
              s.prof.intervalOf first = i ∧ raised first ∧ s.prof.intervalOf k = i ∧ pends k ∧
              kindBit s.prof.masks k = false) →
            ∀ j, j < 3 → (t.ru.timers.getD j false = true ↔
              s.prof.intervalLengths.getD j 0 ≠ 0 ∧ ∃ k, s.prof.intervalOf k = j ∧ pends k ∧
                (early → raised k ∨ kindBit s.prof.masks k = true)))) ∧
      (t.co.request = true ∨ t.co.pass = .reading) ∧
      (s.co.pass = .idle → s.pa.swapPending = false → s.tb.state = .free →
        t.co = { s.co with request := false, pass := .reading, working := [], nameMiss := false } ∧
        t.tb = { s.tb with state := .window }) ∧
      (s.co.pass ≠ .idle → t.co = { s.co with request := true } ∧ t.tb = s.tb) ∧
      TablesKept s t ∧ t.tb.feeders = s.tb.feeders ∧ t.tb.staleOrder = s.tb.staleOrder ∧
      t.lc.receiver = s.lc.receiver ∧ t.lc.fifo = s.lc.fifo ∧ t.lc.ring = s.lc.ring ∧
      t.lc.watch = s.lc.watch ∧ t.pa = s.pa ∧ t.bu = s.bu ∧ t.pending = s.pending

/-! ### Reception -/

/-- R16: DISCARD counts 1 bits, any 0 sets the count back, 32 in a row lead to HUNT. Bits taken in two parts act
as the bits in a row, and HEADER takes none of them. In HUNT the bits of a start pattern lead to HEADER with the
header register and the check register set; bits with which one may begin leave HUNT as it is; after a bit that
breaks the pattern the receiver looks afresh from that bit. That the commands carry sampled bits is log entry 16,
and that LINE_STUCK of R30 is raised at the bit that reaches the limit is log entry 17. -/
def Obligations.DiscardAndHuntFollowTheLine : Prop :=
  (∀ s : State, s.lc.receiver.state = .discard → s.lc.receiver.ones < 32 →
    (∃ t, exec (.discardEnd [false]) s = .next t ∧
      t.lc.receiver = { s.lc.receiver with ones := 0 } ∧ ReceiverOnly s t 1) ∧
    ∃ t, exec (.discardEnd [true]) s = .next t ∧ ReceiverOnly s t 1 ∧
      (s.lc.receiver.ones + 1 < 32 →
        t.lc.receiver = { s.lc.receiver with ones := s.lc.receiver.ones + 1 }) ∧
      (s.lc.receiver.ones + 1 = 32 →
        t.lc.receiver = { s.lc.receiver with state := .hunt, ones := 32, hunt := ⟨0, false, 0⟩ })) ∧
  (∀ (s t : State) (a b : List Bool),
    (s.lc.receiver.state = .discard → exec (.discardEnd a) s = .next t →
      exec (.discardEnd (a ++ b)) s =
        if t.lc.receiver.state = .discard then exec (.discardEnd b) t
        else if t.lc.receiver.state = .hunt then exec (.startMark b) t else .next t) ∧
    (s.lc.receiver.state = .hunt → exec (.startMark a) s = .next t →
      exec (.startMark (a ++ b)) s =
        if t.lc.receiver.state = .hunt then exec (.startMark b) t else .next t)) ∧
  ∀ (s : State) (bits : List Bool), s.lc.receiver.state = .hunt →
    s.lc.receiver.hunt = ⟨0, false, 0⟩ →
    (StartPattern bits → ∃ t, exec (.startMark bits) s = .next t ∧ ReceiverOnly s t bits.length ∧
      t.lc.receiver = { s.lc.receiver with
        state := .header, headerRegister := ⟨0, 0, 0, 0, 0⟩, checkRegister := 0xFFFF
        hunt := t.lc.receiver.hunt }) ∧
    (BeginsPattern bits → ¬StartPattern bits →
      (∃ t, exec (.startMark bits) s = .next t ∧ ReceiverOnly s t bits.length ∧
        t.lc.receiver = { s.lc.receiver with hunt := t.lc.receiver.hunt }) ∧
      ∀ b, ¬BeginsPattern (bits ++ [b]) → ∀ rest t u,
        exec (.startMark (bits ++ b :: rest)) s = .next t → exec (.startMark (b :: rest)) s = .next u →
        t.lc.receiver = u.lc.receiver)

/-- The header and the receiver after its 40 bits (R17). What FRAME_HEADER carries is log entry 16. That the watch
counts those 40 bits at this command, that LINE_STUCK comes before LINE_CRC where they reach the limit, and that the
line may be idle in the last of them where the header fails, is log entry 17, and that the header register keeps the five
bytes of a header that fails, and in STORE and LOCKOUT, is log entry 29; all three are the model's choice. -/
def Obligations.HeaderExamination : Prop :=
  (∀ (h : Header) (k : NoticeKind), h.examine = some k ↔
    noticeKind h.kind = some k ∧ 1 ≤ h.sender.toNat ∧ h.sender.toNat ≤ 62 ∧
    (if k = .digest ∨ k = .pace ∨ k = .status then 1 ≤ h.group.toNat ∧ h.group.toNat ≤ 15
      else h.group.toNat ≤ 15) ∧
    (match k with
      | .name => 4 ≤ h.length.toNat ∧ h.length.toNat ≤ 217
      | .service => 16 ≤ h.length.toNat ∧ h.length.toNat ≤ 176 ∧ (h.length.toNat - 16) % 4 = 0
      | .amend => h.length = 9
      | .withdraw | .sweepClose | .clock => h.length = 3
      | .sweepOpen | .dim | .query | .restart => h.length = 1
      | .staff => 3 ≤ h.length.toNat ∧ h.length.toNat ≤ 99
      | .digest => h.length = 16
      | .pace => h.length = 5
      | .status => h.length = 55)) ∧
  (∀ (code : Byte) (k : NoticeKind), noticeKind code = some k ↔
    (code, k) ∈ [((0x01 : Byte), NoticeKind.name), (0x02, .service), (0x03, .amend), (0x04, .withdraw),
      (0x05, .sweepOpen), (0x06, .sweepClose), (0x07, .clock), (0x08, .staff), (0x09, .dim),
      (0x0A, .query), (0x0B, .restart), (0x41, .digest), (0x42, .pace), (0x43, .status)]) ∧
  (∀ (h : Header) (q : Byte), { h with sequence := q }.examine = h.examine) ∧
  (∀ (s : State) (k a g q l : Byte), s.lc.receiver.state = .header →
    ∃ t, exec (.frameHeader k a g q l) s = .next t ∧
      t.lc.receiver.checkRegister = crcFeed s.lc.receiver.checkRegister [k, a, g, q, l] ∧
      (t.lc.receiver.state ≠ .skip → t.lc.receiver.headerRegister = ⟨k, a, g, q, l⟩)) ∧
  ∀ (s : State) (k a g q l : Byte), s.lc.receiver.state = .header →
    (⟨k, a, g, q, l⟩ : Header).examine = none →
    ∀ u, u = s.watchEnd ([k, a, g, q, l].flatMap byteBits) →
    ∃ t, exec (.frameHeader k a g q l) s = .next t ∧
      t.lc.receiver =
        { state := .discard
          headerRegister := ⟨k, a, g, q, l⟩
          checkRegister := crcFeed s.lc.receiver.checkRegister [k, a, g, q, l]
          ones := 0
          remaining := l.toNat
          hunt := s.lc.receiver.hunt } ∧
      Reported u t [.lineCrc] ∧ t.lc.watch = u.lc.watch ∧ t.lc.fifo = s.lc.fifo ∧
      t.lc.ring = s.lc.ring ∧ t.sc = s.sc ∧ t.tb = s.tb ∧ t.co = s.co ∧ t.au = s.au ∧ t.pa = s.pa ∧
      t.bu = s.bu ∧ t.pending = s.pending

/-- What a passing header leads to (R18, R22, R24): SKIP, FOREIGN, STORE with the five bytes in the ring or
in the FIFO, or the loss of the frame to overflow. A chain still due is completed first (log entry 12). The watch has
counted the 40 bits before that, with LINE_STUCK where they reach the limit (R30, log entry 17). What the header
register holds in SKIP, STORE and LOCKOUT is log entry 29. -/
def Obligations.PassingHeaderDecides : Prop :=
  ∀ (s : State) (k a g q l : Byte) (kind : NoticeKind) (r : Receiver) (u : State),
    s.lc.receiver.state = .header →
    (⟨k, a, g, q, l⟩ : Header).examine = some kind →
    r = { s.lc.receiver with
      headerRegister := ⟨k, a, g, q, l⟩
      checkRegister := crcFeed s.lc.receiver.checkRegister [k, a, g, q, l]
      remaining := l.toNat } →
    u = s.watchBits ([k, a, g, q, l].flatMap byteBits) →
    (kind.isBoard = true → g.toNat ≠ s.prof.group →
      exec (.frameHeader k a g q l) s = .next { u with lc := { u.lc with
        receiver := { r with state := .skip, headerRegister := ⟨0, 0, 0, 0, 0⟩ } } }) ∧
    (kind.isBoard = false → kind ≠ .query → kind ≠ .restart → g.toNat ≠ 0 → g.toNat ≠ s.prof.group →
      exec (.frameHeader k a g q l) s = .next { u with lc := { u.lc with
        receiver := { r with state := .foreign } } }) ∧
    ((if kind.isBoard then g.toNat = s.prof.group
        else kind = .query ∨ kind = .restart ∨ g.toNat = 0 ∨ g.toNat = s.prof.group) →
      (s.lc.fifo = [] → s.lc.ring.filling = none → s.lc.ring.used < 24 →
        exec (.frameHeader k a g q l) s = .next { u with lc := { u.lc with
          receiver := { r with state := .store }
          ring := { u.lc.ring with filling := some ⟨false, false, [k, a, g, q, l]⟩ } } }) ∧
      (s.lc.fifo = [] → s.lc.ring.filling = none → 24 ≤ s.lc.ring.used →
        exec (.frameHeader k a g q l) s = .next { u with lc := { u.lc with
          receiver := { r with state := .store }
          fifo := [k, a, g, q, l]
          ring := { u.lc.ring with filling := some ⟨false, false, []⟩ } } }) ∧
      (s.lc.fifo ≠ [] →
        exec (.frameHeader k a g q l) s = .next ({ u with lc := { u.lc with
          receiver := { r with state := .lockout } } }.raise .intakeOverflow)) ∧
      (∀ f, s.lc.fifo = [] → s.lc.ring.filling = some f → f.passed = true →
        ∃ t, exec (.frameHeader k a g q l) s = .next t ∧
          t.lc.receiver = { r with state := .store } ∧ t.lc.watch = u.lc.watch ∧
          t.lc.ring.inWork = u.completeDue.lc.ring.inWork ∧
          t.lc.ring.ready = u.completeDue.lc.ring.ready ∧
          (u.completeDue.lc.ring.used < 24 →
            t.lc.ring.filling = some ⟨false, false, [k, a, g, q, l]⟩ ∧ t.lc.fifo = [])))

/-- A body byte (R19, R21, R22, R24): in STORE it reaches its slot, waits in the FIFO while the next slot is
not FREE, or overflows a FIFO of 48 bytes; in FOREIGN it is checked; in SKIP and LOCKOUT it is dropped. The watch
has counted its bits before that, with LINE_STUCK where they reach the limit (R30, log entry 17). -/
def Obligations.BodyByteFollowsFrame : Prop :=
  ∀ (s : State) (b : Byte) (r : Receiver) (u : State), s.lc.receiver.remaining ≠ 0 →
    r = { s.lc.receiver with
      checkRegister := crcFeed s.lc.receiver.checkRegister [b]
      remaining := s.lc.receiver.remaining - 1 } →
    u = s.watchBits (byteBits b) →
    (s.lc.receiver.state = .store → ∀ f, s.lc.ring.filling = some f →
      (s.lc.fifo = [] → f.bytes.length % 64 ≠ 0 ∨ s.lc.ring.used < 24 →
        exec (.receiveByte b) s = .next { u with lc := { u.lc with
          receiver := r
          ring := { u.lc.ring with filling := some { f with bytes := f.bytes ++ [b] } } } }) ∧
      (s.lc.fifo.length < 48 → f.bytes.length % 64 = 0 → 24 ≤ s.lc.ring.used →
        exec (.receiveByte b) s = .next { u with lc := { u.lc with
          receiver := r
          fifo := u.lc.fifo ++ [b] } }) ∧
      (48 ≤ s.lc.fifo.length →
        exec (.receiveByte b) s = .next ({ u with lc := { u.lc with
          receiver := { r with state := .lockout }
          fifo := []
          ring := { u.lc.ring with filling := none } } }.raise .intakeOverflow))) ∧
    (s.lc.receiver.state = .foreign →
      exec (.receiveByte b) s = .next { u with lc := { u.lc with receiver := r } }) ∧
    (s.lc.receiver.state = .skip ∨ s.lc.receiver.state = .lockout →
      exec (.receiveByte b) s = .next { u with lc := { u.lc with
        receiver := { s.lc.receiver with remaining := s.lc.receiver.remaining - 1 } } })

/-- The end of a frame (R19, R20, R25, R26). The watch has counted the 16 check bits before that, with LINE_STUCK
where they reach the limit; in the last of them the line may be idle (R30, log entry 17). What the header register
holds after the frame is log entry 29. -/
def Obligations.FrameEndDecides : Prop :=
  ∀ (s : State) (v : Digest) (r : Receiver) (u : State), s.lc.receiver.remaining = 0 →
    r = { s.lc.receiver with state := .hunt, hunt := ⟨0, false, 0⟩ } →
    u = s.watchEnd ((toLe 2 v.toNat).flatMap byteBits) →
    (s.lc.receiver.state = .store → ∀ f, s.lc.ring.filling = some f →
      (v = ~~~ s.lc.receiver.checkRegister →
        exec (.frameEnd v) s = .next { u with lc := { u.lc with
          receiver := r
          ring := { u.lc.ring with filling := some { f with passed := true } } } }) ∧
      (v ≠ ~~~ s.lc.receiver.checkRegister →
        exec (.frameEnd v) s = .next ({ u with lc := { u.lc with
          receiver := r
          fifo := []
          ring := { u.lc.ring with filling := none } } }.raise .lineCrc))) ∧
    (s.lc.receiver.state = .foreign →
      (v = ~~~ s.lc.receiver.checkRegister → s.lc.fifo = [] → s.lc.ring.filling = none →
        s.lc.ring.used < 24 →
        exec (.frameEnd v) s = .next { u with lc := { u.lc with
          receiver := { r with headerRegister := ⟨0, 0, 0, 0, 0⟩ }
          ring := { u.lc.ring with
            filling := some ⟨true, true, s.lc.receiver.headerRegister.bytes⟩ } } }) ∧
      (v = ~~~ s.lc.receiver.checkRegister → s.lc.fifo = [] → s.lc.ring.filling = none →
        24 ≤ s.lc.ring.used →
        exec (.frameEnd v) s = .next { u with lc := { u.lc with
          receiver := { r with headerRegister := ⟨0, 0, 0, 0, 0⟩ }
          fifo := s.lc.receiver.headerRegister.bytes
          ring := { u.lc.ring with filling := some ⟨true, true, []⟩ } } }) ∧
      (v = ~~~ s.lc.receiver.checkRegister → s.lc.fifo ≠ [] →
        exec (.frameEnd v) s = .next ({ u with lc := { u.lc with
          receiver := { r with headerRegister := ⟨0, 0, 0, 0, 0⟩ } } }.raise .intakeOverflow)) ∧
      (v ≠ ~~~ s.lc.receiver.checkRegister →
        exec (.frameEnd v) s = .next ({ u with lc := { u.lc with
          receiver := { r with headerRegister := ⟨0, 0, 0, 0, 0⟩ } } }.raise .lineCrc))) ∧
    (s.lc.receiver.state = .skip ∨ s.lc.receiver.state = .lockout →
      exec (.frameEnd v) s = .next { u with lc := { u.lc with
        receiver := r } })

/-- The completion of a stored chain and the dispatch (R25, R27, R48): where its counts agree the chain is
READY at the newest end, or is at once IN-WORK where no other is; otherwise it is freed with LINE_CRC. -/
def Obligations.ChainCompletesAndIsDispatched : Prop :=
  ∀ (s : State) (f : Filling) (c : Chain), s.lc.ring.filling = some f → f.passed = true →
    s.lc.fifo = [] → c = ⟨f.headerOnly, f.bytes⟩ →
    (f.agrees = false →
      exec .chainComplete s = .next ({ s with lc := { s.lc with
        ring := { s.lc.ring with filling := none } } }.raise .lineCrc)) ∧
    (f.agrees = true → s.lc.ring.inWork.isSome = true →
      exec .chainComplete s = .next { s with lc := { s.lc with
        ring := { s.lc.ring with filling := none, ready := s.lc.ring.ready ++ [c] } } }) ∧
    (f.agrees = true → s.lc.ring.inWork = none → s.lc.ring.ready = [] → c.forTables = false →
      exec .chainComplete s = .next { s with lc := { s.lc with
        ring := { s.lc.ring with filling := none, inWork := some c } } }) ∧
    (f.agrees = true → s.lc.ring.inWork = none → s.lc.ring.ready = [] → c.forTables = true →
      exec .chainComplete s = .next { s with
        lc := { s.lc with ring := { s.lc.ring with filling := none, inWork := some c } }
        tb := if s.tb.state = .free then { s.tb with state := .working .apply }
          else { s.tb with waitingApply := true } }) ∧
    (f.agrees = true → s.lc.ring.inWork = none → ∀ d rest, s.lc.ring.ready = d :: rest →
      ∃ t, exec .chainComplete s = .next t ∧ t.lc.ring.inWork = some d ∧
        t.lc.ring.ready = rest ++ [c] ∧ t.lc.ring.filling = none)

/-- The completion of a delivered notice (R21, R24, R27, R29): its slots are FREE, the FIFO drains as far as
slots are FREE and loses no byte, and the oldest READY chain is IN-WORK. -/
def Obligations.CompletionFreesAndDrains : Prop :=
  ∀ (s : State) (c : Chain), s.lc.ring.inWork = some c →
    s.completeNotice.lc.ring.inWork = s.lc.ring.ready.head? ∧
    s.completeNotice.lc.ring.ready = s.lc.ring.ready.drop 1 ∧
    s.completeNotice.lc.ring.oldest = (s.lc.ring.oldest + slotsFor c.bytes.length) % 24 ∧
    (s.lc.ring.filling = none →
      s.completeNotice.lc.ring.filling = none ∧ s.completeNotice.lc.fifo = s.lc.fifo) ∧
    (∀ f, s.lc.ring.filling = some f → ∃ g, s.completeNotice.lc.ring.filling = some g ∧
      g.headerOnly = f.headerOnly ∧ g.passed = f.passed ∧
      g.bytes ++ s.completeNotice.lc.fifo = f.bytes ++ s.lc.fifo ∧
      (s.completeNotice.lc.fifo ≠ [] →
        g.bytes.length % 64 = 0 ∧ 24 ≤ s.completeNotice.lc.ring.used)) ∧
    ((∃ d, s.completeNotice.lc.ring.inWork = some d ∧ d.forTables = true) →
      s.completeNotice.tb = if s.tb.state = .free then { s.tb with state := .working .apply }
        else { s.tb with waitingApply := true }) ∧
    ((¬∃ d, s.completeNotice.lc.ring.inWork = some d ∧ d.forTables = true) →
      s.completeNotice.tb = s.tb) ∧
    s.completeNotice = { s with
      lc := { s.lc with
        ring := s.completeNotice.lc.ring, fifo := s.completeNotice.lc.fifo }
      tb := s.completeNotice.tb }

/-- The line-busy watch (R30): the line is idle after 64 bit times at 1 outside a frame; a busy period is counted
from the bit time that ended the idle line and ends with the next idle line; where it reaches 5000 bit times
LINE_STUCK is raised once for it, with the bits of whichever command reach the limit, and also where the line is idle
by the end of that command. In LISTEN and RUN BUSY_PERIOD_LIMIT completes with LINE_STUCK where the period stands at
the limit unreported, and where the bits it carries bring it there: bits of DISCARD or HUNT in which the line does
not come to rest and no header begins before the last, or the first bits of the header, body byte or check bits in
reception. Those are counted once: the later command counts the rest. That the counts are held up to those limits, that the line commands carry the bits and
raise it, and that the line may be idle in the last bit of a frame, is the model's choice (log entries 16 and 17). -/
def Obligations.BusyPeriodReportedOnce : Prop :=
  (∀ lc : Lc, lc.lineIdle = true ↔ lc.watch.idleRun = 64 ∧
    lc.receiver.state ∉ [ReceiverState.header, .store, .foreign, .skip, .lockout]) ∧
  (∀ (w : Watch) (bits : List Bool), bits ≠ [] →
    (w.follow bits).busyBits = min 5000 (w.busyBits + bits.length) ∧
    (w.follow bits).reported = w.reported ∧
    (64 ≤ bits.length → ((w.follow bits).idleRun = 64 ↔
      bits.drop (bits.length - 64) = List.replicate 64 true)) ∧
    ∀ n, bits.getLast? = some false → n ≤ 64 →
      (w.follow (bits ++ List.replicate n true)).idleRun = n) ∧
  (∀ w : Watch, w.settle false = if w.idleRun = 64 then ⟨64, 0, false, w.ahead⟩ else w) ∧
  (∀ (s : State) (bits : List Bool), WatchStands s (s.watchBits bits)
    ({ s.lc.watch with ahead := 0 }.follow (bits.drop s.lc.watch.ahead))) ∧
  (∀ (s : State) (bits : List Bool) (b : Bool), WatchStands (s.watchBits bits) (s.watchEnd (bits ++ [b]))
    (((s.watchBits bits).lc.watch.follow [b]).settle false)) ∧
  (∀ (s : State) (b : Byte) (v : Digest),
    s.lc.receiver.state = .skip ∨ s.lc.receiver.state = .lockout → s.lc.watch.reported = false →
    (s.lc.receiver.remaining ≠ 0 → s.lc.watch.ahead < 8 →
      5000 ≤ s.lc.watch.busyBits + (8 - s.lc.watch.ahead) →
      ∃ t, exec (.receiveByte b) s = .next t ∧ Reported s t [.lineStuck]) ∧
    (s.lc.receiver.remaining = 0 → s.lc.watch.ahead < 15 →
      5000 ≤ s.lc.watch.busyBits + (15 - s.lc.watch.ahead) →
      ∃ t, exec (.frameEnd v) s = .next t ∧ Reported s t [.lineStuck])) ∧
  (∀ (s : State) (b : Bool) (i : Instr),
    (s.lc.receiver.state = .discard ∧ i = .discardEnd [b]) ∨
      (s.lc.receiver.state = .hunt ∧ i = .startMark [b]) →
    ∃ t, exec i s = .next t ∧ WatchStands { s with lc := { s.lc with receiver := t.lc.receiver } } t
      (if b = true ∧ 63 ≤ s.lc.watch.idleRun ∧ t.lc.receiver.state ≠ .header
        then ⟨64, 0, false, s.lc.watch.ahead⟩
        else ⟨if b then min 64 (s.lc.watch.idleRun + 1) else 0, min 5000 (s.lc.watch.busyBits + 1),
          s.lc.watch.reported, s.lc.watch.ahead⟩)) ∧
  (∀ (s t : State) (bits : List Bool), s.started →
    (if s.lc.receiver.state = .discard then exec (.discardEnd bits) s = .next t
      else if s.lc.receiver.state = .hunt then exec (.startMark bits) s = .next t
      else t = s ∧ (bits = [] ∨ s.lc.receiver.state = .off ∨ s.lc.receiver.state = .suspended)) →
    ∃ u, exec (.busyPeriodLimit bits) s = .next u ∧ WatchStands t u t.lc.watch) ∧
  (∀ (s : State) (bits : List Bool), s.started →
    bits = [] ∨ s.lc.receiver.state = .off ∨ s.lc.receiver.state = .suspended →
    s.lc.watch.busyBits = 5000 → s.lc.watch.reported = false →
    exec (.busyPeriodLimit bits) s = .next ({ s with lc := { s.lc with
      watch := { s.lc.watch with reported := true } } }.raise .lineStuck)) ∧
  (∀ (s : State) (bits : List Bool), s.started → s.lc.receiver.state ∈ [ReceiverState.discard, .hunt] →
    bits ≠ [] → s.lc.watch.busyBits + bits.length = 5000 → s.lc.watch.reported = false →
    (∀ n, n ≤ bits.length → (s.lc.watch.follow (bits.take n)).idleRun < 64) →
    (∀ n, n < bits.length → (s.sampleBits (bits.take n)).lc.receiver.state ≠ .header) →
    ∃ t, exec (.busyPeriodLimit bits) s = .next t ∧ Reported s t [.lineStuck] ∧
      t.lc.watch = { s.lc.watch.follow bits with reported := true } ∧
      t.lc.receiver = (s.sampleBits bits).lc.receiver ∧ ReceiverOnly s t bits.length) ∧
  (∀ (s : State) (bits : List Bool) (w : Watch), s.started →
    s.lc.receiver.state ∈ [ReceiverState.header, .store, .foreign, .skip, .lockout] →
    s.lc.watch.ahead + bits.length < (if s.lc.receiver.state = .header then 40
      else if s.lc.receiver.remaining = 0 then 16 else 8) →
    w = { s.lc.watch.follow bits with ahead := s.lc.watch.ahead + bits.length } →
    ∃ t, exec (.busyPeriodLimit bits) s = .next t ∧ WatchStands s t w) ∧
  ∀ (s : State) (b : Byte) (n : Nat), s.started →
    s.lc.receiver.state ∈ [ReceiverState.foreign, .skip, .lockout] → s.lc.receiver.remaining ≠ 0 →
    s.lc.watch.ahead + n < 8 →
    ∃ t u v, exec (.busyPeriodLimit (((byteBits b).drop s.lc.watch.ahead).take n)) s = .next t ∧
      exec (.receiveByte b) t = .next u ∧ exec (.receiveByte b) s = .next v ∧
      u.lc.watch = v.lc.watch ∧ u.ru.counts = v.ru.counts ∧ u.lc.receiver = v.lc.receiver

/-! ### Transmission -/

/-- An attempt and its success (R15, R32, R33, R133): in WAIT on an idle line the receiver is SUSPENDED and the
frame with the present pace is sent; at its end the notice is discarded and the oldest queued one taken. -/
def Obligations.AttemptStartAndSuccess : Prop :=
  (∀ (s : State) (n : BoardNotice), s.lc.transmitter.state = .wait → s.lc.transmitter.notice = some n →
    s.sc.node = .run → 1 ≤ s.sc.nodeNumber.toNat → s.sc.nodeNumber.toNat ≤ 62 →
    (s.lc.watch.idleRun = 64 →
      s.lc.receiver.state ∉ [ReceiverState.header, .store, .foreign, .skip, .lockout] →
      exec .txAttemptStart s = .next { s with
        lc := { s.lc with
          receiver := { s.lc.receiver with state := .suspended }
          transmitter := { s.lc.transmitter with
            state := .send
            attempts := s.lc.transmitter.attempts + 1
            frame := frameBytes n s.au.pace s.sc.nodeNumber.toNat s.prof.group }
          watch := ⟨0, 0, false, 0⟩ }
        au := { s.au with sent := true } }) ∧
    (s.lc.watch.idleRun ≠ 64 ∨
        s.lc.receiver.state ∈ [ReceiverState.header, .store, .foreign, .skip, .lockout] →
      exec .txAttemptStart s = .next s)) ∧
  ∀ s : State, s.lc.transmitter.state = .send →
    ∃ t, exec .txSuccess s = .next t ∧
      t = { s with
        lc := { s.lc with
          receiver := { s.lc.receiver with state := .discard, ones := 0 }
          queue := t.lc.queue
          transmitter := t.lc.transmitter
          watch := { s.lc.watch with
            idleRun := 0
            busyBits := min 5000
              (s.lc.watch.busyBits + (frameBits s.lc.transmitter.frame).length) } }
        ru := { s.ru with listed := t.ru.listed } } ∧
      (s.lc.queue = [] → t.lc.queue = [] ∧ t.lc.transmitter = ⟨.idle, none, 0, 0, [], false⟩ ∧
        t.ru.listed = s.ru.listed) ∧
      ∀ n rest, s.lc.queue = n :: rest → s.sc.node = .run → 1 ≤ s.sc.nodeNumber.toNat →
        s.sc.nodeNumber.toNat ≤ 62 →
        t.lc.queue = rest ∧ t.lc.transmitter = ⟨.wait, some n, 0, 0, [], false⟩ ∧
        t.ru.listed = if n.kind = .status then 0 else s.ru.listed

/-- A collision and what follows (R15, R34, R35, R36): JAM; at its end a late collision gives up the notice
with TX_LATE, an early one backs off below 10 attempts and gives up with TX_GIVEUP at the tenth. The number
drawn lies in its range whatever the free values of log entry 5. -/
def Obligations.CollisionJamAndBackoff : Prop :=
  (∀ (s : State) (bit : Nat), s.lc.transmitter.state = .send →
    (frameBits s.lc.transmitter.frame)[bit]? = some true →
    exec (.collision bit) s = .next { s with lc := { s.lc with
      transmitter := { s.lc.transmitter with state := .jam, frame := [], late := decide (58 ≤ bit) }
      watch := { s.lc.watch with
        idleRun := 0, busyBits := min 5000 (s.lc.watch.busyBits + (bit + 1)) } } }) ∧
  (∀ (s : State) (r : Nat), s.lc.transmitter.state = .jam → s.lc.transmitter.late = false →
    s.lc.transmitter.attempts < 10 → r = backoffSlots s.freeCounter s.lc.transmitter.attempts →
    r < 2 ^ min s.lc.transmitter.attempts 5 ∧
    exec .jamEnd s = .next { s with
      lc := { s.lc with
        receiver := { s.lc.receiver with state := .discard, ones := 0 }
        transmitter := { s.lc.transmitter with state := if r = 0 then .wait else .backoff, slots := r }
        watch := { s.lc.watch with idleRun := 0, busyBits := min 5000 (s.lc.watch.busyBits + 16) } }
      freeCounter := s.freeCounter + 1 }) ∧
  (∀ (s : State) (k : ReportKind), s.lc.transmitter.state = .jam →
    (s.lc.transmitter.late = true ∧ k = .txLate ∨
      s.lc.transmitter.late = false ∧ 10 ≤ s.lc.transmitter.attempts ∧ k = .txGiveup) →
    ∃ t, exec .jamEnd s = .next t ∧
      t.lc.receiver = { s.lc.receiver with state := .discard, ones := 0 } ∧
      t.lc.watch =
        { s.lc.watch with idleRun := 0, busyBits := min 5000 (s.lc.watch.busyBits + 16) } ∧
      t.ru.counts = countsAfter s.ru.counts [k] ∧ t.lc.transmitter.attempts = 0 ∧
      (t.lc.transmitter.state = .idle ∧ t.lc.transmitter.notice = none ∨
        t.lc.transmitter.state = .wait ∧ t.lc.transmitter.notice.isSome = true) ∧
      (∀ n rest, s.lc.queue = n :: rest → s.sc.node = .run → 1 ≤ s.sc.nodeNumber.toNat →
        s.sc.nodeNumber.toNat ≤ 62 →
        ∃ m, m.kind = n.kind ∧ t.lc.transmitter = ⟨.wait, some m, 0, 0, [], false⟩) ∧
      t.lc.fifo = s.lc.fifo ∧ t.lc.ring = s.lc.ring ∧ t.sc = s.sc ∧ t.tb = s.tb ∧ t.co = s.co ∧
      t.au = s.au ∧ t.pa = s.pa ∧ t.bu = s.bu ∧ t.pending = s.pending ∧
      t.freeCounter = s.freeCounter) ∧
  ∀ s : State, s.lc.transmitter.state = .backoff →
    exec .backoffEnd s = .next { s with lc := { s.lc with transmitter := { s.lc.transmitter with
      state := .wait, slots := 0 } } }

/-- An offer to the transmit queue (R31, R32, R183). That an IDLE transmitter takes at the moment of the offer
is the order of log entry 10. -/
def Obligations.OfferIntoTransmitQueue : Prop :=
  ∀ (s : State) (n : BoardNotice),
    (s.maySend = false → s.offer n = s) ∧
    (s.maySend = true ↔ s.sc.node = .run ∧ s.sc.nodeNumber ≠ 0 ∧ s.sc.nodeNumber ≠ 63) ∧
    (s.maySend = true → s.lc.transmitter.state ≠ .idle →
      ((∀ m ∈ s.lc.queue, m.kind ≠ n.kind) →
        s.offer n = { s with lc := { s.lc with queue := s.lc.queue ++ [n] } }) ∧
      ((∃ m ∈ s.lc.queue, m.kind = n.kind) → n.kind = .pace → s.offer n = s) ∧
      ((∃ m ∈ s.lc.queue, m.kind = n.kind) → n.kind ≠ .pace →
        s.offer n = { s with lc := { s.lc with
          queue := s.lc.queue.map fun m => if m.kind = n.kind then n else m } })) ∧
    (s.maySend = true → s.lc.transmitter.state = .idle → s.lc.queue = [] →
      s.offer n = { s with
        lc := { s.lc with transmitter := ⟨.wait, some n, 0, 0, [], false⟩ }
        ru := { s.ru with listed := if n.kind = .status then 0 else s.ru.listed } })

/-! ### Table notices -/

/-- NAME and CLOCK (R44, R82): the definitions are taken in order, an empty text undefines a name; a CLOCK
sets the second, the age and the elapsed seconds, and clears the stale flag. -/
def Obligations.NameAndClockApplied : Prop :=
  (∀ (s : State) (c : Chain) (ds : List (Nat × Text)), s.Applying .name c →
    nameDefinitions c.body = some ds → (∀ d ∈ ds, definitionOk d = true) →
    ∃ t, exec .nameApply s = .next t ∧
      (∀ n, nameText t.tb.names n =
        ((ds.filter fun d => d.1 == n).getLast?.map fun d => d.2).getD (nameText s.tb.names n)) ∧
      Applied s t c [] [] (decide (t.tb.names ≠ s.tb.names)) ∧
      (s.tb.NamesSound →
        (t.tb.names = s.tb.names ↔ ∀ n, nameText t.tb.names n = nameText s.tb.names n)) ∧
      t.tb.services = s.tb.services ∧ t.tb.pool = s.tb.pool ∧ t.tb.refusals = s.tb.refusals ∧
      t.tb.time = s.tb.time ∧ FeedersNoted s t c) ∧
  ∀ (s : State) (c : Chain), s.Applying .clock c → clockSecond c.body < 86400 →
    ∃ t, exec .clock s = .next t ∧ t.tb.time = ⟨some (clockSecond c.body), 0, 0, false, true⟩ ∧
      Applied s t c [] [] (decide (s.tb.time.second.map (· / 60) ≠ some (clockSecond c.body / 60))) ∧
      t.tb.services = s.tb.services ∧ t.tb.pool = s.tb.pool ∧ t.tb.names = s.tb.names ∧
      t.tb.refusals = s.tb.refusals ∧ FeedersNoted s t c

/-- A SERVICE whose service is not stored (R42, R45, R46, R52, R53, R57, R76): refused, or stored into a free
entry with cells from the front of the free list. -/
def Obligations.ServiceStoredOrRefused : Prop :=
  ∀ (s : State) (c : Chain) (r : ServiceRecord), s.Applying .service c → serviceOk c.body = true →
    r = serviceRecord c.body → s.tb.find r.number = none →
    (s.prof.platforms.contains r.platform = false →
      ∃ t, exec .serviceApply s = .next t ∧ Applied s t c [] [] false ∧
        t.tb.refusals = refusedNewest r.number s.tb.refusals ∧ t.tb.services = s.tb.services ∧
        t.tb.pool = s.tb.pool ∧ t.tb.names = s.tb.names ∧ t.tb.time = s.tb.time ∧
        SweepCounted s t c) ∧
    (s.prof.platforms.contains r.platform = true → s.tb.services.length < 64 →
      ∃ t chain, exec .serviceApply s = .next t ∧
        chain = s.tb.pool.free.take r.stops.length ∧
        t.tb.find r.number = some
          { number := r.number, edition := r.edition, owner := c.sender, platform := r.platform
            scheduled := r.scheduled, expected := r.expected, status := r.status
            destination := r.destination, via := r.via, coaches := r.coaches, chain := chain
            cut := decide (chain.length < r.stops.length), mark := true, refresh := .running } ∧
        OthersStand s t r.number ∧ t.tb.services.length = s.tb.services.length + 1 ∧
        t.tb.pool.free = s.tb.pool.free.drop r.stops.length ∧
        (s.tb.ServicesSound →
          chain.map (fun k => t.tb.pool.cells[k]?) = (r.stops.take chain.length).map some ∧
          ∀ k, k ∉ chain → t.tb.pool.cells[k]? = s.tb.pool.cells[k]?) ∧
        t.tb.refusals = s.tb.refusals.erase r.number ∧ t.tb.names = s.tb.names ∧
        t.tb.time = s.tb.time ∧ SweepCounted s t c ∧
        Applied s t c (if s.tb.pool.free.length < r.stops.length then [.poolCut] else [])
          (storeMessages s.prof.delayThreshold (decide (r.number ∈ s.tb.refusals)) r) true)

/-- A SERVICE for a full service table (R40, R52, R54): the latest stored service gives way, with its
RELEASE-ALL and TABLE_FULL, or the notice is dropped where no stored service is later than its own. That the
RELEASE-ALL stands before the newcomer's messages is log entry 23. -/
def Obligations.FullTableEvictsLatest : Prop :=
  ∀ (s : State) (c : Chain) (r : ServiceRecord) (v : Service), s.Applying .service c →
    serviceOk c.body = true → r = serviceRecord c.body → s.tb.find r.number = none →
    s.prof.platforms.contains r.platform = true → s.tb.ServicesSound → s.tb.services.length = 64 →
    v ∈ s.tb.services →
    (∀ w ∈ s.tb.services, w.number ≠ v.number →
      laterThan (v.key s.tb.time.minute) v.number (w.key s.tb.time.minute) w.number = true) →
    (laterThan (v.key s.tb.time.minute) v.number
        (displayKey s.tb.time.minute r.scheduled r.expected) r.number = true →
      ∃ t, exec .serviceApply s = .next t ∧ t.tb.find v.number = none ∧
        t.tb.find r.number =
          some (r.entry c.sender ((v.chain ++ s.tb.pool.free).take r.stops.length)) ∧
        (∀ m, m ≠ v.number → m ≠ r.number → t.tb.find m = s.tb.find m) ∧
        t.tb.services.length = 64 ∧
        t.tb.pool.free = (v.chain ++ s.tb.pool.free).drop r.stops.length ∧
        t.tb.refusals = s.tb.refusals.erase r.number ∧ t.tb.names = s.tb.names ∧
        t.tb.time = s.tb.time ∧ SweepCounted s t c ∧
        Applied s t c
          (.tableFull :: if v.chain.length + s.tb.pool.free.length < r.stops.length then [.poolCut]
            else [])
          (.releaseAll v.number ::
            storeMessages s.prof.delayThreshold (decide (r.number ∈ s.tb.refusals)) r) true) ∧
    (laterThan (v.key s.tb.time.minute) v.number
        (displayKey s.tb.time.minute r.scheduled r.expected) r.number = false →
      ∃ t, exec .serviceApply s = .next t ∧ TablesKept s t ∧ SweepCounted s t c ∧
        Applied s t c [.tableFull] [] false)

/-- A SERVICE for a stored service (R46, R52, R55, R56, R58, R60, R76): an older edition changes nothing, a
platform outside the set removes the service and refuses it, a newer edition replaces the contents, an equal
edition sets mark and owner and restarts the refresh timer. -/
def Obligations.StoredServiceUpdated : Prop :=
  ∀ (s : State) (c : Chain) (r : ServiceRecord) (old : Service), s.Applying .service c →
    serviceOk c.body = true → r = serviceRecord c.body → s.tb.find r.number = some old →
    (editionOlder r.edition old.edition = true →
      ∃ t, exec .serviceApply s = .next t ∧ OnlyNoted s t c []) ∧
    (editionOlder r.edition old.edition = false → s.prof.platforms.contains r.platform = false →
      ∃ t, exec .serviceApply s = .next t ∧ Removed s t old ∧
        t.tb.refusals = refusedNewest r.number s.tb.refusals ∧ SweepCounted s t c ∧
        Applied s t c [] [.releaseAll r.number] true) ∧
    (editionNewer r.edition old.edition = true → s.prof.platforms.contains r.platform = true →
      ∃ t, exec .serviceApply s = .next t ∧
        t.tb.find r.number =
          some (r.entry c.sender ((old.chain ++ s.tb.pool.free).take r.stops.length)) ∧
        OthersStand s t r.number ∧
        t.tb.pool.free = (old.chain ++ s.tb.pool.free).drop r.stops.length ∧
        t.tb.refusals = s.tb.refusals ∧ t.tb.names = s.tb.names ∧ t.tb.time = s.tb.time ∧
        SweepCounted s t c ∧
        Applied s t c
          (if old.chain.length + s.tb.pool.free.length < r.stops.length then [.poolCut] else [])
          (changeMessages s.prof.delayThreshold old
            (r.entry c.sender ((old.chain ++ s.tb.pool.free).take r.stops.length))) true) ∧
    (r.edition = old.edition → s.prof.platforms.contains r.platform = true →
      ∃ t, exec .serviceApply s = .next t ∧
        t.tb.find r.number = some { old with mark := true, owner := c.sender, refresh := .running } ∧
        OthersStand s t r.number ∧ t.tb.pool = s.tb.pool ∧ t.tb.refusals = s.tb.refusals ∧
        t.tb.names = s.tb.names ∧ t.tb.time = s.tb.time ∧ SweepCounted s t c ∧
        Applied s t c [] [] false)

/-- An AMEND (R8, R46, R59): ORPHAN without an entry, nothing for an edition that is not newer, removal and
refusal for a platform outside the set, otherwise the fields its change mask selects. -/
def Obligations.AmendApplied : Prop :=
  ∀ (s : State) (c : Chain) (a : Amendment), s.Applying .amend c → amendOk c.body = true →
    a = amendment c.body →
    (s.tb.find a.number = none → ∃ t, exec .amendApply s = .next t ∧ OnlyNoted s t c [.orphan]) ∧
    ∀ old, s.tb.find a.number = some old →
      (editionNewer a.edition old.edition = false →
        ∃ t, exec .amendApply s = .next t ∧ OnlyNoted s t c []) ∧
      (editionNewer a.edition old.edition = true →
        s.prof.platforms.contains (a.platform.getD old.platform) = false →
        ∃ t, exec .amendApply s = .next t ∧ Removed s t old ∧
          t.tb.refusals = refusedNewest a.number s.tb.refusals ∧ FeedersNoted s t c ∧
          Applied s t c [] [.releaseAll a.number] true) ∧
      (editionNewer a.edition old.edition = true →
        s.prof.platforms.contains (a.platform.getD old.platform) = true →
        ∃ t new, exec .amendApply s = .next t ∧ t.tb.find a.number = some new ∧
          new = { old with
            edition := a.edition
            platform := a.platform.getD old.platform
            expected := a.expected.getD old.expected
            status :=
              if a.status.getD old.status = .expected ∧ a.expected.getD old.expected = none
              then .delayed else a.status.getD old.status
            refresh := .running } ∧
          OthersStand s t a.number ∧ t.tb.pool = s.tb.pool ∧ t.tb.refusals = s.tb.refusals ∧
          t.tb.names = s.tb.names ∧ t.tb.time = s.tb.time ∧ FeedersNoted s t c ∧
          Applied s t c [] (changeMessages s.prof.delayThreshold old new) true)

/-- R62: a WITHDRAW removes the entry for an equal or newer edition, whatever its sender, and is discarded
otherwise; the refusal list stands. -/
def Obligations.WithdrawApplied : Prop :=
  ∀ (s : State) (c : Chain), s.Applying .withdraw c → num2 c.body 0 ≠ 0 →
    (∀ old, s.tb.find (num2 c.body 0) = some old → editionOlder (byteAt c.body 2) old.edition = false →
      ∃ t, exec .withdrawApply s = .next t ∧ Removed s t old ∧ t.tb.refusals = s.tb.refusals ∧
        FeedersNoted s t c ∧ Applied s t c [] [.releaseAll old.number] true) ∧
    (s.tb.find (num2 c.body 0) = none ∨
      (∃ old, s.tb.find (num2 c.body 0) = some old ∧
        editionOlder (byteAt c.body 2) old.edition = true) →
      ∃ t, exec .withdrawApply s = .next t ∧ OnlyNoted s t c [])

/-- A body that is not well-formed leaves the tables, raises LINE_CRC, and its header note stands (R51, R71). -/
def Obligations.MalformedTableNotices : Prop :=
  ∀ (s : State) (c : Chain) (i : Instr),
    (s.Applying .name c ∧ i = .nameApply ∧
        (nameDefinitions c.body = none ∨
          ∃ ds d, nameDefinitions c.body = some ds ∧ d ∈ ds ∧ definitionOk d = false)) ∨
      (s.Applying .service c ∧ i = .serviceApply ∧ serviceOk c.body = false) ∨
      (s.Applying .amend c ∧ i = .amendApply ∧ amendOk c.body = false) ∨
      (s.Applying .withdraw c ∧ i = .withdrawApply ∧ num2 c.body 0 = 0) ∨
      (s.Applying .clock c ∧ i = .clock ∧ 86400 ≤ clockSecond c.body) →
    ∃ t, exec i s = .next t ∧ OnlyNoted s t c [.lineCrc]

/-! ### Feeders and sweeps -/

/-- The header note (R71 to R74): a feeder is found, revived, learnt, or takes the longest stale entry; with no
entry to take FEEDER_FULL is raised; another sequence number than expected raises SEQ_GAP and spoils an open
sweep; the lifetime timer runs afresh. -/
def Obligations.HeaderNoteTracksFeeder : Prop :=
  ∀ (tb : Tb) (n : Nat) (q : BitVec 8), tb.FeedersSound →
    (∀ f, tb.feeder n = some f →
      ((tb.note n q).1.feeder n = some { f with
        expectedSequence := some (q + 1)
        spoiled := f.spoiled || (f.sweeping && (f.expectedSequence.any fun e => e != q))
        lifetime := .running }) ∧
      (tb.note n q).1.staleOrder = tb.staleOrder.filter (fun m => m ≠ n) ∧
      (tb.note n q).2 = if (f.expectedSequence.any fun e => e != q) then [.seqGap] else []) ∧
    (tb.feeder n = none → tb.feeders.length < 8 →
      (tb.note n q).1.feeder n = some ⟨n, some (q + 1), false, 0, 0, false, .running, .stopped⟩ ∧
      (tb.note n q).1.knownFeeders = tb.knownFeeders + 1 ∧
      (tb.note n q).1.staleOrder = tb.staleOrder ∧ (tb.note n q).2 = []) ∧
    (tb.feeder n = none → tb.feeders.length = 8 → ∀ old rest, tb.staleOrder = old :: rest →
      (tb.note n q).1.feeder n = some ⟨n, some (q + 1), false, 0, 0, false, .running, .stopped⟩ ∧
      (tb.note n q).1.feeder old = none ∧ (tb.note n q).1.knownFeeders = 8 ∧
      (tb.note n q).1.staleOrder = rest ∧ (tb.note n q).2 = [] ∧
      ∀ m, m ≠ n → m ≠ old → (tb.note n q).1.feeder m = tb.feeder m) ∧
    (tb.feeder n = none → tb.feeders.length = 8 → tb.staleOrder = [] →
      tb.note n q = (tb, [.feederFull])) ∧
    (tb.feeder n ≠ none ∨ tb.feeders.length < 8 →
      ∀ m, m ≠ n → (tb.note n q).1.feeder m = tb.feeder m)

/-- SWEEP-OPEN and a header-only chain (R71, R75, R76): the sweep opens with its epoch and the marks of the
sender's services clear; a header-only SERVICE adds to the sweep count and touches no table. -/
def Obligations.SweepOpenAndHeaderOnly : Prop :=
  (∀ (s : State) (c : Chain), s.Applying .sweepOpen c →
    ∃ t, exec .sweepOpen s = .next t ∧
      (((s.noted c).1.feeder c.sender).isSome = true →
        t.tb.services =
          s.tb.services.map (fun v => if v.owner = c.sender then { v with mark := false } else v)) ∧
      ((s.noted c).1.feeder c.sender = none → t.tb.services = s.tb.services) ∧
      t.tb.feeders = (s.noted c).1.feeders.map (fun f => if f.node = c.sender
        then { f with
          sweeping := true, epoch := byteAt c.body 0, count := 0, spoiled := false, limit := .running }
        else f) ∧
      t.tb.staleOrder = (s.noted c).1.staleOrder ∧ t.tb.pool = s.tb.pool ∧ t.tb.names = s.tb.names ∧
      t.tb.refusals = s.tb.refusals ∧ t.tb.time = s.tb.time ∧ Applied s t c [] [] false) ∧
  ∀ (s : State) (c : Chain), s.tb.state = .working .apply → s.lc.ring.inWork = some c →
    c.headerOnly = true →
    ∃ t, exec .headerOnlyApply s = .next t ∧ TablesKept s t ∧ Applied s t c [] [] false ∧
      (c.kind = some .service → SweepCounted s t c) ∧
      (c.kind ≠ some .service → FeedersNoted s t c)

/-- A SWEEP-CLOSE (R77, R78): without an open sweep of its epoch nothing; spoiled or with another count the
sweep ends with SWEEP_SPOILED; otherwise the sender's unmarked services are removed. -/
def Obligations.SweepCloseDecided : Prop :=
  ∀ (s : State) (c : Chain), s.Applying .sweepClose c →
    ((s.noted c).1.feeder c.sender = none ∨
      (∃ f, (s.noted c).1.feeder c.sender = some f ∧
        (f.sweeping = false ∨ f.epoch ≠ byteAt c.body 0)) →
      ∃ t, exec .sweepClose s = .next t ∧ OnlyNoted s t c []) ∧
    ∀ f, (s.noted c).1.feeder c.sender = some f → f.sweeping = true → f.epoch = byteAt c.body 0 →
      (f.spoiled = true ∨ f.count ≠ num2 c.body 1 →
        ∃ t, exec .sweepClose s = .next t ∧ TablesKept s t ∧
          t.tb.feeders = (s.noted c).1.feeders.map (fun g => if g.node = c.sender
            then { g with sweeping := false, spoiled := false, limit := .stopped } else g) ∧
          t.tb.staleOrder = (s.noted c).1.staleOrder ∧ Applied s t c [.sweepSpoiled] [] false) ∧
      (f.spoiled = false → f.count = num2 c.body 1 → s.tb.ServicesSound →
        ∃ t gone, exec .sweepClose s = .next t ∧
          gone = s.tb.services.filter (fun v => v.owner == c.sender && !v.mark) ∧
          t.tb.services = s.tb.services.filter (fun v => !(v.owner == c.sender && !v.mark)) ∧
          t.tb.pool.cells = s.tb.pool.cells ∧
          t.tb.pool.free.Perm (gone.flatMap (fun v => v.chain) ++ s.tb.pool.free) ∧
          t.tb.feeders = (s.noted c).1.feeders.map (fun g => if g.node = c.sender
            then { g with sweeping := false, spoiled := false, limit := .stopped } else g) ∧
          t.tb.staleOrder = (s.noted c).1.staleOrder ∧ t.tb.names = s.tb.names ∧
          t.tb.refusals = s.tb.refusals ∧ t.tb.time = s.tb.time ∧
          Applied s t c [] (gone.map fun v => .releaseAll v.number) (decide (gone ≠ [])))

/-! ### Timers and the arbitration of the tables -/

/-- The expiries of the TB timers (R48, R61, R74, R79, R83): each claims a table work, at once on FREE tables. -/
def Obligations.TimerExpiriesClaim : Prop :=
  (∀ (s : State) (n : Nat) (v : Service), s.tb.find n = some v → v.refresh = .running →
    ∃ t, exec (.refreshTimerExpiry n) s = .next t ∧ t = { s with tb := t.tb } ∧
      Claimed s.tb t.tb (.refresh n) (.refresh n true) ∧ t.tb.feeders = s.tb.feeders ∧
      t.tb.time = s.tb.time ∧ t.tb.find n = some { v with refresh := .expired } ∧
      OthersStand s t n) ∧
  (∀ (s : State) (n : Nat) (f : Feeder), s.tb.feeder n = some f → f.lifetime = .running →
    ∃ t, exec (.feederLifetimeExpiry n) s = .next t ∧ t = { s with tb := t.tb } ∧
      Claimed s.tb t.tb (.lifetime n) (.lifetime n) ∧ t.tb.services = s.tb.services ∧
      t.tb.time = s.tb.time ∧
      t.tb.feeders = s.tb.feeders.map fun g => if g.node = n then { g with lifetime := .expired } else g) ∧
  (∀ (s : State) (n : Nat) (f : Feeder), s.tb.feeder n = some f → f.limit = .running →
    ∃ t, exec (.sweepLimitExpiry n) s = .next t ∧ t = { s with tb := t.tb } ∧
      Claimed s.tb t.tb (.sweepLimit n) (.sweepLimit n) ∧ t.tb.services = s.tb.services ∧
      t.tb.time = s.tb.time ∧
      t.tb.feeders = s.tb.feeders.map fun g => if g.node = n then { g with limit := .expired } else g) ∧
  ∀ s : State, s.tb.time.secondTimer = true →
    ∃ t, exec .secondTimerExpiry s = .next t ∧ t = { s with tb := t.tb } ∧
      Claimed s.tb t.tb .tick .tick ∧ t.tb.services = s.tb.services ∧ t.tb.feeders = s.tb.feeders ∧
      t.tb.time = { s.tb.time with elapsed := min 255 (s.tb.time.elapsed + 1) }

/-- The table works of expiries that find something to do (R60, R61, R74, R79, R83, R84). -/
def Obligations.ExpiryWorksComplete : Prop :=
  (∀ (s : State) (n : Nat) (v : Service), s.tb.state = .working (.refresh n true) →
    s.tb.find n = some v →
    ∃ t, exec .refreshTableWork s = .next t ∧ Removed s t v ∧ t.tb.refusals = s.tb.refusals ∧
      t.tb.feeders = s.tb.feeders ∧ t.tb.staleOrder = s.tb.staleOrder ∧
      t.bu = (s.bu.take s.prof (.releaseAll n)).1 ∧ ExpiryFrame s t [] true) ∧
  (∀ (s : State) (n : Nat) (f : Feeder), s.tb.state = .working (.lifetime n) →
    s.tb.feeder n = some f → f.lifetime = .expired →
    ∃ t, exec .feederLifetimeTableWork s = .next t ∧ TablesKept s t ∧
      t.tb.feeders = s.tb.feeders.map (fun g => if g.node = n
        then { g with
          expectedSequence := none
          sweeping := false
          spoiled := g.spoiled && !g.sweeping
          lifetime := .stopped
          limit := if g.sweeping then .stopped else g.limit }
        else g) ∧
      t.tb.staleOrder = s.tb.staleOrder ++ [n] ∧ t.bu = s.bu ∧ ExpiryFrame s t [] false) ∧
  (∀ (s : State) (n : Nat) (f : Feeder), s.tb.state = .working (.sweepLimit n) →
    s.tb.feeder n = some f → f.sweeping = true → f.limit = .expired →
    ∃ t, exec .sweepLimitTableWork s = .next t ∧ TablesKept s t ∧
      t.tb.feeders = s.tb.feeders.map (fun g => if g.node = n
        then { g with sweeping := false, spoiled := false, limit := .stopped } else g) ∧
      t.tb.staleOrder = s.tb.staleOrder ∧ t.bu = s.bu ∧ ExpiryFrame s t [.sweepSpoiled] false) ∧
  ∀ (s : State) (second age : Nat), s.tb.state = .working .tick → s.tb.time.second = some second →
    0 < s.tb.time.elapsed → age = min 900 (s.tb.time.age + s.tb.time.elapsed) →
    ∃ t, exec .tickTableWork s = .next t ∧
      t.tb.time = ⟨some ((second + s.tb.time.elapsed) % 86400), 0, age,
        s.tb.time.stale || decide (age = 900), s.tb.time.secondTimer⟩ ∧
      t.tb.services = s.tb.services ∧ t.tb.pool = s.tb.pool ∧ t.tb.names = s.tb.names ∧
      t.tb.refusals = s.tb.refusals ∧ t.tb.feeders = s.tb.feeders ∧
      t.tb.staleOrder = s.tb.staleOrder ∧ t.bu = s.bu ∧
      ExpiryFrame s t (if age = 900 ∧ s.tb.time.stale = false then [.clockStale] else [])
        (decide (second / 60 ≠ (second + s.tb.time.elapsed) % 86400 / 60))

/-- The arbitration (R49, R50, R90 to R92), and the table works of expiries that find nothing to do, after which
it alone acts (R61, R74, R79, R83). Which of several waiting works begins is a free value (log entry 4). -/
def Obligations.ArbitrationSettlesClaims : Prop :=
  (∀ s : State, s.tb.windowRequest = true → s.pa.swapPending = false →
    s.arbitrate = { s with
      tb := { s.tb with windowRequest := false, state := .window }
      co := { s.co with request := false, pass := .reading, working := [], nameMiss := false } }) ∧
  (∀ s : State, s.tb.windowRequest = true → s.pa.swapPending = true →
    s.arbitrate = { s with
      tb := { s.tb with windowRequest := false }
      co := { s.co with pass := .idle } }.beginWaiting) ∧
  (∀ s : State, s.tb.windowRequest = false → s.arbitrate = s.beginWaiting) ∧
  (∀ s : State, s.tb.waitingApply = false → s.tb.waiting = [] →
    s.beginWaiting = { s with tb := { s.tb with state := .free } }) ∧
  (∀ s : State, s.tb.waitingApply = true ∨ s.tb.waiting ≠ [] →
    ∃ n, n ≤ s.freeCounter + 1 ∧
      (s.tb.waitingApply = true ∧
          s.beginWaiting = { s with
            tb := { s.tb with state := .working .apply, waitingApply := false }
            freeCounter := n } ∨
        ∃ e ∈ s.tb.waiting, s.beginWaiting = { s with
          tb := { s.tb with state := .working (s.tb.workOf e), waiting := s.tb.waiting.erase e }
          freeCounter := n })) ∧
  (∀ s : State, ¬(s.started ∧ s.co.pass = .idle ∧ s.co.request = true ∧ s.pa.swapPending = false) →
    s.askWindow = s) ∧
  (∀ s : State, s.started → s.co.pass = .idle → s.co.request = true → s.pa.swapPending = false →
    (s.tb.state = .free → s.askWindow = { s with
      tb := { s.tb with state := .window }
      co := { s.co with request := false, pass := .reading, working := [], nameMiss := false } }) ∧
    (s.tb.state ≠ .free → s.askWindow = { s with
      tb := { s.tb with windowRequest := true }
      co := { s.co with pass := .asking } })) ∧
  (∀ (s : State) (n : Nat), s.tb.workOf (.refresh n) =
    .refresh n (decide (∃ v, s.tb.find n = some v ∧ v.refresh = .expired))) ∧
  (∀ (s : State) (n : Nat) (live : Bool), s.tb.state = .working (.refresh n live) →
    live = false ∨ s.tb.find n = none → exec .refreshTableWork s = .next s.arbitrate) ∧
  (∀ (s : State) (n : Nat), s.tb.state = .working (.lifetime n) →
    (∀ f, s.tb.feeder n = some f → f.lifetime ≠ .expired) →
    exec .feederLifetimeTableWork s = .next s.arbitrate) ∧
  (∀ (s : State) (n : Nat), s.tb.state = .working (.sweepLimit n) →
    (∀ f, s.tb.feeder n = some f → f.sweeping = false ∨ f.limit ≠ .expired) →
    exec .sweepLimitTableWork s = .next s.arbitrate) ∧
  ∀ s : State, s.tb.state = .working .tick → s.tb.time.second = none ∨ s.tb.time.elapsed = 0 →
    exec .tickTableWork s = .next s.arbitrate

/-! ### Composing -/

/-- The end of the reading stage (R93, R97 to R104, R110): the services shown are the first of the selected ones
in their order, row 1 is LEAD or the phrase, and the rest FOLLOW and BLANK. -/
def Obligations.WindowReleaseBuildsRows : Prop :=
  ∀ (s : State) (board : List Service), s.co.pass = .reading → 1 ≤ s.geometry.rowCount →
    board = boardServices s.tb.services s.tb.time.minute s.prof.hideMinutes s.geometry.rowCount →
    (∀ v, v ∈ board → v ∈ s.tb.services ∧ v.status ≠ .departed ∧
      ∀ m, s.tb.time.minute = some m →
        -(s.prof.hideMinutes : Int) ≤ minuteOffset (v.expected.getD v.scheduled) m) ∧
    board.length = min s.geometry.rowCount
      (s.tb.services.filter fun v => v.selected s.tb.time.minute s.prof.hideMinutes).length ∧
    ((s.tb.services.map fun v => v.number).Nodup →
      board.Pairwise (fun v w => rowBefore s.tb.time.minute v w = true) ∧
      ∀ w ∈ s.tb.services, w.selected s.tb.time.minute s.prof.hideMinutes = true → w ∉ board →
        ∀ v ∈ board, rowBefore s.tb.time.minute v w = true) ∧
    ∃ rows miss, exec .windowRelease s = .next { s with
        co := { s.co with pass := .digesting, working := rows, nameMiss := s.co.nameMiss || miss }
        }.beginWaiting ∧
      rows.length = s.geometry.rowCount ∧
      (board = [] → miss = false ∧
        rows = .phrase noDeparturesText :: List.replicate (s.geometry.rowCount - 1) .blank) ∧
      ∀ v rest, board = v :: rest →
        (rows = .lead (serviceRowOf s.prof s.tb.names v) (callingLine s.prof s.tb v).1
            (textWidth s.pa.glyphs (callingLine s.prof s.tb v).1) ::
          (rest.map (fun w => .follow (serviceRowOf s.prof s.tb.names w)) ++
            List.replicate (s.geometry.rowCount - 1 - rest.length) .blank)) ∧
        (miss = true ↔ (callingLine s.prof s.tb v).2 = true ∨
          ∃ w ∈ board, nameText s.tb.names w.destination = [] ∨
            ∃ n, w.via = some n ∧ nameText s.tb.names n = [])

/-- The completion of a pass (R95, R111, R112, R119 to R121, R123 to R127): in LISTEN the set is kept and not
taken; in RUN its DIGEST is offered, and it is adopted, awaited, or found equal to the shown set. That NAME_MISS is
taken before the AU takes the completion, as R95 does not order its points, is log entry 26, the model's choice. -/
def Obligations.ComposeCompletes : Prop :=
  (∀ (s : State) (c : ComposedSet), s.co.pass = .digesting →
    c = ⟨s.co.working,
      crcValue (digestSequence s.geometry.rowCount s.boardWidth s.prof.segmentCount s.co.working),
      s.co.number + 1, s.geometry.rowCount, s.boardWidth⟩ →
    ∃ t, exec .composeComplete s = .next t ∧ t.co.composed = some c ∧ t.co.number = c.number ∧
      t.sc = s.sc ∧ t.bu = s.bu ∧ t.pending = s.pending ∧ TablesKept s t ∧
      t.lc.ring = s.lc.ring ∧ t.lc.fifo = s.lc.fifo ∧ t.lc.receiver = s.lc.receiver ∧
      (s.co.request = false → t.co.pass = .idle ∧ t.tb = s.tb) ∧
      (s.sc.node = .listen → t.au = s.au ∧ t.pa = s.pa ∧ t.lc = s.lc ∧
        t.ru.counts = countsAfter s.ru.counts (if s.co.nameMiss then [.nameMiss] else [])) ∧
      (s.sc.node = .run → ∀ o, o = s.au.pace + BitVec.ofNat 32 s.prof.leadIn →
        (s.co.nameMiss = false → t.au.agreement ≠ .diverged ∨ s.au.agreement = .diverged →
          t.lc = (s.offer (.digest s.prof.segmentIndex c.number c.digest o c.rowCount
            c.boardWidth)).lc) ∧
        t.ru.counts = countsAfter s.ru.counts ((if s.co.nameMiss then [.nameMiss] else []) ++
          if t.au.agreement = .diverged ∧ s.au.agreement ≠ .diverged then [.agreeDiverged] else []) ∧
        (s.prof.segmentCount = 1 →
          (s.au.agreement = .empty ∨ s.au.shownDigest ≠ some c.digest →
            Adopted t c o ∧ t.au = { s.au with
              composedDigest := some c.digest, ownProposal := some o
              swapBuffer := t.au.swapBuffer, shownDigest := some c.digest, agreement := .agreed } ∧
            t.pa = { s.pa with swapPending := true }) ∧
          (s.au.agreement ≠ .empty → s.au.shownDigest = some c.digest →
            t.pa = s.pa ∧
            t.au = { s.au with composedDigest := some c.digest, ownProposal := some o })) ∧
        (s.prof.segmentCount ≠ 1 →
          (s.au.agreement = .empty ∨ s.au.shownDigest ≠ some c.digest → AllHold s c.digest →
            Adopted t c (Au.agreedOrigin { s.au with ownProposal := some o } s.prof) ∧
            t.au = { s.au with
              composedDigest := some c.digest, ownProposal := some o
              swapBuffer := t.au.swapBuffer, shownDigest := some c.digest
              agreement := .agreed, agreementTimer := false } ∧
            t.pa = { s.pa with swapPending := true }) ∧
          (s.au.agreement = .empty ∨ s.au.shownDigest ≠ some c.digest → ¬AllHold s c.digest →
            t.pa = s.pa ∧ t.au = { s.au with
              composedDigest := some c.digest, ownProposal := some o, agreement := .pending
              agreementTimer := s.au.agreementTimer || decide (s.au.agreement ≠ .pending) }) ∧
          (s.au.agreement ≠ .empty → s.au.shownDigest = some c.digest →
            t.pa = s.pa ∧ t.au = { s.au with
              composedDigest := some c.digest, ownProposal := some o
              agreement := t.au.agreement
              agreementTimer := s.au.agreementTimer && decide (s.au.agreement ≠ .pending) } ∧
            (AllHold s c.digest → t.au.agreement = .agreed) ∧
            (¬AllHold s c.digest → t.au.agreement = .diverged))))) ∧
  ∀ l : List Pace, l ≠ [] → (∃ base : Pace, ∀ x ∈ l, (x - base).toNat < 2 ^ 31) →
    ∃ o ∈ l, chooseOrigin none l = some o ∧ ∀ x ∈ l, paceAhead x o = false

/-! ### Agreement -/

/-- A DIGEST, PACE or STATUS delivered (R115 to R117, R131): its pace is taken where it is ahead; a body out of
range, a clash, and an update of the peer entry follow from the rest. -/
def Obligations.BoardNoticesUpdatePeers : Prop :=
  ∀ (s : State) (c : Chain) (k : NoticeKind) (i : Instr) (entry : Peer), s.Delivered k c →
    (k, i) ∈ [(NoticeKind.digest, Instr.digestNotice), (.pace, .paceNotice), (.status, .statusNotice)] →
    entry = { s.au.peer (num1 c.body 0) with
      live := true
      node := some c.sender
      digest := if k = .digest then some (BitVec.ofNat 16 (num2 c.body 7))
        else (s.au.peer (num1 c.body 0)).digest
      origin := if k = .digest then some (paceAt c.body 9)
        else (s.au.peer (num1 c.body 0)).origin } →
    ∃ t, exec i s = .next t ∧ BoardFrame s t ∧ PaceTaken s t (paceAt c.body 1) ∧
      (boardNoticeOk k c.body = false →
        Reported s t [.lineCrc] ∧ t.pa = s.pa ∧ t.au = { s.au with pace := t.au.pace }) ∧
      (boardNoticeOk k c.body = true →
        s.prof.segmentCount ≤ num1 c.body 0 ∨ num1 c.body 0 = s.prof.segmentIndex ∨
          ((s.au.peer (num1 c.body 0)).live = true ∧
            (s.au.peer (num1 c.body 0)).node ≠ some c.sender) →
        Reported s t [.segmentClash] ∧ t.pa = s.pa ∧ t.au = { s.au with pace := t.au.pace }) ∧
      (boardNoticeOk k c.body = true → num1 c.body 0 < s.prof.segmentCount →
        num1 c.body 0 ≠ s.prof.segmentIndex →
        ((s.au.peer (num1 c.body 0)).live = true →
          (s.au.peer (num1 c.body 0)).node = some c.sender) →
        t.au.peers = s.au.peers.set (num1 c.body 0) entry ∧
        (k ≠ .digest ∨ s.sc.node ≠ .run →
          Reported s t [] ∧ t.pa = s.pa ∧
          t.au = { s.au with pace := t.au.pace, peers := t.au.peers }))

/-- A DIGEST in RUN runs the agreement rule of the state in force (R117, R119 to R121, R127, R129). -/
def Obligations.DigestRunsAgreementRule : Prop :=
  ∀ (s : State) (c : Chain) (entry : Peer) (u : State), s.Delivered .digest c → s.sc.node = .run →
    boardNoticeOk .digest c.body = true → s.isClash (num1 c.body 0) c.sender = false →
    entry =
      ⟨true, some c.sender, some (BitVec.ofNat 16 (num2 c.body 7)), some (paceAt c.body 9)⟩ →
    u = { s with au := { s.au with peers := s.au.peers.set (num1 c.body 0) entry } } →
    ∃ t, exec .digestNotice s = .next t ∧ t.au.peers = u.au.peers ∧
      (s.au.agreement = .empty → Reported s t [] ∧ t.pa = s.pa ∧
        t.au = { u.au with pace := t.au.pace }) ∧
      (s.au.agreement = .pending → ∀ set, s.co.composed = some set →
        s.au.composedDigest = some set.digest →
        (AllHold u set.digest → Reported s t [] ∧
          Adopted t set (u.au.agreedOrigin s.prof) ∧ t.pa = { s.pa with swapPending := true } ∧
          t.au = { u.au with
            pace := t.au.pace, swapBuffer := t.au.swapBuffer, shownDigest := some set.digest
            agreement := .agreed, agreementTimer := false }) ∧
        (¬AllHold u set.digest → Reported s t [] ∧ t.pa = s.pa ∧
          t.au = { u.au with pace := t.au.pace })) ∧
      (∀ d, s.au.agreement = .agreed ∨ s.au.agreement = .diverged → s.au.shownDigest = some d →
        t.pa = s.pa ∧ t.au = { u.au with pace := t.au.pace, agreement := t.au.agreement } ∧
        (AllHold u d → t.au.agreement = .agreed ∧ Reported s t []) ∧
        (¬AllHold u d → s.au.agreement = .diverged →
          t.au.agreement = .diverged ∧ Reported s t []) ∧
        (¬AllHold u d → s.au.agreement = .agreed →
          (s.co.request = true ∨ s.co.pass ≠ .idle →
            t.au.agreement = .agreed ∧ Reported s t []) ∧
          (s.co.request = false → s.co.pass = .idle →
            t.au.agreement = .diverged ∧ Reported s t [.agreeDiverged])))

/-- The timers of the Agreement Unit (R118, R127 to R130, R132, R133). -/
def Obligations.AgreementUnitTimersExpire : Prop :=
  (∀ (s : State) (i : Nat) (u : State), (s.au.peer i).live = true →
    u = { s with au := { s.au with
      peers := s.au.peers.set i ⟨false, (s.au.peer i).node, none, none⟩ } } →
    (s.sc.node ≠ .run ∨ s.au.agreement = .empty ∨ s.au.agreement = .agreed →
      exec (.peerLifetimeExpiry i) s = .next u) ∧
    (s.sc.node = .run → s.au.agreement = .pending → ∀ set, s.co.composed = some set →
      s.au.composedDigest = some set.digest →
      (¬AllHold u set.digest → exec (.peerLifetimeExpiry i) s = .next u) ∧
      (AllHold u set.digest → ∃ t, exec (.peerLifetimeExpiry i) s = .next t ∧
        Adopted t set (u.au.agreedOrigin s.prof) ∧
        t = { u with
          au := { u.au with
            swapBuffer := t.au.swapBuffer, shownDigest := some set.digest
            agreement := .agreed, agreementTimer := false }
          pa := { s.pa with swapPending := true } })) ∧
    (s.sc.node = .run → s.au.agreement = .diverged → ∀ d, s.au.shownDigest = some d →
      (AllHold u d → exec (.peerLifetimeExpiry i) s =
        .next { u with au := { u.au with agreement := .agreed } }) ∧
      (¬AllHold u d → exec (.peerLifetimeExpiry i) s = .next u))) ∧
  (∀ (s : State) (set : ComposedSet) (o : Pace), s.au.agreementTimer = true →
    s.au.agreement = .pending → s.co.composed = some set → s.au.ownProposal = some o →
    ∃ t, exec .agreementTimerExpiry s = .next t ∧ Adopted t set o ∧ Reported s t [.agreeDiverged] ∧
      t.pa = { s.pa with swapPending := true } ∧
      t.au = { s.au with
        swapBuffer := t.au.swapBuffer, shownDigest := some set.digest
        agreement := .diverged, agreementTimer := false } ∧
      t.sc = s.sc ∧ t.tb = s.tb ∧ t.co = s.co ∧ t.bu = s.bu ∧ t.lc.ring = s.lc.ring ∧
      t.lc.fifo = s.lc.fifo ∧ t.lc.receiver = s.lc.receiver ∧ t.pending = s.pending) ∧
  (∀ s : State, s.au.paceTimer = true →
    exec .paceTick s = .next { s with
      au := { s.au with pace := s.au.pace + 1 }
      bu := if s.sc.node = .run
        then s.bu.paceStep s.prof s.au.shown s.au.pace (s.au.pace + 1) else s.bu }) ∧
  ∀ s : State, s.au.beaconTimer = true →
    (s.au.sent = true ∨ s.maySend = false ∨
        (s.lc.transmitter.state ≠ .idle ∧ ∃ m ∈ s.lc.queue, m.kind = .pace) →
      exec .beaconTimerExpiry s = .next { s with au := { s.au with sent := false } }) ∧
    (s.au.sent = false → s.maySend = true → s.lc.transmitter.state ≠ .idle →
      (∀ m ∈ s.lc.queue, m.kind ≠ .pace) →
      exec .beaconTimerExpiry s = .next { s with
        lc := { s.lc with queue := s.lc.queue ++ [.pace s.prof.segmentIndex] }
        au := { s.au with sent := false } }) ∧
    (s.au.sent = false → s.maySend = true → s.lc.transmitter.state = .idle → s.lc.queue = [] →
      exec .beaconTimerExpiry s = .next { s with
        lc := { s.lc with
          transmitter := ⟨.wait, some (.pace s.prof.segmentIndex), 0, 0, [], false⟩ }
        au := { s.au with sent := false } })

/-! ### The panel -/

/-- A frame event and the end of a frame (R90, R122, R134, R141, R144, R145, R147, R153): the swap, the sample,
the lines of the panel, and what a pixel shows outside the board area, on a dark text line, on the calling line, on
the text lines of the rows (R151, R152) and on the bottom line (R154, R156). That PHF is active for lines 32 to 63 is
log entry 27, the model's choice. -/
def Obligations.FramesSampleAndPaint : Prop :=
  (∀ (s : State) (shown : Option AdoptedSet) (f : FrameSample), s.pa.frameTimer = true →
    s.pa.paint = .waiting → shown = (if s.pa.swapPending then s.au.swapBuffer else s.au.shown) →
    f = ⟨s.sc.node, shown, s.au.pace, s.tb.time.second, s.tb.time.stale,
      if s.bu.line = .showing then s.bu.banner.map (fun b => (b.text, b.takePace)) else none,
      s.pa.brightness.getD 0⟩ →
    ∃ t o, exec .frameEvent s = .next t ∧
      t.au = { s.au with
        shown := shown, swapBuffer := if s.pa.swapPending then none else s.au.swapBuffer } ∧
      t.pa = { s.pa with
        swapPending := false, sample := some f, paint := .painting, panel := some o } ∧
      o.duty = f.brightness ∧ o.lines.length = s.geometry.panelLines ∧
      (∀ l, l < s.geometry.panelLines → ∃ x, o.lines[l]? = some x ∧
        x.half = decide (32 ≤ l) ∧ x.line.toNat = l % 32 ∧
        x.pixels.length = s.geometry.panelWidth ∧
        ∀ column, column < s.geometry.panelWidth →
          x.pixels[column]? = some (s.brush.pixel f l column)) ∧
      t.sc = s.sc ∧ t.lc = s.lc ∧ t.bu = s.bu ∧ t.ru = s.ru ∧ t.pending = s.pending ∧
      (s.co.request = false → t.co = s.co ∧ t.tb = s.tb) ∧
      (s.started → s.co.request = true → s.co.pass = .idle → s.tb.state = .free →
        t.co = { s.co with request := false, pass := .reading, working := [], nameMiss := false } ∧
        t.tb = { s.tb with state := .window })) ∧
  (∀ s : State, s.pa.paint = .painting →
    exec .frameComplete s = .next { s with pa := { s.pa with paint := .waiting } }) ∧
  (∀ (k : Brush) (f : FrameSample) (line column : Nat),
    (line < k.geometry.topLine ∨
        k.geometry.topLine + (k.geometry.rowCount + 2) * k.height ≤ line ∨
        column < k.geometry.windowBegin ∨ k.geometry.windowEnd < column →
      k.pixel f line column = 0) ∧
    (f.node ≠ .run ∨ f.shown = none →
      line < k.geometry.topLine + (k.geometry.rowCount + 1) * k.height →
      k.pixel f line column = 0) ∧
    ∀ x r calling w rest, f.node = .run → f.shown = some x → x.rows = .lead r calling w :: rest →
      1 ≤ k.geometry.rowCount → k.geometry.windowBegin ≤ column → column ≤ k.geometry.windowEnd →
      k.geometry.topLine + k.height ≤ line → line < k.geometry.topLine + 2 * k.height →
      k.pixel f line column =
        match marqueeColumn x.boardWidth x.callingWidth x.origin f.pace
          (k.segmentIndex * k.geometry.windowWidth + (column - k.geometry.windowBegin)) with
        | some m => k.ink .calling calling (line - (k.geometry.topLine + k.height)) m
        | none => 0) ∧
(∀ (b l : Nat) (o p : Pace) (x : Nat), x < b →
    (l ≤ b → marqueeColumn b l o p x = if x < l then some x else none) ∧
    (b < l → paceAhead p o = false → marqueeColumn b l o p x = some x) ∧
    (b < l → paceAhead p o = true → ∀ m, marqueeColumn b l o p x = some m ↔
      m < l ∧ m + b = x + (b + (p - o).toNat) % (l + b))) ∧
  (∀ (k : Brush) (f : FrameSample) (j n column : Nat), j ≤ k.geometry.rowCount + 1 → n < k.height →
    k.geometry.windowBegin ≤ column → column ≤ k.geometry.windowEnd →
    k.pixel f (k.geometry.topLine + j * k.height + n) column =
      k.linePixel f j n
        (k.segmentIndex * k.geometry.windowWidth + (column - k.geometry.windowBegin))) ∧
  (∀ (k : Brush) (f : FrameSample) (set : AdoptedSet) (j n x : Nat), f.node = .run →
    f.shown = some set →
    (1 ≤ k.geometry.rowCount → (∀ r calling w rest, set.rows ≠ .lead r calling w :: rest) →
      k.linePixel f 1 n x = 0) ∧
    ∀ row, (j = 0 ∧ set.rows[0]? = some row) ∨
        (2 ≤ j ∧ j ≤ k.geometry.rowCount ∧ set.rows[j - 1]? = some row) →
      (row = .blank → k.linePixel f j n x = 0) ∧
      (∀ text, row = .phrase text →
        (k.layout.time + 4 ≤ x → k.linePixel f j n x =
          k.ink .text (k.destination text) n (x - (k.layout.time + 4))) ∧
        (x < k.layout.time + 4 → k.linePixel f j n x = 0)) ∧
      ∀ r, row = .follow r ∨ (∃ calling w, row = .lead r calling w) → x < k.boardWidth →
        ∀ ws wt, ws = textWidth k.glyphs r.statusText → wt = textWidth k.glyphs r.time →
        (k.boardWidth ≤ x + ws → k.linePixel f j n x =
          k.ink r.status.textClass r.statusText n (x + ws - k.boardWidth)) ∧
        (x + ws < k.boardWidth → ∀ e, e = x + k.layout.status + 4 →
          (∀ text, r.platform = some text → e < k.boardWidth →
            k.boardWidth ≤ e + textWidth k.glyphs text → k.linePixel f j n x =
              k.ink .text text n (e + textWidth k.glyphs text - k.boardWidth)) ∧
          ((∀ text, r.platform = some text →
              k.boardWidth ≤ e ∨ e + textWidth k.glyphs text < k.boardWidth) →
            (x < wt → k.linePixel f j n x = k.ink .time r.time n x) ∧
            (wt ≤ x → k.layout.time + 4 ≤ x → k.linePixel f j n x =
              k.ink .text (k.destination r.destination) n (x - (k.layout.time + 4))) ∧
            (wt ≤ x → x < k.layout.time + 4 → k.linePixel f j n x = 0)))) ∧
  (∀ (k : Brush) (text : Text) (right : Nat),
    right = (if k.carriesPlatform then k.layout.status + k.layout.platform + 8
      else k.layout.status + 4) →
    ∃ m, k.destination text = text.take m ∧
      (k.destination text ≠ [] →
        k.layout.time + 4 + textWidth k.glyphs (k.destination text) + right ≤ k.boardWidth) ∧
      (m < text.length →
        k.boardWidth < k.layout.time + 4 + textWidth k.glyphs (text.take (m + 1)) + right)) ∧
  (∀ (k : Brush) (c : TextClass) (text : Text) (n x : Nat), textWidth k.glyphs text ≤ x →
    k.ink c text n x = 0) ∧
  ∀ (k : Brush) (f : FrameSample) (n x : Nat), f.node = .run →
    (∀ text take, f.banner = some (text, take) →
      (textWidth k.glyphs text ≤ k.boardWidth →
        k.linePixel f (k.geometry.rowCount + 1) n x = k.centredPixel .banner text n x) ∧
      (k.boardWidth < textWidth k.glyphs text →
        k.linePixel f (k.geometry.rowCount + 1) n x =
          match marqueeColumn k.boardWidth (textWidth k.glyphs text) take f.pace x with
          | some m => k.ink .banner text n m
          | none => 0)) ∧
    (f.banner = none → f.second = none → k.linePixel f (k.geometry.rowCount + 1) n x = 0) ∧
    (f.banner = none → ∀ second, f.second = some second → second < 86400 →
      k.linePixel f (k.geometry.rowCount + 1) n x =
        k.centredPixel (if f.stale then .clockStale else .clock)
          ([second / 36000, second / 3600 % 10, 10, second / 600 % 6, second / 60 % 10, 10,
            second % 60 / 10, second % 10].map fun d => BitVec.ofNat 8 (0x30 + d)) n x)

/-! ### Notices with a direct note -/

/-- DIM and STAFF (R71, R157, R164, R166): the brightness, or the slot and the state of group D; a body out of
range raises LINE_CRC and changes neither. -/
def Obligations.DimAndStaffAct : Prop :=
  (∀ (s : State) (c : Chain), s.Delivered .dim c →
    ∃ t, exec .dim s = .next t ∧ t.bu = s.bu ∧
      (num1 c.body 0 ≤ 15 →
        t.pa = { s.pa with brightness := some (num1 c.body 0) } ∧ Noticed s t c []) ∧
      (16 ≤ num1 c.body 0 → t.pa = s.pa ∧ Noticed s t c [.lineCrc])) ∧
  ∀ (s : State) (c : Chain) (text : Text), s.Delivered .staff c →
    text = (c.body.drop 3).take (num1 c.body 2) →
    ∃ t, exec .staffNotice s = .next t ∧ t.pa = s.pa ∧
      (staffOk c.body = true ↔ 1 ≤ num1 c.body 0 ∧ num1 c.body 0 ≤ 8 ∧ 1 ≤ num1 c.body 1 ∧
        num1 c.body 1 ≤ 15 ∧ ∀ x ∈ text, 0x20 ≤ x.toNat ∧ x.toNat ≤ 0xBF) ∧
      (staffOk c.body = false → t.bu = s.bu ∧ Noticed s t c [.lineCrc]) ∧
      (staffOk c.body = true → Noticed s t c [] ∧
        t.bu = { s.bu with slots := t.bu.slots, groupD := t.bu.groupD } ∧
        t.bu.slots = s.bu.slots.set (num1 c.body 0 - 1)
          (if text = [] then none else some ⟨text, num1 c.body 1⟩) ∧
        (s.bu.slots.length = 8 → t.bu.groupD =
          if text ≠ [] ∧ s.prof.slotEnabled (num1 c.body 0 - 1) = true ∧ s.bu.groupD = .quiet
          then .requesting else s.bu.groupD))

/-- QUERY and the interval timers (R181 to R185): a STATUS is offered that lists the pending kinds and the listed
set, and an IDLE transmitter takes it (log entry 10); a QUERY clears every flag, an expiry the unmasked ones; nothing
is offered where the rules offer nothing. That a QUERY's own header note stands in its STATUS, after a STATUS of its
own where its kind is bound to an interval of length 0, is the order of log entry 24. That the shown-set digest is
0000H in PENDING before any adoption too, and not only in EMPTY (R12), is log entry 28, the model's choice. -/
def Obligations.QueryAndIntervalReport : Prop :=
  (∀ (s : State) (c : Chain), s.Delivered .query c →
    ∃ t, exec .query s = .next t ∧ t.pa = s.pa ∧ t.bu = s.bu ∧
      (num1 c.body 0 = 0 ∨ 64 ≤ num1 c.body 0 → Noticed s t c [.lineCrc]) ∧
      (1 ≤ num1 c.body 0 → num1 c.body 0 ≤ 63 →
        s.named (num1 c.body 0) c.group = false ∨ s.maySend = false → Noticed s t c []) ∧
      (1 ≤ num1 c.body 0 → num1 c.body 0 ≤ 63 → s.named (num1 c.body 0) c.group = true →
        s.maySend = true → ∀ (ks : List ReportKind) (noted : BitVec 19) (r : StatusReport),
        ks = (s.noted c).2 → (∀ k, kindBit noted k = true ↔ kindBit s.ru.pending k = true ∨ k ∈ ks) →
        r = { node := .run, agreement := s.au.agreement
              shownDigest := s.au.shownDigest.getD 0
              pendingKinds := noted ||| s.ru.listed
              counts := countsAfter s.ru.counts ks, geometryCut := s.ru.geometryCut
              profileSource := s.sc.profileSource.getD .builtIn
              fontSource := s.sc.fontSource.getD .builtIn
              knownFeeders := (s.noted c).1.feeders.length } →
        ChainCompleted s t ∧ FeedersNoted s t c ∧ t.ru.counts = r.counts ∧
        t.ru.geometryCut = s.ru.geometryCut ∧ t.ru.marks = s.ru.marks ∧ t.ru.pending = 0 ∧
        (s.lc.transmitter.state ≠ .idle →
          BoardNotice.status s.prof.segmentIndex r ∈ t.lc.queue ∧
          t.lc.transmitter = s.lc.transmitter ∧ t.ru.listed = noted ||| s.ru.listed) ∧
        ((ks ≠ [] → ∀ i, i < 3 → s.prof.intervalLengths.getD i 0 = 0 →
            s.ru.timers.getD i false = false ∧ ∀ k ∈ ks, s.prof.intervalOf k ≠ i) →
          t.ru.timers = ks.foldl (fun l k => l.set (s.prof.intervalOf k) true) s.ru.timers ∧
          (s.lc.transmitter.state = .idle → s.lc.queue = [] →
            t.lc.transmitter = ⟨.wait, some (.status s.prof.segmentIndex r), 0, 0, [], false⟩ ∧
            t.lc.queue = [] ∧ t.ru.listed = 0)) ∧
        (s.lc.transmitter.state = .idle → s.lc.queue = [] → s.ru.timers.length = 3 → ∀ k, k ∈ ks →
          s.prof.intervalOf k < 3 → s.prof.intervalLengths.getD (s.prof.intervalOf k) 0 = 0 →
          kindBit s.prof.masks k = false →
          t.lc.transmitter = ⟨.wait, some (.status s.prof.segmentIndex r), 0, 0, [], false⟩ ∧
          t.lc.queue = [.status s.prof.segmentIndex
            { r with pendingKinds := noted &&& s.prof.masks }] ∧
          t.ru.listed = noted &&& s.prof.masks))) ∧
  (∀ (s : State) (target group : Nat), s.named target group = true ↔
    (1 ≤ target ∧ target ≤ 62 ∧ target = s.sc.nodeNumber.toNat) ∨
      (target = 63 ∧ (group = 0 ∨ group = s.prof.group))) ∧
  ∀ (s : State) (i : Nat), s.ru.timers[i]? = some true →
    ((∀ k : ReportKind, s.prof.intervalOf k = i → kindBit s.ru.pending k = true →
        kindBit s.prof.masks k = true) →
      exec (.intervalTimerExpiry i) s =
        .next { s with ru := { s.ru with timers := s.ru.timers.set i false } }) ∧
    ((∃ k : ReportKind, s.prof.intervalOf k = i ∧ kindBit s.ru.pending k = true ∧
        kindBit s.prof.masks k = false) →
      s.maySend = true → s.lc.transmitter.state ≠ .idle →
      ∃ t, exec (.intervalTimerExpiry i) s = .next t ∧
        t = { s with
          lc := { s.lc with queue := t.lc.queue }
          ru := { s.ru with
            timers := s.ru.timers.set i false
            pending := s.ru.pending &&& s.prof.masks
            listed := s.ru.pending ||| s.ru.listed } } ∧
        ∃ r, BoardNotice.status s.prof.segmentIndex r ∈ t.lc.queue ∧ s.DescribedBy r ∧
          r.counts = s.ru.counts ∧ r.geometryCut = s.ru.geometryCut ∧
          r.pendingKinds = s.ru.pending ||| s.ru.listed) ∧
    ((∃ k : ReportKind, s.prof.intervalOf k = i ∧ kindBit s.ru.pending k = true ∧
        kindBit s.prof.masks k = false) →
      s.maySend = true → s.lc.transmitter.state = .idle → s.lc.queue = [] →
      ∃ r, s.DescribedBy r ∧ r.counts = s.ru.counts ∧ r.geometryCut = s.ru.geometryCut ∧
        r.pendingKinds = s.ru.pending ||| s.ru.listed ∧
        exec (.intervalTimerExpiry i) s = .next { s with
          lc := { s.lc with
            transmitter := ⟨.wait, some (.status s.prof.segmentIndex r), 0, 0, [], false⟩ }
          ru := { s.ru with
            timers := s.ru.timers.set i false
            pending := s.ru.pending &&& s.prof.masks
            listed := 0 } })

/-- RESTART (R38, R69, R87, R114, R138, R160, R177, R187, R198): one that names the part gives every block its
warm-restart values, keeps the profile, the font, the straps, the geometry and the counts, and enters LISTEN;
any other is completed. That the working set is emptied in every pass state is log entry 25. -/
def Obligations.RestartTakesWarmValues : Prop :=
  (∀ (s : State) (c : Chain), s.Restarting c →
    ∃ t, exec .restart s = .next t ∧
      t.sc = { s.sc with node := .listen, listenTimer := true } ∧
      t.lc.receiver = { s.lc.receiver with
        state := .discard, ones := 0, headerRegister := ⟨0, 0, 0, 0, 0⟩ } ∧
      t.lc.fifo = [] ∧
      t.lc.ring = ⟨(s.lc.ring.oldest + s.lc.ring.used) % 24, none, [], none⟩ ∧
      t.lc.queue = [] ∧ t.lc.transmitter = ⟨.idle, none, 0, 0, [], false⟩ ∧
      t.lc.watch = ⟨0, 0, false, 0⟩ ∧ t.tb.AtReset ∧ t.co = ⟨false, .idle, [], false, none, 0⟩ ∧
      { t.au with paceTimer := false }.AtReset ∧ t.au.paceTimer = true ∧
      t.pa = { s.pa with
        swapPending := false, brightness := some s.prof.brightness, paint := .waiting
        panel := if s.pa.paint = .painting then none else s.pa.panel } ∧
      t.bu.AtReset ∧ t.ru.counts = countsAfter s.ru.counts (s.noted c).2 ∧
      t.ru.geometryCut = s.ru.geometryCut ∧ t.ru.listed = 0 ∧
      t.ru.timers = [false, false, false] ∧ t.ru.marks = { s.ru.marks with restarted := true } ∧
      ((s.noted c).2 = [] → t.ru.pending = s.ru.pending) ∧ t.pending = s.pending ∧
      t.freeCounter = s.freeCounter) ∧
  ∀ (s : State) (c : Chain), s.Delivered .restart c →
    (targetOk c.body = true → s.named (num1 c.body 0) c.group = false →
      ∃ t, exec .restart s = .next t ∧ Noticed s t c [] ∧ t.pa = s.pa ∧ t.bu = s.bu) ∧
    (num1 c.body 0 = 0 ∨ 64 ≤ num1 c.body 0 →
      ∃ t, exec .restart s = .next t ∧ Noticed s t c [.lineCrc] ∧ t.pa = s.pa ∧ t.bu = s.bu)

/-! ### Attentions and banners -/

/-- The messages a change of a service hands to the Banner Unit (R64 to R66), and what the Banner Unit does with
each (R162, R163, R166). -/
def Obligations.AttentionMessagesTaken : Prop :=
  (∀ (threshold : Nat) (refused : Bool) (r : ServiceRecord), 1 ≤ threshold →
    storeMessages threshold refused r =
      (if r.status = .cancelled then [.raise .a r.number .none] else []) ++
      (if refused then [.raise .b r.number (.platform r.platform)] else []) ++
      (if (threshold : Int) ≤ delayOf r.scheduled r.expected
        then [.raise .c r.number (.delay (delayOf r.scheduled r.expected).toNat)] else [])) ∧
  (∀ (threshold : Nat) (old new : Service), changeMessages threshold old new =
    (if old.status ≠ .cancelled ∧ new.status = .cancelled then [.raise .a new.number .none]
      else if old.status = .cancelled ∧ new.status ≠ .cancelled then [.release .a new.number]
      else []) ++
    (if old.platform ≠ new.platform then [.raise .b new.number (.platform new.platform)] else []) ++
    (if old.delay < threshold ∧ threshold ≤ new.delay
        then [.raise .c new.number (.delay new.delay.toNat)]
      else if threshold ≤ old.delay ∧ new.delay < threshold then [.release .c new.number]
      else if threshold ≤ old.delay ∧ threshold ≤ new.delay ∧ old.delay ≠ new.delay
        then [.update new.number new.delay.toNat]
      else [])) ∧
  (∀ (bu : Bu) (p : Profile) (g : Group) (n : Nat) (a : Argument), g ≠ .d →
    ((∃ e ∈ bu.list g, e.service = n) →
      (bu.take p (.raise g n a)).2 = false ∧
      (bu.take p (.raise g n a)).1 = bu.setList g
        ((bu.list g).map fun e => if e.service = n then ⟨n, a⟩ else e)) ∧
    ((∀ e ∈ bu.list g, e.service ≠ n) → (bu.list g).length < 8 →
      (bu.take p (.raise g n a)).2 = false ∧
      (bu.take p (.raise g n a)).1 = (bu.setList g (bu.list g ++ [⟨n, a⟩])).setGroup g
        (if bu.group g = .quiet ∧ p.groupEnabled g = true then .requesting else bu.group g)) ∧
    ((∀ e ∈ bu.list g, e.service ≠ n) → 8 ≤ (bu.list g).length →
      bu.take p (.raise g n a) = (bu, true)) ∧
    bu.take p (.release g n) =
      (bu.setList g ((bu.list g).filter fun e => e.service ≠ n), false)) ∧
  (∀ (bu : Bu) (p : Profile) (n d : Nat),
    bu.take p (.update n d) = ({ bu with
      listC := bu.listC.map fun e => if e.service = n then ⟨n, .delay d⟩ else e }, false) ∧
    bu.take p (.releaseAll n) = ({ bu with
      listA := bu.listA.filter fun e => e.service ≠ n
      listB := bu.listB.filter fun e => e.service ≠ n
      listC := bu.listC.filter fun e => e.service ≠ n }, false)) ∧
  ∀ (bu : Bu) (p : Profile) (m : Message) (rest : List Message),
    bu.takeAll p (m :: rest) = (((bu.take p m).1.takeAll p rest).1,
      (if (bu.take p m).2 then [.attentionLost] else []) ++ ((bu.take p m).1.takeAll p rest).2)

/-- A pace step in RUN (R165 to R173): first the end of SHOWING and the end of GAP, both where the step reaches both
marks; then, where the step crosses a take boundary, the discards and, on a line that is IDLE by now, the take of the
first REQUESTING group with its text. -/
def Obligations.BannerPaceStep : Prop :=
  ∀ (bu : Bu) (p : Profile) (shown : Option AdoptedSet) (p0 p1 : Pace),
    (∀ ended, bu.line = .idle ∨ bu.banner ≠ none → EndsReached bu p p1 ended →
      (crossesBoundary p0 p1 = false → bu.paceStep p shown p0 p1 = ended) ∧
      ∀ kept, crossesBoundary p0 p1 = true → Discarded ended p kept →
        (ended.line ≠ .idle → bu.paceStep p shown p0 p1 = kept) ∧
        (ended.line = .idle → (∀ g, ended.group g ≠ .requesting) →
          bu.paceStep p shown p0 p1 = kept) ∧
        (ended.line = .idle → ∀ g, ended.group g = .requesting →
          (∀ h, (h = .a ∨ h = .b ∧ g ≠ .a ∨ h = .c ∧ g = .d) → h ≠ g →
            ended.group h ≠ .requesting) →
          bu.paceStep p shown p0 p1 =
            { (kept.chooseText p shown g).1.setGroup g .held with
              line := .showing
              banner := some ⟨g, (kept.chooseText p shown g).2, takePaceOf p1, p.bannerDuration,
                p.bannerDuration + p.bannerGap⟩ })) ∧
    (∀ (g : Group) (remaining : List Attention), g ≠ .d →
      remaining = (bu.list g).filter
        (fun e => decide (∃ r ∈ shownServiceRows shown, r.service = e.service)) →
      (remaining = [] → bu.chooseText p shown g = (bu.setList g [], defaultText g)) ∧
      (∀ before r after e, shownServiceRows shown = before ++ r :: after → e ∈ remaining →
        e.service = r.service → (remaining.map fun x => x.service).Nodup →
        (∀ q ∈ before, ∀ x ∈ remaining, x.service ≠ q.service) →
        bu.chooseText p shown g =
          (bu.setList g (remaining.filter fun x => x.service ≠ r.service),
            bannerText g r e.argument))) ∧
    (∀ k m, k < 8 → p.slotEnabled k = true → bu.slots.getD k none = some m →
      (∀ j, j < k → p.slotEnabled j = true → bu.slots.getD j none = none) →
      bu.chooseText p shown .d =
        ({ bu with
            slots := bu.slots.set k
              (if m.repeats ≤ 1 then none else some { m with repeats := m.repeats - 1 }) }, m.text)) ∧
    ((∀ k, k < 8 → p.slotEnabled k = true → bu.slots.getD k none = none) →
      bu.chooseText p shown .d = (bu, defaultText .d))
end

