-- ==== Sys2Proof/Machine/Pins.lean ====
section
/-! DEFINITION. What the part's output pins show, as functions of the state (00_scope.md, Pin Summary). The
panel port is the field `panel` of the Painter. -/

namespace Sys2Proof.Machine

/-- GA15 to GA0 while GRD/ is asserted; none while it is released (R190). -/
def State.glyphAddress (s : State) : Option (BitVec 16) := s.sc.loadPosition.map (BitVec.ofNat 16)

/-- The level the part gives the station line in bit time `bit` of its attempt: its frame in SEND, 0 in
JAM (R34), and the resting level 1 otherwise (R1). -/
def State.lineLevel (s : State) (bit : Nat) : Bool :=
  match s.lc.transmitter.state with
  | .send => (frameBits s.lc.transmitter.frame).getD bit true
  | .jam => false
  | .idle | .wait | .backoff => true

/-- PEN/ is active for this many sixteenths of each line period; none while it is held inactive (R147). -/
def State.panelDuty (s : State) : Option Nat := s.pa.panel.map fun o => o.duty

end Sys2Proof.Machine
end

