-- ==== Sys2Proof/Laws/State.lean ====
section
/-! SUPPORT. One lemma per field and per setter of State: what each update leaves and what it writes. -/

namespace Sys2Proof.Machine

section
variable (s : State) (x : Sc)
@[simp] theorem State.setSc_sc : (s.setSc x).sc = x := rfl
@[simp] theorem State.setSc_lc : (s.setSc x).lc = s.lc := rfl
@[simp] theorem State.setSc_tb : (s.setSc x).tb = s.tb := rfl
@[simp] theorem State.setSc_co : (s.setSc x).co = s.co := rfl
@[simp] theorem State.setSc_au : (s.setSc x).au = s.au := rfl
@[simp] theorem State.setSc_pa : (s.setSc x).pa = s.pa := rfl
@[simp] theorem State.setSc_bu : (s.setSc x).bu = s.bu := rfl
@[simp] theorem State.setSc_ru : (s.setSc x).ru = s.ru := rfl
@[simp] theorem State.setSc_pending : (s.setSc x).pending = s.pending := rfl
@[simp] theorem State.setSc_freeCounter : (s.setSc x).freeCounter = s.freeCounter := rfl
end

section
variable (s : State) (x : Lc)
@[simp] theorem State.setLc_sc : (s.setLc x).sc = s.sc := rfl
@[simp] theorem State.setLc_lc : (s.setLc x).lc = x := rfl
@[simp] theorem State.setLc_tb : (s.setLc x).tb = s.tb := rfl
@[simp] theorem State.setLc_co : (s.setLc x).co = s.co := rfl
@[simp] theorem State.setLc_au : (s.setLc x).au = s.au := rfl
@[simp] theorem State.setLc_pa : (s.setLc x).pa = s.pa := rfl
@[simp] theorem State.setLc_bu : (s.setLc x).bu = s.bu := rfl
@[simp] theorem State.setLc_ru : (s.setLc x).ru = s.ru := rfl
@[simp] theorem State.setLc_pending : (s.setLc x).pending = s.pending := rfl
@[simp] theorem State.setLc_freeCounter : (s.setLc x).freeCounter = s.freeCounter := rfl
end

section
variable (s : State) (x : Tb)
@[simp] theorem State.setTb_sc : (s.setTb x).sc = s.sc := rfl
@[simp] theorem State.setTb_lc : (s.setTb x).lc = s.lc := rfl
@[simp] theorem State.setTb_tb : (s.setTb x).tb = x := rfl
@[simp] theorem State.setTb_co : (s.setTb x).co = s.co := rfl
@[simp] theorem State.setTb_au : (s.setTb x).au = s.au := rfl
@[simp] theorem State.setTb_pa : (s.setTb x).pa = s.pa := rfl
@[simp] theorem State.setTb_bu : (s.setTb x).bu = s.bu := rfl
@[simp] theorem State.setTb_ru : (s.setTb x).ru = s.ru := rfl
@[simp] theorem State.setTb_pending : (s.setTb x).pending = s.pending := rfl
@[simp] theorem State.setTb_freeCounter : (s.setTb x).freeCounter = s.freeCounter := rfl
end

section
variable (s : State) (x : Co)
@[simp] theorem State.setCo_sc : (s.setCo x).sc = s.sc := rfl
@[simp] theorem State.setCo_lc : (s.setCo x).lc = s.lc := rfl
@[simp] theorem State.setCo_tb : (s.setCo x).tb = s.tb := rfl
@[simp] theorem State.setCo_co : (s.setCo x).co = x := rfl
@[simp] theorem State.setCo_au : (s.setCo x).au = s.au := rfl
@[simp] theorem State.setCo_pa : (s.setCo x).pa = s.pa := rfl
@[simp] theorem State.setCo_bu : (s.setCo x).bu = s.bu := rfl
@[simp] theorem State.setCo_ru : (s.setCo x).ru = s.ru := rfl
@[simp] theorem State.setCo_pending : (s.setCo x).pending = s.pending := rfl
@[simp] theorem State.setCo_freeCounter : (s.setCo x).freeCounter = s.freeCounter := rfl
end

section
variable (s : State) (x : Au)
@[simp] theorem State.setAu_sc : (s.setAu x).sc = s.sc := rfl
@[simp] theorem State.setAu_lc : (s.setAu x).lc = s.lc := rfl
@[simp] theorem State.setAu_tb : (s.setAu x).tb = s.tb := rfl
@[simp] theorem State.setAu_co : (s.setAu x).co = s.co := rfl
@[simp] theorem State.setAu_au : (s.setAu x).au = x := rfl
@[simp] theorem State.setAu_pa : (s.setAu x).pa = s.pa := rfl
@[simp] theorem State.setAu_bu : (s.setAu x).bu = s.bu := rfl
@[simp] theorem State.setAu_ru : (s.setAu x).ru = s.ru := rfl
@[simp] theorem State.setAu_pending : (s.setAu x).pending = s.pending := rfl
@[simp] theorem State.setAu_freeCounter : (s.setAu x).freeCounter = s.freeCounter := rfl
end

section
variable (s : State) (x : Pa)
@[simp] theorem State.setPa_sc : (s.setPa x).sc = s.sc := rfl
@[simp] theorem State.setPa_lc : (s.setPa x).lc = s.lc := rfl
@[simp] theorem State.setPa_tb : (s.setPa x).tb = s.tb := rfl
@[simp] theorem State.setPa_co : (s.setPa x).co = s.co := rfl
@[simp] theorem State.setPa_au : (s.setPa x).au = s.au := rfl
@[simp] theorem State.setPa_pa : (s.setPa x).pa = x := rfl
@[simp] theorem State.setPa_bu : (s.setPa x).bu = s.bu := rfl
@[simp] theorem State.setPa_ru : (s.setPa x).ru = s.ru := rfl
@[simp] theorem State.setPa_pending : (s.setPa x).pending = s.pending := rfl
@[simp] theorem State.setPa_freeCounter : (s.setPa x).freeCounter = s.freeCounter := rfl
end

section
variable (s : State) (x : Bu)
@[simp] theorem State.setBu_sc : (s.setBu x).sc = s.sc := rfl
@[simp] theorem State.setBu_lc : (s.setBu x).lc = s.lc := rfl
@[simp] theorem State.setBu_tb : (s.setBu x).tb = s.tb := rfl
@[simp] theorem State.setBu_co : (s.setBu x).co = s.co := rfl
@[simp] theorem State.setBu_au : (s.setBu x).au = s.au := rfl
@[simp] theorem State.setBu_pa : (s.setBu x).pa = s.pa := rfl
@[simp] theorem State.setBu_bu : (s.setBu x).bu = x := rfl
@[simp] theorem State.setBu_ru : (s.setBu x).ru = s.ru := rfl
@[simp] theorem State.setBu_pending : (s.setBu x).pending = s.pending := rfl
@[simp] theorem State.setBu_freeCounter : (s.setBu x).freeCounter = s.freeCounter := rfl
end

section
variable (s : State) (x : Ru)
@[simp] theorem State.setRu_sc : (s.setRu x).sc = s.sc := rfl
@[simp] theorem State.setRu_lc : (s.setRu x).lc = s.lc := rfl
@[simp] theorem State.setRu_tb : (s.setRu x).tb = s.tb := rfl
@[simp] theorem State.setRu_co : (s.setRu x).co = s.co := rfl
@[simp] theorem State.setRu_au : (s.setRu x).au = s.au := rfl
@[simp] theorem State.setRu_pa : (s.setRu x).pa = s.pa := rfl
@[simp] theorem State.setRu_bu : (s.setRu x).bu = s.bu := rfl
@[simp] theorem State.setRu_ru : (s.setRu x).ru = x := rfl
@[simp] theorem State.setRu_pending : (s.setRu x).pending = s.pending := rfl
@[simp] theorem State.setRu_freeCounter : (s.setRu x).freeCounter = s.freeCounter := rfl
end

section
variable (s : State) (x : Nat)
@[simp] theorem State.setFree_sc : (s.setFree x).sc = s.sc := rfl
@[simp] theorem State.setFree_lc : (s.setFree x).lc = s.lc := rfl
@[simp] theorem State.setFree_tb : (s.setFree x).tb = s.tb := rfl
@[simp] theorem State.setFree_co : (s.setFree x).co = s.co := rfl
@[simp] theorem State.setFree_au : (s.setFree x).au = s.au := rfl
@[simp] theorem State.setFree_pa : (s.setFree x).pa = s.pa := rfl
@[simp] theorem State.setFree_bu : (s.setFree x).bu = s.bu := rfl
@[simp] theorem State.setFree_ru : (s.setFree x).ru = s.ru := rfl
@[simp] theorem State.setFree_pending : (s.setFree x).pending = s.pending := rfl
@[simp] theorem State.setFree_freeCounter : (s.setFree x).freeCounter = x := rfl
end

end Sys2Proof.Machine
end

