-- ==== Sys2Proof/Laws/Frames.lean ====
section
/-! SUPPORT. What each shared operation leaves unchanged, field by field: a proof cites these and does not
unfold the operation. -/

namespace Sys2Proof.Machine

/-- The drain changes the ring's FILLING chain and the FIFO alone. -/
theorem Lc.drain_frame (lc : Lc) :
    lc.drain.receiver = lc.receiver ∧ lc.drain.queue = lc.queue ∧
      lc.drain.transmitter = lc.transmitter ∧ lc.drain.watch = lc.watch ∧
      lc.drain.ring.inWork = lc.ring.inWork ∧ lc.drain.ring.ready = lc.ring.ready ∧
      lc.drain.ring.oldest = lc.ring.oldest := by
  unfold Lc.drain; split <;> simp

@[simp] theorem Lc.drain_receiver (lc : Lc) : lc.drain.receiver = lc.receiver := lc.drain_frame.1
@[simp] theorem Lc.drain_queue (lc : Lc) : lc.drain.queue = lc.queue := lc.drain_frame.2.1
@[simp] theorem Lc.drain_transmitter (lc : Lc) : lc.drain.transmitter = lc.transmitter :=
  lc.drain_frame.2.2.1
@[simp] theorem Lc.drain_watch (lc : Lc) : lc.drain.watch = lc.watch := lc.drain_frame.2.2.2.1
@[simp] theorem Lc.drain_inWork (lc : Lc) : lc.drain.ring.inWork = lc.ring.inWork :=
  lc.drain_frame.2.2.2.2.1
@[simp] theorem Lc.drain_ready (lc : Lc) : lc.drain.ring.ready = lc.ring.ready :=
  lc.drain_frame.2.2.2.2.2.1
@[simp] theorem Lc.drain_oldest (lc : Lc) : lc.drain.ring.oldest = lc.ring.oldest :=
  lc.drain_frame.2.2.2.2.2.2

@[simp] theorem Tb.deliver_frame (tb : Tb) :
    tb.deliver.services = tb.services ∧ tb.deliver.pool = tb.pool ∧ tb.deliver.names = tb.names ∧
      tb.deliver.refusals = tb.refusals ∧ tb.deliver.waiting = tb.waiting ∧
      tb.deliver.windowRequest = tb.windowRequest ∧ tb.deliver.feeders = tb.feeders ∧
      tb.deliver.staleOrder = tb.staleOrder ∧ tb.deliver.time = tb.time := by
  unfold Tb.deliver; split <;> simp

@[simp] theorem Tb.start_frame (tb : Tb) (c : Claim) :
    (tb.start c).services = tb.services ∧ (tb.start c).pool = tb.pool ∧
      (tb.start c).names = tb.names ∧ (tb.start c).refusals = tb.refusals ∧
      (tb.start c).windowRequest = tb.windowRequest ∧ (tb.start c).feeders = tb.feeders ∧
      (tb.start c).staleOrder = tb.staleOrder ∧ (tb.start c).time = tb.time := by
  cases c <;> simp [Tb.start]

/-- A header note changes the feeder table and the stale order alone. -/
@[simp] theorem Tb.note_frame (tb : Tb) (n : Nat) (q : BitVec 8) :
    (tb.note n q).1.services = tb.services ∧ (tb.note n q).1.pool = tb.pool ∧
      (tb.note n q).1.names = tb.names ∧ (tb.note n q).1.refusals = tb.refusals ∧
      (tb.note n q).1.state = tb.state ∧ (tb.note n q).1.waitingApply = tb.waitingApply ∧
      (tb.note n q).1.waiting = tb.waiting ∧ (tb.note n q).1.windowRequest = tb.windowRequest ∧
      (tb.note n q).1.time = tb.time := by
  unfold Tb.note Tb.learn
  (repeat' split) <;> simp_all [Tb.updateFeeder] <;> (repeat' split at *) <;> simp_all <;> grind

@[simp] theorem State.setReceiver_receiver (s : State) (r : Receiver) :
    (s.setReceiver r).lc.receiver = r := rfl

@[simp] theorem State.setTransmitter_transmitter (s : State) (x : Transmitter) :
    (s.setTransmitter x).lc.transmitter = x := rfl

@[simp] theorem Lc.freeFilling_frame (lc : Lc) :
    lc.freeFilling.receiver = lc.receiver ∧ lc.freeFilling.queue = lc.queue ∧
      lc.freeFilling.transmitter = lc.transmitter ∧ lc.freeFilling.watch = lc.watch :=
  ⟨rfl, rfl, rfl, rfl⟩

/-- A frame that begins changes the ring's FILLING chain and the FIFO alone. -/
@[simp] theorem Lc.beginFrame_frame (lc : Lc) (headerOnly passed : Bool) (bytes : List Byte) :
    (lc.beginFrame headerOnly passed bytes).receiver = lc.receiver ∧
      (lc.beginFrame headerOnly passed bytes).queue = lc.queue ∧
      (lc.beginFrame headerOnly passed bytes).transmitter = lc.transmitter ∧
      (lc.beginFrame headerOnly passed bytes).watch = lc.watch ∧
      (lc.beginFrame headerOnly passed bytes).ring.inWork = lc.ring.inWork ∧
      (lc.beginFrame headerOnly passed bytes).ring.ready = lc.ring.ready ∧
      (lc.beginFrame headerOnly passed bytes).ring.oldest = lc.ring.oldest := by
  simp [Lc.beginFrame]

/-- `dispatch` changes only: lc.ring, tb.state, tb.waitingApply. -/
@[simp] theorem State.dispatch_frame (s : State) :
    s.dispatch.sc = s.sc ∧ s.dispatch.lc.receiver = s.lc.receiver ∧ s.dispatch.lc.fifo = s.lc.fifo ∧
    s.dispatch.lc.queue = s.lc.queue ∧ s.dispatch.lc.transmitter = s.lc.transmitter ∧
    s.dispatch.lc.watch = s.lc.watch ∧ s.dispatch.tb.services = s.tb.services ∧
    s.dispatch.tb.pool = s.tb.pool ∧ s.dispatch.tb.names = s.tb.names ∧
    s.dispatch.tb.refusals = s.tb.refusals ∧ s.dispatch.tb.waiting = s.tb.waiting ∧
    s.dispatch.tb.windowRequest = s.tb.windowRequest ∧ s.dispatch.tb.feeders = s.tb.feeders ∧
    s.dispatch.tb.staleOrder = s.tb.staleOrder ∧ s.dispatch.tb.time = s.tb.time ∧
    s.dispatch.co = s.co ∧ s.dispatch.au = s.au ∧ s.dispatch.pa = s.pa ∧ s.dispatch.bu = s.bu ∧
    s.dispatch.ru = s.ru ∧ s.dispatch.pending = s.pending ∧ s.dispatch.freeCounter = s.freeCounter := by
  unfold State.dispatch
  (repeat' split) <;> simp

/-- `completeNotice` changes only: lc.ring, lc.fifo, tb.state, tb.waitingApply. -/
@[simp] theorem State.completeNotice_frame (s : State) :
    s.completeNotice.sc = s.sc ∧ s.completeNotice.lc.receiver = s.lc.receiver ∧
    s.completeNotice.lc.queue = s.lc.queue ∧ s.completeNotice.lc.transmitter = s.lc.transmitter ∧
    s.completeNotice.lc.watch = s.lc.watch ∧ s.completeNotice.tb.services = s.tb.services ∧
    s.completeNotice.tb.pool = s.tb.pool ∧ s.completeNotice.tb.names = s.tb.names ∧
    s.completeNotice.tb.refusals = s.tb.refusals ∧ s.completeNotice.tb.waiting = s.tb.waiting ∧
    s.completeNotice.tb.windowRequest = s.tb.windowRequest ∧
    s.completeNotice.tb.feeders = s.tb.feeders ∧ s.completeNotice.tb.staleOrder = s.tb.staleOrder ∧
    s.completeNotice.tb.time = s.tb.time ∧ s.completeNotice.co = s.co ∧ s.completeNotice.au = s.au ∧
    s.completeNotice.pa = s.pa ∧ s.completeNotice.bu = s.bu ∧ s.completeNotice.ru = s.ru ∧
    s.completeNotice.pending = s.pending ∧ s.completeNotice.freeCounter = s.freeCounter := by
  unfold State.completeNotice
  (repeat' split) <;> simp

/-- `takeNotice` changes only: lc.queue, lc.transmitter, ru.listed. -/
@[simp] theorem State.takeNotice_frame (s : State) :
    s.takeNotice.sc = s.sc ∧ s.takeNotice.lc.receiver = s.lc.receiver ∧
    s.takeNotice.lc.fifo = s.lc.fifo ∧ s.takeNotice.lc.ring = s.lc.ring ∧
    s.takeNotice.lc.watch = s.lc.watch ∧ s.takeNotice.tb = s.tb ∧ s.takeNotice.co = s.co ∧
    s.takeNotice.au = s.au ∧ s.takeNotice.pa = s.pa ∧ s.takeNotice.bu = s.bu ∧
    s.takeNotice.ru.counts = s.ru.counts ∧ s.takeNotice.ru.geometryCut = s.ru.geometryCut ∧
    s.takeNotice.ru.pending = s.ru.pending ∧ s.takeNotice.ru.timers = s.ru.timers ∧
    s.takeNotice.ru.marks = s.ru.marks ∧ s.takeNotice.pending = s.pending ∧
    s.takeNotice.freeCounter = s.freeCounter := by
  unfold State.takeNotice
  (repeat' split) <;> simp

/-- `offer` changes only: lc.queue, lc.transmitter, ru.listed. -/
@[simp] theorem State.offer_frame (s : State) (n : BoardNotice) :
    (s.offer n).sc = s.sc ∧ (s.offer n).lc.receiver = s.lc.receiver ∧
    (s.offer n).lc.fifo = s.lc.fifo ∧ (s.offer n).lc.ring = s.lc.ring ∧
    (s.offer n).lc.watch = s.lc.watch ∧ (s.offer n).tb = s.tb ∧ (s.offer n).co = s.co ∧
    (s.offer n).au = s.au ∧ (s.offer n).pa = s.pa ∧ (s.offer n).bu = s.bu ∧
    (s.offer n).ru.counts = s.ru.counts ∧ (s.offer n).ru.geometryCut = s.ru.geometryCut ∧
    (s.offer n).ru.pending = s.ru.pending ∧ (s.offer n).ru.timers = s.ru.timers ∧
    (s.offer n).ru.marks = s.ru.marks ∧ (s.offer n).pending = s.pending ∧
    (s.offer n).freeCounter = s.freeCounter := by
  unfold State.offer
  (repeat' split) <;> simp

/-- `beginWaiting` changes only: tb.state, tb.waitingApply, tb.waiting, freeCounter. -/
@[simp] theorem State.beginWaiting_frame (s : State) :
    s.beginWaiting.sc = s.sc ∧ s.beginWaiting.lc = s.lc ∧
    s.beginWaiting.tb.services = s.tb.services ∧ s.beginWaiting.tb.pool = s.tb.pool ∧
    s.beginWaiting.tb.names = s.tb.names ∧ s.beginWaiting.tb.refusals = s.tb.refusals ∧
    s.beginWaiting.tb.windowRequest = s.tb.windowRequest ∧
    s.beginWaiting.tb.feeders = s.tb.feeders ∧ s.beginWaiting.tb.staleOrder = s.tb.staleOrder ∧
    s.beginWaiting.tb.time = s.tb.time ∧ s.beginWaiting.co = s.co ∧ s.beginWaiting.au = s.au ∧
    s.beginWaiting.pa = s.pa ∧ s.beginWaiting.bu = s.bu ∧ s.beginWaiting.ru = s.ru ∧
    s.beginWaiting.pending = s.pending := by
  unfold State.beginWaiting
  (repeat' split) <;> simp

/-- `grantWindow` changes only: tb.state, tb.waitingApply, tb.waiting, freeCounter, co.request, co.pass, co.working, co.nameMiss. -/
@[simp] theorem State.grantWindow_frame (s : State) :
    s.grantWindow.sc = s.sc ∧ s.grantWindow.lc = s.lc ∧ s.grantWindow.tb.services = s.tb.services ∧
    s.grantWindow.tb.pool = s.tb.pool ∧ s.grantWindow.tb.names = s.tb.names ∧
    s.grantWindow.tb.refusals = s.tb.refusals ∧
    s.grantWindow.tb.windowRequest = s.tb.windowRequest ∧ s.grantWindow.tb.feeders = s.tb.feeders ∧
    s.grantWindow.tb.staleOrder = s.tb.staleOrder ∧ s.grantWindow.tb.time = s.tb.time ∧
    s.grantWindow.co.composed = s.co.composed ∧ s.grantWindow.co.number = s.co.number ∧
    s.grantWindow.au = s.au ∧ s.grantWindow.pa = s.pa ∧ s.grantWindow.bu = s.bu ∧
    s.grantWindow.ru = s.ru ∧ s.grantWindow.pending = s.pending := by
  unfold State.grantWindow
  (repeat' split) <;> simp

/-- `arbitrate` changes only: tb.state, tb.waitingApply, tb.waiting, freeCounter, tb.windowRequest, co.request, co.pass, co.working, co.nameMiss. -/
@[simp] theorem State.arbitrate_frame (s : State) :
    s.arbitrate.sc = s.sc ∧ s.arbitrate.lc = s.lc ∧ s.arbitrate.tb.services = s.tb.services ∧
    s.arbitrate.tb.pool = s.tb.pool ∧ s.arbitrate.tb.names = s.tb.names ∧
    s.arbitrate.tb.refusals = s.tb.refusals ∧ s.arbitrate.tb.feeders = s.tb.feeders ∧
    s.arbitrate.tb.staleOrder = s.tb.staleOrder ∧ s.arbitrate.tb.time = s.tb.time ∧
    s.arbitrate.co.composed = s.co.composed ∧ s.arbitrate.co.number = s.co.number ∧
    s.arbitrate.au = s.au ∧ s.arbitrate.pa = s.pa ∧ s.arbitrate.bu = s.bu ∧ s.arbitrate.ru = s.ru ∧
    s.arbitrate.pending = s.pending := by
  unfold State.arbitrate
  (repeat' split) <;> simp

/-- `askWindow` changes only: tb.state, tb.waitingApply, tb.waiting, freeCounter, tb.windowRequest, co.request, co.pass, co.working, co.nameMiss. -/
@[simp] theorem State.askWindow_frame (s : State) :
    s.askWindow.sc = s.sc ∧ s.askWindow.lc = s.lc ∧ s.askWindow.tb.services = s.tb.services ∧
    s.askWindow.tb.pool = s.tb.pool ∧ s.askWindow.tb.names = s.tb.names ∧
    s.askWindow.tb.refusals = s.tb.refusals ∧ s.askWindow.tb.feeders = s.tb.feeders ∧
    s.askWindow.tb.staleOrder = s.tb.staleOrder ∧ s.askWindow.tb.time = s.tb.time ∧
    s.askWindow.co.composed = s.co.composed ∧ s.askWindow.co.number = s.co.number ∧
    s.askWindow.au = s.au ∧ s.askWindow.pa = s.pa ∧ s.askWindow.bu = s.bu ∧ s.askWindow.ru = s.ru ∧
    s.askWindow.pending = s.pending := by
  unfold State.askWindow
  (repeat' split) <;> simp

/-- `requestCompose` changes only: co.request. -/
@[simp] theorem State.requestCompose_frame (s : State) :
    s.requestCompose.sc = s.sc ∧ s.requestCompose.lc = s.lc ∧ s.requestCompose.tb = s.tb ∧
    s.requestCompose.co.pass = s.co.pass ∧ s.requestCompose.co.working = s.co.working ∧
    s.requestCompose.co.nameMiss = s.co.nameMiss ∧ s.requestCompose.co.composed = s.co.composed ∧
    s.requestCompose.co.number = s.co.number ∧ s.requestCompose.au = s.au ∧
    s.requestCompose.pa = s.pa ∧ s.requestCompose.bu = s.bu ∧ s.requestCompose.ru = s.ru ∧
    s.requestCompose.pending = s.pending ∧ s.requestCompose.freeCounter = s.freeCounter := by
  unfold State.requestCompose
  (repeat' split) <;> simp

/-- `flag` changes only: ru.pending, ru.timers. -/
@[simp] theorem State.flag_frame (s : State) (k : ReportKind) :
    (s.flag k).sc = s.sc ∧ (s.flag k).lc = s.lc ∧ (s.flag k).tb = s.tb ∧ (s.flag k).co = s.co ∧
    (s.flag k).au = s.au ∧ (s.flag k).pa = s.pa ∧ (s.flag k).bu = s.bu ∧
    (s.flag k).ru.counts = s.ru.counts ∧ (s.flag k).ru.geometryCut = s.ru.geometryCut ∧
    (s.flag k).ru.listed = s.ru.listed ∧ (s.flag k).ru.marks = s.ru.marks ∧
    (s.flag k).pending = s.pending ∧ (s.flag k).freeCounter = s.freeCounter := by
  unfold State.flag
  (repeat' split) <;> simp

/-- `count` changes only: ru.pending, ru.timers, ru.counts. -/
@[simp] theorem State.count_frame (s : State) (k : ReportKind) :
    (s.count k).sc = s.sc ∧ (s.count k).lc = s.lc ∧ (s.count k).tb = s.tb ∧ (s.count k).co = s.co ∧
    (s.count k).au = s.au ∧ (s.count k).pa = s.pa ∧ (s.count k).bu = s.bu ∧
    (s.count k).ru.geometryCut = s.ru.geometryCut ∧ (s.count k).ru.listed = s.ru.listed ∧
    (s.count k).ru.marks = s.ru.marks ∧ (s.count k).pending = s.pending ∧
    (s.count k).freeCounter = s.freeCounter := by
  unfold State.count
  (repeat' split) <;> simp

/-- `countGeometryCut` changes only: ru.pending, ru.timers, ru.geometryCut. -/
@[simp] theorem State.countGeometryCut_frame (s : State) :
    s.countGeometryCut.sc = s.sc ∧ s.countGeometryCut.lc = s.lc ∧ s.countGeometryCut.tb = s.tb ∧
    s.countGeometryCut.co = s.co ∧ s.countGeometryCut.au = s.au ∧ s.countGeometryCut.pa = s.pa ∧
    s.countGeometryCut.bu = s.bu ∧ s.countGeometryCut.ru.counts = s.ru.counts ∧
    s.countGeometryCut.ru.listed = s.ru.listed ∧ s.countGeometryCut.ru.marks = s.ru.marks ∧
    s.countGeometryCut.pending = s.pending ∧ s.countGeometryCut.freeCounter = s.freeCounter := by
  unfold State.countGeometryCut
  (repeat' split) <;> simp

/-- `offerStatus` changes only: lc.queue, lc.transmitter, ru.listed, ru.pending. -/
@[simp] theorem State.offerStatus_frame (s : State) (b : BitVec 19) :
    (s.offerStatus b).sc = s.sc ∧ (s.offerStatus b).lc.receiver = s.lc.receiver ∧
    (s.offerStatus b).lc.fifo = s.lc.fifo ∧ (s.offerStatus b).lc.ring = s.lc.ring ∧
    (s.offerStatus b).lc.watch = s.lc.watch ∧ (s.offerStatus b).tb = s.tb ∧
    (s.offerStatus b).co = s.co ∧ (s.offerStatus b).au = s.au ∧ (s.offerStatus b).pa = s.pa ∧
    (s.offerStatus b).bu = s.bu ∧ (s.offerStatus b).ru.counts = s.ru.counts ∧
    (s.offerStatus b).ru.geometryCut = s.ru.geometryCut ∧
    (s.offerStatus b).ru.timers = s.ru.timers ∧ (s.offerStatus b).ru.marks = s.ru.marks ∧
    (s.offerStatus b).pending = s.pending ∧ (s.offerStatus b).freeCounter = s.freeCounter := by
  unfold State.offerStatus
  (repeat' split) <;> simp

/-- `expireInterval` changes only: lc.queue, lc.transmitter, ru.listed, ru.pending, ru.timers. -/
@[simp] theorem State.expireInterval_frame (s : State) (i : Nat) :
    (s.expireInterval i).sc = s.sc ∧ (s.expireInterval i).lc.receiver = s.lc.receiver ∧
    (s.expireInterval i).lc.fifo = s.lc.fifo ∧ (s.expireInterval i).lc.ring = s.lc.ring ∧
    (s.expireInterval i).lc.watch = s.lc.watch ∧ (s.expireInterval i).tb = s.tb ∧
    (s.expireInterval i).co = s.co ∧ (s.expireInterval i).au = s.au ∧
    (s.expireInterval i).pa = s.pa ∧ (s.expireInterval i).bu = s.bu ∧
    (s.expireInterval i).ru.counts = s.ru.counts ∧
    (s.expireInterval i).ru.geometryCut = s.ru.geometryCut ∧
    (s.expireInterval i).ru.marks = s.ru.marks ∧ (s.expireInterval i).pending = s.pending ∧
    (s.expireInterval i).freeCounter = s.freeCounter := by
  unfold State.expireInterval
  (repeat' split) <;> simp

/-- `expireIfZero` changes only: lc.queue, lc.transmitter, ru.listed, ru.pending, ru.timers. -/
@[simp] theorem State.expireIfZero_frame (s : State) (i : Nat) :
    (s.expireIfZero i).sc = s.sc ∧ (s.expireIfZero i).lc.receiver = s.lc.receiver ∧
    (s.expireIfZero i).lc.fifo = s.lc.fifo ∧ (s.expireIfZero i).lc.ring = s.lc.ring ∧
    (s.expireIfZero i).lc.watch = s.lc.watch ∧ (s.expireIfZero i).tb = s.tb ∧
    (s.expireIfZero i).co = s.co ∧ (s.expireIfZero i).au = s.au ∧ (s.expireIfZero i).pa = s.pa ∧
    (s.expireIfZero i).bu = s.bu ∧ (s.expireIfZero i).ru.counts = s.ru.counts ∧
    (s.expireIfZero i).ru.geometryCut = s.ru.geometryCut ∧
    (s.expireIfZero i).ru.marks = s.ru.marks ∧ (s.expireIfZero i).pending = s.pending ∧
    (s.expireIfZero i).freeCounter = s.freeCounter := by
  unfold State.expireIfZero
  (repeat' split) <;> simp

/-- `expireZeros` changes only: lc.queue, lc.transmitter, ru.listed, ru.pending, ru.timers. -/
@[simp] theorem State.expireZeros_frame (s : State) :
    s.expireZeros.sc = s.sc ∧ s.expireZeros.lc.receiver = s.lc.receiver ∧
    s.expireZeros.lc.fifo = s.lc.fifo ∧ s.expireZeros.lc.ring = s.lc.ring ∧
    s.expireZeros.lc.watch = s.lc.watch ∧ s.expireZeros.tb = s.tb ∧ s.expireZeros.co = s.co ∧
    s.expireZeros.au = s.au ∧ s.expireZeros.pa = s.pa ∧ s.expireZeros.bu = s.bu ∧
    s.expireZeros.ru.counts = s.ru.counts ∧ s.expireZeros.ru.geometryCut = s.ru.geometryCut ∧
    s.expireZeros.ru.marks = s.ru.marks ∧ s.expireZeros.pending = s.pending ∧
    s.expireZeros.freeCounter = s.freeCounter := by
  unfold State.expireZeros
  (repeat' split) <;> simp

/-- Counting a list of events changes only: ru.pending, ru.timers, ru.counts. -/
@[simp] theorem State.foldCount_frame (s : State) (ks : List ReportKind) :
    (ks.foldl State.count s).sc = s.sc ∧ (ks.foldl State.count s).lc = s.lc ∧
    (ks.foldl State.count s).tb = s.tb ∧ (ks.foldl State.count s).co = s.co ∧
    (ks.foldl State.count s).au = s.au ∧ (ks.foldl State.count s).pa = s.pa ∧
    (ks.foldl State.count s).bu = s.bu ∧
    (ks.foldl State.count s).ru.geometryCut = s.ru.geometryCut ∧
    (ks.foldl State.count s).ru.listed = s.ru.listed ∧
    (ks.foldl State.count s).ru.marks = s.ru.marks ∧ (ks.foldl State.count s).pending = s.pending ∧
    (ks.foldl State.count s).freeCounter = s.freeCounter := by
  induction ks generalizing s with
  | nil => simp
  | cons k rest ih => simp [ih]

/-- `raiseAll` changes only: lc.queue, lc.transmitter, ru.listed, ru.pending, ru.timers, ru.counts. -/
@[simp] theorem State.raiseAll_frame (s : State) (ks : List ReportKind) :
    (s.raiseAll ks).sc = s.sc ∧ (s.raiseAll ks).lc.receiver = s.lc.receiver ∧
    (s.raiseAll ks).lc.fifo = s.lc.fifo ∧ (s.raiseAll ks).lc.ring = s.lc.ring ∧
    (s.raiseAll ks).lc.watch = s.lc.watch ∧ (s.raiseAll ks).tb = s.tb ∧ (s.raiseAll ks).co = s.co ∧
    (s.raiseAll ks).au = s.au ∧ (s.raiseAll ks).pa = s.pa ∧ (s.raiseAll ks).bu = s.bu ∧
    (s.raiseAll ks).ru.geometryCut = s.ru.geometryCut ∧ (s.raiseAll ks).ru.marks = s.ru.marks ∧
    (s.raiseAll ks).pending = s.pending ∧ (s.raiseAll ks).freeCounter = s.freeCounter := by
  cases ks <;> simp [State.raiseAll]

/-- `raise` changes only: lc.queue, lc.transmitter, ru.listed, ru.pending, ru.timers, ru.counts. -/
@[simp] theorem State.raise_frame (s : State) (k : ReportKind) :
    (s.raise k).sc = s.sc ∧ (s.raise k).lc.receiver = s.lc.receiver ∧
    (s.raise k).lc.fifo = s.lc.fifo ∧ (s.raise k).lc.ring = s.lc.ring ∧
    (s.raise k).lc.watch = s.lc.watch ∧ (s.raise k).tb = s.tb ∧ (s.raise k).co = s.co ∧
    (s.raise k).au = s.au ∧ (s.raise k).pa = s.pa ∧ (s.raise k).bu = s.bu ∧
    (s.raise k).ru.geometryCut = s.ru.geometryCut ∧ (s.raise k).ru.marks = s.ru.marks ∧
    (s.raise k).pending = s.pending ∧ (s.raise k).freeCounter = s.freeCounter := by
  unfold State.raise
  (repeat' split) <;> simp

/-- `changePace` changes only: au.pace, bu. -/
@[simp] theorem State.changePace_frame (s : State) (q : Pace) :
    (s.changePace q).sc = s.sc ∧ (s.changePace q).lc = s.lc ∧ (s.changePace q).tb = s.tb ∧
    (s.changePace q).co = s.co ∧ (s.changePace q).au.peers = s.au.peers ∧
    (s.changePace q).au.agreement = s.au.agreement ∧
    (s.changePace q).au.composedDigest = s.au.composedDigest ∧
    (s.changePace q).au.ownProposal = s.au.ownProposal ∧
    (s.changePace q).au.agreementTimer = s.au.agreementTimer ∧
    (s.changePace q).au.swapBuffer = s.au.swapBuffer ∧ (s.changePace q).au.shown = s.au.shown ∧
    (s.changePace q).au.shownDigest = s.au.shownDigest ∧
    (s.changePace q).au.paceTimer = s.au.paceTimer ∧
    (s.changePace q).au.beaconTimer = s.au.beaconTimer ∧ (s.changePace q).au.sent = s.au.sent ∧
    (s.changePace q).pa = s.pa ∧ (s.changePace q).ru = s.ru ∧ (s.changePace q).pending = s.pending ∧
    (s.changePace q).freeCounter = s.freeCounter := by
  unfold State.changePace
  (repeat' split) <;> simp

/-- `setAgreement` changes only: au.agreement, lc.queue, lc.transmitter, ru.listed, ru.pending, ru.timers, ru.counts. -/
@[simp] theorem State.setAgreement_frame (s : State) (x : AgreementState) :
    (s.setAgreement x).sc = s.sc ∧ (s.setAgreement x).lc.receiver = s.lc.receiver ∧
    (s.setAgreement x).lc.fifo = s.lc.fifo ∧ (s.setAgreement x).lc.ring = s.lc.ring ∧
    (s.setAgreement x).lc.watch = s.lc.watch ∧ (s.setAgreement x).tb = s.tb ∧
    (s.setAgreement x).co = s.co ∧ (s.setAgreement x).au.peers = s.au.peers ∧
    (s.setAgreement x).au.composedDigest = s.au.composedDigest ∧
    (s.setAgreement x).au.ownProposal = s.au.ownProposal ∧
    (s.setAgreement x).au.agreementTimer = s.au.agreementTimer ∧
    (s.setAgreement x).au.swapBuffer = s.au.swapBuffer ∧ (s.setAgreement x).au.shown = s.au.shown ∧
    (s.setAgreement x).au.shownDigest = s.au.shownDigest ∧ (s.setAgreement x).au.pace = s.au.pace ∧
    (s.setAgreement x).au.paceTimer = s.au.paceTimer ∧
    (s.setAgreement x).au.beaconTimer = s.au.beaconTimer ∧ (s.setAgreement x).au.sent = s.au.sent ∧
    (s.setAgreement x).pa = s.pa ∧ (s.setAgreement x).bu = s.bu ∧
    (s.setAgreement x).ru.geometryCut = s.ru.geometryCut ∧
    (s.setAgreement x).ru.marks = s.ru.marks ∧ (s.setAgreement x).pending = s.pending ∧
    (s.setAgreement x).freeCounter = s.freeCounter := by
  unfold State.setAgreement
  (repeat' split) <;> simp

/-- `adopt` changes only: au.swapBuffer, au.shownDigest, pa.swapPending. -/
@[simp] theorem State.adopt_frame (s : State) (o : Pace) :
    (s.adopt o).sc = s.sc ∧ (s.adopt o).lc = s.lc ∧ (s.adopt o).tb = s.tb ∧ (s.adopt o).co = s.co ∧
    (s.adopt o).au.peers = s.au.peers ∧ (s.adopt o).au.agreement = s.au.agreement ∧
    (s.adopt o).au.composedDigest = s.au.composedDigest ∧
    (s.adopt o).au.ownProposal = s.au.ownProposal ∧
    (s.adopt o).au.agreementTimer = s.au.agreementTimer ∧ (s.adopt o).au.shown = s.au.shown ∧
    (s.adopt o).au.pace = s.au.pace ∧ (s.adopt o).au.paceTimer = s.au.paceTimer ∧
    (s.adopt o).au.beaconTimer = s.au.beaconTimer ∧ (s.adopt o).au.sent = s.au.sent ∧
    (s.adopt o).pa.geometry = s.pa.geometry ∧ (s.adopt o).pa.fontHeight = s.pa.fontHeight ∧
    (s.adopt o).pa.glyphs = s.pa.glyphs ∧ (s.adopt o).pa.layout = s.pa.layout ∧
    (s.adopt o).pa.palette = s.pa.palette ∧ (s.adopt o).pa.classMap = s.pa.classMap ∧
    (s.adopt o).pa.brightness = s.pa.brightness ∧ (s.adopt o).pa.sample = s.pa.sample ∧
    (s.adopt o).pa.paint = s.pa.paint ∧ (s.adopt o).pa.frameTimer = s.pa.frameTimer ∧
    (s.adopt o).pa.geometryCut = s.pa.geometryCut ∧ (s.adopt o).pa.panel = s.pa.panel ∧
    (s.adopt o).bu = s.bu ∧ (s.adopt o).ru = s.ru ∧ (s.adopt o).pending = s.pending ∧
    (s.adopt o).freeCounter = s.freeCounter := by
  unfold State.adopt
  (repeat' split) <;> simp

/-- `checkAdoption` changes only: au.swapBuffer, au.shownDigest, pa.swapPending, au.agreement, au.agreementTimer. -/
@[simp] theorem State.checkAdoption_frame (s : State) :
    s.checkAdoption.sc = s.sc ∧ s.checkAdoption.lc = s.lc ∧ s.checkAdoption.tb = s.tb ∧
    s.checkAdoption.co = s.co ∧ s.checkAdoption.au.peers = s.au.peers ∧
    s.checkAdoption.au.composedDigest = s.au.composedDigest ∧
    s.checkAdoption.au.ownProposal = s.au.ownProposal ∧ s.checkAdoption.au.shown = s.au.shown ∧
    s.checkAdoption.au.pace = s.au.pace ∧ s.checkAdoption.au.paceTimer = s.au.paceTimer ∧
    s.checkAdoption.au.beaconTimer = s.au.beaconTimer ∧ s.checkAdoption.au.sent = s.au.sent ∧
    s.checkAdoption.pa.geometry = s.pa.geometry ∧ s.checkAdoption.pa.fontHeight = s.pa.fontHeight ∧
    s.checkAdoption.pa.glyphs = s.pa.glyphs ∧ s.checkAdoption.pa.layout = s.pa.layout ∧
    s.checkAdoption.pa.palette = s.pa.palette ∧ s.checkAdoption.pa.classMap = s.pa.classMap ∧
    s.checkAdoption.pa.brightness = s.pa.brightness ∧ s.checkAdoption.pa.sample = s.pa.sample ∧
    s.checkAdoption.pa.paint = s.pa.paint ∧ s.checkAdoption.pa.frameTimer = s.pa.frameTimer ∧
    s.checkAdoption.pa.geometryCut = s.pa.geometryCut ∧ s.checkAdoption.pa.panel = s.pa.panel ∧
    s.checkAdoption.bu = s.bu ∧ s.checkAdoption.ru = s.ru ∧ s.checkAdoption.pending = s.pending ∧
    s.checkAdoption.freeCounter = s.freeCounter := by
  unfold State.checkAdoption
  (repeat' split) <;> simp

/-- `agreementAfterDigest` changes only: au.swapBuffer, au.shownDigest, pa.swapPending, au.agreement, au.agreementTimer, lc.queue, lc.transmitter, ru.listed, ru.pending, ru.timers, ru.counts. -/
@[simp] theorem State.agreementAfterDigest_frame (s : State) :
    s.agreementAfterDigest.sc = s.sc ∧ s.agreementAfterDigest.lc.receiver = s.lc.receiver ∧
    s.agreementAfterDigest.lc.fifo = s.lc.fifo ∧ s.agreementAfterDigest.lc.ring = s.lc.ring ∧
    s.agreementAfterDigest.lc.watch = s.lc.watch ∧ s.agreementAfterDigest.tb = s.tb ∧
    s.agreementAfterDigest.co = s.co ∧ s.agreementAfterDigest.au.peers = s.au.peers ∧
    s.agreementAfterDigest.au.composedDigest = s.au.composedDigest ∧
    s.agreementAfterDigest.au.ownProposal = s.au.ownProposal ∧
    s.agreementAfterDigest.au.shown = s.au.shown ∧ s.agreementAfterDigest.au.pace = s.au.pace ∧
    s.agreementAfterDigest.au.paceTimer = s.au.paceTimer ∧
    s.agreementAfterDigest.au.beaconTimer = s.au.beaconTimer ∧
    s.agreementAfterDigest.au.sent = s.au.sent ∧
    s.agreementAfterDigest.pa.geometry = s.pa.geometry ∧
    s.agreementAfterDigest.pa.fontHeight = s.pa.fontHeight ∧
    s.agreementAfterDigest.pa.glyphs = s.pa.glyphs ∧
    s.agreementAfterDigest.pa.layout = s.pa.layout ∧
    s.agreementAfterDigest.pa.palette = s.pa.palette ∧
    s.agreementAfterDigest.pa.classMap = s.pa.classMap ∧
    s.agreementAfterDigest.pa.brightness = s.pa.brightness ∧
    s.agreementAfterDigest.pa.sample = s.pa.sample ∧ s.agreementAfterDigest.pa.paint = s.pa.paint ∧
    s.agreementAfterDigest.pa.frameTimer = s.pa.frameTimer ∧
    s.agreementAfterDigest.pa.geometryCut = s.pa.geometryCut ∧
    s.agreementAfterDigest.pa.panel = s.pa.panel ∧ s.agreementAfterDigest.bu = s.bu ∧
    s.agreementAfterDigest.ru.geometryCut = s.ru.geometryCut ∧
    s.agreementAfterDigest.ru.marks = s.ru.marks ∧ s.agreementAfterDigest.pending = s.pending ∧
    s.agreementAfterDigest.freeCounter = s.freeCounter := by
  unfold State.agreementAfterDigest
  (repeat' split) <;> simp

/-- `agreementAfterExpiry` changes only: au.swapBuffer, au.shownDigest, pa.swapPending, au.agreement, au.agreementTimer, lc.queue, lc.transmitter, ru.listed, ru.pending, ru.timers, ru.counts. -/
@[simp] theorem State.agreementAfterExpiry_frame (s : State) :
    s.agreementAfterExpiry.sc = s.sc ∧ s.agreementAfterExpiry.lc.receiver = s.lc.receiver ∧
    s.agreementAfterExpiry.lc.fifo = s.lc.fifo ∧ s.agreementAfterExpiry.lc.ring = s.lc.ring ∧
    s.agreementAfterExpiry.lc.watch = s.lc.watch ∧ s.agreementAfterExpiry.tb = s.tb ∧
    s.agreementAfterExpiry.co = s.co ∧ s.agreementAfterExpiry.au.peers = s.au.peers ∧
    s.agreementAfterExpiry.au.composedDigest = s.au.composedDigest ∧
    s.agreementAfterExpiry.au.ownProposal = s.au.ownProposal ∧
    s.agreementAfterExpiry.au.shown = s.au.shown ∧ s.agreementAfterExpiry.au.pace = s.au.pace ∧
    s.agreementAfterExpiry.au.paceTimer = s.au.paceTimer ∧
    s.agreementAfterExpiry.au.beaconTimer = s.au.beaconTimer ∧
    s.agreementAfterExpiry.au.sent = s.au.sent ∧
    s.agreementAfterExpiry.pa.geometry = s.pa.geometry ∧
    s.agreementAfterExpiry.pa.fontHeight = s.pa.fontHeight ∧
    s.agreementAfterExpiry.pa.glyphs = s.pa.glyphs ∧
    s.agreementAfterExpiry.pa.layout = s.pa.layout ∧
    s.agreementAfterExpiry.pa.palette = s.pa.palette ∧
    s.agreementAfterExpiry.pa.classMap = s.pa.classMap ∧
    s.agreementAfterExpiry.pa.brightness = s.pa.brightness ∧
    s.agreementAfterExpiry.pa.sample = s.pa.sample ∧ s.agreementAfterExpiry.pa.paint = s.pa.paint ∧
    s.agreementAfterExpiry.pa.frameTimer = s.pa.frameTimer ∧
    s.agreementAfterExpiry.pa.geometryCut = s.pa.geometryCut ∧
    s.agreementAfterExpiry.pa.panel = s.pa.panel ∧ s.agreementAfterExpiry.bu = s.bu ∧
    s.agreementAfterExpiry.ru.geometryCut = s.ru.geometryCut ∧
    s.agreementAfterExpiry.ru.marks = s.ru.marks ∧ s.agreementAfterExpiry.pending = s.pending ∧
    s.agreementAfterExpiry.freeCounter = s.freeCounter := by
  unfold State.agreementAfterExpiry
  (repeat' split) <;> simp

/-- `agreeAlone` changes only: au.swapBuffer, au.shownDigest, pa.swapPending, au.agreement. -/
@[simp] theorem State.agreeAlone_frame (s : State) (d : Digest) :
    (s.agreeAlone d).sc = s.sc ∧ (s.agreeAlone d).lc = s.lc ∧ (s.agreeAlone d).tb = s.tb ∧
    (s.agreeAlone d).co = s.co ∧ (s.agreeAlone d).au.peers = s.au.peers ∧
    (s.agreeAlone d).au.composedDigest = s.au.composedDigest ∧
    (s.agreeAlone d).au.ownProposal = s.au.ownProposal ∧
    (s.agreeAlone d).au.agreementTimer = s.au.agreementTimer ∧
    (s.agreeAlone d).au.shown = s.au.shown ∧ (s.agreeAlone d).au.pace = s.au.pace ∧
    (s.agreeAlone d).au.paceTimer = s.au.paceTimer ∧
    (s.agreeAlone d).au.beaconTimer = s.au.beaconTimer ∧ (s.agreeAlone d).au.sent = s.au.sent ∧
    (s.agreeAlone d).pa.geometry = s.pa.geometry ∧
    (s.agreeAlone d).pa.fontHeight = s.pa.fontHeight ∧ (s.agreeAlone d).pa.glyphs = s.pa.glyphs ∧
    (s.agreeAlone d).pa.layout = s.pa.layout ∧ (s.agreeAlone d).pa.palette = s.pa.palette ∧
    (s.agreeAlone d).pa.classMap = s.pa.classMap ∧
    (s.agreeAlone d).pa.brightness = s.pa.brightness ∧ (s.agreeAlone d).pa.sample = s.pa.sample ∧
    (s.agreeAlone d).pa.paint = s.pa.paint ∧ (s.agreeAlone d).pa.frameTimer = s.pa.frameTimer ∧
    (s.agreeAlone d).pa.geometryCut = s.pa.geometryCut ∧ (s.agreeAlone d).pa.panel = s.pa.panel ∧
    (s.agreeAlone d).bu = s.bu ∧ (s.agreeAlone d).ru = s.ru ∧ (s.agreeAlone d).pending = s.pending ∧
    (s.agreeAlone d).freeCounter = s.freeCounter := by
  unfold State.agreeAlone
  (repeat' split) <;> simp

/-- `agreeWithPeers` changes only: au.swapBuffer, au.shownDigest, pa.swapPending, au.agreement, au.agreementTimer, lc.queue, lc.transmitter, ru.listed, ru.pending, ru.timers, ru.counts. -/
@[simp] theorem State.agreeWithPeers_frame (s : State) (d : Digest) :
    (s.agreeWithPeers d).sc = s.sc ∧ (s.agreeWithPeers d).lc.receiver = s.lc.receiver ∧
    (s.agreeWithPeers d).lc.fifo = s.lc.fifo ∧ (s.agreeWithPeers d).lc.ring = s.lc.ring ∧
    (s.agreeWithPeers d).lc.watch = s.lc.watch ∧ (s.agreeWithPeers d).tb = s.tb ∧
    (s.agreeWithPeers d).co = s.co ∧ (s.agreeWithPeers d).au.peers = s.au.peers ∧
    (s.agreeWithPeers d).au.composedDigest = s.au.composedDigest ∧
    (s.agreeWithPeers d).au.ownProposal = s.au.ownProposal ∧
    (s.agreeWithPeers d).au.shown = s.au.shown ∧ (s.agreeWithPeers d).au.pace = s.au.pace ∧
    (s.agreeWithPeers d).au.paceTimer = s.au.paceTimer ∧
    (s.agreeWithPeers d).au.beaconTimer = s.au.beaconTimer ∧
    (s.agreeWithPeers d).au.sent = s.au.sent ∧ (s.agreeWithPeers d).pa.geometry = s.pa.geometry ∧
    (s.agreeWithPeers d).pa.fontHeight = s.pa.fontHeight ∧
    (s.agreeWithPeers d).pa.glyphs = s.pa.glyphs ∧ (s.agreeWithPeers d).pa.layout = s.pa.layout ∧
    (s.agreeWithPeers d).pa.palette = s.pa.palette ∧
    (s.agreeWithPeers d).pa.classMap = s.pa.classMap ∧
    (s.agreeWithPeers d).pa.brightness = s.pa.brightness ∧
    (s.agreeWithPeers d).pa.sample = s.pa.sample ∧ (s.agreeWithPeers d).pa.paint = s.pa.paint ∧
    (s.agreeWithPeers d).pa.frameTimer = s.pa.frameTimer ∧
    (s.agreeWithPeers d).pa.geometryCut = s.pa.geometryCut ∧
    (s.agreeWithPeers d).pa.panel = s.pa.panel ∧ (s.agreeWithPeers d).bu = s.bu ∧
    (s.agreeWithPeers d).ru.geometryCut = s.ru.geometryCut ∧
    (s.agreeWithPeers d).ru.marks = s.ru.marks ∧ (s.agreeWithPeers d).pending = s.pending ∧
    (s.agreeWithPeers d).freeCounter = s.freeCounter := by
  unfold State.agreeWithPeers
  (repeat' split) <;> simp

/-- `takeCompletion` changes only: au.swapBuffer, au.shownDigest, pa.swapPending, au.agreement, au.agreementTimer, au.composedDigest, au.ownProposal, lc.queue, lc.transmitter, ru.listed, ru.pending, ru.timers, ru.counts. -/
@[simp] theorem State.takeCompletion_frame (s : State) (c : ComposedSet) :
    (s.takeCompletion c).sc = s.sc ∧ (s.takeCompletion c).lc.receiver = s.lc.receiver ∧
    (s.takeCompletion c).lc.fifo = s.lc.fifo ∧ (s.takeCompletion c).lc.ring = s.lc.ring ∧
    (s.takeCompletion c).lc.watch = s.lc.watch ∧ (s.takeCompletion c).tb = s.tb ∧
    (s.takeCompletion c).co = s.co ∧ (s.takeCompletion c).au.peers = s.au.peers ∧
    (s.takeCompletion c).au.shown = s.au.shown ∧ (s.takeCompletion c).au.pace = s.au.pace ∧
    (s.takeCompletion c).au.paceTimer = s.au.paceTimer ∧
    (s.takeCompletion c).au.beaconTimer = s.au.beaconTimer ∧
    (s.takeCompletion c).au.sent = s.au.sent ∧ (s.takeCompletion c).pa.geometry = s.pa.geometry ∧
    (s.takeCompletion c).pa.fontHeight = s.pa.fontHeight ∧
    (s.takeCompletion c).pa.glyphs = s.pa.glyphs ∧ (s.takeCompletion c).pa.layout = s.pa.layout ∧
    (s.takeCompletion c).pa.palette = s.pa.palette ∧
    (s.takeCompletion c).pa.classMap = s.pa.classMap ∧
    (s.takeCompletion c).pa.brightness = s.pa.brightness ∧
    (s.takeCompletion c).pa.sample = s.pa.sample ∧ (s.takeCompletion c).pa.paint = s.pa.paint ∧
    (s.takeCompletion c).pa.frameTimer = s.pa.frameTimer ∧
    (s.takeCompletion c).pa.geometryCut = s.pa.geometryCut ∧
    (s.takeCompletion c).pa.panel = s.pa.panel ∧ (s.takeCompletion c).bu = s.bu ∧
    (s.takeCompletion c).ru.geometryCut = s.ru.geometryCut ∧
    (s.takeCompletion c).ru.marks = s.ru.marks ∧ (s.takeCompletion c).pending = s.pending ∧
    (s.takeCompletion c).freeCounter = s.freeCounter := by
  unfold State.takeCompletion
  (repeat' split) <;> simp

/-- `completePass` changes only: au.swapBuffer, au.shownDigest, pa.swapPending, au.agreement, au.agreementTimer, au.composedDigest, au.ownProposal, co.composed, co.number, lc.queue, lc.transmitter, ru.listed, ru.pending, ru.timers, ru.counts. -/
@[simp] theorem State.completePass_frame (s : State) :
    s.completePass.sc = s.sc ∧ s.completePass.lc.receiver = s.lc.receiver ∧
    s.completePass.lc.fifo = s.lc.fifo ∧ s.completePass.lc.ring = s.lc.ring ∧
    s.completePass.lc.watch = s.lc.watch ∧ s.completePass.tb = s.tb ∧
    s.completePass.co.request = s.co.request ∧ s.completePass.co.pass = s.co.pass ∧
    s.completePass.co.working = s.co.working ∧ s.completePass.co.nameMiss = s.co.nameMiss ∧
    s.completePass.au.peers = s.au.peers ∧ s.completePass.au.shown = s.au.shown ∧
    s.completePass.au.pace = s.au.pace ∧ s.completePass.au.paceTimer = s.au.paceTimer ∧
    s.completePass.au.beaconTimer = s.au.beaconTimer ∧ s.completePass.au.sent = s.au.sent ∧
    s.completePass.pa.geometry = s.pa.geometry ∧ s.completePass.pa.fontHeight = s.pa.fontHeight ∧
    s.completePass.pa.glyphs = s.pa.glyphs ∧ s.completePass.pa.layout = s.pa.layout ∧
    s.completePass.pa.palette = s.pa.palette ∧ s.completePass.pa.classMap = s.pa.classMap ∧
    s.completePass.pa.brightness = s.pa.brightness ∧ s.completePass.pa.sample = s.pa.sample ∧
    s.completePass.pa.paint = s.pa.paint ∧ s.completePass.pa.frameTimer = s.pa.frameTimer ∧
    s.completePass.pa.geometryCut = s.pa.geometryCut ∧ s.completePass.pa.panel = s.pa.panel ∧
    s.completePass.bu = s.bu ∧ s.completePass.ru.geometryCut = s.ru.geometryCut ∧
    s.completePass.ru.marks = s.ru.marks ∧ s.completePass.pending = s.pending ∧
    s.completePass.freeCounter = s.freeCounter := by
  unfold State.completePass
  (repeat' split) <;> simp

/-- `adoptPace` changes only: au.pace, bu. -/
@[simp] theorem State.adoptPace_frame (s : State) (q : Pace) :
    (s.adoptPace q).sc = s.sc ∧ (s.adoptPace q).lc = s.lc ∧ (s.adoptPace q).tb = s.tb ∧
    (s.adoptPace q).co = s.co ∧ (s.adoptPace q).au.peers = s.au.peers ∧
    (s.adoptPace q).au.agreement = s.au.agreement ∧
    (s.adoptPace q).au.composedDigest = s.au.composedDigest ∧
    (s.adoptPace q).au.ownProposal = s.au.ownProposal ∧
    (s.adoptPace q).au.agreementTimer = s.au.agreementTimer ∧
    (s.adoptPace q).au.swapBuffer = s.au.swapBuffer ∧ (s.adoptPace q).au.shown = s.au.shown ∧
    (s.adoptPace q).au.shownDigest = s.au.shownDigest ∧
    (s.adoptPace q).au.paceTimer = s.au.paceTimer ∧
    (s.adoptPace q).au.beaconTimer = s.au.beaconTimer ∧ (s.adoptPace q).au.sent = s.au.sent ∧
    (s.adoptPace q).pa = s.pa ∧ (s.adoptPace q).ru = s.ru ∧ (s.adoptPace q).pending = s.pending ∧
    (s.adoptPace q).freeCounter = s.freeCounter := by
  unfold State.adoptPace
  (repeat' split) <;> simp

/-- `judgeBoardNotice` changes only: au.peers, au.swapBuffer, au.shownDigest, pa.swapPending, au.agreement, au.agreementTimer, lc.queue, lc.transmitter, ru.listed, ru.pending, ru.timers, ru.counts. -/
@[simp] theorem State.judgeBoardNotice_frame (s : State) (k : NoticeKind) (n : Nat) (body : List Byte) :
    (s.judgeBoardNotice k n body).sc = s.sc ∧
    (s.judgeBoardNotice k n body).lc.receiver = s.lc.receiver ∧
    (s.judgeBoardNotice k n body).lc.fifo = s.lc.fifo ∧
    (s.judgeBoardNotice k n body).lc.ring = s.lc.ring ∧
    (s.judgeBoardNotice k n body).lc.watch = s.lc.watch ∧ (s.judgeBoardNotice k n body).tb = s.tb ∧
    (s.judgeBoardNotice k n body).co = s.co ∧
    (s.judgeBoardNotice k n body).au.composedDigest = s.au.composedDigest ∧
    (s.judgeBoardNotice k n body).au.ownProposal = s.au.ownProposal ∧
    (s.judgeBoardNotice k n body).au.shown = s.au.shown ∧
    (s.judgeBoardNotice k n body).au.pace = s.au.pace ∧
    (s.judgeBoardNotice k n body).au.paceTimer = s.au.paceTimer ∧
    (s.judgeBoardNotice k n body).au.beaconTimer = s.au.beaconTimer ∧
    (s.judgeBoardNotice k n body).au.sent = s.au.sent ∧
    (s.judgeBoardNotice k n body).pa.geometry = s.pa.geometry ∧
    (s.judgeBoardNotice k n body).pa.fontHeight = s.pa.fontHeight ∧
    (s.judgeBoardNotice k n body).pa.glyphs = s.pa.glyphs ∧
    (s.judgeBoardNotice k n body).pa.layout = s.pa.layout ∧
    (s.judgeBoardNotice k n body).pa.palette = s.pa.palette ∧
    (s.judgeBoardNotice k n body).pa.classMap = s.pa.classMap ∧
    (s.judgeBoardNotice k n body).pa.brightness = s.pa.brightness ∧
    (s.judgeBoardNotice k n body).pa.sample = s.pa.sample ∧
    (s.judgeBoardNotice k n body).pa.paint = s.pa.paint ∧
    (s.judgeBoardNotice k n body).pa.frameTimer = s.pa.frameTimer ∧
    (s.judgeBoardNotice k n body).pa.geometryCut = s.pa.geometryCut ∧
    (s.judgeBoardNotice k n body).pa.panel = s.pa.panel ∧ (s.judgeBoardNotice k n body).bu = s.bu ∧
    (s.judgeBoardNotice k n body).ru.geometryCut = s.ru.geometryCut ∧
    (s.judgeBoardNotice k n body).ru.marks = s.ru.marks ∧
    (s.judgeBoardNotice k n body).pending = s.pending ∧
    (s.judgeBoardNotice k n body).freeCounter = s.freeCounter := by
  unfold State.judgeBoardNotice
  (repeat' split) <;> simp

/-- `takeBoardNotice` changes only: au.peers, au.swapBuffer, au.shownDigest, au.pace, bu, pa.swapPending, au.agreement, au.agreementTimer, lc.fifo, lc.ring, tb.state, tb.waitingApply, lc.queue, lc.transmitter, ru.listed, ru.pending, ru.timers, ru.counts. -/
@[simp] theorem State.takeBoardNotice_frame (s : State) (k : NoticeKind) (c : Chain) :
    (s.takeBoardNotice k c).sc = s.sc ∧ (s.takeBoardNotice k c).lc.receiver = s.lc.receiver ∧
    (s.takeBoardNotice k c).lc.watch = s.lc.watch ∧
    (s.takeBoardNotice k c).tb.services = s.tb.services ∧
    (s.takeBoardNotice k c).tb.pool = s.tb.pool ∧ (s.takeBoardNotice k c).tb.names = s.tb.names ∧
    (s.takeBoardNotice k c).tb.refusals = s.tb.refusals ∧
    (s.takeBoardNotice k c).tb.waiting = s.tb.waiting ∧
    (s.takeBoardNotice k c).tb.windowRequest = s.tb.windowRequest ∧
    (s.takeBoardNotice k c).tb.feeders = s.tb.feeders ∧
    (s.takeBoardNotice k c).tb.staleOrder = s.tb.staleOrder ∧
    (s.takeBoardNotice k c).tb.time = s.tb.time ∧ (s.takeBoardNotice k c).co = s.co ∧
    (s.takeBoardNotice k c).au.composedDigest = s.au.composedDigest ∧
    (s.takeBoardNotice k c).au.ownProposal = s.au.ownProposal ∧
    (s.takeBoardNotice k c).au.shown = s.au.shown ∧
    (s.takeBoardNotice k c).au.paceTimer = s.au.paceTimer ∧
    (s.takeBoardNotice k c).au.beaconTimer = s.au.beaconTimer ∧
    (s.takeBoardNotice k c).au.sent = s.au.sent ∧
    (s.takeBoardNotice k c).pa.geometry = s.pa.geometry ∧
    (s.takeBoardNotice k c).pa.fontHeight = s.pa.fontHeight ∧
    (s.takeBoardNotice k c).pa.glyphs = s.pa.glyphs ∧
    (s.takeBoardNotice k c).pa.layout = s.pa.layout ∧
    (s.takeBoardNotice k c).pa.palette = s.pa.palette ∧
    (s.takeBoardNotice k c).pa.classMap = s.pa.classMap ∧
    (s.takeBoardNotice k c).pa.brightness = s.pa.brightness ∧
    (s.takeBoardNotice k c).pa.sample = s.pa.sample ∧
    (s.takeBoardNotice k c).pa.paint = s.pa.paint ∧
    (s.takeBoardNotice k c).pa.frameTimer = s.pa.frameTimer ∧
    (s.takeBoardNotice k c).pa.geometryCut = s.pa.geometryCut ∧
    (s.takeBoardNotice k c).pa.panel = s.pa.panel ∧
    (s.takeBoardNotice k c).ru.geometryCut = s.ru.geometryCut ∧
    (s.takeBoardNotice k c).ru.marks = s.ru.marks ∧ (s.takeBoardNotice k c).pending = s.pending ∧
    (s.takeBoardNotice k c).freeCounter = s.freeCounter := by
  unfold State.takeBoardNotice
  (repeat' split) <;> simp

/-- `swap` changes only: au.shown, au.swapBuffer, pa.swapPending. -/
@[simp] theorem State.swap_frame (s : State) :
    s.swap.sc = s.sc ∧ s.swap.lc = s.lc ∧ s.swap.tb = s.tb ∧ s.swap.co = s.co ∧
    s.swap.au.peers = s.au.peers ∧ s.swap.au.agreement = s.au.agreement ∧
    s.swap.au.composedDigest = s.au.composedDigest ∧ s.swap.au.ownProposal = s.au.ownProposal ∧
    s.swap.au.agreementTimer = s.au.agreementTimer ∧ s.swap.au.shownDigest = s.au.shownDigest ∧
    s.swap.au.pace = s.au.pace ∧ s.swap.au.paceTimer = s.au.paceTimer ∧
    s.swap.au.beaconTimer = s.au.beaconTimer ∧ s.swap.au.sent = s.au.sent ∧
    s.swap.pa.geometry = s.pa.geometry ∧ s.swap.pa.fontHeight = s.pa.fontHeight ∧
    s.swap.pa.glyphs = s.pa.glyphs ∧ s.swap.pa.layout = s.pa.layout ∧
    s.swap.pa.palette = s.pa.palette ∧ s.swap.pa.classMap = s.pa.classMap ∧
    s.swap.pa.brightness = s.pa.brightness ∧ s.swap.pa.sample = s.pa.sample ∧
    s.swap.pa.paint = s.pa.paint ∧ s.swap.pa.frameTimer = s.pa.frameTimer ∧
    s.swap.pa.geometryCut = s.pa.geometryCut ∧ s.swap.pa.panel = s.pa.panel ∧ s.swap.bu = s.bu ∧
    s.swap.ru = s.ru ∧ s.swap.pending = s.pending ∧ s.swap.freeCounter = s.freeCounter := by
  unfold State.swap
  (repeat' split) <;> simp

/-- `sampleAndPaint` changes only: pa.sample, pa.paint, pa.panel. -/
@[simp] theorem State.sampleAndPaint_frame (s : State) :
    s.sampleAndPaint.sc = s.sc ∧ s.sampleAndPaint.lc = s.lc ∧ s.sampleAndPaint.tb = s.tb ∧
    s.sampleAndPaint.co = s.co ∧ s.sampleAndPaint.au = s.au ∧
    s.sampleAndPaint.pa.geometry = s.pa.geometry ∧
    s.sampleAndPaint.pa.fontHeight = s.pa.fontHeight ∧ s.sampleAndPaint.pa.glyphs = s.pa.glyphs ∧
    s.sampleAndPaint.pa.layout = s.pa.layout ∧ s.sampleAndPaint.pa.palette = s.pa.palette ∧
    s.sampleAndPaint.pa.classMap = s.pa.classMap ∧
    s.sampleAndPaint.pa.brightness = s.pa.brightness ∧
    s.sampleAndPaint.pa.swapPending = s.pa.swapPending ∧
    s.sampleAndPaint.pa.frameTimer = s.pa.frameTimer ∧
    s.sampleAndPaint.pa.geometryCut = s.pa.geometryCut ∧ s.sampleAndPaint.bu = s.bu ∧
    s.sampleAndPaint.ru = s.ru ∧ s.sampleAndPaint.pending = s.pending ∧
    s.sampleAndPaint.freeCounter = s.freeCounter := by
  unfold State.sampleAndPaint
  (repeat' split) <;> simp

/-- `frameStart` changes only: au.shown, au.swapBuffer, pa.swapPending, pa.sample, pa.paint, pa.panel. -/
@[simp] theorem State.frameStart_frame (s : State) :
    s.frameStart.sc = s.sc ∧ s.frameStart.lc = s.lc ∧ s.frameStart.tb = s.tb ∧
    s.frameStart.co = s.co ∧ s.frameStart.au.peers = s.au.peers ∧
    s.frameStart.au.agreement = s.au.agreement ∧
    s.frameStart.au.composedDigest = s.au.composedDigest ∧
    s.frameStart.au.ownProposal = s.au.ownProposal ∧
    s.frameStart.au.agreementTimer = s.au.agreementTimer ∧
    s.frameStart.au.shownDigest = s.au.shownDigest ∧ s.frameStart.au.pace = s.au.pace ∧
    s.frameStart.au.paceTimer = s.au.paceTimer ∧ s.frameStart.au.beaconTimer = s.au.beaconTimer ∧
    s.frameStart.au.sent = s.au.sent ∧ s.frameStart.pa.geometry = s.pa.geometry ∧
    s.frameStart.pa.fontHeight = s.pa.fontHeight ∧ s.frameStart.pa.glyphs = s.pa.glyphs ∧
    s.frameStart.pa.layout = s.pa.layout ∧ s.frameStart.pa.palette = s.pa.palette ∧
    s.frameStart.pa.classMap = s.pa.classMap ∧ s.frameStart.pa.brightness = s.pa.brightness ∧
    s.frameStart.pa.frameTimer = s.pa.frameTimer ∧ s.frameStart.pa.geometryCut = s.pa.geometryCut ∧
    s.frameStart.bu = s.bu ∧ s.frameStart.ru = s.ru ∧ s.frameStart.pending = s.pending ∧
    s.frameStart.freeCounter = s.freeCounter := by
  unfold State.frameStart
  (repeat' split) <;> simp

/-- `completeDue` changes only: lc.queue, lc.transmitter, ru.listed, ru.pending, ru.timers, ru.counts, lc.ring, lc.fifo, tb.state, tb.waitingApply. -/
@[simp] theorem State.completeDue_frame (s : State) :
    s.completeDue.sc = s.sc ∧ s.completeDue.lc.receiver = s.lc.receiver ∧
    s.completeDue.lc.watch = s.lc.watch ∧ s.completeDue.tb.services = s.tb.services ∧
    s.completeDue.tb.pool = s.tb.pool ∧ s.completeDue.tb.names = s.tb.names ∧
    s.completeDue.tb.refusals = s.tb.refusals ∧ s.completeDue.tb.waiting = s.tb.waiting ∧
    s.completeDue.tb.windowRequest = s.tb.windowRequest ∧ s.completeDue.tb.feeders = s.tb.feeders ∧
    s.completeDue.tb.staleOrder = s.tb.staleOrder ∧ s.completeDue.tb.time = s.tb.time ∧
    s.completeDue.co = s.co ∧ s.completeDue.au = s.au ∧ s.completeDue.pa = s.pa ∧
    s.completeDue.bu = s.bu ∧ s.completeDue.ru.geometryCut = s.ru.geometryCut ∧
    s.completeDue.ru.marks = s.ru.marks ∧ s.completeDue.pending = s.pending ∧
    s.completeDue.freeCounter = s.freeCounter := by
  unfold State.completeDue
  (repeat' split) <;> simp

/-- `directNote` changes only: lc.queue, lc.transmitter, ru.listed, ru.pending, ru.timers, ru.counts, tb.feeders, tb.staleOrder. -/
@[simp] theorem State.directNote_frame (s : State) (c : Chain) :
    (s.directNote c).sc = s.sc ∧ (s.directNote c).lc.receiver = s.lc.receiver ∧
    (s.directNote c).lc.fifo = s.lc.fifo ∧ (s.directNote c).lc.ring = s.lc.ring ∧
    (s.directNote c).lc.watch = s.lc.watch ∧ (s.directNote c).tb.services = s.tb.services ∧
    (s.directNote c).tb.pool = s.tb.pool ∧ (s.directNote c).tb.names = s.tb.names ∧
    (s.directNote c).tb.refusals = s.tb.refusals ∧ (s.directNote c).tb.state = s.tb.state ∧
    (s.directNote c).tb.waitingApply = s.tb.waitingApply ∧
    (s.directNote c).tb.waiting = s.tb.waiting ∧
    (s.directNote c).tb.windowRequest = s.tb.windowRequest ∧ (s.directNote c).tb.time = s.tb.time ∧
    (s.directNote c).co = s.co ∧ (s.directNote c).au = s.au ∧ (s.directNote c).pa = s.pa ∧
    (s.directNote c).bu = s.bu ∧ (s.directNote c).ru.geometryCut = s.ru.geometryCut ∧
    (s.directNote c).ru.marks = s.ru.marks ∧ (s.directNote c).pending = s.pending ∧
    (s.directNote c).freeCounter = s.freeCounter := by
  unfold State.directNote
  (repeat' split) <;> simp

/-- `place` changes only: tb, bu. -/
@[simp] theorem State.place_frame (s : State) (fx : Effect) :
    (s.place fx).sc = s.sc ∧ (s.place fx).lc = s.lc ∧ (s.place fx).co = s.co ∧
    (s.place fx).au = s.au ∧ (s.place fx).pa = s.pa ∧ (s.place fx).ru = s.ru ∧
    (s.place fx).pending = s.pending ∧ (s.place fx).freeCounter = s.freeCounter := by
  unfold State.place
  (repeat' split) <;> simp

/-- `takeEffects` changes only: tb, bu, co.request, lc.queue, lc.transmitter, ru.listed, ru.pending, ru.timers, ru.counts. -/
@[simp] theorem State.takeEffects_frame (s : State) (fx : Effect) :
    (s.takeEffects fx).sc = s.sc ∧ (s.takeEffects fx).lc.receiver = s.lc.receiver ∧
    (s.takeEffects fx).lc.fifo = s.lc.fifo ∧ (s.takeEffects fx).lc.ring = s.lc.ring ∧
    (s.takeEffects fx).lc.watch = s.lc.watch ∧ (s.takeEffects fx).co.pass = s.co.pass ∧
    (s.takeEffects fx).co.working = s.co.working ∧ (s.takeEffects fx).co.nameMiss = s.co.nameMiss ∧
    (s.takeEffects fx).co.composed = s.co.composed ∧ (s.takeEffects fx).co.number = s.co.number ∧
    (s.takeEffects fx).au = s.au ∧ (s.takeEffects fx).pa = s.pa ∧
    (s.takeEffects fx).ru.geometryCut = s.ru.geometryCut ∧
    (s.takeEffects fx).ru.marks = s.ru.marks ∧ (s.takeEffects fx).pending = s.pending ∧
    (s.takeEffects fx).freeCounter = s.freeCounter := by
  unfold State.takeEffects
  (repeat' split) <;> simp

/-- `closeWork` changes only: tb.state, tb.waitingApply, tb.waiting, freeCounter, tb.windowRequest, co.request, co.pass, co.working, co.nameMiss. -/
@[simp] theorem State.closeWork_frame (s : State) (b : Bool) :
    (s.closeWork b).sc = s.sc ∧ (s.closeWork b).lc = s.lc ∧
    (s.closeWork b).tb.services = s.tb.services ∧ (s.closeWork b).tb.pool = s.tb.pool ∧
    (s.closeWork b).tb.names = s.tb.names ∧ (s.closeWork b).tb.refusals = s.tb.refusals ∧
    (s.closeWork b).tb.feeders = s.tb.feeders ∧ (s.closeWork b).tb.staleOrder = s.tb.staleOrder ∧
    (s.closeWork b).tb.time = s.tb.time ∧ (s.closeWork b).co.composed = s.co.composed ∧
    (s.closeWork b).co.number = s.co.number ∧ (s.closeWork b).au = s.au ∧
    (s.closeWork b).pa = s.pa ∧ (s.closeWork b).bu = s.bu ∧ (s.closeWork b).ru = s.ru ∧
    (s.closeWork b).pending = s.pending := by
  unfold State.closeWork
  (repeat' split) <;> simp

/-- `completeExpiry` changes only: tb, bu, co.request, co.pass, co.working, co.nameMiss, freeCounter, lc.queue, lc.transmitter, ru.listed, ru.pending, ru.timers, ru.counts. -/
@[simp] theorem State.completeExpiry_frame (s : State) (fx : Effect) :
    (s.completeExpiry fx).sc = s.sc ∧ (s.completeExpiry fx).lc.receiver = s.lc.receiver ∧
    (s.completeExpiry fx).lc.fifo = s.lc.fifo ∧ (s.completeExpiry fx).lc.ring = s.lc.ring ∧
    (s.completeExpiry fx).lc.watch = s.lc.watch ∧
    (s.completeExpiry fx).co.composed = s.co.composed ∧
    (s.completeExpiry fx).co.number = s.co.number ∧ (s.completeExpiry fx).au = s.au ∧
    (s.completeExpiry fx).pa = s.pa ∧ (s.completeExpiry fx).ru.geometryCut = s.ru.geometryCut ∧
    (s.completeExpiry fx).ru.marks = s.ru.marks ∧ (s.completeExpiry fx).pending = s.pending := by
  unfold State.completeExpiry
  (repeat' split) <;> simp

/-- `completeApply` changes only: tb, bu, co.request, co.pass, co.working, co.nameMiss, freeCounter, lc.ring, lc.fifo, lc.queue, lc.transmitter, ru.listed, ru.pending, ru.timers, ru.counts. -/
@[simp] theorem State.completeApply_frame (s : State) (fx : Effect) :
    (s.completeApply fx).sc = s.sc ∧ (s.completeApply fx).lc.receiver = s.lc.receiver ∧
    (s.completeApply fx).lc.watch = s.lc.watch ∧ (s.completeApply fx).co.composed = s.co.composed ∧
    (s.completeApply fx).co.number = s.co.number ∧ (s.completeApply fx).au = s.au ∧
    (s.completeApply fx).pa = s.pa ∧ (s.completeApply fx).ru.geometryCut = s.ru.geometryCut ∧
    (s.completeApply fx).ru.marks = s.ru.marks ∧ (s.completeApply fx).pending = s.pending := by
  unfold State.completeApply
  (repeat' split) <;> simp

/-- `setReceiver` changes only: lc.receiver. -/
@[simp] theorem State.setReceiver_frame (s : State) (r : Receiver) :
    (s.setReceiver r).sc = s.sc ∧ (s.setReceiver r).lc.fifo = s.lc.fifo ∧
    (s.setReceiver r).lc.ring = s.lc.ring ∧ (s.setReceiver r).lc.queue = s.lc.queue ∧
    (s.setReceiver r).lc.transmitter = s.lc.transmitter ∧ (s.setReceiver r).lc.watch = s.lc.watch ∧
    (s.setReceiver r).tb = s.tb ∧ (s.setReceiver r).co = s.co ∧ (s.setReceiver r).au = s.au ∧
    (s.setReceiver r).pa = s.pa ∧ (s.setReceiver r).bu = s.bu ∧ (s.setReceiver r).ru = s.ru ∧
    (s.setReceiver r).pending = s.pending ∧ (s.setReceiver r).freeCounter = s.freeCounter := by
  unfold State.setReceiver
  (repeat' split) <;> simp

/-- `tally` changes only: lc.watch, lc.queue, lc.transmitter, ru.listed, ru.pending, ru.timers, ru.counts. -/
@[simp] theorem State.tally_frame (s : State) (w : Watch) :
    (s.tally w).sc = s.sc ∧ (s.tally w).lc.receiver = s.lc.receiver ∧
    (s.tally w).lc.fifo = s.lc.fifo ∧ (s.tally w).lc.ring = s.lc.ring ∧ (s.tally w).tb = s.tb ∧
    (s.tally w).co = s.co ∧ (s.tally w).au = s.au ∧ (s.tally w).pa = s.pa ∧ (s.tally w).bu = s.bu ∧
    (s.tally w).ru.geometryCut = s.ru.geometryCut ∧ (s.tally w).ru.marks = s.ru.marks ∧
    (s.tally w).pending = s.pending ∧ (s.tally w).freeCounter = s.freeCounter := by
  unfold State.tally
  split <;> simp

/-- The watch stands as told, with the report of a period at its limit. -/
@[simp] theorem State.tally_watch (s : State) (w : Watch) :
    (s.tally w).lc.watch = { w with reported := w.reported || decide (w.busyBits = stuckBits) } := by
  unfold State.tally
  split <;> rename_i h
  · simp [h]
  · obtain ⟨idleRun, busyBits, reported, ahead⟩ := w
    cases reported <;> simp_all

/-- `watchAhead` changes only: lc.watch, lc.queue, lc.transmitter, ru.listed, ru.pending, ru.timers, ru.counts. -/
@[simp] theorem State.watchAhead_frame (s : State) (bits : List Bool) :
    (s.watchAhead bits).sc = s.sc ∧ (s.watchAhead bits).lc.receiver = s.lc.receiver ∧
    (s.watchAhead bits).lc.fifo = s.lc.fifo ∧ (s.watchAhead bits).lc.ring = s.lc.ring ∧
    (s.watchAhead bits).tb = s.tb ∧ (s.watchAhead bits).co = s.co ∧ (s.watchAhead bits).au = s.au ∧
    (s.watchAhead bits).pa = s.pa ∧ (s.watchAhead bits).bu = s.bu ∧
    (s.watchAhead bits).ru.geometryCut = s.ru.geometryCut ∧
    (s.watchAhead bits).ru.marks = s.ru.marks ∧ (s.watchAhead bits).pending = s.pending ∧
    (s.watchAhead bits).freeCounter = s.freeCounter := by
  simp [State.watchAhead]

/-- `watchBits` changes only: lc.watch, lc.queue, lc.transmitter, ru.listed, ru.pending, ru.timers, ru.counts. -/
@[simp] theorem State.watchBits_frame (s : State) (bits : List Bool) :
    (s.watchBits bits).sc = s.sc ∧ (s.watchBits bits).lc.receiver = s.lc.receiver ∧
    (s.watchBits bits).lc.fifo = s.lc.fifo ∧ (s.watchBits bits).lc.ring = s.lc.ring ∧
    (s.watchBits bits).tb = s.tb ∧ (s.watchBits bits).co = s.co ∧ (s.watchBits bits).au = s.au ∧
    (s.watchBits bits).pa = s.pa ∧ (s.watchBits bits).bu = s.bu ∧
    (s.watchBits bits).ru.geometryCut = s.ru.geometryCut ∧
    (s.watchBits bits).ru.marks = s.ru.marks ∧ (s.watchBits bits).pending = s.pending ∧
    (s.watchBits bits).freeCounter = s.freeCounter := by
  simp [State.watchBits]

/-- `watchEnd` changes only: lc.watch, lc.queue, lc.transmitter, ru.listed, ru.pending, ru.timers, ru.counts. -/
@[simp] theorem State.watchEnd_frame (s : State) (bits : List Bool) :
    (s.watchEnd bits).sc = s.sc ∧ (s.watchEnd bits).lc.receiver = s.lc.receiver ∧
    (s.watchEnd bits).lc.fifo = s.lc.fifo ∧ (s.watchEnd bits).lc.ring = s.lc.ring ∧
    (s.watchEnd bits).tb = s.tb ∧ (s.watchEnd bits).co = s.co ∧ (s.watchEnd bits).au = s.au ∧
    (s.watchEnd bits).pa = s.pa ∧ (s.watchEnd bits).bu = s.bu ∧
    (s.watchEnd bits).ru.geometryCut = s.ru.geometryCut ∧ (s.watchEnd bits).ru.marks = s.ru.marks ∧
    (s.watchEnd bits).pending = s.pending ∧ (s.watchEnd bits).freeCounter = s.freeCounter := by
  simp [State.watchEnd]

/-- `sampleBit` changes only: lc.receiver, lc.watch, lc.queue, lc.transmitter, ru.listed, ru.pending, ru.timers, ru.counts. -/
@[simp] theorem State.sampleBit_frame (s : State) (b : Bool) :
    (s.sampleBit b).sc = s.sc ∧ (s.sampleBit b).lc.fifo = s.lc.fifo ∧
    (s.sampleBit b).lc.ring = s.lc.ring ∧ (s.sampleBit b).tb = s.tb ∧ (s.sampleBit b).co = s.co ∧
    (s.sampleBit b).au = s.au ∧ (s.sampleBit b).pa = s.pa ∧ (s.sampleBit b).bu = s.bu ∧
    (s.sampleBit b).ru.geometryCut = s.ru.geometryCut ∧ (s.sampleBit b).ru.marks = s.ru.marks ∧
    (s.sampleBit b).pending = s.pending ∧ (s.sampleBit b).freeCounter = s.freeCounter := by
  simp only [State.sampleBit]
  split <;> simp

/-- `sampleBits` changes only: lc.receiver, lc.watch, lc.queue, lc.transmitter, ru.listed, ru.pending, ru.timers, ru.counts. -/
@[simp] theorem State.sampleBits_frame (s : State) (bits : List Bool) :
    (s.sampleBits bits).sc = s.sc ∧ (s.sampleBits bits).lc.fifo = s.lc.fifo ∧
    (s.sampleBits bits).lc.ring = s.lc.ring ∧ (s.sampleBits bits).tb = s.tb ∧
    (s.sampleBits bits).co = s.co ∧ (s.sampleBits bits).au = s.au ∧ (s.sampleBits bits).pa = s.pa ∧
    (s.sampleBits bits).bu = s.bu ∧ (s.sampleBits bits).ru.geometryCut = s.ru.geometryCut ∧
    (s.sampleBits bits).ru.marks = s.ru.marks ∧ (s.sampleBits bits).pending = s.pending ∧
    (s.sampleBits bits).freeCounter = s.freeCounter := by
  unfold State.sampleBits
  induction bits generalizing s with
  | nil => simp
  | cons b rest ih => simp [ih (s.sampleBit b)]

/-- `setTransmitter` changes only: lc.transmitter. -/
@[simp] theorem State.setTransmitter_frame (s : State) (x : Transmitter) :
    (s.setTransmitter x).sc = s.sc ∧ (s.setTransmitter x).lc.receiver = s.lc.receiver ∧
    (s.setTransmitter x).lc.fifo = s.lc.fifo ∧ (s.setTransmitter x).lc.ring = s.lc.ring ∧
    (s.setTransmitter x).lc.queue = s.lc.queue ∧ (s.setTransmitter x).lc.watch = s.lc.watch ∧
    (s.setTransmitter x).tb = s.tb ∧ (s.setTransmitter x).co = s.co ∧
    (s.setTransmitter x).au = s.au ∧ (s.setTransmitter x).pa = s.pa ∧
    (s.setTransmitter x).bu = s.bu ∧ (s.setTransmitter x).ru = s.ru ∧
    (s.setTransmitter x).pending = s.pending ∧ (s.setTransmitter x).freeCounter = s.freeCounter := by
  unfold State.setTransmitter
  (repeat' split) <;> simp

/-- `toHunt` changes only: lc.receiver. -/
@[simp] theorem State.toHunt_frame (s : State) :
    s.toHunt.sc = s.sc ∧ s.toHunt.lc.fifo = s.lc.fifo ∧ s.toHunt.lc.ring = s.lc.ring ∧
    s.toHunt.lc.queue = s.lc.queue ∧ s.toHunt.lc.transmitter = s.lc.transmitter ∧
    s.toHunt.lc.watch = s.lc.watch ∧ s.toHunt.tb = s.tb ∧ s.toHunt.co = s.co ∧ s.toHunt.au = s.au ∧
    s.toHunt.pa = s.pa ∧ s.toHunt.bu = s.bu ∧ s.toHunt.ru = s.ru ∧ s.toHunt.pending = s.pending ∧
    s.toHunt.freeCounter = s.freeCounter := by
  unfold State.toHunt
  (repeat' split) <;> simp

/-- `feedByte` changes only: lc.receiver. -/
@[simp] theorem State.feedByte_frame (s : State) (b : Byte) :
    (s.feedByte b).sc = s.sc ∧ (s.feedByte b).lc.fifo = s.lc.fifo ∧
    (s.feedByte b).lc.ring = s.lc.ring ∧ (s.feedByte b).lc.queue = s.lc.queue ∧
    (s.feedByte b).lc.transmitter = s.lc.transmitter ∧ (s.feedByte b).lc.watch = s.lc.watch ∧
    (s.feedByte b).tb = s.tb ∧ (s.feedByte b).co = s.co ∧ (s.feedByte b).au = s.au ∧
    (s.feedByte b).pa = s.pa ∧ (s.feedByte b).bu = s.bu ∧ (s.feedByte b).ru = s.ru ∧
    (s.feedByte b).pending = s.pending ∧ (s.feedByte b).freeCounter = s.freeCounter := by
  unfold State.feedByte
  (repeat' split) <;> simp

/-- `dropHeader` changes only: lc.receiver. -/
@[simp] theorem State.dropHeader_frame (s : State) :
    s.dropHeader.sc = s.sc ∧ s.dropHeader.lc.fifo = s.lc.fifo ∧ s.dropHeader.lc.ring = s.lc.ring ∧
    s.dropHeader.lc.queue = s.lc.queue ∧ s.dropHeader.lc.transmitter = s.lc.transmitter ∧
    s.dropHeader.lc.watch = s.lc.watch ∧ s.dropHeader.tb = s.tb ∧ s.dropHeader.co = s.co ∧
    s.dropHeader.au = s.au ∧ s.dropHeader.pa = s.pa ∧ s.dropHeader.bu = s.bu ∧
    s.dropHeader.ru = s.ru ∧ s.dropHeader.pending = s.pending ∧
    s.dropHeader.freeCounter = s.freeCounter := by
  unfold State.dropHeader
  (repeat' split) <;> simp

/-- `offerByte` changes only: lc.receiver, lc.fifo, lc.ring, lc.queue, lc.transmitter, ru.listed, ru.pending, ru.timers, ru.counts. -/
@[simp] theorem State.offerByte_frame (s : State) (b : Byte) :
    (s.offerByte b).sc = s.sc ∧ (s.offerByte b).lc.watch = s.lc.watch ∧ (s.offerByte b).tb = s.tb ∧
    (s.offerByte b).co = s.co ∧ (s.offerByte b).au = s.au ∧ (s.offerByte b).pa = s.pa ∧
    (s.offerByte b).bu = s.bu ∧ (s.offerByte b).ru.geometryCut = s.ru.geometryCut ∧
    (s.offerByte b).ru.marks = s.ru.marks ∧ (s.offerByte b).pending = s.pending ∧
    (s.offerByte b).freeCounter = s.freeCounter := by
  simp only [State.offerByte]
  (repeat' split) <;> simp

/-- `enterStore` changes only: lc.receiver, lc.fifo, lc.ring, tb.state, tb.waitingApply, lc.queue, lc.transmitter, ru.listed, ru.pending, ru.timers, ru.counts. -/
@[simp] theorem State.enterStore_frame (s : State) :
    s.enterStore.sc = s.sc ∧ s.enterStore.lc.watch = s.lc.watch ∧
    s.enterStore.tb.services = s.tb.services ∧ s.enterStore.tb.pool = s.tb.pool ∧
    s.enterStore.tb.names = s.tb.names ∧ s.enterStore.tb.refusals = s.tb.refusals ∧
    s.enterStore.tb.waiting = s.tb.waiting ∧ s.enterStore.tb.windowRequest = s.tb.windowRequest ∧
    s.enterStore.tb.feeders = s.tb.feeders ∧ s.enterStore.tb.staleOrder = s.tb.staleOrder ∧
    s.enterStore.tb.time = s.tb.time ∧ s.enterStore.co = s.co ∧ s.enterStore.au = s.au ∧
    s.enterStore.pa = s.pa ∧ s.enterStore.bu = s.bu ∧
    s.enterStore.ru.geometryCut = s.ru.geometryCut ∧ s.enterStore.ru.marks = s.ru.marks ∧
    s.enterStore.pending = s.pending ∧ s.enterStore.freeCounter = s.freeCounter := by
  simp only [State.enterStore]
  (repeat' split) <;> simp

/-- `followFrame` changes only: lc.receiver, lc.fifo, lc.ring, tb.state, tb.waitingApply, lc.queue, lc.transmitter, ru.listed, ru.pending, ru.timers, ru.counts. -/
@[simp] theorem State.followFrame_frame (s : State) (k : NoticeKind) :
    (s.followFrame k).sc = s.sc ∧ (s.followFrame k).lc.watch = s.lc.watch ∧
    (s.followFrame k).tb.services = s.tb.services ∧ (s.followFrame k).tb.pool = s.tb.pool ∧
    (s.followFrame k).tb.names = s.tb.names ∧ (s.followFrame k).tb.refusals = s.tb.refusals ∧
    (s.followFrame k).tb.waiting = s.tb.waiting ∧
    (s.followFrame k).tb.windowRequest = s.tb.windowRequest ∧
    (s.followFrame k).tb.feeders = s.tb.feeders ∧
    (s.followFrame k).tb.staleOrder = s.tb.staleOrder ∧ (s.followFrame k).tb.time = s.tb.time ∧
    (s.followFrame k).co = s.co ∧ (s.followFrame k).au = s.au ∧ (s.followFrame k).pa = s.pa ∧
    (s.followFrame k).bu = s.bu ∧ (s.followFrame k).ru.geometryCut = s.ru.geometryCut ∧
    (s.followFrame k).ru.marks = s.ru.marks ∧ (s.followFrame k).pending = s.pending ∧
    (s.followFrame k).freeCounter = s.freeCounter := by
  simp only [State.followFrame]
  (repeat' split) <;> simp

/-- `endStored` changes only: lc.receiver, lc.fifo, lc.ring, lc.queue, lc.transmitter, ru.listed, ru.pending, ru.timers, ru.counts. -/
@[simp] theorem State.endStored_frame (s : State) (b : Bool) :
    (s.endStored b).sc = s.sc ∧ (s.endStored b).lc.watch = s.lc.watch ∧ (s.endStored b).tb = s.tb ∧
    (s.endStored b).co = s.co ∧ (s.endStored b).au = s.au ∧ (s.endStored b).pa = s.pa ∧
    (s.endStored b).bu = s.bu ∧ (s.endStored b).ru.geometryCut = s.ru.geometryCut ∧
    (s.endStored b).ru.marks = s.ru.marks ∧ (s.endStored b).pending = s.pending ∧
    (s.endStored b).freeCounter = s.freeCounter := by
  simp only [State.endStored]
  (repeat' split) <;> simp

/-- `endForeign` changes only: lc.receiver, lc.fifo, lc.ring, tb.state, tb.waitingApply, lc.queue, lc.transmitter, ru.listed, ru.pending, ru.timers, ru.counts. -/
@[simp] theorem State.endForeign_frame (s : State) (b : Bool) :
    (s.endForeign b).sc = s.sc ∧ (s.endForeign b).lc.watch = s.lc.watch ∧
    (s.endForeign b).tb.services = s.tb.services ∧ (s.endForeign b).tb.pool = s.tb.pool ∧
    (s.endForeign b).tb.names = s.tb.names ∧ (s.endForeign b).tb.refusals = s.tb.refusals ∧
    (s.endForeign b).tb.waiting = s.tb.waiting ∧
    (s.endForeign b).tb.windowRequest = s.tb.windowRequest ∧
    (s.endForeign b).tb.feeders = s.tb.feeders ∧ (s.endForeign b).tb.staleOrder = s.tb.staleOrder ∧
    (s.endForeign b).tb.time = s.tb.time ∧ (s.endForeign b).co = s.co ∧ (s.endForeign b).au = s.au ∧
    (s.endForeign b).pa = s.pa ∧ (s.endForeign b).bu = s.bu ∧
    (s.endForeign b).ru.geometryCut = s.ru.geometryCut ∧ (s.endForeign b).ru.marks = s.ru.marks ∧
    (s.endForeign b).pending = s.pending ∧ (s.endForeign b).freeCounter = s.freeCounter := by
  simp only [State.endForeign]
  (repeat' split) <;> simp

/-- `resumeReceiver` changes only: lc.receiver, lc.watch. -/
@[simp] theorem State.resumeReceiver_frame (s : State) (bits : Nat) :
    (s.resumeReceiver bits).sc = s.sc ∧ (s.resumeReceiver bits).lc.fifo = s.lc.fifo ∧
    (s.resumeReceiver bits).lc.ring = s.lc.ring ∧ (s.resumeReceiver bits).lc.queue = s.lc.queue ∧
    (s.resumeReceiver bits).lc.transmitter = s.lc.transmitter ∧ (s.resumeReceiver bits).tb = s.tb ∧
    (s.resumeReceiver bits).co = s.co ∧ (s.resumeReceiver bits).au = s.au ∧ (s.resumeReceiver bits).pa = s.pa ∧
    (s.resumeReceiver bits).bu = s.bu ∧ (s.resumeReceiver bits).ru = s.ru ∧ (s.resumeReceiver bits).pending = s.pending ∧
    (s.resumeReceiver bits).freeCounter = s.freeCounter := by
  unfold State.resumeReceiver
  (repeat' split) <;> simp

/-- `releaseNotice` changes only: lc.queue, lc.transmitter, ru.listed. -/
@[simp] theorem State.releaseNotice_frame (s : State) :
    s.releaseNotice.sc = s.sc ∧ s.releaseNotice.lc.receiver = s.lc.receiver ∧
    s.releaseNotice.lc.fifo = s.lc.fifo ∧ s.releaseNotice.lc.ring = s.lc.ring ∧
    s.releaseNotice.lc.watch = s.lc.watch ∧ s.releaseNotice.tb = s.tb ∧ s.releaseNotice.co = s.co ∧
    s.releaseNotice.au = s.au ∧ s.releaseNotice.pa = s.pa ∧ s.releaseNotice.bu = s.bu ∧
    s.releaseNotice.ru.counts = s.ru.counts ∧ s.releaseNotice.ru.geometryCut = s.ru.geometryCut ∧
    s.releaseNotice.ru.pending = s.ru.pending ∧ s.releaseNotice.ru.timers = s.ru.timers ∧
    s.releaseNotice.ru.marks = s.ru.marks ∧ s.releaseNotice.pending = s.pending ∧
    s.releaseNotice.freeCounter = s.freeCounter := by
  unfold State.releaseNotice
  (repeat' split) <;> simp

/-- `beginAttempt` changes only: lc.receiver, lc.transmitter, lc.watch, au.sent. -/
@[simp] theorem State.beginAttempt_frame (s : State) (n : BoardNotice) :
    (s.beginAttempt n).sc = s.sc ∧ (s.beginAttempt n).lc.fifo = s.lc.fifo ∧
    (s.beginAttempt n).lc.ring = s.lc.ring ∧ (s.beginAttempt n).lc.queue = s.lc.queue ∧
    (s.beginAttempt n).tb = s.tb ∧ (s.beginAttempt n).co = s.co ∧
    (s.beginAttempt n).au.peers = s.au.peers ∧ (s.beginAttempt n).au.agreement = s.au.agreement ∧
    (s.beginAttempt n).au.composedDigest = s.au.composedDigest ∧
    (s.beginAttempt n).au.ownProposal = s.au.ownProposal ∧
    (s.beginAttempt n).au.agreementTimer = s.au.agreementTimer ∧
    (s.beginAttempt n).au.swapBuffer = s.au.swapBuffer ∧ (s.beginAttempt n).au.shown = s.au.shown ∧
    (s.beginAttempt n).au.shownDigest = s.au.shownDigest ∧ (s.beginAttempt n).au.pace = s.au.pace ∧
    (s.beginAttempt n).au.paceTimer = s.au.paceTimer ∧
    (s.beginAttempt n).au.beaconTimer = s.au.beaconTimer ∧ (s.beginAttempt n).pa = s.pa ∧
    (s.beginAttempt n).bu = s.bu ∧ (s.beginAttempt n).ru = s.ru ∧
    (s.beginAttempt n).pending = s.pending ∧ (s.beginAttempt n).freeCounter = s.freeCounter := by
  unfold State.beginAttempt
  (repeat' split) <;> simp

/-- `backOff` changes only: lc.transmitter, freeCounter. -/
@[simp] theorem State.backOff_frame (s : State) :
    s.backOff.sc = s.sc ∧ s.backOff.lc.receiver = s.lc.receiver ∧ s.backOff.lc.fifo = s.lc.fifo ∧
    s.backOff.lc.ring = s.lc.ring ∧ s.backOff.lc.queue = s.lc.queue ∧
    s.backOff.lc.watch = s.lc.watch ∧ s.backOff.tb = s.tb ∧ s.backOff.co = s.co ∧
    s.backOff.au = s.au ∧ s.backOff.pa = s.pa ∧ s.backOff.bu = s.bu ∧ s.backOff.ru = s.ru ∧
    s.backOff.pending = s.pending := by
  unfold State.backOff
  (repeat' split) <;> simp

/-- `applyDim` changes only: lc.queue, lc.transmitter, ru.listed, ru.pending, ru.timers, ru.counts, pa.brightness. -/
@[simp] theorem State.applyDim_frame (s : State) (body : List Byte) :
    (s.applyDim body).sc = s.sc ∧ (s.applyDim body).lc.receiver = s.lc.receiver ∧
    (s.applyDim body).lc.fifo = s.lc.fifo ∧ (s.applyDim body).lc.ring = s.lc.ring ∧
    (s.applyDim body).lc.watch = s.lc.watch ∧ (s.applyDim body).tb = s.tb ∧
    (s.applyDim body).co = s.co ∧ (s.applyDim body).au = s.au ∧
    (s.applyDim body).pa.geometry = s.pa.geometry ∧
    (s.applyDim body).pa.fontHeight = s.pa.fontHeight ∧ (s.applyDim body).pa.glyphs = s.pa.glyphs ∧
    (s.applyDim body).pa.layout = s.pa.layout ∧ (s.applyDim body).pa.palette = s.pa.palette ∧
    (s.applyDim body).pa.classMap = s.pa.classMap ∧
    (s.applyDim body).pa.swapPending = s.pa.swapPending ∧
    (s.applyDim body).pa.sample = s.pa.sample ∧ (s.applyDim body).pa.paint = s.pa.paint ∧
    (s.applyDim body).pa.frameTimer = s.pa.frameTimer ∧
    (s.applyDim body).pa.geometryCut = s.pa.geometryCut ∧ (s.applyDim body).pa.panel = s.pa.panel ∧
    (s.applyDim body).bu = s.bu ∧ (s.applyDim body).ru.geometryCut = s.ru.geometryCut ∧
    (s.applyDim body).ru.marks = s.ru.marks ∧ (s.applyDim body).pending = s.pending ∧
    (s.applyDim body).freeCounter = s.freeCounter := by
  unfold State.applyDim
  (repeat' split) <;> simp

/-- `applyStaff` changes only: lc.queue, lc.transmitter, ru.listed, ru.pending, ru.timers, ru.counts, bu. -/
@[simp] theorem State.applyStaff_frame (s : State) (body : List Byte) :
    (s.applyStaff body).sc = s.sc ∧ (s.applyStaff body).lc.receiver = s.lc.receiver ∧
    (s.applyStaff body).lc.fifo = s.lc.fifo ∧ (s.applyStaff body).lc.ring = s.lc.ring ∧
    (s.applyStaff body).lc.watch = s.lc.watch ∧ (s.applyStaff body).tb = s.tb ∧
    (s.applyStaff body).co = s.co ∧ (s.applyStaff body).au = s.au ∧ (s.applyStaff body).pa = s.pa ∧
    (s.applyStaff body).ru.geometryCut = s.ru.geometryCut ∧
    (s.applyStaff body).ru.marks = s.ru.marks ∧ (s.applyStaff body).pending = s.pending ∧
    (s.applyStaff body).freeCounter = s.freeCounter := by
  unfold State.applyStaff
  (repeat' split) <;> simp

/-- `applyQuery` changes only: lc.queue, lc.transmitter, ru.listed, ru.pending, ru.timers, ru.counts. -/
@[simp] theorem State.applyQuery_frame (s : State) (group : Nat) (body : List Byte) :
    (s.applyQuery group body).sc = s.sc ∧ (s.applyQuery group body).lc.receiver = s.lc.receiver ∧
    (s.applyQuery group body).lc.fifo = s.lc.fifo ∧ (s.applyQuery group body).lc.ring = s.lc.ring ∧
    (s.applyQuery group body).lc.watch = s.lc.watch ∧ (s.applyQuery group body).tb = s.tb ∧
    (s.applyQuery group body).co = s.co ∧ (s.applyQuery group body).au = s.au ∧
    (s.applyQuery group body).pa = s.pa ∧ (s.applyQuery group body).bu = s.bu ∧
    (s.applyQuery group body).ru.geometryCut = s.ru.geometryCut ∧
    (s.applyQuery group body).ru.marks = s.ru.marks ∧
    (s.applyQuery group body).pending = s.pending ∧
    (s.applyQuery group body).freeCounter = s.freeCounter := by
  unfold State.applyQuery
  (repeat' split) <;> simp

/-- `takeUp` changes only: pa.geometry, pa.geometryCut, pa.layout, pa.palette, pa.classMap, pa.brightness, ru.marks. -/
@[simp] theorem State.takeUp_frame (s : State) :
    s.takeUp.sc = s.sc ∧ s.takeUp.lc = s.lc ∧ s.takeUp.tb = s.tb ∧ s.takeUp.co = s.co ∧
    s.takeUp.au = s.au ∧ s.takeUp.pa.fontHeight = s.pa.fontHeight ∧
    s.takeUp.pa.glyphs = s.pa.glyphs ∧ s.takeUp.pa.swapPending = s.pa.swapPending ∧
    s.takeUp.pa.sample = s.pa.sample ∧ s.takeUp.pa.paint = s.pa.paint ∧
    s.takeUp.pa.frameTimer = s.pa.frameTimer ∧ s.takeUp.pa.panel = s.pa.panel ∧ s.takeUp.bu = s.bu ∧
    s.takeUp.ru.counts = s.ru.counts ∧ s.takeUp.ru.geometryCut = s.ru.geometryCut ∧
    s.takeUp.ru.pending = s.ru.pending ∧ s.takeUp.ru.listed = s.ru.listed ∧
    s.takeUp.ru.timers = s.ru.timers ∧ s.takeUp.pending = s.pending ∧
    s.takeUp.freeCounter = s.freeCounter := by
  simp only [State.takeUp]
  (repeat' split) <;> simp

/-- `enterListen` changes only: sc.node, sc.listenTimer, sc.loadPosition, lc.receiver, au.paceTimer, pa.frameTimer. -/
@[simp] theorem State.enterListen_frame (s : State) :
    s.enterListen.sc.nodeNumber = s.sc.nodeNumber ∧ s.enterListen.sc.glyphStrap = s.sc.glyphStrap ∧
    s.enterListen.sc.profile = s.sc.profile ∧ s.enterListen.sc.profileSource = s.sc.profileSource ∧
    s.enterListen.sc.fontSource = s.sc.fontSource ∧
    s.enterListen.sc.profileBytes = s.sc.profileBytes ∧
    s.enterListen.sc.fontBytes = s.sc.fontBytes ∧ s.enterListen.lc.fifo = s.lc.fifo ∧
    s.enterListen.lc.ring = s.lc.ring ∧ s.enterListen.lc.queue = s.lc.queue ∧
    s.enterListen.lc.transmitter = s.lc.transmitter ∧ s.enterListen.lc.watch = s.lc.watch ∧
    s.enterListen.tb = s.tb ∧ s.enterListen.co = s.co ∧ s.enterListen.au.peers = s.au.peers ∧
    s.enterListen.au.agreement = s.au.agreement ∧
    s.enterListen.au.composedDigest = s.au.composedDigest ∧
    s.enterListen.au.ownProposal = s.au.ownProposal ∧
    s.enterListen.au.agreementTimer = s.au.agreementTimer ∧
    s.enterListen.au.swapBuffer = s.au.swapBuffer ∧ s.enterListen.au.shown = s.au.shown ∧
    s.enterListen.au.shownDigest = s.au.shownDigest ∧ s.enterListen.au.pace = s.au.pace ∧
    s.enterListen.au.beaconTimer = s.au.beaconTimer ∧ s.enterListen.au.sent = s.au.sent ∧
    s.enterListen.pa.geometry = s.pa.geometry ∧ s.enterListen.pa.fontHeight = s.pa.fontHeight ∧
    s.enterListen.pa.glyphs = s.pa.glyphs ∧ s.enterListen.pa.layout = s.pa.layout ∧
    s.enterListen.pa.palette = s.pa.palette ∧ s.enterListen.pa.classMap = s.pa.classMap ∧
    s.enterListen.pa.brightness = s.pa.brightness ∧
    s.enterListen.pa.swapPending = s.pa.swapPending ∧ s.enterListen.pa.sample = s.pa.sample ∧
    s.enterListen.pa.paint = s.pa.paint ∧ s.enterListen.pa.geometryCut = s.pa.geometryCut ∧
    s.enterListen.pa.panel = s.pa.panel ∧ s.enterListen.bu = s.bu ∧ s.enterListen.ru = s.ru ∧
    s.enterListen.pending = s.pending ∧ s.enterListen.freeCounter = s.freeCounter := by
  unfold State.enterListen
  (repeat' split) <;> simp

/-- `endLoad` changes only: sc.node, sc.listenTimer, sc.loadPosition, lc.receiver, au.paceTimer, au.shown, au.swapBuffer, pa.frameTimer, pa.geometry, pa.geometryCut, pa.layout, pa.palette, pa.classMap, pa.brightness, pa.swapPending, pa.sample, pa.paint, pa.panel, ru.marks. -/
@[simp] theorem State.endLoad_frame (s : State) :
    s.endLoad.sc.nodeNumber = s.sc.nodeNumber ∧ s.endLoad.sc.glyphStrap = s.sc.glyphStrap ∧
    s.endLoad.sc.profile = s.sc.profile ∧ s.endLoad.sc.profileSource = s.sc.profileSource ∧
    s.endLoad.sc.fontSource = s.sc.fontSource ∧ s.endLoad.sc.profileBytes = s.sc.profileBytes ∧
    s.endLoad.sc.fontBytes = s.sc.fontBytes ∧ s.endLoad.lc.fifo = s.lc.fifo ∧
    s.endLoad.lc.ring = s.lc.ring ∧ s.endLoad.lc.queue = s.lc.queue ∧
    s.endLoad.lc.transmitter = s.lc.transmitter ∧ s.endLoad.lc.watch = s.lc.watch ∧
    s.endLoad.tb = s.tb ∧ s.endLoad.co = s.co ∧ s.endLoad.au.peers = s.au.peers ∧
    s.endLoad.au.agreement = s.au.agreement ∧ s.endLoad.au.composedDigest = s.au.composedDigest ∧
    s.endLoad.au.ownProposal = s.au.ownProposal ∧
    s.endLoad.au.agreementTimer = s.au.agreementTimer ∧
    s.endLoad.au.shownDigest = s.au.shownDigest ∧ s.endLoad.au.pace = s.au.pace ∧
    s.endLoad.au.beaconTimer = s.au.beaconTimer ∧ s.endLoad.au.sent = s.au.sent ∧
    s.endLoad.pa.fontHeight = s.pa.fontHeight ∧ s.endLoad.pa.glyphs = s.pa.glyphs ∧
    s.endLoad.bu = s.bu ∧ s.endLoad.ru.counts = s.ru.counts ∧
    s.endLoad.ru.geometryCut = s.ru.geometryCut ∧ s.endLoad.ru.pending = s.ru.pending ∧
    s.endLoad.ru.listed = s.ru.listed ∧ s.endLoad.ru.timers = s.ru.timers ∧
    s.endLoad.pending = s.pending ∧ s.endLoad.freeCounter = s.freeCounter := by
  simp only [State.endLoad]
  (repeat' split) <;> simp

/-- `useDefaultProfile` changes only: sc.profile, sc.profileSource. -/
@[simp] theorem State.useDefaultProfile_frame (s : State) :
    s.useDefaultProfile.sc.node = s.sc.node ∧ s.useDefaultProfile.sc.nodeNumber = s.sc.nodeNumber ∧
    s.useDefaultProfile.sc.glyphStrap = s.sc.glyphStrap ∧
    s.useDefaultProfile.sc.fontSource = s.sc.fontSource ∧
    s.useDefaultProfile.sc.loadPosition = s.sc.loadPosition ∧
    s.useDefaultProfile.sc.profileBytes = s.sc.profileBytes ∧
    s.useDefaultProfile.sc.fontBytes = s.sc.fontBytes ∧
    s.useDefaultProfile.sc.listenTimer = s.sc.listenTimer ∧ s.useDefaultProfile.lc = s.lc ∧
    s.useDefaultProfile.tb = s.tb ∧ s.useDefaultProfile.co = s.co ∧ s.useDefaultProfile.au = s.au ∧
    s.useDefaultProfile.pa = s.pa ∧ s.useDefaultProfile.bu = s.bu ∧ s.useDefaultProfile.ru = s.ru ∧
    s.useDefaultProfile.pending = s.pending ∧ s.useDefaultProfile.freeCounter = s.freeCounter := by
  unfold State.useDefaultProfile
  (repeat' split) <;> simp

/-- `useFallbackFont` changes only: sc.fontSource, pa.fontHeight, pa.glyphs. -/
@[simp] theorem State.useFallbackFont_frame (s : State) :
    s.useFallbackFont.sc.node = s.sc.node ∧ s.useFallbackFont.sc.nodeNumber = s.sc.nodeNumber ∧
    s.useFallbackFont.sc.glyphStrap = s.sc.glyphStrap ∧
    s.useFallbackFont.sc.profile = s.sc.profile ∧
    s.useFallbackFont.sc.profileSource = s.sc.profileSource ∧
    s.useFallbackFont.sc.loadPosition = s.sc.loadPosition ∧
    s.useFallbackFont.sc.profileBytes = s.sc.profileBytes ∧
    s.useFallbackFont.sc.fontBytes = s.sc.fontBytes ∧
    s.useFallbackFont.sc.listenTimer = s.sc.listenTimer ∧ s.useFallbackFont.lc = s.lc ∧
    s.useFallbackFont.tb = s.tb ∧ s.useFallbackFont.co = s.co ∧ s.useFallbackFont.au = s.au ∧
    s.useFallbackFont.pa.geometry = s.pa.geometry ∧ s.useFallbackFont.pa.layout = s.pa.layout ∧
    s.useFallbackFont.pa.palette = s.pa.palette ∧ s.useFallbackFont.pa.classMap = s.pa.classMap ∧
    s.useFallbackFont.pa.brightness = s.pa.brightness ∧
    s.useFallbackFont.pa.swapPending = s.pa.swapPending ∧
    s.useFallbackFont.pa.sample = s.pa.sample ∧ s.useFallbackFont.pa.paint = s.pa.paint ∧
    s.useFallbackFont.pa.frameTimer = s.pa.frameTimer ∧
    s.useFallbackFont.pa.geometryCut = s.pa.geometryCut ∧ s.useFallbackFont.pa.panel = s.pa.panel ∧
    s.useFallbackFont.bu = s.bu ∧ s.useFallbackFont.ru = s.ru ∧
    s.useFallbackFont.pending = s.pending ∧ s.useFallbackFont.freeCounter = s.freeCounter := by
  unfold State.useFallbackFont
  (repeat' split) <;> simp

/-- `beginFont` changes only: sc.loadPosition. -/
@[simp] theorem State.beginFont_frame (s : State) :
    s.beginFont.sc.node = s.sc.node ∧ s.beginFont.sc.nodeNumber = s.sc.nodeNumber ∧
    s.beginFont.sc.glyphStrap = s.sc.glyphStrap ∧ s.beginFont.sc.profile = s.sc.profile ∧
    s.beginFont.sc.profileSource = s.sc.profileSource ∧
    s.beginFont.sc.fontSource = s.sc.fontSource ∧ s.beginFont.sc.profileBytes = s.sc.profileBytes ∧
    s.beginFont.sc.fontBytes = s.sc.fontBytes ∧ s.beginFont.sc.listenTimer = s.sc.listenTimer ∧
    s.beginFont.lc = s.lc ∧ s.beginFont.tb = s.tb ∧ s.beginFont.co = s.co ∧ s.beginFont.au = s.au ∧
    s.beginFont.pa = s.pa ∧ s.beginFont.bu = s.bu ∧ s.beginFont.ru = s.ru ∧
    s.beginFont.pending = s.pending ∧ s.beginFont.freeCounter = s.freeCounter := by
  unfold State.beginFont
  (repeat' split) <;> simp

/-- `endProfile` changes only: sc.profile, sc.profileSource, sc.profileBytes, sc.loadPosition. -/
@[simp] theorem State.endProfile_frame (s : State) (block : List Byte) :
    (s.endProfile block).sc.node = s.sc.node ∧
    (s.endProfile block).sc.nodeNumber = s.sc.nodeNumber ∧
    (s.endProfile block).sc.glyphStrap = s.sc.glyphStrap ∧
    (s.endProfile block).sc.fontSource = s.sc.fontSource ∧
    (s.endProfile block).sc.fontBytes = s.sc.fontBytes ∧
    (s.endProfile block).sc.listenTimer = s.sc.listenTimer ∧ (s.endProfile block).lc = s.lc ∧
    (s.endProfile block).tb = s.tb ∧ (s.endProfile block).co = s.co ∧
    (s.endProfile block).au = s.au ∧ (s.endProfile block).pa = s.pa ∧
    (s.endProfile block).bu = s.bu ∧ (s.endProfile block).ru = s.ru ∧
    (s.endProfile block).pending = s.pending ∧ (s.endProfile block).freeCounter = s.freeCounter := by
  simp only [State.endProfile]
  (repeat' split) <;> simp

/-- `readProfileByte` changes only: sc.profile, sc.profileSource, sc.profileBytes, sc.loadPosition. -/
@[simp] theorem State.readProfileByte_frame (s : State) (a : Nat) (b : Byte) :
    (s.readProfileByte a b).sc.node = s.sc.node ∧
    (s.readProfileByte a b).sc.nodeNumber = s.sc.nodeNumber ∧
    (s.readProfileByte a b).sc.glyphStrap = s.sc.glyphStrap ∧
    (s.readProfileByte a b).sc.fontSource = s.sc.fontSource ∧
    (s.readProfileByte a b).sc.fontBytes = s.sc.fontBytes ∧
    (s.readProfileByte a b).sc.listenTimer = s.sc.listenTimer ∧ (s.readProfileByte a b).lc = s.lc ∧
    (s.readProfileByte a b).tb = s.tb ∧ (s.readProfileByte a b).co = s.co ∧
    (s.readProfileByte a b).au = s.au ∧ (s.readProfileByte a b).pa = s.pa ∧
    (s.readProfileByte a b).bu = s.bu ∧ (s.readProfileByte a b).ru = s.ru ∧
    (s.readProfileByte a b).pending = s.pending ∧
    (s.readProfileByte a b).freeCounter = s.freeCounter := by
  simp only [State.readProfileByte]
  (repeat' split) <;> simp

/-- `raiseStartKinds` changes only: ru.pending, ru.timers, ru.counts, ru.geometryCut, ru.marks. -/
@[simp] theorem State.raiseStartKinds_frame (s : State) :
    s.raiseStartKinds.sc = s.sc ∧ s.raiseStartKinds.lc = s.lc ∧ s.raiseStartKinds.tb = s.tb ∧
    s.raiseStartKinds.co = s.co ∧ s.raiseStartKinds.au = s.au ∧ s.raiseStartKinds.pa = s.pa ∧
    s.raiseStartKinds.bu = s.bu ∧ s.raiseStartKinds.ru.listed = s.ru.listed ∧
    s.raiseStartKinds.pending = s.pending ∧ s.raiseStartKinds.freeCounter = s.freeCounter := by
  simp only [State.raiseStartKinds]
  (repeat' split) <;> simp

/-- `startInterval` changes only: ru.timers. -/
@[simp] theorem State.startInterval_frame (s : State) (i : Nat) :
    (s.startInterval i).sc = s.sc ∧ (s.startInterval i).lc = s.lc ∧ (s.startInterval i).tb = s.tb ∧
    (s.startInterval i).co = s.co ∧ (s.startInterval i).au = s.au ∧ (s.startInterval i).pa = s.pa ∧
    (s.startInterval i).bu = s.bu ∧ (s.startInterval i).ru.counts = s.ru.counts ∧
    (s.startInterval i).ru.geometryCut = s.ru.geometryCut ∧
    (s.startInterval i).ru.pending = s.ru.pending ∧ (s.startInterval i).ru.listed = s.ru.listed ∧
    (s.startInterval i).ru.marks = s.ru.marks ∧ (s.startInterval i).pending = s.pending ∧
    (s.startInterval i).freeCounter = s.freeCounter := by
  unfold State.startInterval
  (repeat' split) <;> simp

/-- `startIntervals` changes only: ru.timers. -/
@[simp] theorem State.startIntervals_frame (s : State) :
    s.startIntervals.sc = s.sc ∧ s.startIntervals.lc = s.lc ∧ s.startIntervals.tb = s.tb ∧
    s.startIntervals.co = s.co ∧ s.startIntervals.au = s.au ∧ s.startIntervals.pa = s.pa ∧
    s.startIntervals.bu = s.bu ∧ s.startIntervals.pending = s.pending ∧
    s.startIntervals.freeCounter = s.freeCounter := by
  simp [State.startIntervals]

/-- `reportsAtRun` changes only: lc.queue, lc.transmitter, ru.listed, ru.pending, ru.timers, ru.counts, ru.geometryCut, ru.marks. -/
@[simp] theorem State.reportsAtRun_frame (s : State) :
    s.reportsAtRun.sc = s.sc ∧ s.reportsAtRun.lc.receiver = s.lc.receiver ∧
    s.reportsAtRun.lc.fifo = s.lc.fifo ∧ s.reportsAtRun.lc.ring = s.lc.ring ∧
    s.reportsAtRun.lc.watch = s.lc.watch ∧ s.reportsAtRun.tb = s.tb ∧ s.reportsAtRun.co = s.co ∧
    s.reportsAtRun.au = s.au ∧ s.reportsAtRun.pa = s.pa ∧ s.reportsAtRun.bu = s.bu ∧
    s.reportsAtRun.pending = s.pending ∧ s.reportsAtRun.freeCounter = s.freeCounter := by
  simp only [State.reportsAtRun]
  (repeat' split) <;> simp

/-- `enterRun` changes only: lc.queue, lc.transmitter, ru.listed, ru.pending, ru.timers, ru.counts, ru.geometryCut, ru.marks, sc.node, sc.listenTimer, au.beaconTimer, au.sent, tb.state, tb.waitingApply, tb.waiting, freeCounter, tb.windowRequest, co.request, co.pass, co.working, co.nameMiss. -/
@[simp] theorem State.enterRun_frame (s : State) :
    s.enterRun.sc.nodeNumber = s.sc.nodeNumber ∧ s.enterRun.sc.glyphStrap = s.sc.glyphStrap ∧
    s.enterRun.sc.profile = s.sc.profile ∧ s.enterRun.sc.profileSource = s.sc.profileSource ∧
    s.enterRun.sc.fontSource = s.sc.fontSource ∧ s.enterRun.sc.loadPosition = s.sc.loadPosition ∧
    s.enterRun.sc.profileBytes = s.sc.profileBytes ∧ s.enterRun.sc.fontBytes = s.sc.fontBytes ∧
    s.enterRun.lc.receiver = s.lc.receiver ∧ s.enterRun.lc.fifo = s.lc.fifo ∧
    s.enterRun.lc.ring = s.lc.ring ∧ s.enterRun.lc.watch = s.lc.watch ∧
    s.enterRun.tb.services = s.tb.services ∧ s.enterRun.tb.pool = s.tb.pool ∧
    s.enterRun.tb.names = s.tb.names ∧ s.enterRun.tb.refusals = s.tb.refusals ∧
    s.enterRun.tb.feeders = s.tb.feeders ∧ s.enterRun.tb.staleOrder = s.tb.staleOrder ∧
    s.enterRun.tb.time = s.tb.time ∧ s.enterRun.co.composed = s.co.composed ∧
    s.enterRun.co.number = s.co.number ∧ s.enterRun.au.peers = s.au.peers ∧
    s.enterRun.au.agreement = s.au.agreement ∧ s.enterRun.au.composedDigest = s.au.composedDigest ∧
    s.enterRun.au.ownProposal = s.au.ownProposal ∧
    s.enterRun.au.agreementTimer = s.au.agreementTimer ∧
    s.enterRun.au.swapBuffer = s.au.swapBuffer ∧ s.enterRun.au.shown = s.au.shown ∧
    s.enterRun.au.shownDigest = s.au.shownDigest ∧ s.enterRun.au.pace = s.au.pace ∧
    s.enterRun.au.paceTimer = s.au.paceTimer ∧ s.enterRun.pa = s.pa ∧ s.enterRun.bu = s.bu ∧
    s.enterRun.pending = s.pending := by
  simp only [State.enterRun]
  (repeat' split) <;> simp

/-- `fontFails` changes only: sc.node, sc.listenTimer, sc.loadPosition, lc.receiver, au.paceTimer, au.shown, au.swapBuffer, pa.frameTimer, pa.geometry, pa.geometryCut, pa.layout, pa.palette, pa.classMap, pa.brightness, pa.swapPending, pa.sample, pa.paint, pa.panel, ru.marks, sc.fontSource, pa.fontHeight, pa.glyphs. -/
@[simp] theorem State.fontFails_frame (s : State) :
    s.fontFails.sc.nodeNumber = s.sc.nodeNumber ∧ s.fontFails.sc.glyphStrap = s.sc.glyphStrap ∧
    s.fontFails.sc.profile = s.sc.profile ∧ s.fontFails.sc.profileSource = s.sc.profileSource ∧
    s.fontFails.sc.profileBytes = s.sc.profileBytes ∧ s.fontFails.sc.fontBytes = s.sc.fontBytes ∧
    s.fontFails.lc.fifo = s.lc.fifo ∧ s.fontFails.lc.ring = s.lc.ring ∧
    s.fontFails.lc.queue = s.lc.queue ∧ s.fontFails.lc.transmitter = s.lc.transmitter ∧
    s.fontFails.lc.watch = s.lc.watch ∧ s.fontFails.tb = s.tb ∧ s.fontFails.co = s.co ∧
    s.fontFails.au.peers = s.au.peers ∧ s.fontFails.au.agreement = s.au.agreement ∧
    s.fontFails.au.composedDigest = s.au.composedDigest ∧
    s.fontFails.au.ownProposal = s.au.ownProposal ∧
    s.fontFails.au.agreementTimer = s.au.agreementTimer ∧
    s.fontFails.au.shownDigest = s.au.shownDigest ∧ s.fontFails.au.pace = s.au.pace ∧
    s.fontFails.au.beaconTimer = s.au.beaconTimer ∧ s.fontFails.au.sent = s.au.sent ∧
    s.fontFails.bu = s.bu ∧ s.fontFails.ru.counts = s.ru.counts ∧
    s.fontFails.ru.geometryCut = s.ru.geometryCut ∧ s.fontFails.ru.pending = s.ru.pending ∧
    s.fontFails.ru.listed = s.ru.listed ∧ s.fontFails.ru.timers = s.ru.timers ∧
    s.fontFails.pending = s.pending ∧ s.fontFails.freeCounter = s.freeCounter := by
  unfold State.fontFails
  (repeat' split) <;> simp

/-- `fontStands` changes only: sc.node, sc.listenTimer, sc.loadPosition, lc.receiver, au.paceTimer, au.shown, au.swapBuffer, pa.frameTimer, pa.geometry, pa.geometryCut, pa.layout, pa.palette, pa.classMap, pa.brightness, pa.swapPending, pa.sample, pa.paint, pa.panel, ru.marks, sc.fontSource, sc.fontBytes, pa.fontHeight, pa.glyphs. -/
@[simp] theorem State.fontStands_frame (s : State) (bytes : List Byte) :
    (s.fontStands bytes).sc.nodeNumber = s.sc.nodeNumber ∧
    (s.fontStands bytes).sc.glyphStrap = s.sc.glyphStrap ∧
    (s.fontStands bytes).sc.profile = s.sc.profile ∧
    (s.fontStands bytes).sc.profileSource = s.sc.profileSource ∧
    (s.fontStands bytes).sc.profileBytes = s.sc.profileBytes ∧
    (s.fontStands bytes).lc.fifo = s.lc.fifo ∧ (s.fontStands bytes).lc.ring = s.lc.ring ∧
    (s.fontStands bytes).lc.queue = s.lc.queue ∧
    (s.fontStands bytes).lc.transmitter = s.lc.transmitter ∧
    (s.fontStands bytes).lc.watch = s.lc.watch ∧ (s.fontStands bytes).tb = s.tb ∧
    (s.fontStands bytes).co = s.co ∧ (s.fontStands bytes).au.peers = s.au.peers ∧
    (s.fontStands bytes).au.agreement = s.au.agreement ∧
    (s.fontStands bytes).au.composedDigest = s.au.composedDigest ∧
    (s.fontStands bytes).au.ownProposal = s.au.ownProposal ∧
    (s.fontStands bytes).au.agreementTimer = s.au.agreementTimer ∧
    (s.fontStands bytes).au.shownDigest = s.au.shownDigest ∧
    (s.fontStands bytes).au.pace = s.au.pace ∧
    (s.fontStands bytes).au.beaconTimer = s.au.beaconTimer ∧
    (s.fontStands bytes).au.sent = s.au.sent ∧ (s.fontStands bytes).bu = s.bu ∧
    (s.fontStands bytes).ru.counts = s.ru.counts ∧
    (s.fontStands bytes).ru.geometryCut = s.ru.geometryCut ∧
    (s.fontStands bytes).ru.pending = s.ru.pending ∧ (s.fontStands bytes).ru.listed = s.ru.listed ∧
    (s.fontStands bytes).ru.timers = s.ru.timers ∧ (s.fontStands bytes).pending = s.pending ∧
    (s.fontStands bytes).freeCounter = s.freeCounter := by
  simp only [State.fontStands]
  (repeat' split) <;> simp

/-- `readFontByte` changes only: sc.node, sc.listenTimer, sc.loadPosition, lc.receiver, au.paceTimer, au.shown, au.swapBuffer, pa.frameTimer, pa.geometry, pa.geometryCut, pa.layout, pa.palette, pa.classMap, pa.brightness, pa.swapPending, pa.sample, pa.paint, pa.panel, ru.marks, sc.fontSource, sc.fontBytes, pa.fontHeight, pa.glyphs. -/
@[simp] theorem State.readFontByte_frame (s : State) (a : Nat) (b : Byte) :
    (s.readFontByte a b).sc.nodeNumber = s.sc.nodeNumber ∧
    (s.readFontByte a b).sc.glyphStrap = s.sc.glyphStrap ∧
    (s.readFontByte a b).sc.profile = s.sc.profile ∧
    (s.readFontByte a b).sc.profileSource = s.sc.profileSource ∧
    (s.readFontByte a b).sc.profileBytes = s.sc.profileBytes ∧
    (s.readFontByte a b).lc.fifo = s.lc.fifo ∧ (s.readFontByte a b).lc.ring = s.lc.ring ∧
    (s.readFontByte a b).lc.queue = s.lc.queue ∧
    (s.readFontByte a b).lc.transmitter = s.lc.transmitter ∧
    (s.readFontByte a b).lc.watch = s.lc.watch ∧ (s.readFontByte a b).tb = s.tb ∧
    (s.readFontByte a b).co = s.co ∧ (s.readFontByte a b).au.peers = s.au.peers ∧
    (s.readFontByte a b).au.agreement = s.au.agreement ∧
    (s.readFontByte a b).au.composedDigest = s.au.composedDigest ∧
    (s.readFontByte a b).au.ownProposal = s.au.ownProposal ∧
    (s.readFontByte a b).au.agreementTimer = s.au.agreementTimer ∧
    (s.readFontByte a b).au.shownDigest = s.au.shownDigest ∧
    (s.readFontByte a b).au.pace = s.au.pace ∧
    (s.readFontByte a b).au.beaconTimer = s.au.beaconTimer ∧
    (s.readFontByte a b).au.sent = s.au.sent ∧ (s.readFontByte a b).bu = s.bu ∧
    (s.readFontByte a b).ru.counts = s.ru.counts ∧
    (s.readFontByte a b).ru.geometryCut = s.ru.geometryCut ∧
    (s.readFontByte a b).ru.pending = s.ru.pending ∧ (s.readFontByte a b).ru.listed = s.ru.listed ∧
    (s.readFontByte a b).ru.timers = s.ru.timers ∧ (s.readFontByte a b).pending = s.pending ∧
    (s.readFontByte a b).freeCounter = s.freeCounter := by
  simp only [State.readFontByte]
  (repeat' split) <;> simp

end Sys2Proof.Machine
end

