-- ==== Sys2Proof/Laws/TableFrames.lean ====
section
/-! SUPPORT. What each table work leaves unchanged of the Table Builder, field by field. -/

namespace Sys2Proof.Machine

@[simp] theorem Tb.updateFeeder_frame (tb : Tb) (n : Nat) (f : Feeder → Feeder) :
    (tb.updateFeeder n f).services = tb.services ∧ (tb.updateFeeder n f).pool = tb.pool ∧
      (tb.updateFeeder n f).names = tb.names ∧ (tb.updateFeeder n f).refusals = tb.refusals ∧
      (tb.updateFeeder n f).state = tb.state ∧
      (tb.updateFeeder n f).waitingApply = tb.waitingApply ∧
      (tb.updateFeeder n f).waiting = tb.waiting ∧
      (tb.updateFeeder n f).windowRequest = tb.windowRequest ∧
      (tb.updateFeeder n f).staleOrder = tb.staleOrder ∧ (tb.updateFeeder n f).time = tb.time :=
  ⟨rfl, rfl, rfl, rfl, rfl, rfl, rfl, rfl, rfl, rfl⟩

@[simp] theorem Tb.countSweep_frame (tb : Tb) (n : Nat) :
    (tb.countSweep n).services = tb.services ∧ (tb.countSweep n).pool = tb.pool ∧
      (tb.countSweep n).names = tb.names ∧ (tb.countSweep n).refusals = tb.refusals ∧
      (tb.countSweep n).state = tb.state ∧ (tb.countSweep n).waitingApply = tb.waitingApply ∧
      (tb.countSweep n).waiting = tb.waiting ∧
      (tb.countSweep n).windowRequest = tb.windowRequest ∧
      (tb.countSweep n).staleOrder = tb.staleOrder ∧ (tb.countSweep n).time = tb.time :=
  ⟨rfl, rfl, rfl, rfl, rfl, rfl, rfl, rfl, rfl, rfl⟩

@[simp] theorem Tb.drop_frame (tb : Tb) (v : Service) :
    (tb.drop v).names = tb.names ∧ (tb.drop v).refusals = tb.refusals ∧
      (tb.drop v).state = tb.state ∧ (tb.drop v).waitingApply = tb.waitingApply ∧
      (tb.drop v).waiting = tb.waiting ∧ (tb.drop v).windowRequest = tb.windowRequest ∧
      (tb.drop v).feeders = tb.feeders ∧ (tb.drop v).staleOrder = tb.staleOrder ∧
      (tb.drop v).time = tb.time :=
  ⟨rfl, rfl, rfl, rfl, rfl, rfl, rfl, rfl, rfl⟩

/-- Dropping a list of services changes the services and the pool alone. -/
@[simp] theorem Tb.foldDrop_frame (tb : Tb) (vs : List Service) :
    (vs.foldl Tb.drop tb).names = tb.names ∧ (vs.foldl Tb.drop tb).refusals = tb.refusals ∧
      (vs.foldl Tb.drop tb).state = tb.state ∧
      (vs.foldl Tb.drop tb).waitingApply = tb.waitingApply ∧
      (vs.foldl Tb.drop tb).waiting = tb.waiting ∧
      (vs.foldl Tb.drop tb).windowRequest = tb.windowRequest ∧
      (vs.foldl Tb.drop tb).feeders = tb.feeders ∧
      (vs.foldl Tb.drop tb).staleOrder = tb.staleOrder ∧ (vs.foldl Tb.drop tb).time = tb.time := by
  induction vs generalizing tb with
  | nil => simp
  | cons v rest ih => simp [ih]

/-- A NAME work changes the names alone. -/
@[simp] theorem Tb.nameWork_frame (tb : Tb) (body : List Byte) :
    (tb.nameWork body).tb.services = tb.services ∧ (tb.nameWork body).tb.pool = tb.pool ∧
      (tb.nameWork body).tb.refusals = tb.refusals ∧ (tb.nameWork body).tb.state = tb.state ∧
      (tb.nameWork body).tb.waitingApply = tb.waitingApply ∧
      (tb.nameWork body).tb.waiting = tb.waiting ∧
      (tb.nameWork body).tb.windowRequest = tb.windowRequest ∧
      (tb.nameWork body).tb.feeders = tb.feeders ∧
      (tb.nameWork body).tb.staleOrder = tb.staleOrder ∧
      (tb.nameWork body).tb.time = tb.time := by
  unfold Tb.nameWork
  (repeat' split) <;> simp [Tb.applyNames, Effect.malformed]

/-- A SERVICE decided by R52 changes services, pool and refusal list alone. -/
@[simp] theorem Tb.applyService_frame (tb : Tb) (p : Profile) (n : Nat) (r : ServiceRecord) :
    (tb.applyService p n r).1.tb.names = tb.names ∧ (tb.applyService p n r).1.tb.state = tb.state ∧
      (tb.applyService p n r).1.tb.waitingApply = tb.waitingApply ∧
      (tb.applyService p n r).1.tb.waiting = tb.waiting ∧
      (tb.applyService p n r).1.tb.windowRequest = tb.windowRequest ∧
      (tb.applyService p n r).1.tb.feeders = tb.feeders ∧
      (tb.applyService p n r).1.tb.staleOrder = tb.staleOrder ∧
      (tb.applyService p n r).1.tb.time = tb.time := by
  simp only [Tb.applyService, Tb.takeIn]
  (repeat' split) <;>
    simp [Tb.store, Tb.write, Tb.removal, Tb.replace, Tb.refresh, Effect.none]

/-- A SERVICE work changes services, pool, refusal list and feeders alone. -/
@[simp] theorem Tb.serviceWork_frame (tb : Tb) (p : Profile) (n : Nat) (body : List Byte) :
    (tb.serviceWork p n body).tb.names = tb.names ∧
      (tb.serviceWork p n body).tb.state = tb.state ∧
      (tb.serviceWork p n body).tb.waitingApply = tb.waitingApply ∧
      (tb.serviceWork p n body).tb.waiting = tb.waiting ∧
      (tb.serviceWork p n body).tb.windowRequest = tb.windowRequest ∧
      (tb.serviceWork p n body).tb.staleOrder = tb.staleOrder ∧
      (tb.serviceWork p n body).tb.time = tb.time := by
  simp only [Tb.serviceWork]
  (repeat' split) <;> simp [Effect.malformed]

/-- An AMEND work changes services, pool and refusal list alone. -/
@[simp] theorem Tb.amendWork_frame (tb : Tb) (p : Profile) (body : List Byte) :
    (tb.amendWork p body).tb.names = tb.names ∧ (tb.amendWork p body).tb.state = tb.state ∧
      (tb.amendWork p body).tb.waitingApply = tb.waitingApply ∧
      (tb.amendWork p body).tb.waiting = tb.waiting ∧
      (tb.amendWork p body).tb.windowRequest = tb.windowRequest ∧
      (tb.amendWork p body).tb.feeders = tb.feeders ∧
      (tb.amendWork p body).tb.staleOrder = tb.staleOrder ∧
      (tb.amendWork p body).tb.time = tb.time := by
  simp only [Tb.amendWork, Tb.applyAmend]
  (repeat' split) <;> simp [Effect.malformed, Effect.none, Tb.removal]

/-- A WITHDRAW work changes services and pool alone. -/
@[simp] theorem Tb.withdrawWork_frame (tb : Tb) (body : List Byte) :
    (tb.withdrawWork body).tb.names = tb.names ∧
      (tb.withdrawWork body).tb.refusals = tb.refusals ∧
      (tb.withdrawWork body).tb.state = tb.state ∧
      (tb.withdrawWork body).tb.waitingApply = tb.waitingApply ∧
      (tb.withdrawWork body).tb.waiting = tb.waiting ∧
      (tb.withdrawWork body).tb.windowRequest = tb.windowRequest ∧
      (tb.withdrawWork body).tb.feeders = tb.feeders ∧
      (tb.withdrawWork body).tb.staleOrder = tb.staleOrder ∧
      (tb.withdrawWork body).tb.time = tb.time := by
  unfold Tb.withdrawWork
  (repeat' split) <;> simp [Effect.malformed, Effect.none, Tb.removal]

/-- A SWEEP-OPEN work changes services and feeders alone. -/
@[simp] theorem Tb.sweepOpenWork_frame (tb : Tb) (n : Nat) (body : List Byte) :
    (tb.sweepOpenWork n body).tb.pool = tb.pool ∧ (tb.sweepOpenWork n body).tb.names = tb.names ∧
      (tb.sweepOpenWork n body).tb.refusals = tb.refusals ∧
      (tb.sweepOpenWork n body).tb.state = tb.state ∧
      (tb.sweepOpenWork n body).tb.waitingApply = tb.waitingApply ∧
      (tb.sweepOpenWork n body).tb.waiting = tb.waiting ∧
      (tb.sweepOpenWork n body).tb.windowRequest = tb.windowRequest ∧
      (tb.sweepOpenWork n body).tb.staleOrder = tb.staleOrder ∧
      (tb.sweepOpenWork n body).tb.time = tb.time := by
  unfold Tb.sweepOpenWork
  split <;> simp [Effect.none]

/-- A SWEEP-CLOSE work changes services, pool and feeders alone. -/
@[simp] theorem Tb.sweepCloseWork_frame (tb : Tb) (n : Nat) (body : List Byte) :
    (tb.sweepCloseWork n body).tb.names = tb.names ∧
      (tb.sweepCloseWork n body).tb.refusals = tb.refusals ∧
      (tb.sweepCloseWork n body).tb.state = tb.state ∧
      (tb.sweepCloseWork n body).tb.waitingApply = tb.waitingApply ∧
      (tb.sweepCloseWork n body).tb.waiting = tb.waiting ∧
      (tb.sweepCloseWork n body).tb.windowRequest = tb.windowRequest ∧
      (tb.sweepCloseWork n body).tb.staleOrder = tb.staleOrder ∧
      (tb.sweepCloseWork n body).tb.time = tb.time := by
  simp only [Tb.sweepCloseWork, Tb.acceptSweep]
  (repeat' split) <;> simp [Effect.none]

/-- A CLOCK work changes station time alone. -/
@[simp] theorem Tb.clockWork_frame (tb : Tb) (body : List Byte) :
    (tb.clockWork body).tb.services = tb.services ∧ (tb.clockWork body).tb.pool = tb.pool ∧
      (tb.clockWork body).tb.names = tb.names ∧ (tb.clockWork body).tb.refusals = tb.refusals ∧
      (tb.clockWork body).tb.state = tb.state ∧
      (tb.clockWork body).tb.waitingApply = tb.waitingApply ∧
      (tb.clockWork body).tb.waiting = tb.waiting ∧
      (tb.clockWork body).tb.windowRequest = tb.windowRequest ∧
      (tb.clockWork body).tb.feeders = tb.feeders ∧
      (tb.clockWork body).tb.staleOrder = tb.staleOrder := by
  simp only [Tb.clockWork]
  split <;> simp [Effect.malformed]

/-- The work of a header-only chain changes the feeders alone. -/
@[simp] theorem Tb.headerOnlyWork_frame (tb : Tb) (n : Nat) (k : Option NoticeKind) :
    (tb.headerOnlyWork n k).tb.services = tb.services ∧ (tb.headerOnlyWork n k).tb.pool = tb.pool ∧
      (tb.headerOnlyWork n k).tb.names = tb.names ∧
      (tb.headerOnlyWork n k).tb.refusals = tb.refusals ∧
      (tb.headerOnlyWork n k).tb.state = tb.state ∧
      (tb.headerOnlyWork n k).tb.waitingApply = tb.waitingApply ∧
      (tb.headerOnlyWork n k).tb.waiting = tb.waiting ∧
      (tb.headerOnlyWork n k).tb.windowRequest = tb.windowRequest ∧
      (tb.headerOnlyWork n k).tb.staleOrder = tb.staleOrder ∧
      (tb.headerOnlyWork n k).tb.time = tb.time := by
  unfold Tb.headerOnlyWork
  split <;> simp [Effect.none]

/-- A tick work changes station time alone. -/
@[simp] theorem Tb.tickWork_frame (tb : Tb) :
    tb.tickWork.tb.services = tb.services ∧ tb.tickWork.tb.pool = tb.pool ∧
      tb.tickWork.tb.names = tb.names ∧ tb.tickWork.tb.refusals = tb.refusals ∧
      tb.tickWork.tb.state = tb.state ∧ tb.tickWork.tb.waitingApply = tb.waitingApply ∧
      tb.tickWork.tb.waiting = tb.waiting ∧ tb.tickWork.tb.windowRequest = tb.windowRequest ∧
      tb.tickWork.tb.feeders = tb.feeders ∧ tb.tickWork.tb.staleOrder = tb.staleOrder := by
  simp only [Tb.tickWork]
  (repeat' split) <;> simp [Effect.none]

/-- A refresh work changes services and pool alone. -/
@[simp] theorem Tb.refreshWork_frame (tb : Tb) (n : Nat) (live : Bool) :
    (tb.refreshWork n live).tb.names = tb.names ∧
      (tb.refreshWork n live).tb.refusals = tb.refusals ∧
      (tb.refreshWork n live).tb.state = tb.state ∧
      (tb.refreshWork n live).tb.waitingApply = tb.waitingApply ∧
      (tb.refreshWork n live).tb.waiting = tb.waiting ∧
      (tb.refreshWork n live).tb.windowRequest = tb.windowRequest ∧
      (tb.refreshWork n live).tb.feeders = tb.feeders ∧
      (tb.refreshWork n live).tb.staleOrder = tb.staleOrder ∧
      (tb.refreshWork n live).tb.time = tb.time := by
  unfold Tb.refreshWork
  (repeat' split) <;> simp [Effect.none, Tb.removal]

/-- A lifetime work changes the feeders and the stale order alone. -/
@[simp] theorem Tb.lifetimeWork_frame (tb : Tb) (n : Nat) :
    (tb.lifetimeWork n).tb.services = tb.services ∧ (tb.lifetimeWork n).tb.pool = tb.pool ∧
      (tb.lifetimeWork n).tb.names = tb.names ∧ (tb.lifetimeWork n).tb.refusals = tb.refusals ∧
      (tb.lifetimeWork n).tb.state = tb.state ∧
      (tb.lifetimeWork n).tb.waitingApply = tb.waitingApply ∧
      (tb.lifetimeWork n).tb.waiting = tb.waiting ∧
      (tb.lifetimeWork n).tb.windowRequest = tb.windowRequest ∧
      (tb.lifetimeWork n).tb.time = tb.time := by
  simp only [Tb.lifetimeWork]
  (repeat' split) <;> simp [Effect.none]

/-- A sweep limit work changes the feeders alone. -/
@[simp] theorem Tb.sweepLimitWork_frame (tb : Tb) (n : Nat) :
    (tb.sweepLimitWork n).tb.services = tb.services ∧ (tb.sweepLimitWork n).tb.pool = tb.pool ∧
      (tb.sweepLimitWork n).tb.names = tb.names ∧
      (tb.sweepLimitWork n).tb.refusals = tb.refusals ∧
      (tb.sweepLimitWork n).tb.state = tb.state ∧
      (tb.sweepLimitWork n).tb.waitingApply = tb.waitingApply ∧
      (tb.sweepLimitWork n).tb.waiting = tb.waiting ∧
      (tb.sweepLimitWork n).tb.windowRequest = tb.windowRequest ∧
      (tb.sweepLimitWork n).tb.staleOrder = tb.staleOrder ∧
      (tb.sweepLimitWork n).tb.time = tb.time := by
  unfold Tb.sweepLimitWork
  (repeat' split) <;> simp [Effect.none]

/-- The effect of an apply on the tables: its work on the tables its header note left. -/
@[simp] theorem Tb.withNote_tb (tb : Tb) (c : Chain) (work : Tb → Effect) :
    (tb.withNote c work).tb = (work (tb.note c.sender c.sequence).1).tb := rfl

@[simp] theorem Tb.withNote_messages (tb : Tb) (c : Chain) (work : Tb → Effect) :
    (tb.withNote c work).messages = (work (tb.note c.sender c.sequence).1).messages := rfl

@[simp] theorem Tb.withNote_compose (tb : Tb) (c : Chain) (work : Tb → Effect) :
    (tb.withNote c work).compose = (work (tb.note c.sender c.sequence).1).compose := rfl

@[simp] theorem Tb.withNote_reports (tb : Tb) (c : Chain) (work : Tb → Effect) :
    (tb.withNote c work).reports =
      (tb.note c.sender c.sequence).2 ++ (work (tb.note c.sender c.sequence).1).reports := rfl

end Sys2Proof.Machine
end

