-- ==== Sys2Proof/Laws/Specs.lean ====
section
/-! SUPPORT. What the shared operations compute: membership, lookups after an update, the drain of the FIFO, the
transmit queue, the bits of the line, the report kinds as bits, and the Boolean tests in the words of the statements. -/

namespace Sys2Proof.Machine

/-! ### Boolean tests as propositions -/

theorem State.following_iff_started (s : State) : s.following = true ↔ s.started := by
  simp only [State.started, State.following]; cases s.sc.node <;> simp

theorem State.maySend_of_run {s : State} (h : s.sc.node = .run) (h1 : 1 ≤ s.sc.nodeNumber.toNat)
    (h2 : s.sc.nodeNumber.toNat ≤ 62) : s.maySend = true := by
  simp [State.maySend, h, h1, h2]

theorem State.delivered_iff (s : State) (k : NoticeKind) (c : Chain) :
    s.delivered k = some c ↔ s.Delivered k c := by
  unfold State.delivered State.Delivered
  cases h : s.lc.ring.inWork with
  | none => simp
  | some d =>
    dsimp only
    constructor
    · intro e
      by_cases hd : d.headerOnly = false ∧ d.kind = some k
      · rw [if_pos hd] at e; injection e with e; exact e ▸ ⟨rfl, hd⟩
      · rw [if_neg hd] at e; exact nomatch e
    · rintro ⟨e, hd⟩
      injection e with e
      rw [← e] at hd
      rw [if_pos hd, e]

theorem State.applying_iff (s : State) (k : NoticeKind) (c : Chain) :
    s.applying k = some c ↔ s.Applying k c := by
  unfold State.Applying
  rw [← State.delivered_iff]
  unfold State.applying State.delivered
  cases hs : s.tb.state <;> cases hw : s.lc.ring.inWork <;> simp
  rename_i w d
  cases w <;> simp

theorem Au.allHold_iff (s : State) (d : Digest) : s.au.allHold s.prof d = true ↔ AllHold s d := by
  unfold AllHold Au.allHold
  simp only [List.all_eq_true, List.mem_range]
  refine forall_congr' fun i => forall_congr' fun _ => ?_
  by_cases hp : i ≠ s.prof.segmentIndex ∧ i < s.prof.segmentCount
  · by_cases hl : (s.au.peer i).live = true
    · cases hd : (s.au.peer i).digest <;> simp [Au.considered, Profile.isPeer, hp, hl, hd]
    · simp [Au.considered, hl]
  · have : s.prof.isPeer i = false := by simp only [Profile.isPeer, decide_eq_false_iff_not]; exact hp
    simp only [Au.considered, this, Bool.false_and]
    constructor
    · intro _ h1 h2; exact absurd ⟨h1, h2⟩ hp
    · intro _; rfl

/-! ### Lookups after an update -/

theorem Tb.find_some {tb : Tb} {n : Nat} {v : Service} (h : tb.find n = some v) :
    v ∈ tb.services ∧ v.number = n :=
  ⟨List.mem_of_find?_eq_some h, by simpa using List.find?_some h⟩

theorem Tb.find_none {tb : Tb} {n : Nat} (h : tb.find n = none) : ∀ v ∈ tb.services, v.number ≠ n := by
  simpa [Tb.find] using h

theorem Tb.feeder_some {tb : Tb} {n : Nat} {f : Feeder} (h : tb.feeder n = some f) :
    f ∈ tb.feeders ∧ f.node = n :=
  ⟨List.mem_of_find?_eq_some h, by simpa using List.find?_some h⟩

theorem Tb.feeder_none {tb : Tb} {n : Nat} (h : tb.feeder n = none) : ∀ f ∈ tb.feeders, f.node ≠ n := by
  simpa [Tb.feeder] using h

/-- Looking a number up in a service table with one entry put. -/
theorem find_putService (v : Service) (n : Nat) : ∀ l : List Service,
    (putService v l).find? (fun w => w.number == n) =
      if v.number = n then some v else l.find? fun w => w.number == n
  | [] => by by_cases h : v.number = n <;> simp [putService, h]
  | w :: rest => by
    have ih := find_putService v n rest
    by_cases hw : w.number = v.number
    · by_cases h : v.number = n
      · simp [putService, hw, h]
      · have : ¬ w.number = n := fun e => h (hw ▸ e)
        simp [putService, hw, h]
    · by_cases h : w.number = n
      · have : ¬ v.number = n := fun e => hw (h.trans e.symm)
        have h' : (w.number == n) = true := by simpa using h
        simp only [putService, if_neg hw, List.find?, h', if_neg this]
      · have h' : (w.number == n) = false := by simpa using h
        simp only [putService, if_neg hw, List.find?, h']
        exact ih

/-- Looking a number up in a service table with one number taken out. -/
theorem find_without (m n : Nat) (l : List Service) :
    (l.filter fun w => w.number ≠ m).find? (fun w => w.number == n) =
      if m = n then none else l.find? fun w => w.number == n := by
  induction l with
  | nil => simp
  | cons w rest ih =>
    by_cases hw : w.number = m
    · by_cases h : m = n
      · simp [h]
      · have hn : (w.number == n) = false := by simpa [hw] using h
        have hf : (w :: rest).filter (fun w => decide (w.number ≠ m)) =
            rest.filter fun w => decide (w.number ≠ m) := by simp [hw]
        rw [hf, ih]
        simp only [List.find?, hn]
    · by_cases hn : w.number = n
      · have : ¬ m = n := fun e => hw (hn.trans e.symm)
        simp [hn, this, Ne.symm this]
      · simpa [List.filter_cons, hw, hn] using ih

/-- A new number joins the end of the service table. -/
theorem putService_new (v : Service) : ∀ l : List Service, (∀ w ∈ l, w.number ≠ v.number) →
    putService v l = l ++ [v]
  | [], _ => rfl
  | w :: rest, h => by
    simp only [List.mem_cons, forall_eq_or_imp] at h
    simp [putService, h.1, putService_new v rest h.2]

theorem latestOf_mem (m : Option Nat) : ∀ (l : List Service) (v : Service), latestOf m l = some v → v ∈ l
  | [], v, h => by simp [latestOf] at h
  | w :: rest, v, h => by
    simp only [latestOf] at h
    cases hx : latestOf m rest with
    | none => rw [hx] at h; injection h with h; simp [h]
    | some x =>
      rw [hx] at h
      by_cases hl : laterThan (x.key m) x.number (w.key m) w.number = true
      · simp only [hl, if_true] at h
        injection h with h; subst h
        exact List.mem_cons_of_mem _ (latestOf_mem m rest _ hx)
      · simp only [hl] at h
        injection h with h; simp [h]

theorem writeCells_length : ∀ (at_ : List Nat) (cells stops : List StopCell),
    (writeCells cells at_ stops).length = cells.length
  | [], _, [] => rfl
  | [], _, _ :: _ => rfl
  | _ :: _, _, [] => rfl
  | c :: cs, cells, x :: xs => by simp [writeCells, writeCells_length cs (cells.set c x) xs]

/-! ### The FIFO drain and the transmit queue -/

/-- The drain loses no byte, claims no more than the FREE slots, and stops only where a slot is wanted and none
is FREE. -/
theorem drainBytes_spec : ∀ (fifo stored : List Byte) (free : Nat),
    (drainBytes free stored fifo).1 ++ (drainBytes free stored fifo).2 = stored ++ fifo ∧
    slotsFor (drainBytes free stored fifo).1.length ≤ slotsFor stored.length + free ∧
    ((drainBytes free stored fifo).2 ≠ [] → (drainBytes free stored fifo).1.length % 64 = 0 ∧
      slotsFor (drainBytes free stored fifo).1.length = slotsFor stored.length + free)
  | [], stored, free => by simp [drainBytes]
  | b :: rest, stored, free => by
    by_cases hm : stored.length % 64 = 0
    · cases free with
      | zero => simp [drainBytes, hm]
      | succ free' =>
        obtain ⟨h1, h2, h3⟩ := drainBytes_spec rest (stored ++ [b]) free'
        simp only [drainBytes, if_pos hm]
        refine ⟨by rw [h1]; simp, ?_, fun h => ⟨(h3 h).1, ?_⟩⟩
        · refine Nat.le_trans h2 ?_
          simp only [slotsFor, List.length_append, List.length_singleton]; omega
        · rw [(h3 h).2]
          simp only [slotsFor, List.length_append, List.length_singleton]; omega
    · obtain ⟨h1, h2, h3⟩ := drainBytes_spec rest (stored ++ [b]) free
      simp only [drainBytes, if_neg hm]
      refine ⟨by rw [h1]; simp, ?_, fun h => ⟨(h3 h).1, ?_⟩⟩
      · refine Nat.le_trans h2 ?_
        simp only [slotsFor, List.length_append, List.length_singleton]; omega
      · rw [(h3 h).2]
        simp only [slotsFor, List.length_append, List.length_singleton]; omega

/-- A placed notice leaves the kind at the front of the queue. -/
theorem placeNotice_head (m n : BoardNotice) (rest : List BoardNotice) :
    ∃ m' rest', placeNotice (m :: rest) n = m' :: rest' ∧ m'.kind = m.kind := by
  simp only [placeNotice]
  split
  · cases n <;> simp [List.map] <;> split <;> simp_all
  · simp

/-- A placed notice leaves the kinds of the queue distinct. -/
theorem placeNotice_nodup (q : List BoardNotice) (n : BoardNotice) (h : (q.map BoardNotice.kind).Nodup) :
    ((placeNotice q n).map BoardNotice.kind).Nodup := by
  simp only [placeNotice]
  split
  · have e : ((q.map fun m => if m.kind == n.kind then n else m).map BoardNotice.kind) =
        q.map BoardNotice.kind := by
      rw [List.map_map]; apply List.map_congr_left; intro m _; simp; split <;> simp_all
    cases n <;> simp only
    · rw [e]; exact h
    · exact h
    · rw [e]; exact h
  · rename_i hn
    simp only [List.any_eq_true, beq_iff_eq, not_exists, not_and] at hn
    rw [List.map_append, List.nodup_append]
    refine ⟨h, by simp, ?_⟩
    intro a ha b hb
    simp only [List.map_cons, List.map_nil, List.mem_singleton] at hb
    obtain ⟨m, hm, rfl⟩ := List.mem_map.1 ha
    rw [hb]; exact hn m hm

/-- An offer of a STATUS leaves a transmitter that is not IDLE. -/
theorem State.offerStatus_transmitter (s : State) (keep : BitVec 19) (h : s.lc.transmitter.state ≠ .idle) :
    (s.offerStatus keep).lc.transmitter = s.lc.transmitter := by
  simp only [State.offerStatus, State.offer]
  (repeat' split) <;> simp [State.takeNotice, h]

/-! ### Report kinds as bits, and the STATUS offered -/

theorem ReportKind.number_lt (k : ReportKind) : k.number < 19 := by cases k <;> decide

theorem ReportKind.number_inj {j k : ReportKind} (h : j.number = k.number) : j = k := by
  cases j <;> cases k <;> first | rfl | exact absurd h (by decide)

/-- Every bit number of a field of kinds is the number of a kind. -/
theorem ReportKind.exists_number : ∀ n, n < 19 → ∃ k : ReportKind, k.number = n := by
  have all : ∀ n : Fin 19, ∃ k ∈ [ReportKind.lineCrc, .intakeOverflow, .txGiveup, .txLate, .lineStuck, .seqGap,
      .sweepSpoiled, .tableFull, .poolCut, .nameMiss, .orphan, .feederFull, .agreeDiverged, .segmentClash,
      .attentionLost, .clockStale, .profileDefault, .fontFallback, .restarted], k.number = n.val := by decide
  intro n h
  obtain ⟨k, _, e⟩ := all ⟨n, h⟩
  exact ⟨k, e⟩

/-- Two fields of kinds are equal where they agree on every kind. -/
theorem kindBit_ext {p q : BitVec 19} (h : ∀ k, kindBit p k = kindBit q k) : p = q := by
  apply BitVec.eq_of_getLsbD_eq
  intro i hi
  obtain ⟨k, rfl⟩ := ReportKind.exists_number i hi
  exact h k

@[simp] theorem kindBit_zero (k : ReportKind) : kindBit 0#19 k = false := by simp [kindBit]

@[simp] theorem kindBit_or (p q : BitVec 19) (k : ReportKind) :
    kindBit (p ||| q) k = (kindBit p k || kindBit q k) := by simp [kindBit]

@[simp] theorem kindBit_and (p q : BitVec 19) (k : ReportKind) :
    kindBit (p &&& q) k = (kindBit p k && kindBit q k) := by simp [kindBit]

@[simp] theorem kindBit_not (p : BitVec 19) (k : ReportKind) : kindBit (~~~ p) k = !kindBit p k := by
  simp [kindBit, k.number_lt]

@[simp] theorem kindBit_bit (j k : ReportKind) : kindBit j.bit k = decide (k = j) := by
  cases j <;> cases k <;> rfl

/-- The kinds bound to an interval are those that its index names. -/
@[simp] theorem kindBit_boundTo (p : Profile) (i : Nat) (k : ReportKind) :
    kindBit (p.boundTo i) k = decide (p.intervalOf k = i) := by
  have fold : ∀ (l : List Nat) (bits : BitVec 19) (n : Nat), n < 19 →
      (l.foldl (fun bits k => if p.intervals.getD k 0 = i then bits ||| (1#19 <<< k) else bits) bits).getLsbD n =
        (bits.getLsbD n || decide (n ∈ l ∧ p.intervals.getD n 0 = i)) := by
    intro l
    induction l with
    | nil => simp
    | cons m rest ih =>
      intro bits n hn
      rw [List.foldl, ih _ n hn]
      by_cases hm : p.intervals.getD m 0 = i
      · rw [if_pos hm]
        by_cases e : n = m
        · subst e
          simp only [BitVec.getLsbD_or, BitVec.getLsbD_shiftLeft, hn, List.mem_cons, true_or, true_and, hm]
          simp
        · have : (1#19 <<< m).getLsbD n = false := by
            simp only [BitVec.getLsbD_shiftLeft, hn, decide_true, Bool.true_and, BitVec.getLsbD_one]
            by_cases h : n < m
            · simp [h]
            · simp; omega
          simp [this, e]
      · rw [if_neg hm]
        by_cases e : n = m
        · subst e; simp only [hm, and_false, decide_false]
        · simp [e]
  simp only [kindBit, Profile.boundTo, Profile.intervalOf]
  rw [fold _ _ _ k.number_lt]
  simp [k.number_lt]

/-- An expiry of an interval offers no STATUS exactly where every pending kind bound to it is masked (R181). -/
theorem noneDue_iff (s : State) (i : Nat) :
    s.ru.pending &&& s.prof.boundTo i &&& ~~~ s.prof.masks = 0 ↔
      ∀ k, s.prof.intervalOf k = i → kindBit s.ru.pending k = true → kindBit s.prof.masks k = true := by
  constructor
  · intro h k hk hp
    have := congrArg (fun p => kindBit p k) h
    simpa [hk, hp] using this
  · intro h
    apply kindBit_ext
    intro k
    have := h k
    by_cases hk : s.prof.intervalOf k = i <;> cases hp : kindBit s.ru.pending k <;> simp_all

/-- A STATUS offered where the transmitter holds a notice stands in the queue (R31, R183). -/
theorem State.offerStatus_busy (s : State) (keep : BitVec 19) (may : s.maySend = true)
    (busy : s.lc.transmitter.state ≠ .idle) :
    s.offerStatus keep = { s with
      lc := { s.lc with queue := placeNotice s.lc.queue (.status s.prof.segmentIndex s.statusReport) }
      ru := { s.ru with listed := s.ru.pending ||| s.ru.listed, pending := s.ru.pending &&& keep } } := by
  have m : (s.setRu { s.ru with listed := s.ru.pendingField, pending := s.ru.pending &&& keep }).maySend = true :=
    may
  simp only [State.offerStatus, State.offer, if_pos may, if_pos m, State.takeNotice]
  exact if_neg fun h => busy h.1

/-- A STATUS offered to an IDLE transmitter with an empty queue is taken (R32, R183). -/
theorem State.offerStatus_taken (s : State) (keep : BitVec 19) (may : s.maySend = true)
    (idle : s.lc.transmitter.state = .idle) (empty : s.lc.queue = []) :
    s.offerStatus keep = { s with
      lc := { s.lc with transmitter := ⟨.wait, some (.status s.prof.segmentIndex s.statusReport), 0, 0, [], false⟩ }
      ru := { s.ru with listed := 0, pending := s.ru.pending &&& keep } } := by
  have m : (s.setRu { s.ru with listed := s.ru.pendingField, pending := s.ru.pending &&& keep }).maySend = true :=
    may
  have m' : ((s.setRu { s.ru with listed := s.ru.pendingField, pending := s.ru.pending &&& keep }).setLc
      { s.lc with queue := [.status s.prof.segmentIndex s.statusReport] }).maySend = true := may
  simp only [State.offerStatus, State.offer, if_pos may, if_pos m]
  simp only [State.takeNotice, State.setLc, State.setRu, idle, empty, placeNotice, List.any_nil, true_and] at *
  simp [m', BoardNotice.kind]

/-- What stands in the queue after a STATUS is placed. -/
theorem mem_placeNotice_status (q : List BoardNotice) (segment : Nat) (r : StatusReport) :
    BoardNotice.status segment r ∈ placeNotice q (.status segment r) := by
  simp only [placeNotice]
  split
  · rename_i h
    obtain ⟨m, hm, hk⟩ := List.any_eq_true.1 h
    exact List.mem_map.2 ⟨m, hm, by simp [hk]⟩
  · simp

/-! ### Report events -/

/-- One event is counted (R179). -/
theorem State.raise_reported (s : State) (k : ReportKind) : Reported s (s.raise k) [k] := by
  refine ⟨?_, by simp, by simp, fun h => nomatch h⟩
  simp [State.raise, State.raiseAll, countsAfter, State.count, State.flag]

/-- A report event touches the transmit queue, the transmitter and the Report Unit alone. -/
theorem State.raise_only (s : State) (k : ReportKind) : s.raise k =
    { s with
      lc := { s.lc with queue := (s.raise k).lc.queue, transmitter := (s.raise k).lc.transmitter }
      ru := (s.raise k).ru } := by
  have f := State.raise_frame s k
  generalize s.raise k = t at *
  obtain ⟨sc, ⟨receiver, fifo, ring, queue, transmitter, watch⟩, tb, co, au, pa, bu, ru, pending, free⟩ := t
  obtain ⟨rfl, rfl, rfl, rfl, rfl, rfl, rfl, rfl, rfl, rfl, -, -, rfl, rfl⟩ := f
  rfl

/-- Events counted after one another are counted in that order. -/
theorem Reported.append {s t u : State} {a b : List ReportKind} (h : Reported s t a)
    (g : Reported t u b) : Reported s u (a ++ b) := by
  obtain ⟨h1, h2, h3, h4⟩ := h
  obtain ⟨g1, g2, g3, g4⟩ := g
  refine ⟨by rw [g1, h1]; simp [countsAfter, List.foldl_append], g2.trans h2, g3.trans h3, fun e => ?_⟩
  obtain ⟨ha, hb⟩ := List.append_eq_nil_iff.1 e
  obtain ⟨x1, x2, x3⟩ := h4 ha
  obtain ⟨y1, y2, y3⟩ := g4 hb
  exact ⟨y1.trans x1, y2.trans x2, y3.trans x3⟩

/-! ### The line: bits taken one by one and the watch -/

/-- What `tally` does: the watch stands, with LINE_STUCK for a busy period at its limit. -/
theorem State.tally_stands (s : State) (w : Watch) : WatchStands s (s.tally w) w := by
  unfold WatchStands State.tally
  refine ⟨fun h r => if_pos ⟨h, r⟩, fun h => if_neg ?_⟩
  rintro ⟨h1, h2⟩
  simp_all [stuckBits]

/-- One bit in DISCARD or HUNT: the receiver takes it, and the watch counts it. -/
theorem State.sampleBit_stands (s : State) (b : Bool)
    (h : s.lc.receiver.state = .discard ∨ s.lc.receiver.state = .hunt) :
    (s.sampleBit b).lc.receiver = s.lc.receiver.sample b ∧
    WatchStands { s with lc := { s.lc with receiver := s.lc.receiver.sample b } } (s.sampleBit b)
      ((s.lc.watch.count b).settle (s.lc.receiver.sample b).state.inFrame) := by
  simp only [State.sampleBit, if_pos h]
  exact ⟨by simp, State.tally_stands _ _⟩

@[simp] theorem State.sampleBits_nil (s : State) : s.sampleBits [] = s := rfl

@[simp] theorem State.sampleBits_cons (s : State) (b : Bool) (rest : List Bool) :
    s.sampleBits (b :: rest) = (s.sampleBit b).sampleBits rest := rfl

/-- Bits taken in two parts act as the bits in a row. -/
theorem State.sampleBits_append (s : State) (a b : List Bool) :
    s.sampleBits (a ++ b) = (s.sampleBits a).sampleBits b := List.foldl_append

/-- Outside DISCARD and HUNT no bit is taken. -/
theorem State.sampleBits_elsewhere (s : State) (discard : s.lc.receiver.state ≠ .discard)
    (hunt : s.lc.receiver.state ≠ .hunt) (bits : List Bool) : s.sampleBits bits = s := by
  induction bits with
  | nil => rfl
  | cons b rest ih =>
    rw [State.sampleBits_cons, State.sampleBit, if_neg (by simp [discard, hunt]), ih]

/-- Taking a bit, what the receiver becomes depends on the receiver alone. -/
theorem State.sampleBit_receiver (s : State) (b : Bool) : (s.sampleBit b).lc.receiver =
    if s.lc.receiver.state = .discard ∨ s.lc.receiver.state = .hunt then s.lc.receiver.sample b
    else s.lc.receiver := by
  simp only [State.sampleBit]
  split <;> simp

/-- Where the watch comes to stand, a period at its limit is reported, and nothing else. -/
theorem WatchStands.reports {s t : State} {r : Receiver} {w : Watch}
    (h : WatchStands { s with lc := { s.lc with receiver := r } } t w) :
    Reported s t (List.replicate (if w.busyBits = 5000 ∧ w.reported = false then 1 else 0) .lineStuck) ∧
    t = { s with
      lc := { s.lc with
        receiver := t.lc.receiver, watch := t.lc.watch
        queue := t.lc.queue, transmitter := t.lc.transmitter }
      ru := t.ru } := by
  by_cases c : w.busyBits = 5000 ∧ w.reported = false
  · have counted := State.raise_reported
      { s with lc := { s.lc with receiver := r, watch := { w with reported := true } } } .lineStuck
    have only := State.raise_only
      { s with lc := { s.lc with receiver := r, watch := { w with reported := true } } } .lineStuck
    rw [← h.1 c.1 c.2] at counted only
    rw [if_pos c]
    exact ⟨⟨counted.1, counted.2.1, counted.2.2.1, fun e => nomatch e⟩, by rw [only]⟩
  · rw [h.2 (by simp at c; by_cases e : w.busyBits = 5000 <;> simp_all), if_neg c]
    exact ⟨⟨rfl, rfl, rfl, fun _ => ⟨rfl, rfl, rfl⟩⟩, rfl⟩

/-- Bit times of a busy period that is not reported yet. -/
def Watch.unreported (w : Watch) : Nat := if w.reported then 0 else w.busyBits

/-- A bit time adds one at most, and a report takes the 5000 of its period. -/
theorem Watch.unreported_count (w : Watch) (b inFrame : Bool) :
    let v := (w.count b).settle inFrame
    5000 * (if v.busyBits = 5000 ∧ v.reported = false then 1 else 0) +
      Watch.unreported { v with reported := v.reported || decide (v.busyBits = stuckBits) } ≤
      w.unreported + 1 := by
  obtain ⟨idleRun, busyBits, reported, ahead⟩ := w
  dsimp only [Watch.settle]
  split
  · simp [Watch.unreported, stuckBits]
  · cases reported
    · simp [Watch.unreported, Watch.count, stuckBits]
      split <;> omega
    · simp [Watch.unreported, Watch.count]

/-- A bit taken reports one period at most, and only at its limit. -/
theorem State.sampleBit_reports (s : State) (b : Bool) : ∃ n,
    5000 * n + (s.sampleBit b).lc.watch.unreported ≤ s.lc.watch.unreported + 1 ∧
    Reported s (s.sampleBit b) (List.replicate n .lineStuck) ∧
    s.sampleBit b = { s with
      lc := { s.lc with
        receiver := (s.sampleBit b).lc.receiver, watch := (s.sampleBit b).lc.watch
        queue := (s.sampleBit b).lc.queue, transmitter := (s.sampleBit b).lc.transmitter }
      ru := (s.sampleBit b).ru } := by
  by_cases h : s.lc.receiver.state = .discard ∨ s.lc.receiver.state = .hunt
  · obtain ⟨reported, only⟩ := (State.sampleBit_stands s b h).2.reports
    refine ⟨_, ?_, reported, only⟩
    simp only [State.sampleBit, if_pos h, State.tally_watch]
    exact Watch.unreported_count _ _ _
  · have stay : s.sampleBit b = s := if_neg h
    rw [stay]
    exact ⟨0, by omega, ⟨rfl, rfl, rfl, fun _ => ⟨rfl, rfl, rfl⟩⟩, rfl⟩

theorem State.sampleBits_reports (bits : List Bool) : ∀ s : State, ∃ n,
    5000 * n + (s.sampleBits bits).lc.watch.unreported ≤ s.lc.watch.unreported + bits.length ∧
    Reported s (s.sampleBits bits) (List.replicate n .lineStuck) ∧
    s.sampleBits bits = { s with
      lc := { s.lc with
        receiver := (s.sampleBits bits).lc.receiver, watch := (s.sampleBits bits).lc.watch
        queue := (s.sampleBits bits).lc.queue, transmitter := (s.sampleBits bits).lc.transmitter }
      ru := (s.sampleBits bits).ru } := by
  induction bits with
  | nil => exact fun s => ⟨0, by simp, ⟨rfl, rfl, rfl, fun _ => ⟨rfl, rfl, rfl⟩⟩, rfl⟩
  | cons b rest ih =>
    intro s
    obtain ⟨m, mb, mr, mo⟩ := State.sampleBit_reports s b
    obtain ⟨n, nb, nr, no⟩ := ih (s.sampleBit b)
    refine ⟨m + n, ?_, ?_, ?_⟩
    · simp only [State.sampleBits_cons, List.length_cons]; omega
    · rw [← List.replicate_append_replicate]; exact mr.append nr
    · rw [State.sampleBits_cons, no, mo]

theorem State.sampleBits_receiverOnly (s : State) (bits : List Bool) :
    ReceiverOnly s (s.sampleBits bits) bits.length := by
  obtain ⟨n, bound, reported, only⟩ := State.sampleBits_reports bits s
  refine ⟨n, ?_, reported, only⟩
  have : s.lc.watch.unreported ≤ s.lc.watch.busyBits := by unfold Watch.unreported; split <;> omega
  omega

theorem Watch.follow_append (w : Watch) (a b : List Bool) : w.follow (a ++ b) = (w.follow a).follow b := by
  simp [Watch.follow, List.foldl_append]

/-- Bits of a frame followed: the run is held up to 64, the busy period grows by their number up to 5000, and
the report stands. -/
theorem Watch.follow_counts (bits : List Bool) : ∀ w : Watch, bits ≠ [] →
    (w.follow bits).idleRun ≤ 64 ∧ (w.follow bits).busyBits = min 5000 (w.busyBits + bits.length) ∧
      (w.follow bits).reported = w.reported := by
  induction bits with
  | nil => intro w h; exact absurd rfl h
  | cons b rest ih =>
    intro w _
    by_cases hr : rest = []
    · subst hr
      refine ⟨?_, rfl, rfl⟩
      simp only [Watch.follow, List.foldl, Watch.count, idleBits]
      split <;> omega
    · obtain ⟨h1, h2, h3⟩ := ih (w.count b) hr
      refine ⟨h1, h2.trans ?_, h3⟩
      simp only [Watch.count, stuckBits, List.length_cons]; omega

/-- A run of 1 bits adds to the run before it, up to 64. -/
theorem Watch.follow_ones (n : Nat) : ∀ w : Watch, 0 < n →
    (w.follow (List.replicate n true)).idleRun = min 64 (w.idleRun + n) := by
  induction n with
  | zero => intro w h; exact absurd h (by decide)
  | succ n ih =>
    intro w _
    have step : w.follow (List.replicate (n + 1) true) =
        (w.count true).follow (List.replicate n true) := rfl
    rw [step]
    by_cases hn : n = 0
    · subst hn; rfl
    · rw [ih _ (by omega)]; simp only [Watch.count, idleBits, if_true]; omega

/-- How many bits were counted ahead plays no part in what the watch counts. -/
theorem Watch.follow_ahead (bits : List Bool) : ∀ (w : Watch) (n : Nat),
    ({ w with ahead := n } : Watch).follow bits = { w.follow bits with ahead := n } := by
  induction bits with
  | nil => exact fun w n => rfl
  | cons b rest ih => exact fun w n => ih (w.count b) n

/-- Nor does the report of the period. -/
theorem Watch.follow_reported (bits : List Bool) : ∀ (w : Watch) (r : Bool),
    ({ w with reported := r } : Watch).follow bits = { w.follow bits with reported := r } := by
  induction bits with
  | nil => exact fun w r => rfl
  | cons b rest ih => exact fun w r => ih (w.count b) r

/-- The report stands over bits of a frame, and a period at its limit stays there. -/
theorem Watch.follow_keeps (bits : List Bool) : ∀ w : Watch,
    (w.follow bits).reported = w.reported ∧ (w.busyBits = 5000 → (w.follow bits).busyBits = 5000) := by
  induction bits with
  | nil => exact fun w => ⟨rfl, id⟩
  | cons b rest ih =>
    intro w
    obtain ⟨reported, limit⟩ := ih (w.count b)
    exact ⟨reported, fun h => limit (by simp [Watch.count, stuckBits, h])⟩

theorem State.tally_counts (s : State) (w : Watch) : (s.tally w).ru.counts =
    if w.busyBits = 5000 ∧ w.reported = false then countsAfter s.ru.counts [.lineStuck] else s.ru.counts := by
  rw [((State.tally_stands s w).reports (r := s.lc.receiver)).1.1]
  split <;> rfl

/-- Bits counted ahead of their command are counted once: that command counts the rest, and the period is reported
as if it had counted them all. -/
theorem State.watchAhead_watchBits (s : State) (unit : List Bool) (n : Nat)
    (short : s.lc.watch.ahead + n < unit.length) (whole : s.lc.receiver.unitBits = unit.length) :
    let t := s.watchAhead ((unit.drop s.lc.watch.ahead).take n)
    (t.watchBits unit).lc.watch = (s.watchBits unit).lc.watch ∧
      (t.watchBits unit).ru.counts = (s.watchBits unit).ru.counts := by
  have counted : ((unit.drop s.lc.watch.ahead).take n).length = n := by simp; omega
  have fits : ((unit.drop s.lc.watch.ahead).take n).take (s.lc.receiver.unitBits - 1 - s.lc.watch.ahead) =
      (unit.drop s.lc.watch.ahead).take n := List.take_of_length_le (by omega)
  have rest : unit.drop (s.lc.watch.ahead + n) = (unit.drop s.lc.watch.ahead).drop n := by
    rw [List.drop_drop]
  simp only [State.watchAhead, State.watchBits, fits, State.tally_counts, State.tally_watch, counted, rest]
  generalize unit.drop s.lc.watch.ahead = left at *
  have inOne : ({ s.lc.watch with ahead := 0 } : Watch).follow left =
      { (s.lc.watch.follow (left.take n)).follow (left.drop n) with ahead := 0 } := by
    rw [← Watch.follow_append, List.take_append_drop]; exact Watch.follow_ahead left s.lc.watch 0
  simp only [inOne]
  generalize s.lc.watch.follow (left.take n) = w at *
  obtain ⟨report, limit⟩ := Watch.follow_keeps (left.drop n) w
  have inTwo : ∀ r : Bool, ({ w with reported := r, ahead := 0 } : Watch).follow (left.drop n) =
      { w.follow (left.drop n) with reported := r, ahead := 0 } := by
    intro r
    have h := Watch.follow_ahead (left.drop n) ({ w with reported := r } : Watch) 0
    rw [Watch.follow_reported (left.drop n) w r] at h
    exact h
  simp only [inTwo, stuckBits]
  by_cases reached : w.busyBits = 5000
  · cases h : w.reported <;> rw [h] at report <;> simp [reached, limit reached, report]
  · simp [reached, report]; rfl

/-! ### Headers -/

/-- A header passes exactly with a kind, a sender, a group and a length in their ranges. -/
theorem Header.examine_iff (h : Header) (k : NoticeKind) : h.examine = some k ↔
    noticeKind h.kind = some k ∧ (1 ≤ h.sender.toNat ∧ h.sender.toNat ≤ 62) ∧
      k.groupOk h.group.toNat = true ∧ k.lengthOk h.length.toNat = true := by
  unfold Header.examine
  cases hk : noticeKind h.kind with
  | none => simp
  | some k' =>
    dsimp only
    constructor
    · intro e
      split at e
      · rename_i hc
        injection e with e
        simp only [Bool.and_eq_true, decide_eq_true_eq] at hc
        exact e ▸ ⟨rfl, hc.1.1, hc.1.2, hc.2⟩
      · exact nomatch e
    · rintro ⟨e, h1, h2, h3⟩
      injection e with e
      subst e
      simp [h1, h2, h3]

/-! ### The lists and groups of the Banner Unit -/

@[simp] theorem Bu.setList_frame (bu : Bu) (g : Group) (l : List Attention) :
    (bu.setList g l).line = bu.line ∧ (bu.setList g l).banner = bu.banner ∧
      (bu.setList g l).slots = bu.slots ∧ ∀ h, (bu.setList g l).group h = bu.group h := by
  cases g <;> exact ⟨rfl, rfl, rfl, fun h => by cases h <;> rfl⟩

@[simp] theorem Bu.setGroup_frame (bu : Bu) (g : Group) (x : GroupState) :
    (bu.setGroup g x).line = bu.line ∧ (bu.setGroup g x).banner = bu.banner ∧
      (bu.setGroup g x).slots = bu.slots ∧ (bu.setGroup g x).listA = bu.listA ∧
      (bu.setGroup g x).listB = bu.listB ∧ (bu.setGroup g x).listC = bu.listC := by
  cases g <;> exact ⟨rfl, rfl, rfl, rfl, rfl, rfl⟩

theorem Bu.setGroup_group (bu : Bu) (g h : Group) (x : GroupState) :
    (bu.setGroup g x).group h = if h = g then x else bu.group h := by
  cases g <;> cases h <;> rfl

end Sys2Proof.Machine
end

