-- ==== Sys2Proof/WellFormed.lean ====
section
/-! DEFINITION. Which commands name something the part has. An ill-formed command names an object the
spec does not give the part (a service number 0, a segment index 8, an interval 3); it changes nothing
(log entry 2). -/

namespace Sys2Proof

/-- Bits of the longest frame (R2). -/
def longestFrameBits : Nat := 1994

/-- The operands of a command lie in the ranges the spec gives. -/
def Instr.wellFormed : Instr → Bool
  | .startMark bits | .discardEnd bits => decide (0 < bits.length)
  | .collision bit => decide (bit < longestFrameBits)
  | .refreshTimerExpiry service => decide (1 ≤ service ∧ service ≤ 65535)
  | .feederLifetimeExpiry node => decide (1 ≤ node ∧ node ≤ 62)
  | .sweepLimitExpiry node => decide (1 ≤ node ∧ node ≤ 62)
  | .peerLifetimeExpiry index => decide (index < 8)
  | .intervalTimerExpiry index => decide (index < 3)
  | .coldReset | .resetRelease _ _ | .glyphReadComplete _ | .glyphReadTimeout | .listenTimerExpiry
  | .frameHeader _ _ _ _ _ | .receiveByte _ | .frameEnd _ | .chainComplete | .busyPeriodLimit _
  | .txAttemptStart | .txSuccess | .jamEnd | .backoffEnd | .nameApply | .serviceApply | .amendApply
  | .withdrawApply | .sweepOpen | .sweepClose | .clock | .headerOnlyApply | .refreshTableWork
  | .feederLifetimeTableWork | .sweepLimitTableWork | .secondTimerExpiry | .tickTableWork
  | .windowRelease | .composeComplete | .digestNotice | .paceNotice | .statusNotice
  | .agreementTimerExpiry | .paceTick | .beaconTimerExpiry | .frameEvent | .frameComplete | .dim
  | .staffNotice | .query | .restart => true

end Sys2Proof
end

