-- ==== Sys2Proof/Tests/Slice0.lean ====
section
/-! SUPPORT. Tests of the model on small states: the spec's own examples, one step of every command, and for
every statement that has hypotheses a state that meets them. -/

open Sys2Proof Sys2Proof.Machine

namespace Sys2Proof.Tests

/-! ### Small states -/

/-- Something of the next state. -/
def after {α : Type} (o : Host.Outcome State Fault Refusal) (f : State → α) : Option α :=
  match o with
  | .next t => some (f t)
  | .fault _ => none
  | .refused _ => none

/-- The part as node 5 of group 1 in a node state after LOAD, on an idle line, its Painter WAITING. -/
def started (node : NodeState) : State where
  sc := ⟨node, 5, true, some defaultProfile, some .read, some .read, none, [], [],
    decide (node = .listen)⟩
  lc := ⟨⟨.hunt, ⟨0, 0, 0, 0, 0⟩, 0, 0, 0, .fresh⟩, [], .reset, [], .reset, ⟨64, 0, false, 0⟩⟩
  tb := .reset
  co := .reset
  au := { Au.reset with paceTimer := true, beaconTimer := decide (node = .run) }
  pa := { Pa.reset with
    geometry := some defaultGeometry, fontHeight := some 7, glyphs := fallbackGlyphs
    layout := some (layoutOf fallbackGlyphs), palette := defaultPalette, classMap := defaultClassMap
    brightness := some 12, paint := .waiting, frameTimer := true }
  bu := .reset
  ru := .reset
  pending := []
  freeCounter := 0

def running : State := started .run

/-- In LOAD with a read in flight. -/
def loading (position : Nat) (profileBytes fontBytes : List Byte) (profile : Option Profile) : State :=
  State.reset.setSc
    ⟨.load, 5, true, profile, profile.map fun _ => .read, none, some position, profileBytes, fontBytes,
      false⟩

/-- The state with a receiver in a state, with body bytes still to come. -/
def receiving (s : State) (x : ReceiverState) (remaining : Nat) : State :=
  s.setReceiver { s.lc.receiver with state := x, remaining := remaining }

/-- The state with a chain FILLING. -/
def filling (s : State) (passed : Bool) (bytes fifo : List Byte) : State :=
  s.setLc { s.lc with ring := { s.lc.ring with filling := some ⟨false, passed, bytes⟩ }, fifo := fifo }

/-- A whole chain of a notice. -/
def chainOf (kind sender group sequence : Byte) (body : List Byte) : Chain :=
  ⟨false, [kind, sender, group, sequence, BitVec.ofNat 8 body.length] ++ body⟩

/-- The state with a chain IN-WORK. -/
def holding (s : State) (c : Chain) : State :=
  s.setLc { s.lc with ring := { s.lc.ring with inWork := some c } }

/-- The state with the apply of a chain in flight. -/
def applyingOf (s : State) (c : Chain) : State :=
  (holding s c).setTb { s.tb with state := .working .apply }

/-- A ring in which every slot is in use: 24 chains of one slot each, 22 of them of a PACE. -/
def fullRing (s : State) : State :=
  s.setLc { s.lc with ring := ⟨0, none, List.replicate 24 (chainOf 0x42 9 1 0 [1, 0, 0, 0, 0]), none⟩ }

/-- A service as a SERVICE body: number, edition, platform 7, scheduled 14:20, no expected time, ON TIME,
destination name 1, two stops. -/
def serviceBody (number edition platform : Byte) : List Byte :=
  [number, 0, edition, platform, 0, 0x5C, 0x03, 0xFF, 0xFF, 0, 1, 0, 0, 0, 0, 2,
    2, 0, 0xFF, 0xFF, 3, 0, 0xFF, 0xFF]

/-- A stored service with the cells 0 and 1. -/
def stored (number : Nat) (edition : BitVec 8) : Service :=
  ⟨number, edition, 14, ⟨7, .none⟩, 860, none, .onTime, 1, none, none, [0, 1], false, false, .running⟩

/-- The tables with one stored service. -/
def oneService (s : State) (v : Service) : State :=
  s.setTb { s.tb with services := [v], pool := ⟨s.tb.pool.cells, s.tb.pool.free.drop 2⟩ }

/-- The profile of a board of two segments that shows platforms 7 and 8A. -/
def twoSegments : Profile :=
  { defaultProfile with segmentCount := 2, platforms := .members [⟨7, .none⟩, ⟨8, .a⟩] }

/-- The part with another profile in force. -/
def withProfile (s : State) (p : Profile) : State := s.setSc { s.sc with profile := some p }

/-- A composed set of one phrase. -/
def someSet : ComposedSet := ⟨[.phrase noDeparturesText, .blank, .blank], 0x3C17, 4, 3, 128⟩

/-- The tables with feeder entries. -/
def withFeeders (s : State) (l : List Feeder) (stale : List Nat) : State :=
  s.setTb { s.tb with feeders := l, staleOrder := stale }

/-! ### Ill-formed commands, one for each check of WellFormed -/

theorem test_empty_start_mark : (Instr.startMark []).wellFormed = false := by decide
theorem test_empty_discard : (Instr.discardEnd []).wellFormed = false := by decide
theorem test_collision_after_frame : (Instr.collision 1994).wellFormed = false := by decide
theorem test_service_zero : (Instr.refreshTimerExpiry 0).wellFormed = false := by decide
theorem test_service_too_high : (Instr.refreshTimerExpiry 65536).wellFormed = false := by decide
theorem test_feeder_zero : (Instr.feederLifetimeExpiry 0).wellFormed = false := by decide
theorem test_feeder_reserved : (Instr.sweepLimitExpiry 63).wellFormed = false := by decide
theorem test_segment_eight : (Instr.peerLifetimeExpiry 8).wellFormed = false := by decide
theorem test_interval_three : (Instr.intervalTimerExpiry 3).wellFormed = false := by decide
theorem test_boundaries_well_formed :
    [Instr.refreshTimerExpiry 65535, .feederLifetimeExpiry 62, .sweepLimitExpiry 1,
      .peerLifetimeExpiry 7, .intervalTimerExpiry 2, .collision 1993].all Instr.wellFormed = true := by
  decide
theorem test_no_word_spells_a_command : decodeTableWord 8 0x41 = none := by decide

/-! ### Examples of the spec -/

/-- The example of section 1.4. -/
theorem test_crc_of_zero_byte : crcValue [0x00] = 0x1E0F := by decide
theorem test_crc_of_nothing : crcValue [] = 0 := by decide
theorem test_crc_first_bit : crcBit 0xFFFF false = 0xEFDF := by decide

/-- The examples of section 1.8. -/
theorem test_editions :
    [editionNewer 3 250, editionOlder 250 3, editionOlder 130 2, editionOlder 2 130] =
      [true, true, true, true] := by decide
theorem test_edition_boundaries :
    [editionNewer 5 5, editionOlder 5 5, editionNewer 127 0, editionOlder 127 0] =
      [false, false, true, false] := by decide
theorem test_sequence_wraps :
    ((Feeder.fresh 9).noted 255).expectedSequence = some 0 := by decide
theorem test_paces :
    [paceAhead 0x5 0xFFFFFFF0, paceAhead 0x80000000 0, paceAhead 0 0x80000000] =
      [true, false, false] := by decide
theorem test_offsets :
    [minuteOffset 5 1430, minuteOffset 1420 10, minuteOffset 1320 600, minuteOffset 1319 600] =
      [15, -30, -720, 719] := by decide
theorem test_offset_extremes :
    [minuteOffset 0 1439, minuteOffset 1439 0, minuteOffset 0 720, minuteOffset 0 0] =
      [1, -1, -720, 0] := by decide

/-- Rows of the table of section 6.5: B = 256, L = 400, origin 1000. -/
theorem test_marquee :
    [marqueeColumn 256 400 1000 980 0, marqueeColumn 256 400 1000 1001 255,
      marqueeColumn 256 400 1000 1100 128, marqueeColumn 256 400 1000 1144 255,
      marqueeColumn 256 400 1000 1145 255, marqueeColumn 256 400 1000 1399 0,
      marqueeColumn 256 400 1000 1400 255, marqueeColumn 256 400 1000 1401 255,
      marqueeColumn 256 400 1000 1656 128] =
      [some 0, some 256, some 228, some 399, none, some 399, none, some 0, some 128] := by decide

/-- The geometry example of section 7.8. -/
theorem test_geometry_falls_back :
    geometryCheck ⟨128, 32, 0, 127, 2, 4⟩ 8 = (defaultGeometry, true) := by decide
theorem test_geometry_stands : geometryCheck defaultGeometry 7 = (defaultGeometry, false) := by decide
theorem test_geometry_lowered :
    geometryCheck ⟨128, 40, 0, 127, 0, 8⟩ 8 = (⟨128, 40, 0, 127, 0, 3⟩, true) := by decide

/-- The table under R168. -/
theorem test_boundaries :
    [crossesBoundary 6399 6400, crossesBoundary 6400 6401, crossesBoundary 6398 6530,
      crossesBoundary 6401 6460, crossesBoundary 0xFFFFFFFF 0] =
      [true, false, true, false, true] := by decide
theorem test_take_pace : [takePaceOf 6400, takePaceOf 6530, takePaceOf 0] = [6400, 6528, 0] := by decide

/-- The fixed texts, by their codes. -/
theorem test_starting_text :
    startingText = [0x53, 0x74, 0x61, 0x72, 0x74, 0x69, 0x6E, 0x67] := by decide
theorem test_banner_texts_lengths :
    [(defaultText .a).length, (defaultText .b).length, (defaultText .c).length,
      (defaultText .d).length, serviceCancelledText.length] = [27, 34, 25, 31, 25] := by decide
/-- The banner of section 11.1, of 41 codes, and R173 (1). -/
theorem test_banner_of_section_11_1 :
    (bannerText .b ⟨3021, 12, hourMinute 860, codes ['N', 'o', 'r', 'b', 'u', 'r', 'y'], some [0x38],
      .onTime, onTimeText⟩ (.platform ⟨8, .none⟩)).length = 41 := by decide
theorem test_banner_without_destination :
    (bannerText .a ⟨1, 0, hourMinute 850, [], none, .cancelled, cancelledText⟩ .none).take 8 =
      [0x31, 0x34, 0x3A, 0x31, 0x30, 0x20, 0x69, 0x73] := by decide
theorem test_one_minute :
    (bannerText .c ⟨1, 0, [], [], none, .late, []⟩ (.delay 1)).length + 1 =
      (bannerText .c ⟨1, 0, [], [], none, .late, []⟩ (.delay 2)).length := by decide

/-- The stop part of R106 and R107 for one listed stop, with an undefined one skipped. -/
theorem test_one_stop_only :
    (stopPart false (listStops [(2, [0x58])] false false 11 true [⟨2, none⟩, ⟨3, none⟩])).1 =
      callingAtText ++ [0x58] ++ codes [' ', 'o', 'n', 'l', 'y'] := by decide
theorem test_three_stops :
    (stopPart false (listStops [(2, [0x58])] false false 11 true
      [⟨2, none⟩, ⟨2, none⟩, ⟨2, none⟩])).1 =
      callingAtText ++ [0x58, 0x2C, 0x20, 0x58, 0x20, 0x61, 0x6E, 0x64, 0x20, 0x58] := by decide
theorem test_cut_without_stops :
    stopPart true ⟨[], false, false⟩ =
      (callingAtText ++ [0x2E, 0x2E, 0x2E], [0x20]) := by decide
theorem test_coaches : [(coachSentence 1).length, (coachSentence 24).length] = [23, 26] := by decide

/-- The layout widths of a font of width 6 for digits and letters; every code of no width takes 3. -/
theorem test_code_of_no_width : textWidth [] onTimeText = 21 := by decide

/-! ### One step of each command -/

theorem test_cold_reset : after (exec .coldReset running) (fun t => t.sc.node) = some .reset := by decide
theorem test_release_with_memory :
    after (exec (.resetRelease 5 true) State.reset) (fun t => (t.sc.node, t.sc.loadPosition)) =
      some (.load, some 0) := by decide
theorem test_release_without_memory :
    after (exec (.resetRelease 5 false) State.reset) (fun t =>
      (t.sc.node, t.sc.profileSource, t.pa.paint, t.lc.receiver.state)) =
      some (.listen, some .builtIn, .painting, .discard) := by decide
theorem test_profile_timeout :
    after (exec .glyphReadTimeout (loading 63 [] [] none)) (fun t => (t.sc.loadPosition, t.sc.profileSource)) =
      some (some 64, some .builtIn) := by decide
theorem test_font_header_fails :
    after (exec (.glyphReadComplete 0) (loading 67 [] [6, 0x20, 160] (some defaultProfile)))
      (fun t => (t.sc.node, t.sc.fontSource, t.ru.marks.fontFallback)) =
      some (.listen, some .builtIn, true) := by decide
theorem test_listen_ends :
    after (exec .listenTimerExpiry (started .listen)) (fun t => (t.sc.node, t.co.pass, t.tb.state)) =
      some (.run, .reading, .window) := by decide
theorem test_thirty_two_ones :
    after (exec (.discardEnd (false :: List.replicate 32 true)) (receiving running .discard 0))
      (fun t => (t.lc.receiver.state, t.lc.watch.idleRun)) = some (.hunt, 32) := by decide +kernel
theorem test_thirty_one_ones :
    after (exec (.discardEnd (true :: false :: List.replicate 31 true)) (receiving running .discard 0))
      (fun t => (t.lc.receiver.state, t.lc.receiver.ones)) = some (.discard, 31) := by decide +kernel
theorem test_start_mark :
    after (exec (.startMark preambleBits) running) (fun t => (t.lc.receiver.state, t.lc.watch)) =
      some (.header, ⟨2, 17, false, 0⟩) := by decide +kernel

/-- The bits of a text of 0 and 1. -/
def bitsOf (l : List Nat) : List Bool := l.map fun n => decide (n = 1)

/-- A pattern that breaks after 0, 0, 1: the look begins afresh from the 0 that broke it, so the run before the
next 0, 0, 1, 1 is one of 7 and no start mark ends; a run of 9 there ends one. -/
theorem test_broken_start_mark :
    after (exec (.startMark (bitsOf [1, 0, 1, 0, 1, 0, 1, 0, 0, 0, 1, 0, 1, 0, 1, 0, 1, 0, 0, 0, 1, 1]))
      running) (fun t => (t.lc.receiver.state, t.lc.receiver.hunt)) = some (.hunt, ⟨1, true, 0⟩) ∧
    after (exec (.startMark (bitsOf [1, 0, 1, 0, 1, 0, 1, 0, 0, 0, 1, 0, 1, 0, 1, 0, 1, 0, 1, 0, 0, 0, 1, 1]))
      running) (fun t => t.lc.receiver.state) = some .header := by decide +kernel
theorem test_header_stored :
    after (exec (.frameHeader 0x09 12 0 200 1) (receiving running .header 0))
      (fun t => (t.lc.receiver.state, t.lc.ring.filling)) =
      some (.store, some ⟨false, false, [0x09, 12, 0, 200, 1]⟩) := by decide +kernel
theorem test_header_of_other_group :
    after (exec (.frameHeader 0x01 12 2 0 4) (receiving running .header 0))
      (fun t => t.lc.receiver.state) = some .foreign := by decide +kernel
theorem test_header_fails :
    after (exec (.frameHeader 0x09 63 0 0 1) (receiving running .header 0))
      (fun t => (t.lc.receiver.state, t.ru.counts.getD 0 0)) = some (.discard, 1) := by decide +kernel
theorem test_sixty_fifth_byte_waits :
    after (exec (.receiveByte 7) (filling (fullRing (receiving running .store 9)) false
      (List.replicate 64 0) [])) (fun t => (t.lc.fifo, t.lc.receiver.remaining)) = some ([7], 8) := by
  decide
theorem test_frame_passes :
    after (exec (.frameEnd 0xFFFF) (filling (receiving running .store 0) false [0x09, 12, 0, 0, 1, 3] []))
      (fun t => t.lc.ring.filling.map Filling.passed) = some (some true) := by decide
theorem test_chain_completes :
    after (exec .chainComplete (filling running true [0x09, 12, 0, 0, 1, 3] []))
      (fun t => t.lc.ring.inWork) = some (some ⟨false, [0x09, 12, 0, 0, 1, 3]⟩) := by decide
/-- A busy period of some bit times, all at 0. -/
def busyFor (bits : Nat) : State := running.setLc { running.lc with watch := ⟨0, bits, false, 0⟩ }

theorem test_line_stuck :
    after (exec (.busyPeriodLimit [false, false]) (busyFor 4998)) (fun t =>
      (t.ru.counts.getD 4 0, t.lc.watch)) = some (1, ⟨0, 5000, true, 0⟩) ∧
    after (exec (.busyPeriodLimit [false]) (busyFor 4998)) (fun t =>
      (t.ru.counts.getD 4 0, t.lc.watch)) = some (0, ⟨0, 4999, false, 0⟩) := by decide +kernel

/-- In a frame that is skipped, after a busy period of some bit times that ends in 64 of them at 1. -/
def skipping (remaining bits : Nat) : State :=
  (receiving running .skip remaining).setLc
    { (receiving running .skip remaining).lc with watch := ⟨64, bits, false, 0⟩ }

/-- R30: the period reaches its limit inside the check bits, and with the last of them the line is idle again;
one that ends a bit time short of the limit is not reported. -/
theorem test_line_stuck_in_check_bits :
    after (exec (.frameEnd 0xFFFF) (skipping 0 4990)) (fun t => (t.ru.counts.getD 4 0, t.lc.watch)) =
      some (1, ⟨64, 0, false, 0⟩) ∧
    after (exec (.frameEnd 0xFFFF) (skipping 0 4984)) (fun t => (t.ru.counts.getD 4 0, t.lc.watch)) =
      some (0, ⟨64, 0, false, 0⟩) := by decide +kernel
theorem test_line_stuck_in_body_byte :
    after (exec (.receiveByte 0) (skipping 3 4992)) (fun t => (t.ru.counts.getD 4 0, t.lc.watch)) =
      some (1, ⟨0, 5000, true, 0⟩) := by decide +kernel

/-- R30: the period reaches its limit with the third bit of a body byte, and is reported there and then; the rest of
the byte comes with its own command and reports nothing more. -/
theorem test_line_stuck_within_body_byte :
    after (exec (.busyPeriodLimit [false, false, false]) (skipping 3 4997)) (fun t =>
      (t.ru.counts.getD 4 0, t.lc.watch, after (exec (.receiveByte 0) t) (fun u =>
        (u.ru.counts.getD 4 0, u.lc.watch)))) =
      some (1, ⟨0, 5000, true, 3⟩, some (1, ⟨0, 5000, true, 0⟩)) := by decide +kernel
/-- The eight bit times of a body byte are counted once, whether in one command or in two. -/
theorem test_body_byte_counted_once :
    after (exec (.busyPeriodLimit [false, true, true]) (skipping 3 100)) (fun t =>
      after (exec (.receiveByte 0xFE) t) (fun u => u.lc.watch)) = some (some ⟨7, 108, false, 0⟩) := by
  decide +kernel

/-- A transmitter in a state with a PACE. -/
def sending (x : TransmitterState) (attempts : Nat) (late : Bool) : State :=
  running.setTransmitter ⟨x, some (.pace 0), attempts, 0,
    if x = .send then frameBytes (.pace 0) 7 5 1 else [], late⟩

theorem test_attempt :
    after (exec .txAttemptStart (sending .wait 0 false)) (fun t =>
      (t.lc.transmitter.state, t.lc.receiver.state, t.au.sent, t.lc.transmitter.frame.take 6)) =
      some (.send, .suspended, true, [0x42, 5, 1, 0, 5, 0]) := by decide
theorem test_attempt_in_frame :
    after (exec .txAttemptStart (receiving (sending .wait 0 false) .skip 3))
      (fun t => t.lc.transmitter.state) = some .wait := by decide
theorem test_attempt_on_busy_line :
    after (exec .txAttemptStart ((sending .wait 0 false).setLc { (sending .wait 0 false).lc with
      watch := ⟨63, 63, false, 0⟩ })) (fun t => t.lc.transmitter.state) = some .wait := by decide
theorem test_success :
    after (exec .txSuccess (sending .send 1 false)) (fun t =>
      (t.lc.transmitter.state, t.lc.receiver.state, t.lc.watch)) =
      some (.idle, .discard, ⟨0, 114, false, 0⟩) := by decide
theorem test_collision_early :
    after (exec (.collision 26) (sending .send 1 false)) (fun t =>
      (t.lc.transmitter.state, t.lc.transmitter.late)) = some (.jam, false) := by decide
theorem test_collision_late :
    after (exec (.collision 58) (sending .send 1 false)) (fun t => t.lc.transmitter.state) =
      some .send ∧
    after (exec (.collision 66) (sending .send 1 false)) (fun t => t.lc.transmitter.late) =
      some true := by decide
theorem test_late_gives_up :
    after (exec .jamEnd (sending .jam 1 true)) (fun t => (t.lc.transmitter.state, t.ru.counts.getD 3 0)) =
      some (.idle, 1) := by decide
theorem test_tenth_gives_up :
    after (exec .jamEnd (sending .jam 10 false)) (fun t => (t.lc.transmitter.state, t.ru.counts.getD 2 0)) =
      some (.idle, 1) := by decide
theorem test_backoff_ends :
    after (exec .backoffEnd (sending .backoff 3 false)) (fun t => t.lc.transmitter.state) =
      some .wait := by decide

/-! Table works. -/

/-- A NAME of one definition: name 1 is "AB". -/
def nameChain : Chain := chainOf 0x01 14 0 0 [1, 1, 0, 2, 0x41, 0x42]
def serviceChain : Chain := chainOf 0x02 14 0 0 (serviceBody 5 1 7)
/-- An AMEND of service 5, edition 2: platform 8A. -/
def amendChain : Chain := chainOf 0x03 14 0 0 [5, 0, 2, 1, 8, 1, 0, 0, 0]
def withdrawChain : Chain := chainOf 0x04 14 0 0 [5, 0, 1]
def sweepOpenChain : Chain := chainOf 0x05 14 0 0 [40]
def sweepCloseChain : Chain := chainOf 0x06 14 0 0 [40, 0, 0]
/-- A CLOCK of second of day 86399. -/
def clockChain : Chain := chainOf 0x07 14 0 0 [0x7F, 0x51, 0x01]
def headerOnlyChain : Chain := ⟨true, [0x02, 14, 2, 0, 24]⟩
/-- Feeder 14 with sequence 0 expected, SWEEPING with epoch 40. -/
def sweepingFeeder : Feeder := ⟨14, some 0, true, 40, 0, false, .running, .running⟩

theorem test_name_apply :
    after (exec .nameApply (applyingOf running nameChain)) (fun t =>
      (t.tb.names, t.lc.ring.inWork, t.co.request || decide (t.co.pass = .reading))) =
      some ([(1, [0x41, 0x42])], none, true) := by decide
set_option maxRecDepth 8000 in
theorem test_service_stored :
    after (exec .serviceApply (applyingOf running serviceChain)) (fun t =>
      (t.tb.services, t.tb.pool.free.take 2, t.tb.state)) =
      some ([⟨5, 1, 14, ⟨7, .none⟩, 860, none, .onTime, 1, none, none, [0, 1], false, true, .running⟩],
        [2, 3], .window) := by decide
theorem test_service_refused :
    after (exec .serviceApply (applyingOf (withProfile running twoSegments)
      (chainOf 0x02 14 0 0 (serviceBody 5 1 9)))) (fun t => (t.tb.services, t.tb.refusals)) =
      some ([], [5]) := by decide
theorem test_service_not_well_formed :
    after (exec .serviceApply (applyingOf running (chainOf 0x02 14 0 0 (serviceBody 0 1 7))))
      (fun t => (t.tb.services, t.ru.counts.getD 0 0, t.tb.feeders.length)) = some ([], 1, 1) := by decide
theorem test_amend :
    after (exec .amendApply (oneService (applyingOf running amendChain) (stored 5 1)))
      (fun t => (t.tb.services.map fun v => (v.platform, v.edition), t.bu.listB.length)) =
      some ([(⟨8, .a⟩, 2)], 1) := by decide
theorem test_amend_orphan :
    after (exec .amendApply (applyingOf running amendChain)) (fun t => t.ru.counts.getD 10 0) =
      some 1 := by decide
set_option maxRecDepth 8000 in
theorem test_withdraw :
    after (exec .withdrawApply (oneService (applyingOf running withdrawChain) (stored 5 1)))
      (fun t => (t.tb.services, t.tb.pool.free.take 3)) = some ([], [0, 1, 2]) := by decide
theorem test_withdraw_older :
    after (exec .withdrawApply (oneService (applyingOf running withdrawChain) (stored 5 2)))
      (fun t => t.tb.services.length) = some 1 := by decide
theorem test_sweep_open :
    after (exec .sweepOpen (applyingOf running sweepOpenChain)) (fun t =>
      t.tb.feeders.map fun f => (f.node, f.sweeping, f.epoch)) = some [(14, true, 40)] := by decide
theorem test_sweep_close_removes :
    after (exec .sweepClose (oneService (withFeeders (applyingOf running sweepCloseChain)
      [sweepingFeeder] []) (stored 5 1))) (fun t => (t.tb.services, t.tb.feeders.map Feeder.sweeping)) =
      some ([], [false]) := by decide
theorem test_sweep_close_spoiled :
    after (exec .sweepClose (oneService (withFeeders (applyingOf running sweepCloseChain)
      [{ sweepingFeeder with count := 1 }] []) (stored 5 1))) (fun t =>
      (t.tb.services.length, t.ru.counts.getD 6 0)) = some (1, 1) := by decide
theorem test_clock :
    after (exec .clock (applyingOf running clockChain)) (fun t => t.tb.time) =
      some ⟨some 86399, 0, 0, false, true⟩ := by decide
theorem test_header_only_counts :
    after (exec .headerOnlyApply (withFeeders (applyingOf running headerOnlyChain) [sweepingFeeder] []))
      (fun t => (t.tb.services, t.tb.feeders.map Feeder.count)) = some ([], [1]) := by decide
theorem test_refresh_expires :
    after (exec (.refreshTimerExpiry 5) (oneService running (stored 5 1))) (fun t => t.tb.state) =
      some (.working (.refresh 5 true)) := by decide
theorem test_refresh_removes :
    after (exec .refreshTableWork ((oneService running (stored 5 1)).setTb
      { (oneService running (stored 5 1)).tb with state := .working (.refresh 5 true) }))
      (fun t => t.tb.services) = some [] := by decide

/-- Feeder 14, silent: its lifetime timer has expired. -/
def silentFeeder : Feeder := ⟨14, some 7, true, 40, 3, true, .expired, .expired⟩
/-- The table work of an expiry in flight, with feeder 14 silent. -/
def expiring (w : TableWork) : State :=
  (withFeeders running [silentFeeder] []).setTb
    { (withFeeders running [silentFeeder] []).tb with state := .working w }

theorem test_lifetime_expires :
    after (exec (.feederLifetimeExpiry 14) (withFeeders running [sweepingFeeder] []))
      (fun t => (t.tb.state, t.tb.feeders.map Feeder.lifetime)) =
      some (.working (.lifetime 14), [.expired]) := by decide
theorem test_feeder_turns_stale :
    after (exec .feederLifetimeTableWork (expiring (.lifetime 14))) (fun t =>
      (t.tb.staleOrder, t.tb.feeders, t.tb.state)) =
      some ([14], [⟨14, none, false, 40, 3, false, .stopped, .stopped⟩], .free) := by decide
theorem test_sweep_limit_expires :
    after (exec (.sweepLimitExpiry 14) (withFeeders running [sweepingFeeder] []))
      (fun t => (t.tb.state, t.tb.feeders.map Feeder.limit)) =
      some (.working (.sweepLimit 14), [.expired]) := by decide
theorem test_sweep_limit_ends_sweep :
    after (exec .sweepLimitTableWork (expiring (.sweepLimit 14))) (fun t =>
      (t.tb.feeders.map Feeder.sweeping, t.ru.counts.getD 6 0)) = some ([false], 1) := by decide

/-- Station time in force, with its timer running. -/
def atSecond (s : State) (second elapsed age : Nat) (stale : Bool) : State :=
  s.setTb { s.tb with time := ⟨some second, elapsed, age, stale, true⟩ }

theorem test_second_expires :
    after (exec .secondTimerExpiry (atSecond running 3599 255 0 false)) (fun t =>
      (t.tb.state, t.tb.time.elapsed)) = some (.working .tick, 255) := by decide
theorem test_tick_wraps_and_turns_stale :
    after (exec .tickTableWork ((atSecond running 86399 2 899 false).setTb
      { (atSecond running 86399 2 899 false).tb with state := .working .tick })) (fun t =>
      (t.tb.time, t.ru.counts.getD 15 0)) = some (⟨some 1, 0, 900, true, true⟩, 1) := by decide

/-! Composing, agreement, painting, banners, notices. -/

/-- The Composer in READING with the window granted. -/
def reading (s : State) : State :=
  (s.setCo { s.co with pass := .reading }).setTb { s.tb with state := .window }

/-- The Composer in DIGESTING. -/
def digesting (s : State) : State := s.setCo { s.co with pass := .digesting, working := someSet.rows }

theorem test_window_release_with_nothing_stored :
    after (exec .windowRelease (reading running)) (fun t => (t.co.pass, t.co.working, t.tb.state)) =
      some (.digesting, [.phrase noDeparturesText, .blank, .blank], .free) := by decide
theorem test_window_release_with_one_service :
    after (exec .windowRelease (reading (oneService running (stored 5 1)))) (fun t =>
      (t.co.nameMiss, t.co.working.map Row.serviceRow? |>.map Option.isSome)) =
      some (true, [true, false, false]) := by decide
theorem test_compose_in_listen_is_kept :
    after (exec .composeComplete (digesting (started .listen))) (fun t =>
      (t.co.number, t.co.composed.map ComposedSet.rows, t.au.agreement)) =
      some (1, some someSet.rows, .empty) := by decide
theorem test_compose_alone_is_adopted :
    after (exec .composeComplete (digesting running)) (fun t =>
      (t.au.agreement, t.pa.swapPending, t.au.ownProposal, t.lc.transmitter.state)) =
      some (.agreed, true, some 150, .wait) := by decide
theorem test_compose_with_silent_peer :
    after (exec .composeComplete (digesting (withProfile running twoSegments))) (fun t =>
      (t.au.agreement, t.pa.swapPending)) = some (.agreed, true) := by decide

/-- A DIGEST of node 9 at segment index 1: pace 1000, digest 3C17H, origin 1150, 3 rows, 128 columns. -/
def digestChain : Chain :=
  chainOf 0x41 9 1 0 [1, 0xE8, 3, 0, 0, 4, 0, 0x17, 0x3C, 0x7E, 4, 0, 0, 3, 128, 0]
def paceChain : Chain := chainOf 0x42 9 1 0 [1, 0xE8, 3, 0, 0]
def statusChain : Chain := chainOf 0x43 9 1 0 ([1, 0xE8, 3, 0, 0] ++ List.replicate 50 0)
/-- The second segment of a board, with a peer at index 1 that holds a digest. -/
def paired (s : State) (digest : Digest) : State :=
  (withProfile s twoSegments).setAu
    { s.au with peers := s.au.peers.set 1 ⟨true, some 9, some digest, some 1150⟩ }

theorem test_digest_notice :
    after (exec .digestNotice (holding (withProfile running twoSegments) digestChain)) (fun t =>
      (t.au.peer 1, t.au.pace)) = some (⟨true, some 9, some 0x3C17, some 1150⟩, 1000) := by decide
theorem test_digest_clash :
    after (exec .digestNotice (holding running digestChain)) (fun t =>
      (t.au.peer 1, t.au.pace, t.ru.counts.getD 13 0)) = some (.absent, 1000, 1) := by decide
theorem test_pace_notice :
    after (exec .paceNotice (holding (withProfile running twoSegments) paceChain)) (fun t =>
      (t.au.peer 1, t.au.pace)) = some (⟨true, some 9, none, none⟩, 1000) := by decide
theorem test_status_notice :
    after (exec .statusNotice (holding (withProfile running twoSegments) statusChain)) (fun t =>
      ((t.au.peer 1).live, t.ru.counts)) = some (true, List.replicate 19 0) := by decide
theorem test_peer_expires :
    after (exec (.peerLifetimeExpiry 1) (paired running 3)) (fun t => t.au.peer 1) =
      some ⟨false, some 9, none, none⟩ := by decide

/-- The part PENDING with a composed set. -/
def awaiting (s : State) : State :=
  (s.setCo { s.co with composed := some someSet }).setAu
    { s.au with
      agreement := .pending, agreementTimer := true, composedDigest := some 0x3C17
      ownProposal := some 1140 }

theorem test_agreement_timer_diverges :
    after (exec .agreementTimerExpiry (awaiting (paired running 3))) (fun t =>
      (t.au.agreement, t.au.swapBuffer.map AdoptedSet.origin, t.ru.counts.getD 12 0)) =
      some (.diverged, some 1140, 1) := by decide
theorem test_digest_agrees :
    after (exec .digestNotice (holding (awaiting (paired running 3)) digestChain)) (fun t =>
      (t.au.agreement, t.au.swapBuffer.map AdoptedSet.origin, t.au.agreementTimer)) =
      some (.agreed, some 1150, false) := by decide
theorem test_pace_tick_wraps :
    after (exec .paceTick (running.setAu { running.au with pace := 0xFFFFFFFF })) (fun t => t.au.pace) =
      some 0 := by decide
theorem test_beacon :
    after (exec .beaconTimerExpiry running) (fun t => (t.lc.transmitter.notice, t.au.sent)) =
      some (some (.pace 0), false) := by decide
/-- A swap is pending. -/
def swapWaits (s : State) : State :=
  (s.setAu { s.au with swapBuffer := some (someSet.adopt 1150) }).setPa { s.pa with swapPending := true }

theorem test_frame_event_swaps :
    after (exec .frameEvent (swapWaits running))
      (fun t => (t.au.shown.map AdoptedSet.digest, t.au.swapBuffer, t.pa.paint)) =
      some (some 0x3C17, none, .painting) := by decide
theorem test_frame_completes :
    after (exec .frameComplete (running.setPa { running.pa with paint := .painting })) (fun t => t.pa.paint) =
      some .waiting := by decide
theorem test_dim :
    after (exec .dim (holding running (chainOf 0x09 14 0 0 [9]))) (fun t =>
      (t.pa.brightness, t.lc.ring.inWork, t.tb.feeders.length)) = some (some 9, none, 1) := by decide
theorem test_staff :
    after (exec .staffNotice (holding running (chainOf 0x08 14 0 0 [8, 2, 1, 0x41]))) (fun t =>
      (t.bu.slots.getD 7 none, t.bu.groupD)) = some (some ⟨[0x41], 2⟩, .requesting) := by decide
theorem test_query :
    after (exec .query (holding (running.setRu { running.ru with pending := 5 })
      (chainOf 0x0A 14 0 0 [5]))) (fun t =>
      (t.ru.pending, t.ru.listed, t.lc.transmitter.notice.map BoardNotice.kind)) =
      some (0, 0, some .status) := by decide
theorem test_interval_keeps_masked_kinds :
    after (exec (.intervalTimerExpiry 2) (withProfile (running.setRu { running.ru with
      pending := 0x21, timers := [false, false, true] }) { defaultProfile with masks := 0x20 })) (fun t =>
      (t.ru.pending, t.ru.timers)) = some (0x20, [false, false, false]) := by decide
theorem test_restart :
    after (exec .restart (holding (running.setAu { running.au with pace := 77 })
      (chainOf 0x0B 14 0 0 [5]))) (fun t => (t.sc.node, t.au.pace, t.ru.marks.restarted)) =
      some (.listen, 0, true) := by decide

/-! ### Witnesses: states and operands that meet the hypotheses of the statements, at the ends of their ranges -/

theorem test_meets_ImpossibleEventsChangeNothing :
    running.sc.node ≠ .reset ∧ (running.sc.node ≠ .load ∨ running.sc.loadPosition = none) ∧
    (running.sc.node ≠ .listen ∨ running.sc.listenTimer = false) ∧
    running.lc.receiver.state ≠ .discard ∧ State.reset.lc.receiver.state ≠ .hunt ∧
    running.lc.receiver.state ∉ [ReceiverState.header, .store, .foreign, .skip, .lockout] ∧
    running.lc.receiver.remaining = 0 ∧ (receiving running .store 1).lc.receiver.remaining ≠ 0 ∧
    running.lc.chainDue = none ∧ State.reset.sc.node = .reset ∧
    running.lc.watch.busyBits ≠ 5000 ∧ (receiving running .header 0).lc.lineIdle = false ∧
    running.lc.transmitter.state ∉ [TransmitterState.wait, .send, .jam, .backoff] ∧
    running.tb.state = .free ∧ (reading running).tb.state = .window ∧
    (applyingOf running clockChain).tb.state = .working .apply ∧ running.lc.ring.inWork = none ∧
    running.tb.find 5 = none ∧ running.tb.feeder 62 = none ∧ running.tb.time.secondTimer = false ∧
    running.co.pass ≠ .reading ∧ running.co.pass ≠ .digesting ∧ (running.au.peer 7).live = false ∧
    running.au.agreementTimer = false ∧ State.reset.au.paceTimer = false ∧
    (started .listen).au.beaconTimer = false ∧ State.reset.pa.frameTimer = false ∧
    running.pa.paint ≠ .painting ∧ running.ru.timers.getD 2 false = false := by decide

theorem test_running_startup_sound : running.StartupSound := by
  refine ⟨fun h => absurd h (by decide), fun h => absurd h (by decide), fun _ => by
    refine ⟨rfl, rfl, rfl, rfl, rfl, rfl, rfl, rfl, by decide, rfl, rfl⟩, ?_, by decide, by decide⟩
  intro p h
  cases h
  decide
theorem test_meets_StartupInvariantKept :
    running.StartupSound ∧ ∃ t, step { running with pending := [.paceTick] } = .next t :=
  ⟨test_running_startup_sound, _, rfl⟩
theorem test_meets_IntakeInvariantKept : running.IntakeSound := by
  refine ⟨test_running_startup_sound, by decide, by decide, by decide, by decide, ?_, by decide, by decide,
    by decide, by decide, ⟨by decide, by decide, by decide, by decide⟩⟩
  constructor
  · intro h
    cases h
  · rintro ⟨f, h, _⟩
    cases h
set_option maxRecDepth 8000 in
theorem test_running_tables_sound : running.tb.Sound := by
  refine ⟨⟨by decide, by decide, ?_, ?_, fun v h => nomatch h⟩, ⟨by decide, by decide⟩,
    ⟨by decide, fun d h => nomatch h⟩,
    ⟨by decide, by decide, by decide, ⟨fun n h => (nomatch h), fun f h => (nomatch h),
      fun f h => (nomatch h)⟩⟩,
    ⟨fun _ => rfl, fun x h => (nomatch h), by decide, by decide, by decide⟩⟩
  · exact List.length_replicate
  · exact List.append_nil (List.range 640) ▸ List.Perm.refl _
theorem test_meets_TablesInvariantKept :
    running.tb.Sound ∧ ∃ t, step { running with pending := [.secondTimerExpiry] } = .next t :=
  ⟨test_running_tables_sound, _, rfl⟩
theorem test_meets_StoredPlatformsStayInSet :
    (∀ v ∈ (oneService (withProfile running twoSegments) (stored 5 1)).tb.services,
      twoSegments.platforms.contains v.platform = true) ∧
    (⟨7, .a⟩ : Platform).number = 7 ∧ (⟨8, .a⟩ : Platform) ≠ ⟨8, .none⟩ := by
  refine ⟨fun v h => ?_, by decide, by decide⟩
  cases h with
  | head => decide
  | tail _ h => cases h
theorem test_meets_WindowInvariantKept : running.WindowSound := by
  refine ⟨by decide, by decide, fun h => absurd h (by decide), ⟨?_, ?_⟩, by decide, by decide, by decide⟩
  · rintro ⟨c, h, _⟩
    cases h
  · intro h
    exact absurd h (by decide)
theorem test_meets_AgreementInvariantKept : running.AgreementSound := by
  refine ⟨test_running_startup_sound, by decide, ?_, ?_, by decide, fun h => absurd h (by decide),
    by decide, by decide, by decide, by decide, by decide, by decide, by decide⟩
  · intro q h
    cases List.eq_of_mem_replicate (show q ∈ List.replicate 8 Peer.absent from h)
    exact ⟨by decide, by decide, by decide⟩
  · intro i h
    match i with
    | 0 | 1 | 2 | 3 | 4 | 5 | 6 | 7 => cases h
    | n + 8 => cases h
theorem test_meets_BannerInvariantKept : running.BannerSound := by
  refine ⟨test_running_startup_sound, ⟨by decide, by decide⟩, ⟨by decide, by decide⟩,
    ⟨by decide, by decide⟩, by decide, by decide, ?_, ?_, fun h => absurd rfl h⟩
  · intro g
    cases g <;> decide
  · intro g _
    cases g <;> rfl
theorem test_meets_ReportsInvariantKept : running.ReportsSound := by
  refine ⟨test_running_startup_sound, by decide, by decide, by decide, by decide, by decide,
    fun h => absurd rfl h⟩

theorem test_meets_ReportEventCountsAndFlags :
    running.ru.counts.length = 19 ∧ running.ru.timers.length = 3 ∧
    running.prof.intervalOf .lineCrc < 3 ∧ running.prof.intervalOf .restarted < 3 ∧
    (List.replicate 19 65535).getD ReportKind.lineCrc.number 0 ≤ 65535 ∧
    Instr.paceTick ≠ .coldReset ∧ (ReportKind.restarted ≠ .lineCrc) ∧
    ∃ t, exec .paceTick running = .next t :=
  ⟨by decide, by decide, by decide, by decide, by decide, by decide, by decide, _, rfl⟩
theorem test_count_stops :
    ((running.setRu { running.ru with counts := List.replicate 19 65535 }).count .restarted).ru.counts =
      List.replicate 19 65535 := by decide
theorem test_meets_GeometryCutActsOnProfileDefault :
    (List.replicate 19 65535).length = 19 ∧ ∀ n ∈ List.replicate 19 65535, n ≤ 65535 := by decide
theorem test_meets_PaceNeverMovesBack :
    (∃ t, exec .paceTick running = .next t) ∧
    after (exec .paceTick running) (fun t => t.au.pace) = some 1 ∧
    Instr.paceTick ≠ .coldReset ∧ Instr.paceTick ≠ .restart :=
  ⟨⟨_, rfl⟩, by decide, by decide, by decide⟩
theorem test_meets_CyclicComparisons :
    (130 + 256 - 2) % 256 = 128 ∧ (2 ^ 31 + 2 ^ 32 - 0) % 2 ^ 32 = 2 ^ 31 ∧ 0 < 1440 ∧ 1439 < 1440 ∧
    (1439 + 720) % 1440 = 719 := by decide
theorem test_meets_PaceStepCrossesBoundary :
    crossesBoundary 63 64 = true ∧ 100 ≤ defaultProfile.bannerDuration ∧ running.bu.line = .idle := by
  decide

/-- A board of 16 columns with glyphs of no width, which render as 3 columns. -/
def narrowBrush : Brush :=
  ⟨⟨16, 64, 0, 15, 0, 2⟩, 7, [], ⟨0, 0, 0⟩, [], [], 0, 16, false⟩
/-- A frame of LISTEN. -/
def listenFrame : FrameSample := ⟨.listen, none, 0, none, false, none, 12⟩

theorem test_meets_CentredTextPlace :
    textWidth narrowBrush.glyphs [0x41] ≤ narrowBrush.boardWidth ∧
    narrowBrush.boardWidth < textWidth narrowBrush.glyphs startingText ∧ 15 < narrowBrush.boardWidth ∧
    listenFrame.node = .listen ∧ 0 < narrowBrush.height ∧ narrowBrush.geometry.windowBegin ≤ 0 ∧
    15 ≤ narrowBrush.geometry.windowEnd ∧
    narrowBrush.geometry.topLine + (narrowBrush.geometry.rowCount + 1) * narrowBrush.height ≤ 21 ∧
    27 < narrowBrush.geometry.topLine + (narrowBrush.geometry.rowCount + 2) * narrowBrush.height ∧
    narrowBrush.segmentIndex < 1 := by decide

def dimChain : Chain := chainOf 0x09 14 0 0 [15]
def restartChain : Chain := chainOf 0x0B 14 0 0 [63]

theorem test_meets_BrightnessThroughResets :
    (holding running restartChain).Restarting restartChain ∧
    (holding running dimChain).Delivered .dim dimChain ∧ dimOk dimChain.body = true ∧
    running.StartupSound ∧
    (∃ t, step { running with pending := [.coldReset] } = .next t ∧ t.starting) :=
  ⟨⟨⟨rfl, rfl, by decide⟩, by decide, by decide⟩, ⟨rfl, rfl, by decide⟩, by decide,
    test_running_startup_sound, _, rfl, Or.inl rfl⟩
theorem test_meets_BoardFramesReadBack :
    (BoardNotice.digest 7 0xFFFF 0xFFFF 0xFFFFFFFF 8 2048).InRange ∧
    (BoardNotice.digest 0 0 0 0 2 1).InRange ∧ (BoardNotice.pace 7).InRange ∧
    (BoardNotice.status 7 ⟨.run, .diverged, 0xFFFF, 0x7FFFF, List.replicate 19 65535, 65535, .builtIn,
      .builtIn, 8⟩).InRange ∧ 1 ≤ 1 ∧ 62 ≤ 62 ∧ 15 ≤ 15 :=
  ⟨⟨by decide, by decide, by decide, by decide, by decide⟩,
    ⟨by decide, by decide, by decide, by decide, by decide⟩, (by decide : 7 ≤ 7),
    ⟨by decide, by decide, by decide, by decide, by decide⟩, by decide, by decide, by decide⟩

/-! Start-up. -/

set_option maxRecDepth 8000 in
theorem test_asserted_startup_sound : { State.reset with freeCounter := 1 }.StartupSound := by
  refine ⟨fun _ => ?_, fun h => (nomatch h), fun h => (nomatch h), fun p h => (nomatch h),
    by decide, by decide⟩
  refine ⟨rfl, rfl, rfl, rfl, rfl, rfl, ?_, ?_, rfl, rfl, ?_, rfl, rfl⟩
  · exact ⟨rfl, rfl, rfl, rfl, rfl, rfl, rfl, rfl, rfl, rfl, rfl⟩
  · exact ⟨rfl, List.length_replicate, rfl, rfl, rfl, rfl, rfl, rfl, rfl, rfl, rfl, rfl⟩
  · exact ⟨rfl, rfl, rfl, rfl, rfl, rfl, rfl, rfl, rfl⟩
theorem test_meets_ResetReleaseSamplesStraps :
    State.reset.sc.node = .reset ∧ { State.reset with freeCounter := 1 }.StartupSound :=
  ⟨rfl, test_asserted_startup_sound⟩

/-- A profile block that passes, with settings at the ends of their ranges. -/
def profileBlock : List Byte :=
  [15, 7, 8, 2, 7, 0, 8, 1, 0, 0, 0, 0, 8, 255, 64, 0, 255, 0, 15, 1, 255, 3, 40, 7, 255, 232, 3, 244,
    1, 60, 15] ++ List.replicate 9 0 ++ [8, 120] ++ List.replicate 20 0 ++ [171, 154]

set_option maxRecDepth 8000 in
theorem test_profile_block_passes : blockPasses profileBlock = true := by decide +kernel
theorem test_profile_block_settings :
    ((profileOfBlock profileBlock).group, (profileOfBlock profileBlock).platforms,
      (profileOfBlock profileBlock).bannerDuration, (profileOfBlock profileBlock).leadIn,
      (profileOfBlock profileBlock).geometry) =
      (15, .members [⟨7, .none⟩, ⟨8, .a⟩], 1000, 1023, ⟨256, 64, 0, 255, 0, 8⟩) := by decide
set_option maxRecDepth 8000 in
theorem test_meets_ProfileReadSettlesProfile :
    (loading 63 (profileBlock.take 63) [] none).sc.node = .load ∧
    (loading 63 (profileBlock.take 63) [] none).sc.loadPosition = some 63 ∧ 63 < 64 ∧ 0 + 1 < 64 ∧
    blockPasses ((loading 63 (profileBlock.take 63) [] none).sc.profileBytes ++ [154]) = true ∧
    blockPasses ((loading 63 (profileBlock.take 63) [] none).sc.profileBytes ++ [155]) = false := by
  decide +kernel

/-- A font of height 7 in which every glyph is dark and has no width, but for its last check byte. -/
def darkFont : List Byte := [7, 0x20, 160, 0] ++ List.replicate 1280 0 ++ [102]

/-- LOAD reading the last byte of that font. -/
def loadingFont (bytes : List Byte) : State := loading 1349 [] bytes (some defaultProfile)

set_option maxRecDepth 8000 in
theorem test_loading_startup_sound : (loadingFont darkFont).StartupSound := by
  refine ⟨fun h => (nomatch h), fun _ => ⟨?_, 1349, rfl, fun _ => ⟨rfl, rfl⟩⟩, ?_, ?_, by decide, by decide⟩
  · refine ⟨?_, ?_, rfl, rfl, ?_, rfl, rfl⟩
    · exact ⟨rfl, rfl, rfl, rfl, rfl, rfl, rfl, rfl, rfl, rfl, rfl⟩
    · exact ⟨rfl, List.length_replicate, rfl, rfl, rfl, rfl, rfl, rfl, rfl, rfl, rfl, rfl⟩
    · exact ⟨rfl, rfl, rfl, rfl, rfl, rfl, rfl, rfl, rfl⟩
  · rintro (h | h) <;> cases h
  · intro p h
    cases h
    decide
set_option maxRecDepth 100000 in
theorem test_dark_font_passes : fontPasses (darkFont ++ [232]) = true := by decide +kernel
theorem test_font_of_wrong_first_code_fails :
    ([7, 0x21] ++ List.replicate 1284 0).length = fontSize 7 ∧
    fontPasses ([7, 0x21] ++ List.replicate 1284 0) = false := by decide +kernel
theorem test_meets_FontReadEndsLoad :
    (loadingFont darkFont).sc.node = .load ∧ (loadingFont darkFont).sc.loadPosition = some 1349 ∧
    64 ≤ 1349 ∧ (loadingFont darkFont).sc.profile = some defaultProfile ∧
    ((loadingFont [6, 0x20, 160]).sc.fontBytes ++ [0]).length = 4 ∧
    fontHeaderOk ((loadingFont [6, 0x20, 160]).sc.fontBytes ++ [0]) = false ∧
    ((loadingFont []).sc.fontBytes ++ [7]).length ≠ fontSize (num1 ((loadingFont []).sc.fontBytes ++ [7]) 0) ∧
    ¬(((loadingFont []).sc.fontBytes ++ [7]).length = 4 ∧
      fontHeaderOk ((loadingFont []).sc.fontBytes ++ [7]) = false) ∧
    ((loadingFont darkFont).sc.fontBytes ++ [232]).length =
      fontSize (num1 ((loadingFont darkFont).sc.fontBytes ++ [232]) 0) := by decide +kernel
/-- LISTEN with start-up marks set and kinds pending, under a mask. -/
def listening (marks : StartMarks) (pending masks : BitVec 19) : State :=
  (withProfile (started .listen) { defaultProfile with masks := masks }).setRu
    { Ru.reset with pending := pending, marks := marks }

/-- The pending kinds, the running timers and the notice at the transmitter after the entry to RUN. LINE_CRC
(bit 0) is bound to an interval that runs, LINE_STUCK (bit 4) and RESTARTED (bit 18) to one of length 0. -/
def entered (s : State) : Option (BitVec 19 × List Bool × Option NoticeKind) :=
  after (exec .listenTimerExpiry s) fun t =>
    (t.ru.pending, t.ru.timers, t.lc.transmitter.notice.map BoardNotice.kind)

theorem test_reports_at_run :
    [entered (listening ⟨false, false, false, true⟩ 1 0), entered (listening .clear 17 0),
      entered (listening .clear 1 0), entered (listening ⟨false, false, false, true⟩ 1 0x40001)] =
      [some (0, [false, false, false], some .status), some (0, [false, false, true], some .status),
        some (1, [false, false, true], none), some (0x40001, [false, false, true], none)] := by
  decide +kernel
theorem test_meets_ListenExpiryEntersRun :
    (started .listen).sc.node = .listen ∧ (started .listen).sc.listenTimer = true ∧
    true ∉ (started .listen).ru.timers ∧ (started .listen).co.pass = .idle ∧
    (started .listen).pa.swapPending = false ∧ (started .listen).tb.state = .free ∧
    (digesting (started .listen)).co.pass ≠ .idle ∧ (0 : BitVec 6) = 0 ∧
    1 ≤ (started .listen).sc.nodeNumber.toNat ∧ (started .listen).sc.nodeNumber.toNat ≤ 62 ∧
    (started .listen).ru.timers = [false, false, false] ∧
    (listening ⟨false, false, false, true⟩ 1 0).ru.marks.restarted = true ∧
    defaultProfile.intervalOf .restarted = 0 ∧ defaultProfile.intervalOf .lineStuck = 0 ∧
    defaultProfile.intervalOf .lineCrc = 2 ∧ defaultProfile.intervalLengths.getD 0 0 = 0 ∧
    defaultProfile.intervalLengths.getD 2 0 ≠ 0 ∧ kindBit 17 .lineStuck = true ∧
    kindBit 0 .lineStuck = false ∧ kindBit 0x40001 .restarted = true ∧
    (started .listen).lc.transmitter.state = .idle ∧ (started .listen).lc.queue = [] := by decide

/-! Reception and transmission. -/

/-- The state with some 1 bits counted in DISCARD. -/
def discarding (ones : Nat) : State :=
  running.setReceiver { running.lc.receiver with state := .discard, ones := ones }

theorem test_preamble_is_a_start_pattern : StartPattern preambleBits :=
  ⟨[true, false, true, false, true, false, true, false, true, false, true, false, true, false], by decide,
    fun i h => (by decide : ∀ i, i < 13 →
      [true, false, true, false, true, false, true, false, true, false, true, false, true, false][i]? ≠
        [true, false, true, false, true, false, true, false, true, false, true, false, true, false][i + 1]?)
      i (Nat.lt_of_succ_lt_succ h), by decide, by decide⟩
theorem test_one_bit_begins_a_pattern : BeginsPattern [true] :=
  ⟨preambleBits.tail, test_preamble_is_a_start_pattern⟩
/-- A start pattern ends in 0, 0, 1, 1. -/
theorem test_start_pattern_ends (bits : List Bool) (h : StartPattern bits) :
    bits.drop (bits.length - 4) = [false, false, true, true] := by
  obtain ⟨run, _, _, _, rfl⟩ := h
  simp
theorem test_one_bit_is_no_start_pattern : ¬StartPattern [true] := fun h =>
  absurd (test_start_pattern_ends _ h) (by decide)
/-- Two equal bits begin no pattern: its run alternates for 8 bits. -/
theorem test_equal_bits_begin_no_pattern : ¬BeginsPattern ([true] ++ [true]) := by
  rintro ⟨more, run, long, differ, _, same⟩
  match run, long with
  | a :: b :: rest, long =>
    have step := differ 0 (by simp)
    simp only [List.cons_append, List.nil_append, List.cons.injEq] at same
    simp [← same.1, ← same.2.1] at step
theorem test_meets_DiscardAndHuntFollowTheLine :
    (discarding 0).lc.receiver.state = .discard ∧ (discarding 31).lc.receiver.ones < 32 ∧
    (discarding 31).lc.receiver.ones + 1 = 32 ∧ (discarding 30).lc.receiver.ones + 1 < 32 ∧
    (∃ t, exec (.discardEnd [true]) (discarding 31) = .next t) ∧ running.lc.receiver.state = .hunt ∧
    running.lc.receiver.hunt = ⟨0, false, 0⟩ ∧ StartPattern preambleBits ∧
    (BeginsPattern [true] ∧ ¬StartPattern [true] ∧ ¬BeginsPattern ([true] ++ [true])) ∧
    (∃ t u, exec (.startMark ([true] ++ true :: [])) running = .next t ∧
      exec (.startMark (true :: [])) running = .next u) :=
  ⟨by decide, by decide, by decide, by decide, ⟨_, rfl⟩, by decide, rfl,
    test_preamble_is_a_start_pattern,
    ⟨test_one_bit_begins_a_pattern, test_one_bit_is_no_start_pattern, test_equal_bits_begin_no_pattern⟩,
    ⟨_, _, rfl, rfl⟩⟩

def headed : State := receiving running .header 0
/-- A header of each outcome: lengths and senders at the ends of their ranges. -/
theorem test_meets_HeaderExamination :
    headed.lc.receiver.state = .header ∧
    (⟨0x0C, 1, 0, 0, 1⟩ : Header).examine = none ∧ (⟨0x09, 0, 0, 0, 1⟩ : Header).examine = none ∧
    (⟨0x42, 1, 0, 0, 5⟩ : Header).examine = none ∧ (⟨0x02, 62, 15, 0, 177⟩ : Header).examine = none ∧
    (⟨0x02, 62, 15, 0, 176⟩ : Header).examine = some .service ∧
    (⟨0x01, 1, 0, 0, 217⟩ : Header).examine = some .name ∧
    (⟨0x08, 1, 0, 0, 99⟩ : Header).examine = some .staff ∧
    (⟨0x43, 62, 15, 0, 55⟩ : Header).examine = some .status := by decide
theorem test_meets_PassingHeaderDecides :
    headed.lc.receiver.state = .header ∧
    (⟨0x42, 9, 2, 0, 5⟩ : Header).examine = some .pace ∧ (2 : Byte).toNat ≠ headed.prof.group ∧
    (⟨0x01, 9, 2, 0, 4⟩ : Header).examine = some .name ∧ (2 : Byte).toNat ≠ 0 ∧
    (⟨0x0A, 9, 2, 0, 1⟩ : Header).examine = some .query ∧
    (⟨0x42, 9, 1, 0, 5⟩ : Header).examine = some .pace ∧ (1 : Byte).toNat = headed.prof.group ∧
    headed.lc.fifo = [] ∧ headed.lc.ring.filling = none ∧ headed.lc.ring.used < 24 ∧
    (fullRing headed).lc.ring.used = 24 ∧ (fullRing headed).lc.ring.filling = none ∧
    (filling headed true [0x42] [0]).lc.fifo ≠ [] ∧
    (filling headed true (chainOf 0x42 9 1 0 [1, 0, 0, 0, 0]).bytes []).lc.fifo = [] ∧
    (filling headed true (chainOf 0x42 9 1 0 [1, 0, 0, 0, 0]).bytes []).completeDue.lc.ring.used < 24 := by
  decide

/-- In STORE with 64 bytes in the ring and some in the FIFO. -/
def storing (s : State) (fifo : List Byte) : State :=
  filling (receiving s .store 255) false (List.replicate 64 0) fifo

theorem test_meets_BodyByteFollowsFrame :
    (storing running []).lc.receiver.remaining ≠ 0 ∧ (storing running []).lc.receiver.state = .store ∧
    (storing running []).lc.fifo = [] ∧ (storing running []).lc.ring.used < 24 ∧
    (storing (fullRing running) (List.replicate 47 0)).lc.fifo.length < 48 ∧
    64 % 64 = 0 ∧ 24 ≤ (storing (fullRing running) []).lc.ring.used ∧
    48 ≤ (storing (fullRing running) (List.replicate 48 0)).lc.fifo.length ∧
    (receiving running .foreign 1).lc.receiver.state = .foreign ∧
    (receiving running .skip 1).lc.receiver.state = .skip ∧
    (receiving running .lockout 1).lc.receiver.state = .lockout := by decide
theorem test_meets_FrameEndDecides :
    (receiving running .store 0).lc.receiver.remaining = 0 ∧
    (0xFFFF : Digest) = ~~~ (receiving running .store 0).lc.receiver.checkRegister ∧
    (0 : Digest) ≠ ~~~ (receiving running .store 0).lc.receiver.checkRegister ∧
    (filling (receiving running .store 0) false [] []).lc.ring.filling = some ⟨false, false, []⟩ ∧
    (receiving running .foreign 0).lc.fifo = [] ∧ (receiving running .foreign 0).lc.ring.filling = none ∧
    (receiving running .foreign 0).lc.ring.used < 24 ∧
    24 ≤ (receiving (fullRing running) .foreign 0).lc.ring.used ∧
    (filling (receiving running .foreign 0) true [] [1]).lc.fifo ≠ [] ∧
    (receiving running .skip 0).lc.receiver.state = .skip := by decide

/-- A passed chain of a PACE, of a CLOCK, and of a STAFF whose text length does not agree. -/
def duePace : State := filling running true [0x42, 9, 1, 0, 5, 1, 0, 0, 0, 0] []
def dueClock : State := filling running true [0x07, 9, 1, 0, 3, 1, 0, 0] []
def dueStaff : State := filling running true [0x08, 9, 1, 0, 4, 1, 1, 2, 0x41] []

theorem test_meets_ChainCompletesAndIsDispatched :
    dueStaff.lc.chainDue.map Filling.agrees = some false ∧
    duePace.lc.chainDue.map Filling.agrees = some true ∧
    dueClock.lc.chainDue.map Filling.agrees = some true ∧
    (⟨false, [0x42, 9, 1, 0, 5, 1, 0, 0, 0, 0]⟩ : Chain).forTables = false ∧
    (⟨false, [0x07, 9, 1, 0, 3, 1, 0, 0]⟩ : Chain).forTables = true ∧
    duePace.lc.ring.inWork = none ∧ duePace.lc.ring.ready = [] ∧
    (holding duePace clockChain).lc.ring.inWork.isSome = true ∧
    (filling (fullRing running) true [0x42] []).lc.ring.ready =
      chainOf 0x42 9 1 0 [1, 0, 0, 0, 0] :: List.replicate 23 (chainOf 0x42 9 1 0 [1, 0, 0, 0, 0]) := by
  decide
/-- A PACE IN-WORK, 23 more chains, and a frame whose next byte waits for a slot. -/
def crowded : State :=
  let s := filling running false (List.replicate 64 0) [5, 6]
  s.setLc { s.lc with ring := { s.lc.ring with
    inWork := some paceChain, ready := List.replicate 22 clockChain } }

theorem test_meets_CompletionFreesAndDrains :
    crowded.lc.ring.inWork = some paceChain ∧
    crowded.completeNotice.lc.ring.filling.map Filling.bytes = some (List.replicate 64 0 ++ [5, 6]) ∧
    crowded.completeNotice.lc.ring.inWork = some clockChain ∧
    (holding running paceChain).lc.ring.filling = none := by decide
theorem test_meets_BusyPeriodReportedOnce :
    running.started ∧ (busyFor 5000).lc.watch.busyBits = 5000 ∧
    (busyFor 5000).lc.watch.reported = false ∧ (busyFor 4999).lc.watch.busyBits ≠ 5000 ∧
    (∃ t, exec (.startMark [false]) (busyFor 4999) = .next t ∧ t.lc.watch.busyBits = 5000) ∧
    (∃ t, exec (.discardEnd [true]) (discarding 0) = .next t ∧ t.lc.watch = ⟨64, 0, false, 0⟩) ∧
    (receiving running .skip 3).lc.receiver.state ≠ .discard ∧
    (receiving running .skip 3).lc.receiver.state ≠ .hunt ∧
    ([false] : List Bool).getLast? = some false ∧ 64 ≤ (List.replicate 64 true).length ∧ 64 ≤ 64 ∧
    (skipping 0 4985).lc.receiver.state = .skip ∧ (skipping 0 4985).lc.watch.reported = false ∧
    (skipping 0 4985).lc.receiver.remaining = 0 ∧ (skipping 1 4992).lc.receiver.remaining ≠ 0 ∧
    5000 ≤ (skipping 0 4985).lc.watch.busyBits + (15 - (skipping 0 4985).lc.watch.ahead) ∧
    5000 ≤ (skipping 1 4992).lc.watch.busyBits + (8 - (skipping 1 4992).lc.watch.ahead) :=
  ⟨Or.inr rfl, by decide, by decide, by decide, ⟨_, rfl, by decide +kernel⟩,
    ⟨_, rfl, by decide +kernel⟩, by decide, by decide, by decide, by decide +kernel, by decide, rfl, rfl, rfl,
    by decide, by decide, by decide⟩
theorem test_meets_BusyPeriodReportedOnce_limit :
    running.started ∧ (busyFor 4998).lc.receiver.state ∈ [ReceiverState.discard, .hunt] ∧
    [false, true] ≠ [] ∧ (busyFor 4998).lc.watch.busyBits + [false, true].length = 5000 ∧
    (busyFor 4998).lc.watch.reported = false ∧
    (∀ n, n ≤ 2 → ((busyFor 4998).lc.watch.follow ([false, true].take n)).idleRun < 64) ∧
    (∀ n, n < 2 → ((busyFor 4998).sampleBits ([false, true].take n)).lc.receiver.state ≠ .header) ∧
    (skipping 3 5000).lc.watch.busyBits = 5000 ∧ (skipping 3 5000).lc.watch.reported = false ∧
    (skipping 3 5000).lc.receiver.state ∈ [ReceiverState.header, .store, .foreign, .skip, .lockout] ∧
    (skipping 3 5000).lc.watch.ahead + [true, true, true, true, true, true, true].length < 8 ∧
    (skipping 3 5000).lc.receiver.remaining ≠ 0 :=
  ⟨Or.inr rfl, by decide, by decide, by decide, rfl, by decide, by decide +kernel, rfl, rfl, by decide,
    by decide, by decide⟩
theorem test_line_stuck_once :
    after (exec (.busyPeriodLimit [false]) (busyFor 5000)) (fun t =>
      after (exec (.busyPeriodLimit [false]) t) (fun u => u.ru.counts.getD 4 0)) = some (some 1) := by
  decide +kernel

theorem test_meets_AttemptStartAndSuccess :
    (sending .wait 9 false).lc.transmitter.state = .wait ∧
    (sending .wait 9 false).lc.transmitter.notice = some (.pace 0) ∧
    (sending .wait 9 false).lc.watch.idleRun = 64 ∧
    (sending .wait 9 false).sc.node = .run ∧ 1 ≤ (5 : BitVec 6).toNat ∧ (5 : BitVec 6).toNat ≤ 62 ∧
    (sending .wait 9 false).lc.receiver.state ∉
      [ReceiverState.header, .store, .foreign, .skip, .lockout] ∧
    (receiving (sending .wait 9 false) .lockout 0).lc.receiver.state ∈
      [ReceiverState.header, .store, .foreign, .skip, .lockout] ∧
    (sending .send 1 false).lc.transmitter.state = .send ∧ (sending .send 1 false).lc.queue = [] := by
  decide
theorem test_meets_CollisionJamAndBackoff :
    (frameBits (sending .send 1 false).lc.transmitter.frame)[26]? = some true ∧
    (frameBits (sending .send 1 false).lc.transmitter.frame)[66]? = some true ∧
    (sending .jam 9 false).lc.transmitter.state = .jam ∧
    (sending .jam 9 false).lc.transmitter.late = false ∧ 9 < 10 ∧
    (sending .jam 1 true).lc.transmitter.late = true ∧
    10 ≤ (sending .jam 10 false).lc.transmitter.attempts ∧
    (sending .backoff 1 false).lc.transmitter.state = .backoff := by decide

/-- The transmitter busy, with notices queued. -/
def queueing (l : List BoardNotice) : State :=
  (sending .backoff 1 false).setLc { (sending .backoff 1 false).lc with queue := l }

theorem test_meets_OfferIntoTransmitQueue :
    (started .listen).maySend = false ∧ running.maySend = true ∧
    running.lc.transmitter.state = .idle ∧ running.lc.queue = [] ∧
    (queueing [.pace 0]).lc.transmitter.state ≠ .idle ∧
    (queueing [.pace 0]).maySend = true ∧
    ((queueing [.pace 0]).offer (.pace 0)).lc.queue = [.pace 0] ∧
    ((queueing [.digest 0 1 2 3 4 5]).offer (.digest 0 2 2 3 4 5)).lc.queue = [.digest 0 2 2 3 4 5] ∧
    ((queueing [.pace 0]).offer (.digest 0 2 2 3 4 5)).lc.queue =
      [.pace 0, .digest 0 2 2 3 4 5] := by decide

/-! Tables. -/

theorem test_meets_NameAndClockApplied :
    (applyingOf running nameChain).Applying .name nameChain ∧
    nameDefinitions nameChain.body = some [(1, [0x41, 0x42])] ∧ definitionOk (1, [0x41, 0x42]) = true ∧
    (applyingOf running nameChain).tb.NamesSound ∧
    (applyingOf running clockChain).Applying .clock clockChain ∧
    clockSecond clockChain.body = 86399 :=
  ⟨⟨rfl, rfl, rfl, by decide⟩, by decide, by decide, ⟨by decide, fun d h => (nomatch h)⟩,
    ⟨rfl, rfl, rfl, by decide⟩, by decide⟩

/-- The SERVICE of platform 7 and of platform 9 on a board that shows 7 and 8A. -/
def serving (platform : Byte) : State :=
  applyingOf (withProfile running twoSegments) (chainOf 0x02 14 0 0 (serviceBody 5 1 platform))

theorem test_meets_ServiceStoredOrRefused :
    (serving 9).Applying .service (chainOf 0x02 14 0 0 (serviceBody 5 1 9)) ∧
    serviceOk (serviceBody 5 1 9) = true ∧ serviceOk (serviceBody 5 1 7) = true ∧
    (serving 7).tb.find (serviceRecord (serviceBody 5 1 7)).number = none ∧
    (serving 9).prof.platforms.contains (serviceRecord (serviceBody 5 1 9)).platform = false ∧
    (serving 7).prof.platforms.contains (serviceRecord (serviceBody 5 1 7)).platform = true ∧
    (serving 7).tb.services.length < 64 ∧ (serving 7).tb.ServicesSound :=
  ⟨⟨rfl, rfl, rfl, by decide⟩, by decide, by decide, by decide, by decide, by decide, by decide,
    test_running_tables_sound.1⟩

/-- A service of number `n + 1` with no stops, departing at minute `m`. -/
def plain (m n : Nat) : Service :=
  ⟨n + 1, 1, 14, ⟨7, .none⟩, m, none, .onTime, 1, none, none, [], false, true, .running⟩
/-- A full service table; the service of number 64 is the latest. -/
def fullTables (m : Nat) : State :=
  (applyingOf running (chainOf 0x02 14 0 0 (serviceBody 200 1 7))).setTb
    { running.tb with state := .working .apply, services := (List.range 64).map (plain m) }

set_option maxRecDepth 8000 in
theorem test_full_tables_sound (m : Nat) : (fullTables m).tb.ServicesSound := by
  have numbers : ((fullTables m).tb.services.map fun v => v.number) = (List.range 64).map (· + 1) := by
    show ((List.range 64).map (plain m)).map _ = _
    rw [List.map_map]
    rfl
  refine ⟨?_, ?_, List.length_replicate, ?_, ?_⟩
  · show ((List.range 64).map (plain m)).length ≤ 64
    simp
  · rw [numbers]
    decide
  · have : (fullTables m).tb.chained = [] := by
      show ((List.range 64).map (plain m)).flatMap _ = []
      rw [List.flatMap_map]
      exact List.flatMap_eq_nil_iff.mpr fun _ _ => rfl
    rw [this, List.append_nil]
    exact List.Perm.refl _
  · intro v h e
    obtain ⟨n, _, rfl⟩ := List.mem_map.mp h
    cases e
set_option maxRecDepth 20000 in
theorem test_meets_FullTableEvictsLatest :
    (fullTables 900).Applying .service (chainOf 0x02 14 0 0 (serviceBody 200 1 7)) ∧
    (fullTables 900).tb.find (serviceRecord (serviceBody 200 1 7)).number = none ∧
    (fullTables 900).tb.services.length = 64 ∧ plain 900 63 ∈ (fullTables 900).tb.services ∧
    (∀ w ∈ (fullTables 900).tb.services, w.number ≠ 64 →
      laterThan 900 64 (w.key (fullTables 900).tb.time.minute) w.number = true) ∧
    laterThan ((plain 900 63).key none) 64 (displayKey none 860 none) 200 = true ∧
    laterThan ((plain 860 63).key none) 64 (displayKey none 860 none) 200 = false := by
  refine ⟨⟨rfl, rfl, rfl, by decide⟩, by decide, by decide, by decide, ?_, by decide, by decide⟩
  decide

/-- Service 5 of edition 200 stored while a SERVICE of another edition or platform is applied. -/
def updating (edition platform : Byte) : State :=
  oneService (applyingOf (withProfile running twoSegments)
    (chainOf 0x02 14 0 0 (serviceBody 5 edition platform))) (stored 5 200)

theorem test_meets_StoredServiceUpdated :
    (updating 72 7).Applying .service (chainOf 0x02 14 0 0 (serviceBody 5 72 7)) ∧
    (updating 72 7).tb.find 5 = some (stored 5 200) ∧
    serviceOk (serviceBody 5 72 7) = true ∧ serviceOk (serviceBody 5 200 9) = true ∧
    [editionOlder 72 200, editionOlder 200 200, editionNewer 71 200] = [true, false, true] ∧
    (updating 71 7).prof.platforms.contains ⟨7, .none⟩ = true ∧
    (updating 200 9).prof.platforms.contains ⟨9, .none⟩ = false :=
  ⟨⟨rfl, rfl, rfl, by decide⟩, by decide, by decide, by decide, by decide, by decide, by decide⟩
/-- Service 5 stored while the AMEND of platform 8A is applied, on a board that shows a set. -/
def amending (p : Profile) (edition : BitVec 8) : State :=
  oneService (applyingOf (withProfile running p) amendChain) (stored 5 edition)

theorem test_meets_AmendApplied :
    (amending twoSegments 1).Applying .amend amendChain ∧ amendOk amendChain.body = true ∧
    (applyingOf running amendChain).tb.find 5 = none ∧
    (amending twoSegments 1).tb.find 5 = some (stored 5 1) ∧
    [editionNewer 2 1, editionNewer 2 2] = [true, false] ∧
    twoSegments.platforms.contains ((amendment amendChain.body).platform.getD ⟨7, .none⟩) = true ∧
    (PlatformSet.members [⟨7, .none⟩]).contains
      ((amendment amendChain.body).platform.getD ⟨7, .none⟩) = false :=
  ⟨⟨rfl, rfl, rfl, by decide⟩, by decide, by decide, by decide, by decide, by decide, by decide⟩
theorem test_meets_WithdrawApplied :
    (oneService (applyingOf running withdrawChain) (stored 5 1)).Applying .withdraw withdrawChain ∧
    num2 withdrawChain.body 0 = 5 ∧
    (oneService (applyingOf running withdrawChain) (stored 5 1)).tb.find 5 = some (stored 5 1) ∧
    editionOlder (byteAt withdrawChain.body 2) 1 = false ∧
    editionOlder (byteAt withdrawChain.body 2) 2 = true :=
  ⟨⟨rfl, rfl, rfl, by decide⟩, by decide, by decide, by decide, by decide⟩
theorem test_meets_MalformedTableNotices :
    (applyingOf running (chainOf 0x01 14 0 0 [9, 1, 0, 0])).Applying .name
      (chainOf 0x01 14 0 0 [9, 1, 0, 0]) ∧
    nameDefinitions [9, 1, 0, 0] = none ∧ nameDefinitions [1, 0, 0, 0] = some [(0, [])] ∧
    definitionOk (0, []) = false ∧ serviceOk (serviceBody 0 1 7) = false ∧
    amendOk [5, 0, 2, 8, 0, 0, 0, 0, 0] = false ∧ num2 [0, 0, 1] 0 = 0 ∧
    86400 ≤ clockSecond [0x80, 0x51, 0x01] :=
  ⟨⟨rfl, rfl, rfl, by decide⟩, by decide, by decide, by decide, by decide, by decide, by decide,
    by decide⟩

/-- A feeder entry at rest, with a sequence number expected. -/
def quietFeeder (node : Nat) : Feeder := ⟨node, some 68, false, 0, 0, false, .running, .stopped⟩
/-- A feeder entry that is stale. -/
def staleFeeder (node : Nat) : Feeder := ⟨node, none, false, 0, 0, false, .stopped, .stopped⟩
/-- Eight feeders, the last one stale. -/
def eightFeeders : Tb :=
  (withFeeders running ((List.range 7).map (fun n => quietFeeder (n + 1)) ++ [staleFeeder 8]) [8]).tb

theorem test_meets_HeaderNoteTracksFeeder :
    eightFeeders.FeedersSound ∧ eightFeeders.feeder 1 = some (quietFeeder 1) ∧
    running.tb.feeder 62 = none ∧ running.tb.feeders.length < 8 ∧ eightFeeders.feeder 62 = none ∧
    eightFeeders.feeders.length = 8 ∧ eightFeeders.staleOrder = [8] ∧
    ({ eightFeeders with staleOrder := [] } : Tb).staleOrder = [] := by
  refine ⟨⟨by decide, by decide, by decide, by decide, ?_, by decide⟩, by decide, by decide, by decide,
    by decide, by decide, rfl, rfl⟩
  decide
theorem test_meets_SweepOpenAndHeaderOnly :
    (applyingOf running sweepOpenChain).Applying .sweepOpen sweepOpenChain ∧
    (((applyingOf running sweepOpenChain).noted sweepOpenChain).1.feeder 14).isSome = true ∧
    (applyingOf running headerOnlyChain).tb.state = .working .apply ∧
    headerOnlyChain.headerOnly = true ∧ headerOnlyChain.kind = some .service :=
  ⟨⟨rfl, rfl, rfl, by decide⟩, by decide, rfl, rfl, by decide⟩
/-- A SWEEP-CLOSE being applied, with its feeder's entry. -/
def closing (f : Feeder) : State :=
  oneService (withFeeders (applyingOf running sweepCloseChain) [f] []) (stored 5 1)

theorem test_meets_SweepCloseDecided :
    (closing sweepingFeeder).Applying .sweepClose sweepCloseChain ∧
    ((closing sweepingFeeder).noted sweepCloseChain).1.feeder 14 =
      some { sweepingFeeder with expectedSequence := some 1 } ∧
    (((closing (quietFeeder 14)).noted sweepCloseChain).1.feeder 14).map Feeder.sweeping = some false ∧
    num2 sweepCloseChain.body 1 = 0 ∧ byteAt sweepCloseChain.body 0 = 40 :=
  ⟨⟨rfl, rfl, rfl, by decide⟩, by decide, by decide, by decide, by decide⟩

/-! Timers and the arbitration. -/

/-- The tables in a state, with claims waiting. -/
def settling (s : State) (x : TableState) (apply : Bool) (l : List Expiry) (window : Bool) : State :=
  s.setTb { s.tb with state := x, waitingApply := apply, waiting := l, windowRequest := window }

theorem test_meets_TimerExpiriesClaim :
    (oneService running (stored 65535 1)).tb.find 65535 = some (stored 65535 1) ∧
    (stored 65535 1).refresh = .running ∧
    (withFeeders running [sweepingFeeder] []).tb.feeder 14 = some sweepingFeeder ∧
    sweepingFeeder.lifetime = .running ∧ sweepingFeeder.limit = .running ∧
    (atSecond running 0 255 0 false).tb.time.secondTimer = true := by decide
theorem test_meets_ExpiryWorksComplete :
    (settling (oneService running (stored 5 1)) (.working (.refresh 5 true)) false [] false).tb.find 5 =
      some (stored 5 1) ∧
    (expiring (.lifetime 14)).tb.state = .working (.lifetime 14) ∧
    (expiring (.lifetime 14)).tb.feeder 14 = some silentFeeder ∧ silentFeeder.lifetime = .expired ∧
    (expiring (.sweepLimit 14)).tb.state = .working (.sweepLimit 14) ∧ silentFeeder.sweeping = true ∧
    silentFeeder.limit = .expired ∧
    (settling (atSecond running 86399 255 645 false) (.working .tick) false [] false).tb.time.second =
      some 86399 ∧
    0 < 255 ∧ 900 = min 900 (645 + 255) := by decide
theorem test_meets_ArbitrationSettlesClaims :
    (settling running (.working .tick) true [] true).tb.windowRequest = true ∧
    running.pa.swapPending = false ∧ (swapWaits running).pa.swapPending = true ∧
    (settling running .free false [] false).tb.windowRequest = false ∧
    (settling running (.working .tick) false [] false).tb.waiting = [] ∧
    (settling running (.working .tick) true [.tick] false).tb.waitingApply = true ∧
    (settling running (.working .tick) false [.tick, .refresh 1] false).tb.waiting ≠ [] ∧
    running.tb.time.second = none ∧ running.tb.feeder 14 = none ∧ running.tb.find 5 = none ∧
    (settling running (.working (.refresh 5 false)) false [] false).tb.state =
      .working (.refresh 5 false) := by decide
theorem test_meets_ArbitrationSettlesClaims_ask :
    running.started ∧ running.requestCompose.co.request = true ∧ running.requestCompose.co.pass = .idle ∧
    running.requestCompose.pa.swapPending = false ∧ running.requestCompose.tb.state = .free ∧
    (settling running (.working .tick) false [] false).requestCompose.tb.state ≠ .free ∧
    ¬(running.started ∧ running.co.pass = .idle ∧ running.co.request = true ∧
      running.pa.swapPending = false) :=
  ⟨Or.inr rfl, by decide, by decide, by decide, by decide, by decide, fun h => absurd h.2.2.1 (by decide)⟩

/-! Composing and agreement. -/

/-- A board with two services stored, the second due earlier. -/
def twoServices : State :=
  reading (running.setTb { running.tb with services := [stored 5 1, plain 850 6] })

theorem test_meets_WindowReleaseBuildsRows :
    twoServices.co.pass = .reading ∧ 1 ≤ twoServices.geometry.rowCount ∧
    boardServices twoServices.tb.services none 2 3 = [plain 850 6, stored 5 1] ∧
    (reading running).co.pass = .reading ∧ boardServices (reading running).tb.services none 2 3 = [] ∧
    (twoServices.tb.services.map fun v => v.number).Nodup := by decide
theorem test_meets_ComposeCompletes :
    (digesting (started .listen)).co.pass = .digesting ∧ (started .listen).sc.node = .listen ∧
    (digesting running).co.pass = .digesting ∧ (digesting running).co.nameMiss = false ∧
    (digesting running).co.request = false ∧ running.prof.segmentCount = 1 ∧
    running.au.agreement = .empty ∧ (paired running 3).prof.segmentCount ≠ 1 ∧
    (awaiting (paired running 3)).au.agreement ≠ .empty ∧
    (awaiting running).au.shownDigest ≠ some 0x3C17 ∧
    (running.setAu { running.au with agreement := .agreed, shownDigest := some 7 }).au.shownDigest =
      some 7 ∧
    chooseOrigin none [5, 9] = some 9 ∧ ((9 : Pace) - 5).toNat < 2 ^ 31 := by decide
theorem test_meets_AllHold : AllHold (paired running 3) 3 ∧ ¬AllHold (paired running 3) 4 := by
  constructor
  · intro i h a b _ e he
    have : i = 1 := by
      have b' : i < 2 := b
      have a' : i ≠ 0 := a
      omega
    subst this
    cases he
    rfl
  · intro h
    exact absurd (h 1 (by decide) (by decide) (by decide) rfl 3 rfl) (by decide)
theorem test_meets_BoardNoticesUpdatePeers :
    (holding (withProfile running twoSegments) digestChain).Delivered .digest digestChain ∧
    (holding (withProfile running twoSegments) paceChain).Delivered .pace paceChain ∧
    (holding (withProfile running twoSegments) statusChain).Delivered .status statusChain ∧
    boardNoticeOk .digest digestChain.body = true ∧ boardNoticeOk .pace [8, 0, 0, 0, 0] = false ∧
    num1 digestChain.body 0 < twoSegments.segmentCount ∧
    num1 digestChain.body 0 ≠ twoSegments.segmentIndex ∧
    running.prof.segmentCount ≤ num1 digestChain.body 0 ∧
    (paired running 3).au.peer 1 = ⟨true, some 9, some 3, some 1150⟩ ∧ digestChain.sender = 9 ∧
    ((withProfile running twoSegments).au.peer 1).live = false :=
  ⟨⟨rfl, rfl, by decide⟩, ⟨rfl, rfl, by decide⟩, ⟨rfl, rfl, by decide⟩, by decide, by decide, by decide,
    by decide, by decide, by decide, by decide, by decide⟩
/-- A peer at index 1, in an agreement state with a shown digest. -/
def agreeing (x : AgreementState) (shown peer : Digest) : State :=
  (paired running peer).setAu { (paired running peer).au with agreement := x, shownDigest := some shown }

theorem test_meets_DigestRunsAgreementRule :
    (holding (awaiting (paired running 3)) digestChain).Delivered .digest digestChain ∧
    (holding (awaiting (paired running 3)) digestChain).sc.node = .run ∧
    boardNoticeOk .digest digestChain.body = true ∧
    (awaiting (paired running 3)).isClash 1 9 = false ∧
    (awaiting (paired running 3)).au.agreement = .pending ∧
    (awaiting (paired running 3)).co.composed = some someSet ∧
    (awaiting (paired running 3)).au.composedDigest = some someSet.digest ∧
    (paired running 3).au.agreement = .empty ∧ (agreeing .agreed 3 3).au.agreement = .agreed ∧
    (agreeing .diverged 3 3).au.shownDigest = some 3 ∧ running.co.request = false ∧
    running.co.pass = .idle ∧ (digesting running).co.pass ≠ .idle :=
  ⟨⟨rfl, rfl, by decide⟩, by decide, by decide, by decide, by decide, by decide, by decide, by decide,
    by decide, by decide, by decide, by decide, by decide⟩
theorem test_digest_outcomes :
    [after (exec .digestNotice (holding (agreeing .agreed 3 3) digestChain)) (fun t => t.au.agreement),
      after (exec .digestNotice (holding (agreeing .diverged 0x3C17 3) digestChain))
        (fun t => t.au.agreement),
      after (exec .digestNotice (holding (digesting (agreeing .agreed 3 3)) digestChain))
        (fun t => t.au.agreement)] =
      [some .diverged, some .agreed, some .agreed] := by decide
theorem test_meets_AgreementUnitTimersExpire :
    ((paired running 3).au.peer 1).live = true ∧ (paired running 3).sc.node = .run ∧
    (paired running 3).au.agreement = .empty ∧ (awaiting (paired running 3)).au.agreement = .pending ∧
    (awaiting (paired running 3)).co.composed = some someSet ∧
    (awaiting (paired running 3)).au.agreementTimer = true ∧
    (awaiting (paired running 3)).au.ownProposal = some 1140 ∧
    (agreeing .diverged 3 4).au.agreement = .diverged ∧ (agreeing .diverged 3 4).au.shownDigest = some 3 ∧
    running.au.paceTimer = true ∧ running.au.beaconTimer = true ∧ running.au.sent = false ∧
    running.maySend = true ∧ running.lc.transmitter.state = .idle ∧ running.lc.queue = [] ∧
    (queueing [.pace 0]).lc.transmitter.state ≠ .idle ∧
    (∃ m ∈ (queueing [.pace 0]).lc.queue, m.kind = .pace) ∧
    (∀ m ∈ (queueing []).lc.queue, m.kind ≠ .pace) := by decide

/-! The panel, notices and banners. -/

theorem test_meets_FramesSampleAndPaint :
    running.pa.frameTimer = true ∧ running.pa.paint = .waiting ∧ running.co.request = false ∧
    running.requestCompose.co.request = true ∧ running.requestCompose.co.pass = .idle ∧
    running.requestCompose.tb.state = .free ∧
    (running.setPa { running.pa with paint := .painting }).pa.paint = .painting ∧
    narrowBrush.geometry.windowEnd < 16 ∧ paceAhead 1000 1000 = false ∧ paceAhead 1001 1000 = true ∧
    255 < 256 ∧ 400 ≤ 400 ∧ 256 < 400 := by decide
/-- A board of 128 columns with glyphs of no width: a text takes 3 columns a code. -/
def wideBrush : Brush :=
  ⟨⟨128, 64, 0, 127, 0, 3⟩, 7, [], ⟨15, 27, 9⟩, [], [], 0, 128, true⟩
/-- A row with time "14:20", platform "7" and status "On time". -/
def plainRow : ServiceRow := serviceRowOf { defaultProfile with platforms := .all } [] (stored 5 1)
/-- A shown set of three rows. -/
def threeRows (first : Row) : AdoptedSet := ⟨[first, .follow plainRow, .blank], 0, 3, 128, 0, 0⟩
/-- A frame of RUN. -/
def runFrame (first : Row) (second : Option Nat) (banner : Option (Text × Pace)) : FrameSample :=
  ⟨.run, some (threeRows first), 0, second, false, banner, 12⟩

theorem test_meets_FramesSampleAndPaint_rows :
    (runFrame (.lead plainRow [] 0) none none).node = .run ∧
    (runFrame (.lead plainRow [] 0) none none).shown = some (threeRows (.lead plainRow [] 0)) ∧
    1 ≤ wideBrush.geometry.rowCount ∧
    (threeRows (.phrase noDeparturesText)).rows[0]? = some (.phrase noDeparturesText) ∧
    (threeRows .blank).rows[3 - 1]? = some .blank ∧
    (threeRows .blank).rows[2 - 1]? = some (.follow plainRow) ∧
    textWidth wideBrush.glyphs plainRow.statusText = 21 ∧ 128 ≤ 107 + 21 ∧ 106 + 21 < 128 ∧
    plainRow.platform = some [0x37] ∧ 96 + 27 + 4 < 128 ∧ 128 ≤ 94 + 27 + 4 + 3 ∧
    128 ≤ 97 + 27 + 4 ∧ 93 + 27 + 4 + 3 < 128 ∧ textWidth wideBrush.glyphs plainRow.time = 15 ∧
    14 < 15 ∧ 18 < wideBrush.layout.time + 4 ∧ wideBrush.layout.time + 4 ≤ 19 ∧
    wideBrush.geometry.rowCount + 1 ≤ wideBrush.geometry.rowCount + 1 ∧ 6 < wideBrush.height ∧
    (wideBrush.destination (List.replicate 22 0x41)).length = 21 := by decide +kernel
theorem test_phrase_row_is_no_lead (r : ServiceRow) (calling : Text) (w : Nat) (rest : List Row) :
    (threeRows (.phrase noDeparturesText)).rows ≠ .lead r calling w :: rest := fun h => nomatch h
theorem test_meets_FramesSampleAndPaint_bottom :
    (runFrame .blank none (some ([0x41], 64))).banner = some ([0x41], 64) ∧
    textWidth wideBrush.glyphs [0x41] ≤ wideBrush.boardWidth ∧
    wideBrush.boardWidth < textWidth wideBrush.glyphs (List.replicate 43 0x41) ∧
    (runFrame .blank none none).banner = none ∧ (runFrame .blank none none).second = none ∧
    (runFrame .blank (some 86399) none).second = some 86399 ∧ 86399 < 86400 := by decide +kernel
theorem test_clock_text :
    hourMinuteSecond 50307 = [0x31, 0x33, 0x3A, 0x35, 0x38, 0x3A, 0x32, 0x37] ∧
    hourMinuteSecond 0 = [0x30, 0x30, 0x3A, 0x30, 0x30, 0x3A, 0x30, 0x30] := by decide
theorem test_meets_DimAndStaffAct :
    (holding running (chainOf 0x09 14 0 0 [15])).Delivered .dim (chainOf 0x09 14 0 0 [15]) ∧
    num1 [(15 : Byte)] 0 ≤ 15 ∧ 16 ≤ num1 [(16 : Byte)] 0 ∧
    (holding running (chainOf 0x08 14 0 0 [8, 15, 1, 0xBF])).Delivered .staff
      (chainOf 0x08 14 0 0 [8, 15, 1, 0xBF]) ∧
    staffOk [8, 15, 1, 0xBF] = true ∧ staffOk [9, 15, 1, 0x20] = false ∧ staffOk [1, 1, 0] = true ∧
    running.bu.slots.length = 8 :=
  ⟨⟨rfl, rfl, by decide⟩, by decide, by decide, ⟨rfl, rfl, by decide⟩, by decide, by decide, by decide,
    by decide⟩
theorem test_meets_QueryAndIntervalReport :
    (holding running (chainOf 0x0A 14 1 0 [63])).Delivered .query (chainOf 0x0A 14 1 0 [63]) ∧
    running.named 63 1 = true ∧ running.named 63 2 = false ∧ running.named 5 2 = true ∧
    running.named 62 0 = false ∧ running.maySend = true ∧ (started .listen).maySend = false ∧
    (running.noted (chainOf 0x0A 14 1 0 [63])).2 = [] ∧ 64 ≤ num1 [(64 : Byte)] 0 ∧
    num1 [(0 : Byte)] 0 = 0 ∧
    ([true, true, true] : List Bool)[2]? = some true ∧
    running.prof.intervalOf .lineCrc = 2 ∧ kindBit 1 .lineCrc = true ∧ kindBit 0 .lineCrc = false ∧
    (queueing []).lc.transmitter.state ≠ .idle ∧ (queueing []).maySend = true :=
  ⟨⟨rfl, rfl, by decide⟩, by decide, by decide, by decide, by decide, by decide, by decide, by decide,
    by decide, by decide, by decide, by decide, by decide, by decide, by decide, by decide⟩
def queryChain : Chain := chainOf 0x0A 14 1 0 [63]
/-- A QUERY delivered while the feeder table is full of feeders none of which is stale, with interval 1 of some
length: its header note raises FEEDER_FULL, bound to interval 1. -/
def querying (length : Nat) : State :=
  holding (withFeeders (withProfile running { defaultProfile with intervalLengths := [0, length, 120] })
    ((List.range 8).map fun n => quietFeeder (n + 1)) []) queryChain

theorem test_meets_QueryAndIntervalReport_note :
    (querying 8).Delivered .query queryChain ∧ ((querying 8).noted queryChain).2 = [.feederFull] ∧
    (∀ i, i < 3 → (querying 8).prof.intervalLengths.getD i 0 = 0 →
      (querying 8).ru.timers.getD i false = false ∧
        ∀ k ∈ [ReportKind.feederFull], (querying 8).prof.intervalOf k ≠ i) ∧
    ((querying 0).noted queryChain).2 = [.feederFull] ∧ (querying 0).ru.timers.length = 3 ∧
    (querying 0).prof.intervalOf .feederFull = 1 ∧
    (querying 0).prof.intervalLengths.getD ((querying 0).prof.intervalOf .feederFull) 0 = 0 ∧
    kindBit (querying 0).prof.masks .feederFull = false ∧
    (querying 0).lc.transmitter.state = .idle ∧ (querying 0).lc.queue = [] ∧
    (∀ k, kindBit ((0 : BitVec 19) ||| ReportKind.feederFull.bit) k = true ↔
      kindBit 0 k = true ∨ k ∈ [ReportKind.feederFull]) :=
  ⟨⟨rfl, rfl, by decide⟩, by decide, by decide, by decide, by decide, by decide, by decide, by decide,
    by decide, by decide, fun k => by cases k <;> decide⟩
/-- The QUERY's own header note stands in its STATUS; at an interval of length 0 a STATUS comes before it. -/
theorem test_query_reports_its_note :
    [after (exec .query (querying 8)) (fun t => (t.lc.queue.length, t.ru.pending, t.ru.counts.getD 11 0)),
      after (exec .query (querying 0)) (fun t =>
        (t.lc.queue.length, t.ru.pending, t.ru.counts.getD 11 0))] =
      [some (0, 0, 1), some (1, 0, 1)] := by decide +kernel
theorem test_meets_RestartTakesWarmValues :
    (holding running restartChain).Restarting restartChain ∧
    ((holding running restartChain).noted restartChain).2 = [] ∧
    (holding running (chainOf 0x0B 14 0 0 [62])).Delivered .restart (chainOf 0x0B 14 0 0 [62]) ∧
    targetOk [(62 : Byte)] = true ∧ running.named 62 0 = false ∧ num1 [(0 : Byte)] 0 = 0 ∧
    64 ≤ num1 [(64 : Byte)] 0 :=
  ⟨⟨⟨rfl, rfl, by decide⟩, by decide, by decide⟩, by decide, ⟨rfl, rfl, by decide⟩, by decide, by decide,
    by decide, by decide⟩

/-- Attention entries of services 1 to 8. -/
def eightEntries : List Attention := (List.range 8).map fun n => ⟨n + 1, .none⟩

theorem test_meets_AttentionMessagesTaken :
    1 ≤ defaultProfile.delayThreshold ∧ Group.c ≠ .d ∧ (∃ e ∈ eightEntries, e.service = 8) ∧
    (∀ e ∈ eightEntries, e.service ≠ 9) ∧ 8 ≤ eightEntries.length ∧
    (∀ e ∈ running.bu.list .a, e.service ≠ 9) ∧ (running.bu.list .a).length < 8 := by decide

/-- The Banner Unit with a banner of group A taken at pace 64. -/
def banner (line : LineState) : Bu :=
  { Bu.reset with
    listA := [⟨5, .none⟩], line := line, groupA := if line = .showing then .held else .quiet
    banner := some ⟨.a, [0x41], 64, 400, 500⟩ }
/-- The Banner Unit with groups A and D requesting. -/
def requesting : Bu :=
  { Bu.reset with
    listA := [⟨5, .none⟩], slots := some ⟨[0x41], 1⟩ :: List.replicate 7 none
    groupA := .requesting, groupD := .requesting }
/-- A shown set with service 5 on row 1. -/
def shownFive : AdoptedSet :=
  ⟨[.lead (serviceRowOf defaultProfile [] (stored 5 1)) [] 0, .blank, .blank], 0, 3, 128, 0, 0⟩

theorem test_meets_BannerPaceStep :
    Bu.reset.line = .idle ∧ crossesBoundary 6400 6401 = false ∧ crossesBoundary 6399 6400 = true ∧
    (banner .showing).banner = some ⟨.a, [0x41], 64, 400, 500⟩ ∧ ((463 : Pace) - 64).toNat < 400 ∧
    400 ≤ ((464 : Pace) - 64).toNat ∧ ((563 : Pace) - 64).toNat < 500 ∧
    500 ≤ ((564 : Pace) - 64).toNat ∧ crossesBoundary 463 464 = false ∧
    crossesBoundary 563 564 = false ∧ requesting.group .a = .requesting ∧
    ({ requesting with groupA := .held } : Bu).group .d = .requesting ∧
    (∀ e ∈ requesting.listA, e.service = 5) ∧
    shownServiceRows (some shownFive) = [] ++ serviceRowOf defaultProfile [] (stored 5 1) :: [] ∧
    requesting.slots.getD 0 none = some ⟨[0x41], 1⟩ ∧ defaultProfile.slotEnabled 0 = true ∧
    (∀ k, k < 8 → defaultProfile.slotEnabled k = true → Bu.reset.slots.getD k none = none) := by decide
/-- The Banner Unit after the step from pace 575 to 576, which ends the banner and its gap. -/
def bannerEnded : Bu := { banner .showing with groupA := .requesting, line := .idle, banner := none }

theorem test_meets_BannerPaceStep_ends :
    ((banner .showing).line = .idle ∨ (banner .showing).banner ≠ none) ∧
    crossesBoundary 575 576 = true ∧ EndsReached (banner .showing) defaultProfile 576 bannerEnded ∧
    Discarded bannerEnded defaultProfile (bannerEnded.discard defaultProfile) ∧
    bannerEnded.line = .idle ∧ bannerEnded.group .a = .requesting ∧
    crossesBoundary 511 512 = true ∧ 400 ≤ ((512 : Pace) - 64).toNat ∧ ((512 : Pace) - 64).toNat < 500 ∧
    (banner .gap).line ≠ .idle ∧ (∀ g, Bu.reset.group g ≠ .requesting) := by
  refine ⟨Or.inr (by decide), by decide, ⟨by decide, fun b h => ?_⟩, ⟨by decide, by decide, by decide⟩,
    by decide, by decide, by decide, by decide, by decide, by decide, fun g => by cases g <;> decide⟩
  cases h
  exact ⟨by decide, by decide, by decide, by decide⟩
/-- One step may end a banner, end its gap and take the next one. -/
theorem test_one_step_ends_and_takes :
    [((banner .showing).paceStep defaultProfile none 511 512).line,
      ((banner .showing).paceStep defaultProfile none 575 576).line,
      ((banner .gap).paceStep defaultProfile none 575 576).line] = [.gap, .showing, .idle] ∧
    ((banner .showing).paceStep defaultProfile none 575 576).banner.map Banner.takePace = some 576 := by
  decide
theorem test_banner_steps :
    [((banner .showing).paceStep defaultProfile none 463 464).line,
      ((banner .showing).paceStep defaultProfile none 462 463).line,
      ((banner .gap).paceStep defaultProfile none 563 564).line,
      (requesting.paceStep defaultProfile (some shownFive) 63 64).line] =
      [.gap, .showing, .idle, .showing] := by decide
theorem test_group_requests_again :
    ((banner .showing).paceStep defaultProfile none 463 464).groupA = .requesting := by decide
theorem test_take_of_group_a :
    (requesting.paceStep defaultProfile (some shownFive) 63 64).listA = [] ∧
    (requesting.paceStep defaultProfile (some shownFive) 63 64).groupD = .requesting := by decide

end Sys2Proof.Tests
end

