-- ==== Sys2Proof/Proofs/CyclicComparisons.lean ====
section
/-! SUPPORT. The cyclic comparisons (R13, R14) through the plain difference of two numbers, and the statement
of the family on them. -/

namespace Sys2Proof.Machine

/-! ### Differences of words -/

/-- The spelling of R13 and R14: the difference of two words is their plain difference modulo the cycle. -/
theorem toNat_sub_eq_cyclicDifference {w : Nat} (a b : BitVec w) :
    (a - b).toNat = (a.toNat + 2 ^ w - b.toNat) % 2 ^ w := by
  have hb := b.isLt
  rw [BitVec.toNat_sub, show 2 ^ w - b.toNat + a.toNat = a.toNat + 2 ^ w - b.toNat by omega]

theorem toNat_sub_eq_zero_iff {w : Nat} (a b : BitVec w) : (a - b).toNat = 0 ↔ a = b := by
  constructor
  · intro h
    have hzero : a - b = 0#w := BitVec.eq_of_toNat_eq (by rw [h, BitVec.toNat_zero])
    rw [← BitVec.sub_add_cancel a b, hzero, BitVec.zero_add]
  · rintro rfl
    rw [BitVec.sub_self, BitVec.toNat_zero]

/-- Differences in the two directions add up to the cycle: half a cycle one way is half a cycle back. -/
theorem toNat_sub_comm_of_half {w : Nat} {a b : BitVec (w + 1)} (h : (a - b).toNat = 2 ^ w) :
    (b - a).toNat = 2 ^ w := by
  have hpos : 0 < 2 ^ w := Nat.two_pow_pos w
  have hneg : b - a = -(a - b) := by rw [BitVec.neg_sub, BitVec.sub_eq_add_neg, BitVec.add_comm]
  rw [hneg, BitVec.toNat_neg, h, Nat.pow_succ, Nat.mod_eq_of_lt (by omega)]
  omega

/-! ### Editions (R13 (1)) -/

theorem editionNewer_iff (n o : BitVec 8) :
    editionNewer n o = true ↔ 1 ≤ (n - o).toNat ∧ (n - o).toNat ≤ 127 := decide_eq_true_iff

theorem editionOlder_iff (n o : BitVec 8) : editionOlder n o = true ↔ 128 ≤ (n - o).toNat :=
  decide_eq_true_iff

theorem editionOlder_both_of_half {n o : BitVec 8} (h : (n - o).toNat = 128) :
    editionOlder n o = true ∧ editionOlder o n = true :=
  have hback : (o - n).toNat = 128 := toNat_sub_comm_of_half (w := 7) h
  ⟨(editionOlder_iff n o).2 (Nat.le_of_eq h.symm), (editionOlder_iff o n).2 (Nat.le_of_eq hback.symm)⟩

/-- R13 (1) in the words of the statement. -/
theorem editions_compare (n o : BitVec 8) :
    ((n.toNat + 256 - o.toNat) % 256 = 0 ↔ n = o) ∧
    (editionNewer n o = true ↔
      1 ≤ (n.toNat + 256 - o.toNat) % 256 ∧ (n.toNat + 256 - o.toNat) % 256 ≤ 127) ∧
    (editionOlder n o = true ↔
      128 ≤ (n.toNat + 256 - o.toNat) % 256 ∧ (n.toNat + 256 - o.toNat) % 256 ≤ 255) ∧
    ((n.toNat + 256 - o.toNat) % 256 = 128 → editionOlder n o = true ∧ editionOlder o n = true) := by
  have hd : (n - o).toNat = (n.toNat + 256 - o.toNat) % 256 := toNat_sub_eq_cyclicDifference n o
  have hlt : (n - o).toNat < 256 := (n - o).isLt
  rw [← hd]
  refine ⟨toNat_sub_eq_zero_iff n o, editionNewer_iff n o, ?_, editionOlder_both_of_half⟩
  rw [editionOlder_iff]
  omega

/-! ### Sequence numbers (R13 (2), R73) -/

@[simp] theorem Feeder.noted_expectedSequence (f : Feeder) (q : BitVec 8) :
    (f.noted q).expectedSequence = some (q + 1) := rfl

theorem Feeder.gap_iff (f : Feeder) (q : BitVec 8) :
    f.gap q = true ↔ ∃ e, f.expectedSequence = some e ∧ q ≠ e := by
  unfold Feeder.gap
  cases f.expectedSequence with
  | none => simp
  | some e => simp only [decide_eq_true_iff, Option.some.injEq, exists_eq_left', ne_comm (a := e)]

/-- After a note the one number without a gap is the next one. -/
theorem Feeder.gap_noted_iff (f : Feeder) (q r : BitVec 8) : (f.noted q).gap r = true ↔ r ≠ q + 1 := by
  simp [Feeder.gap_iff]

/-- R13 (2) in the words of the statement. -/
theorem sequence_numbers_compare (f : Feeder) (q : BitVec 8) :
    (∃ e, (f.noted q).expectedSequence = some e ∧ e.toNat = (q.toNat + 1) % 256) ∧
    (f.gap q = true ↔ ∃ e, f.expectedSequence = some e ∧ q ≠ e) ∧
    (f.noted q).gap q = true ∧ (f.noted q).gap (q + 1) = false := by
  refine ⟨⟨q + 1, f.noted_expectedSequence q, BitVec.toNat_add q 1⟩, f.gap_iff q, ?_, ?_⟩
  · rw [f.gap_noted_iff]
    bv_omega
  · rw [← Bool.not_eq_true, f.gap_noted_iff]
    simp

/-! ### Pace values (R14 (1)) -/

theorem paceAhead_iff (q p : Pace) :
    paceAhead q p = true ↔ 1 ≤ (q - p).toNat ∧ (q - p).toNat ≤ 2 ^ 31 - 1 := decide_eq_true_iff

@[simp] theorem paceAhead_self (p : Pace) : paceAhead p p = false := by
  rw [← Bool.not_eq_true, paceAhead_iff, BitVec.sub_self]
  simp

theorem paceAhead_eq_false_of_half {q p : Pace} (h : (q - p).toNat = 2 ^ 31) : paceAhead q p = false := by
  rw [← Bool.not_eq_true, paceAhead_iff, h]
  omega

/-- R14 (1) in the words of the statement. -/
theorem paces_compare (q p : Pace) :
    (paceAhead q p = true ↔
      1 ≤ (q.toNat + 2 ^ 32 - p.toNat) % 2 ^ 32 ∧ (q.toNat + 2 ^ 32 - p.toNat) % 2 ^ 32 ≤ 2 ^ 31 - 1) ∧
    paceAhead p p = false ∧
    ((q.toNat + 2 ^ 32 - p.toNat) % 2 ^ 32 = 2 ^ 31 → paceAhead q p = false ∧ paceAhead p q = false) := by
  rw [← toNat_sub_eq_cyclicDifference]
  exact ⟨paceAhead_iff q p, paceAhead_self p, fun h =>
    ⟨paceAhead_eq_false_of_half h, paceAhead_eq_false_of_half (toNat_sub_comm_of_half h)⟩⟩

/-! ### Minutes of day (R14 (2)) -/

theorem minuteOffset_eq (t m : Nat) : minuteOffset t m = ((t : Int) - m + 720) % 1440 - 720 := rfl

theorem minuteOffset_mem_range (t m : Nat) : -720 ≤ minuteOffset t m ∧ minuteOffset t m ≤ 719 := by
  rw [minuteOffset_eq]
  omega

/-- A minute twelve hours away counts as twelve hours before. -/
theorem minuteOffset_of_half_day {t m : Nat} (h : (t + 720) % 1440 = m) : minuteOffset t m = -720 := by
  rw [minuteOffset_eq]
  omega

/-- While the clock holds a minute, services compare by the offsets of their display times (R40). -/
theorem Service.key_some (v : Service) (m : Nat) :
    v.key (some m) = minuteOffset (v.expected.getD v.scheduled) m := rfl

/-- Settles O17: each comparison is its difference around the cycle, and half a cycle lies as far ahead as
behind. -/
theorem cyclicComparisons : Obligations.CyclicComparisons := by
  unfold Obligations.CyclicComparisons
  refine ⟨editions_compare, sequence_numbers_compare, paces_compare, fun t m _ _ => ?_, fun v w m => ?_,
    fun _ => rfl⟩
  · obtain ⟨hlow, hhigh⟩ := minuteOffset_mem_range t m
    exact ⟨minuteOffset_eq t m, hlow, hhigh, minuteOffset_of_half_day⟩
  · rw [v.key_some, w.key_some]

end Sys2Proof.Machine
end

