-- ==== Sys2Proof/Proofs/ApplyCompletion.lean ====
section
/-! SUPPORT. What the completion of an apply does beside its work's effect on the tables (R29, R47, R50, R90). -/

namespace Sys2Proof.Machine

/-! ### The reports of a work (R47, R179) -/

theorem State.foldCount_counts (s : State) (ks : List ReportKind) :
    (ks.foldl State.count s).ru.counts = countsAfter s.ru.counts ks := by
  induction ks generalizing s with
  | nil => rfl
  | cons k rest ih => exact ih (s.count k)

theorem State.raiseAll_reported (s : State) (ks : List ReportKind) : Reported s (s.raiseAll ks) ks := by
  cases ks with
  | nil => exact ⟨rfl, rfl, rfl, fun _ => ⟨rfl, rfl, rfl⟩⟩
  | cons k rest =>
    refine ⟨?_, by simp, by simp, fun h => nomatch h⟩
    have counted := State.foldCount_counts s (k :: rest)
    simpa [State.raiseAll] using counted

/-- What is reported shows in the Report Unit, the transmit queue and the transmitter alone. -/
theorem Reported.congr {s s' t t' : State} {ks : List ReportKind} (h : Reported s t ks)
    (ru : s'.ru = s.ru) (lc : s'.lc = s.lc) (ru' : t'.ru = t.ru) (queue : t'.lc.queue = t.lc.queue)
    (transmitter : t'.lc.transmitter = t.lc.transmitter) : Reported s' t' ks := by
  unfold Reported at h ⊢
  rwa [ru, lc, ru', queue, transmitter]

theorem State.takeEffects_reported (s : State) (fx : Effect) :
    Reported s (s.takeEffects fx) (s.workReports fx) := by
  have placed : (s.place fx).ru = s.ru ∧ (s.place fx).lc = s.lc := by simp
  refine (State.raiseAll_reported (s.place fx) (s.workReports fx)).congr placed.1.symm placed.2.symm ?_ ?_ ?_ <;>
    simp only [State.takeEffects] <;> split <;> simp

theorem State.takeEffects_tb (s : State) (fx : Effect) : (s.takeEffects fx).tb = fx.tb := by
  simp only [State.takeEffects]
  split <;> simp [State.place]

theorem State.takeEffects_bu (s : State) (fx : Effect) :
    (s.takeEffects fx).bu = (s.bu.takeAll s.prof fx.messages).1 := by
  simp only [State.takeEffects]
  split <;> simp [State.place]

theorem State.takeEffects_co (s : State) (fx : Effect) :
    (s.takeEffects fx).co = { s.co with request := s.co.request || fx.compose } := by
  simp only [State.takeEffects]
  cases fx.compose <;> simp [State.requestCompose]

/-! ### The chain of an apply (R29) -/

/-- What the FIFO drains depends on the ring and the FIFO alone. -/
theorem Lc.drain_congr {a b : Lc} (ring : a.ring = b.ring) (fifo : a.fifo = b.fifo) :
    a.drain.ring = b.drain.ring ∧ a.drain.fifo = b.drain.fifo := by
  unfold Lc.drain
  rw [ring, fifo]
  cases b.ring.filling <;> simp [ring, fifo]

/-- Which chain is dispatched depends on the ring alone. -/
theorem State.dispatch_ring_congr {s t : State} (ring : s.lc.ring = t.lc.ring) :
    s.dispatch.lc.ring = t.dispatch.lc.ring := by
  unfold State.dispatch
  rw [ring]
  cases t.lc.ring.inWork with
  | some c => exact ring
  | none =>
    cases t.lc.ring.ready with
    | nil => exact ring
    | cons c rest => cases h : c.forTables <;> simp [h]

/-- Which chain is completed and what drains depends on the ring and the FIFO alone. -/
theorem State.completeNotice_ring_congr {s t : State} (ring : t.lc.ring = s.lc.ring)
    (fifo : t.lc.fifo = s.lc.fifo) :
    t.completeNotice.lc.ring = s.completeNotice.lc.ring ∧
      t.completeNotice.lc.fifo = s.completeNotice.lc.fifo := by
  have drained := Lc.drain_congr (a := { t.lc with ring := t.lc.ring.freeInWork })
    (b := { s.lc with ring := s.lc.ring.freeInWork }) (by simp [ring]) fifo
  exact ⟨State.dispatch_ring_congr drained.1, by simp [State.completeNotice, drained.2]⟩

/-! ### The Composer's request (R90 to R92) -/

/-- A grant to a Composer that asks begins its pass, or leaves the request where a swap is pending. -/
theorem State.grantWindow_asked (s : State) (h : s.co.request = true ∨ s.pa.swapPending = false) :
    s.grantWindow.co.request = true ∨ s.grantWindow.co.pass = .reading := by
  unfold State.grantWindow
  cases swap : s.pa.swapPending with
  | true => simpa [swap] using h
  | false => simp

/-- A Composer that asks for the window has its request standing, or its pass under way on a board with no swap
pending. -/
theorem State.askWindow_asked (s : State) (h : s.co.request = true) :
    s.askWindow.co.request = true ∨
      s.askWindow.co.pass = .reading ∧ s.askWindow.pa.swapPending = false := by
  unfold State.askWindow
  split
  next asks =>
    obtain ⟨-, -, -, swap⟩ := asks
    dsimp only
    split
    · exact (State.grantWindow_asked _ (Or.inl h)).imp id fun reading => ⟨reading, by simp [swap]⟩
    · exact Or.inl h
  next => exact Or.inl h

theorem State.arbitrate_asked (s : State)
    (h : s.co.request = true ∨ s.co.pass = .reading ∧ s.pa.swapPending = false) :
    s.arbitrate.co.request = true ∨ s.arbitrate.co.pass = .reading := by
  unfold State.arbitrate
  split
  · exact State.grantWindow_asked _ (h.imp id And.right)
  · simpa using h.imp id And.left

theorem State.arbitrate_co (s : State) (h : s.tb.windowRequest = false) : s.arbitrate.co = s.co := by
  simp [State.arbitrate, h]

theorem State.closeWork_asked (s : State) (h : s.co.request = true) :
    (s.closeWork true).co.request = true ∨ (s.closeWork true).co.pass = .reading :=
  s.askWindow.arbitrate_asked (s.askWindow_asked h)

/-! ### The completion of an apply (R47) -/

/-- The tables that a completed apply leaves are those of its work's effect, but for who holds them next. -/
theorem State.completeApply_tables (s : State) (fx : Effect) :
    (s.completeApply fx).tb.services = fx.tb.services ∧ (s.completeApply fx).tb.pool = fx.tb.pool ∧
    (s.completeApply fx).tb.names = fx.tb.names ∧ (s.completeApply fx).tb.refusals = fx.tb.refusals ∧
    (s.completeApply fx).tb.feeders = fx.tb.feeders ∧
    (s.completeApply fx).tb.staleOrder = fx.tb.staleOrder ∧ (s.completeApply fx).tb.time = fx.tb.time := by
  simp [State.completeApply, State.takeEffects_tb]

theorem State.completeApply_bu (s : State) (fx : Effect) :
    (s.completeApply fx).bu = (s.bu.takeAll s.prof fx.messages).1 := by
  simp [State.completeApply, State.takeEffects_bu]

theorem State.completeApply_outside (s : State) (fx : Effect) : OutsideTables s (s.completeApply fx) := by
  simp [OutsideTables]

theorem State.completeApply_chain (s : State) (fx : Effect) : ChainCompleted s (s.completeApply fx) := by
  have h := State.completeNotice_ring_congr (s := s) (t := s.takeEffects fx) (by simp) (by simp)
  simpa [ChainCompleted, State.completeApply] using h

theorem State.completeApply_reported (s : State) (fx : Effect) :
    Reported s (s.completeApply fx) (s.workReports fx) := by
  refine (s.takeEffects_reported fx).congr rfl rfl ?_ ?_ ?_ <;> simp [State.completeApply]

theorem State.completeApply_composeAsked (s : State) (fx : Effect)
    (window : fx.tb.windowRequest = s.tb.windowRequest) :
    ComposeAsked s (s.completeApply fx) fx.compose := by
  unfold State.completeApply
  constructor
  · intro asked
    rw [asked]
    exact State.closeWork_asked _ (by simp [State.takeEffects_co, asked])
  · rintro ⟨quiet, none⟩
    have still : (s.takeEffects fx).completeNotice.tb.windowRequest = false := by
      simp [State.takeEffects_tb, window, none]
    rw [quiet]
    exact (State.arbitrate_co _ still).trans (by simp [State.takeEffects_co, quiet])

/-- The completion of an apply whose work leaves a window request as it is does what every apply does. -/
theorem State.completeApply_frames (s : State) (fx : Effect)
    (window : fx.tb.windowRequest = s.tb.windowRequest) :
    ApplyFrame s (s.completeApply fx) (s.workReports fx) fx.compose :=
  ⟨s.completeApply_outside fx, s.completeApply_chain fx, s.completeApply_reported fx,
    s.completeApply_composeAsked fx window⟩

/-- An apply with its header note first: what it raises, which messages it sends and whether it requests a compose
are those of its work on the noted tables (R71). -/
theorem State.completeApply_applied (s : State) (c : Chain) (work : Tb → Effect)
    (window : (work (s.noted c).1).tb.windowRequest = s.tb.windowRequest) :
    Applied s (s.completeApply (s.tb.withNote c work)) c (work (s.noted c).1).reports
      (work (s.noted c).1).messages (work (s.noted c).1).compose :=
  ⟨s.completeApply_frames (s.tb.withNote c work) window, s.completeApply_bu _⟩

/-- An apply whose work leaves the tables as its header note left them, sends no message and requests no compose
changes the feeder table alone, by that note. -/
theorem State.completeApply_onlyNoted (s : State) (c : Chain) (work : Tb → Effect) {own : List ReportKind}
    (idle : work (s.noted c).1 = ⟨(s.noted c).1, [], own, false⟩) :
    OnlyNoted s (s.completeApply (s.tb.withNote c work)) c own := by
  obtain ⟨services, pool, names, refusals, -, -, -, window, time⟩ :=
    Tb.note_frame s.tb c.sender c.sequence
  have applied := State.completeApply_applied s c work (by rw [idle]; exact window)
  have after : (s.tb.withNote c work).tb = (s.noted c).1 := congrArg Effect.tb idle
  obtain ⟨services', pool', names', refusals', feeders', stale', time'⟩ :=
    State.completeApply_tables s (s.tb.withNote c work)
  rw [after] at services' pool' names' refusals' feeders' stale' time'
  rw [idle] at applied
  exact ⟨applied, ⟨services'.trans services, pool'.trans pool, names'.trans names,
    refusals'.trans refusals, time'.trans time⟩, feeders', stale'⟩

end Sys2Proof.Machine
end

