-- ==== Sys2Proof/Proofs/WithdrawApplied.lean ====
section
/-! SUPPORT. WITHDRAW (R62): when its work removes a service and when it does nothing, and the statement on it. -/

namespace Sys2Proof.Machine

/-! ### The work of a WITHDRAW (R62) -/

theorem Tb.find_congr {a b : Tb} (services : a.services = b.services) (n : Nat) : a.find n = b.find n := by
  simp only [Tb.find, services]

theorem Tb.note_find (tb : Tb) (sender : Nat) (sequence : BitVec 8) (n : Nat) :
    (tb.note sender sequence).1.find n = tb.find n :=
  Tb.find_congr (Tb.note_frame tb sender sequence).1 n

theorem withdrawOk_of_number {body : List Byte} (h : num2 body 0 ≠ 0) : withdrawOk body = true :=
  decide_eq_true h

theorem Tb.withdrawWork_removes {tb : Tb} {body : List Byte} {old : Service} (number : num2 body 0 ≠ 0)
    (stored : tb.find (num2 body 0) = some old) (young : editionOlder (byteAt body 2) old.edition = false) :
    tb.withdrawWork body = tb.removal old := by
  simp [Tb.withdrawWork, withdrawOk_of_number number, stored, young]

theorem Tb.withdrawWork_discarded {tb : Tb} {body : List Byte} (number : num2 body 0 ≠ 0)
    (discarded : tb.find (num2 body 0) = none ∨
      ∃ old, tb.find (num2 body 0) = some old ∧ editionOlder (byteAt body 2) old.edition = true) :
    tb.withdrawWork body = .none tb := by
  obtain missing | ⟨old, stored, older⟩ := discarded
  · simp [Tb.withdrawWork, withdrawOk_of_number number, missing]
  · simp [Tb.withdrawWork, withdrawOk_of_number number, stored, older]

/-! ### The removal of a service (R60) -/

theorem Tb.drop_find (tb : Tb) (v : Service) (n : Nat) :
    (tb.drop v).find n = if v.number = n then none else tb.find n :=
  find_without v.number n tb.services

/-- An apply whose work is a removal leaves the tables without that service. -/
theorem State.completeApply_removed (s : State) (c : Chain) (work : Tb → Effect) (v : Service)
    (removal : work (s.noted c).1 = (s.noted c).1.removal v) :
    Removed s (s.completeApply (s.tb.withNote c work)) v ∧
    (s.completeApply (s.tb.withNote c work)).tb.refusals = s.tb.refusals ∧
    FeedersNoted s (s.completeApply (s.tb.withNote c work)) c ∧
    Applied s (s.completeApply (s.tb.withNote c work)) c [] [.releaseAll v.number] true := by
  obtain ⟨services, pool, names, refusals, -, -, -, window, time⟩ :=
    Tb.note_frame s.tb c.sender c.sequence
  have applied := State.completeApply_applied s c work (by rw [removal]; exact window)
  rw [removal] at applied
  have after : (s.tb.withNote c work).tb = (s.noted c).1.drop v := congrArg Effect.tb removal
  obtain ⟨services', pool', names', refusals', feeders', stale', time'⟩ :=
    State.completeApply_tables s (s.tb.withNote c work)
  rw [after] at services' pool' names' refusals' feeders' stale' time'
  have found (n : Nat) : (s.completeApply (s.tb.withNote c work)).tb.find n =
      if v.number = n then none else s.tb.find n := by
    rw [Tb.find_congr services', Tb.drop_find, State.noted, Tb.note_find]
  refine ⟨⟨?_, fun n other => ?_, ?_, names'.trans names, time'.trans time⟩, refusals'.trans refusals,
    ⟨feeders', stale'⟩, applied⟩
  · rw [found, if_pos rfl]
  · rw [found, if_neg other.symm]
  · rw [pool', ← pool]
    rfl

/-! ### The apply of a WITHDRAW (R62) -/

theorem execWithdrawApply_applying {s : State} {c : Chain} (h : s.Applying .withdraw c) :
    exec .withdrawApply s = .next (s.completeApply (s.tb.withNote c fun tb => tb.withdrawWork c.body)) := by
  simp only [exec, execWithdrawApply, (s.applying_iff .withdraw c).2 h]

/-- Settles O42: the header note finds the service as it is stored, and the work removes it or does nothing by its
edition alone. -/
theorem withdrawApplied : Obligations.WithdrawApplied := by
  unfold Obligations.WithdrawApplied
  intro s c applying number
  have found (n : Nat) : (s.noted c).1.find n = s.tb.find n := s.tb.note_find c.sender c.sequence n
  rw [execWithdrawApply_applying applying, ← found]
  refine ⟨fun old stored young => ?_, fun discarded => ?_⟩
  · exact ⟨_, rfl, s.completeApply_removed c _ old (Tb.withdrawWork_removes number stored young)⟩
  · exact ⟨_, rfl, s.completeApply_onlyNoted c _ (Tb.withdrawWork_discarded number discarded)⟩

end Sys2Proof.Machine
end

