-- ==== Sys2Proof/Proofs/PlatformSet.lean ====
section
/-! SUPPORT. The platform set (R45): membership, and what each table work makes of the platforms stored. -/

namespace Sys2Proof.Machine

/-! ### Membership (R45) -/

@[simp] theorem PlatformSet.contains_all (p : Platform) : PlatformSet.all.contains p = true := rfl

theorem PlatformSet.contains_members (ms : List Platform) (p : Platform) :
    (PlatformSet.members ms).contains p = true ↔
      p ∈ ms ∨ ∃ m ∈ ms, m.number = p.number ∧ m.suffix = .none := by
  have listed (m : Platform) : m = p ↔ m.number = p.number ∧ m.suffix = p.suffix := by
    cases m
    cases p
    simp
  simp only [PlatformSet.contains, List.any_eq_true, Bool.and_eq_true, Bool.or_eq_true, beq_iff_eq]
  constructor
  · rintro ⟨m, member, number, suffix | suffix⟩
    · exact Or.inl ((listed m).2 ⟨number, suffix⟩ ▸ member)
    · exact Or.inr ⟨m, member, number, suffix⟩
  · rintro (member | ⟨m, member, number, suffix⟩)
    · exact ⟨p, member, rfl, Or.inl rfl⟩
    · exact ⟨m, member, number, Or.inr suffix⟩

theorem PlatformSet.contains_bare (n : Nat) (x : Suffix) :
    (PlatformSet.members [⟨n, .none⟩]).contains ⟨n, x⟩ = true :=
  (PlatformSet.contains_members _ _).2 (Or.inr ⟨⟨n, .none⟩, List.mem_singleton_self _, rfl, rfl⟩)

theorem PlatformSet.contains_suffixed (n : Nat) (p : Platform) :
    (PlatformSet.members [⟨n, .a⟩]).contains p = true ↔ p = ⟨n, .a⟩ := by
  rw [PlatformSet.contains_members]
  simp

theorem Platform.ne_of_parts {p q : Platform} (h : p.number ≠ q.number ∨ p.suffix ≠ q.suffix) : p ≠ q := by
  rintro rfl
  exact h.elim (absurd rfl) (absurd rfl)

/-! ### The platforms a service table stores -/

/-- Every service of the tables has its platform in the set. -/
def Tb.PlatformsIn (tb : Tb) (set : PlatformSet) : Prop :=
  ∀ v ∈ tb.services, set.contains v.platform = true

theorem State.platformsInSet_iff (s : State) : s.PlatformsInSet ↔ s.tb.PlatformsIn s.prof.platforms := Iff.rfl

section
variable {a b : Tb} {set : PlatformSet}

/-- Tables whose services are among those of other tables store no further platform. -/
theorem Tb.PlatformsIn.of_subset (h : a.PlatformsIn set) (subset : b.services ⊆ a.services) :
    b.PlatformsIn set :=
  fun v stored => h v (subset stored)

theorem Tb.PlatformsIn.congr (h : a.PlatformsIn set) (services : b.services = a.services) :
    b.PlatformsIn set :=
  h.of_subset (services ▸ List.Subset.refl _)

theorem Tb.PlatformsIn.of_find (h : a.PlatformsIn set) {n : Nat} {v : Service} (stored : a.find n = some v) :
    set.contains v.platform = true :=
  h v (Tb.find_some stored).1

theorem mem_putService {v w : Service} : ∀ {l : List Service}, w ∈ putService v l → w = v ∨ w ∈ l
  | [], h => Or.inl (List.mem_singleton.1 h)
  | x :: rest, h => by
    by_cases same : x.number = v.number
    · rw [putService, if_pos same] at h
      exact (List.mem_cons.1 h).imp id (List.mem_cons_of_mem x)
    · rw [putService, if_neg same] at h
      obtain rfl | later := List.mem_cons.1 h
      · exact Or.inr List.mem_cons_self
      · exact (mem_putService later).imp id (List.mem_cons_of_mem x)

theorem Tb.PlatformsIn.put (h : a.PlatformsIn set) {v : Service} (inSet : set.contains v.platform = true)
    (services : b.services = putService v a.services) : b.PlatformsIn set := by
  intro w stored
  rw [services] at stored
  obtain rfl | old := mem_putService stored
  · exact inSet
  · exact h w old

theorem Tb.PlatformsIn.drop (h : a.PlatformsIn set) (v : Service) : (a.drop v).PlatformsIn set :=
  h.of_subset List.filter_sublist.subset

theorem Tb.PlatformsIn.dropAll (h : a.PlatformsIn set) (vs : List Service) :
    (vs.foldl Tb.drop a).PlatformsIn set := by
  induction vs generalizing a with
  | nil => exact h
  | cons v rest ih => exact ih (h.drop v)

theorem Tb.PlatformsIn.write (h : a.PlatformsIn set) (sender : Nat) {r : ServiceRecord}
    (inSet : set.contains r.platform = true) : (a.write sender r).PlatformsIn set :=
  h.put (v := r.entry sender _) inSet rfl

/-- An equal edition leaves the platform of its entry. -/
theorem Tb.PlatformsIn.refresh (h : a.PlatformsIn set) (sender : Nat) {old : Service}
    (inSet : set.contains old.platform = true) : (a.refresh sender old).tb.PlatformsIn set :=
  h.put (v := { old with mark := true, owner := sender, refresh := .running }) inSet rfl

end

/-! ### The table works on a profile's platform set -/

section
variable {tb : Tb} {p : Profile} (h : tb.PlatformsIn p.platforms)
include h

theorem Tb.PlatformsIn.takeIn (sender : Nat) {r : ServiceRecord} (inSet : p.platforms.contains r.platform = true) :
    (tb.takeIn p sender r).1.tb.PlatformsIn p.platforms := by
  unfold Tb.takeIn
  split
  next => exact h.write sender inSet
  next =>
    split
    next => exact h
    next v _ =>
      split
      next => exact (h.drop v).write sender inSet
      next => exact h

theorem Tb.PlatformsIn.replace (sender : Nat) (old : Service) {r : ServiceRecord}
    (inSet : p.platforms.contains r.platform = true) :
    (tb.replace p sender old r).tb.PlatformsIn p.platforms :=
  Tb.PlatformsIn.write (a := { tb with pool := tb.pool.give old.chain }) h sender inSet

theorem Tb.PlatformsIn.applyService (sender : Nat) (r : ServiceRecord) :
    (tb.applyService p sender r).1.tb.PlatformsIn p.platforms := by
  unfold Tb.applyService
  cases stored : tb.find r.number with
  | none =>
    by_cases inSet : p.platforms.contains r.platform = true
    · rw [if_pos inSet]
      exact h.takeIn sender inSet
    · rw [if_neg inSet]
      exact h
  | some old =>
    dsimp only
    split
    next => exact h
    next =>
      split
      next => exact h.drop old
      next inSet =>
        split
        next => exact h.replace sender old (by simpa using inSet)
        next => exact h.refresh sender (h.of_find stored)

theorem Tb.PlatformsIn.serviceWork (sender : Nat) (body : List Byte) :
    (tb.serviceWork p sender body).tb.PlatformsIn p.platforms := by
  have applied := h.applyService sender (serviceRecord body)
  simp only [Tb.serviceWork]
  split
  · split
    · exact applied
    · exact applied
  · exact h

theorem Tb.PlatformsIn.amendWork (body : List Byte) : (tb.amendWork p body).tb.PlatformsIn p.platforms := by
  unfold Tb.amendWork Tb.applyAmend
  split
  next =>
    cases stored : tb.find (amendment body).number with
    | none => exact h
    | some old =>
      dsimp only
      split
      next => exact h
      next =>
        split
        next => exact h.drop old
        next inSet => exact h.put (v := (amendment body).entry old) (by simpa [Amendment.entry] using inSet) rfl
  next => exact h

end

section
variable {tb : Tb} {set : PlatformSet} (h : tb.PlatformsIn set)
include h

theorem Tb.PlatformsIn.withdrawWork (body : List Byte) : (tb.withdrawWork body).tb.PlatformsIn set := by
  unfold Tb.withdrawWork
  split
  next =>
    split
    next => exact h
    next old _ =>
      split
      next => exact h
      next => exact h.drop old
  next => exact h

theorem Tb.PlatformsIn.refreshWork (n : Nat) (live : Bool) : (tb.refreshWork n live).tb.PlatformsIn set := by
  unfold Tb.refreshWork
  split
  next =>
    split
    next => exact h
    next v _ => exact h.drop v
  next => exact h

/-- A SWEEP-OPEN changes marks alone. -/
theorem Tb.PlatformsIn.sweepOpenWork (sender : Nat) (body : List Byte) :
    (tb.sweepOpenWork sender body).tb.PlatformsIn set := by
  unfold Tb.sweepOpenWork
  split
  next => exact h
  next =>
    intro w stored
    obtain ⟨v, old, rfl⟩ := List.mem_map.1 stored
    split
    · exact h v old
    · exact h v old

theorem Tb.PlatformsIn.sweepCloseWork (sender : Nat) (body : List Byte) :
    (tb.sweepCloseWork sender body).tb.PlatformsIn set := by
  unfold Tb.sweepCloseWork
  split
  next => exact h
  next =>
    split
    next => exact h
    next =>
      split
      next => exact h
      next => exact h.dropAll (tb.unannounced sender)

end

end Sys2Proof.Machine
end

