-- ==== Sys2Proof/Proofs/ServicesStand.lean ====
section
/-! SUPPORT. The commands that leave the service table and the profile in force: every one but those of RESET/
and LOAD, RESTART, the applies and the table works of expiries, and the expiry of a refresh timer. -/

namespace Sys2Proof.Machine

/-! ### What a command leads to -/

/-- The answer is a next state, and that state has the property. -/
def Leads (a : Answer) (P : State → Prop) : Prop := ∃ t, a = .next t ∧ P t

@[simp] theorem leads_next {P : State → Prop} (t : State) : Leads (.next t) P ↔ P t := by
  simp [Leads]

theorem Leads.of_next {a : Answer} {P : State → Prop} {t : State} (h : Leads a P) (next : a = .next t) : P t := by
  rwa [next, leads_next] at h

theorem Leads.imp {a : Answer} {P Q : State → Prop} (h : Leads a P) (imp : ∀ t, P t → Q t) : Leads a Q :=
  Exists.imp (fun t => And.imp_right (imp t)) h

/-- Between `s` and `t` the service table and the profile in force stand. -/
def ServicesStand (s t : State) : Prop := t.tb.services = s.tb.services ∧ t.sc.profile = s.sc.profile

/-- An expiry that claims the tables leaves the services (R48). -/
@[simp] theorem Tb.claim_services (tb : Tb) (e : Expiry) : (tb.claim e).services = tb.services := by
  unfold Tb.claim
  split
  · rfl
  · split <;> rfl

/-! ### Commands that leave the service table and the profile (R16 to R36, R91 to R133, R144, R157 to R197) -/

section
variable (s : State)

theorem execListenTimerExpiry_servicesStand : Leads (execListenTimerExpiry s) (ServicesStand s) := by
  unfold execListenTimerExpiry
  split <;> simp [ServicesStand]

theorem execDiscardEnd_servicesStand (bits : List Bool) : Leads (execDiscardEnd bits s) (ServicesStand s) := by
  unfold execDiscardEnd
  split <;> simp [ServicesStand]

theorem execStartMark_servicesStand (bits : List Bool) : Leads (execStartMark bits s) (ServicesStand s) := by
  unfold execStartMark
  split <;> simp [ServicesStand]

theorem execFrameHeader_servicesStand (kind sender group sequence length : Byte) :
    Leads (execFrameHeader kind sender group sequence length s) (ServicesStand s) := by
  simp only [execFrameHeader]
  split
  · split <;> simp [ServicesStand]
  · simp [ServicesStand]

theorem execReceiveByte_servicesStand (data : Byte) : Leads (execReceiveByte data s) (ServicesStand s) := by
  simp only [execReceiveByte]
  split
  · simp [ServicesStand]
  · split <;> simp [ServicesStand]

theorem execFrameEnd_servicesStand (check : Digest) : Leads (execFrameEnd check s) (ServicesStand s) := by
  simp only [execFrameEnd]
  split
  · split <;> simp [ServicesStand]
  · simp [ServicesStand]

theorem execChainComplete_servicesStand : Leads (execChainComplete s) (ServicesStand s) := by
  simp [execChainComplete, ServicesStand]

theorem execBusyPeriodLimit_servicesStand (bits : List Bool) :
    Leads (execBusyPeriodLimit bits s) (ServicesStand s) := by
  simp only [execBusyPeriodLimit]
  split
  · split <;> simp [ServicesStand]
  · simp [ServicesStand]

theorem execTxAttemptStart_servicesStand : Leads (execTxAttemptStart s) (ServicesStand s) := by
  unfold execTxAttemptStart
  split
  · split <;> simp [ServicesStand]
  · simp [ServicesStand]

theorem execTxSuccess_servicesStand : Leads (execTxSuccess s) (ServicesStand s) := by
  unfold execTxSuccess
  split <;> simp [ServicesStand]

theorem execCollision_servicesStand (bit : Nat) : Leads (execCollision bit s) (ServicesStand s) := by
  unfold execCollision
  split <;> simp [ServicesStand]

theorem execJamEnd_servicesStand : Leads (execJamEnd s) (ServicesStand s) := by
  simp only [execJamEnd]
  split
  · split
    · simp [ServicesStand]
    · split <;> simp [ServicesStand]
  · simp [ServicesStand]

theorem execBackoffEnd_servicesStand : Leads (execBackoffEnd s) (ServicesStand s) := by
  unfold execBackoffEnd
  split <;> simp [ServicesStand]

theorem execFeederLifetimeExpiry_servicesStand (node : Nat) :
    Leads (execFeederLifetimeExpiry node s) (ServicesStand s) := by
  unfold execFeederLifetimeExpiry
  split
  · simp [ServicesStand]
  · split <;> simp [ServicesStand]

theorem execSweepLimitExpiry_servicesStand (node : Nat) :
    Leads (execSweepLimitExpiry node s) (ServicesStand s) := by
  unfold execSweepLimitExpiry
  split
  · simp [ServicesStand]
  · split <;> simp [ServicesStand]

theorem execSecondTimerExpiry_servicesStand : Leads (execSecondTimerExpiry s) (ServicesStand s) := by
  unfold execSecondTimerExpiry
  split <;> simp [ServicesStand]

theorem execWindowRelease_servicesStand : Leads (execWindowRelease s) (ServicesStand s) := by
  unfold execWindowRelease
  split <;> simp [ServicesStand]

theorem execComposeComplete_servicesStand : Leads (execComposeComplete s) (ServicesStand s) := by
  simp only [execComposeComplete]
  split <;> simp [ServicesStand]

theorem execDigestNotice_servicesStand : Leads (execDigestNotice s) (ServicesStand s) := by
  unfold execDigestNotice
  split <;> simp [ServicesStand]

theorem execPaceNotice_servicesStand : Leads (execPaceNotice s) (ServicesStand s) := by
  unfold execPaceNotice
  split <;> simp [ServicesStand]

theorem execStatusNotice_servicesStand : Leads (execStatusNotice s) (ServicesStand s) := by
  unfold execStatusNotice
  split <;> simp [ServicesStand]

theorem execPeerLifetimeExpiry_servicesStand (index : Nat) :
    Leads (execPeerLifetimeExpiry index s) (ServicesStand s) := by
  simp only [execPeerLifetimeExpiry]
  split
  · split <;> simp [ServicesStand]
  · simp [ServicesStand]

theorem execAgreementTimerExpiry_servicesStand : Leads (execAgreementTimerExpiry s) (ServicesStand s) := by
  simp only [execAgreementTimerExpiry]
  split
  · split <;> simp [ServicesStand]
  · simp [ServicesStand]

theorem execPaceTick_servicesStand : Leads (execPaceTick s) (ServicesStand s) := by
  unfold execPaceTick
  split <;> simp [ServicesStand]

theorem execBeaconTimerExpiry_servicesStand : Leads (execBeaconTimerExpiry s) (ServicesStand s) := by
  simp only [execBeaconTimerExpiry]
  split
  · simp only [leads_next]
    split <;> simp [ServicesStand]
  · simp [ServicesStand]

theorem execFrameEvent_servicesStand : Leads (execFrameEvent s) (ServicesStand s) := by
  unfold execFrameEvent
  split <;> simp [ServicesStand]

theorem execFrameComplete_servicesStand : Leads (execFrameComplete s) (ServicesStand s) := by
  unfold execFrameComplete
  split <;> simp [ServicesStand]

theorem execDim_servicesStand : Leads (execDim s) (ServicesStand s) := by
  unfold execDim
  split <;> simp [ServicesStand]

theorem execStaffNotice_servicesStand : Leads (execStaffNotice s) (ServicesStand s) := by
  unfold execStaffNotice
  split <;> simp [ServicesStand]

theorem execQuery_servicesStand : Leads (execQuery s) (ServicesStand s) := by
  unfold execQuery
  split <;> simp [ServicesStand]

theorem execIntervalTimerExpiry_servicesStand (index : Nat) :
    Leads (execIntervalTimerExpiry index s) (ServicesStand s) := by
  unfold execIntervalTimerExpiry
  split <;> simp [ServicesStand]

end

end Sys2Proof.Machine
end

