-- ==== Sys2Proof/Proofs/StoredPlatforms.lean ====
section
/-! SUPPORT. Every step keeps the stored platforms in the set of the profile in force (R45), and the statement of
the platform set. -/

namespace Sys2Proof.Machine

/-! ### Service tables that keep to the set (R45) -/

theorem ServicesStand.platformsInSet {s t : State} (h : ServicesStand s t) (inSet : s.PlatformsInSet) :
    t.PlatformsInSet := by
  obtain ⟨services, profile⟩ := h
  unfold State.PlatformsInSet State.prof
  rwa [services, profile]

theorem State.platformsInSet_of_nil {s : State} (h : s.tb.services = []) : s.PlatformsInSet := by
  simp [State.PlatformsInSet, h]

/-! ### The completion of a table work (R47) -/

section
variable {s : State}

theorem State.completeApply_platforms {work : Tb → Effect} (c : Chain)
    (kept : (work (s.noted c).1).tb.PlatformsIn s.prof.platforms) :
    (s.completeApply (s.tb.withNote c work)).PlatformsInSet := by
  obtain ⟨services, -⟩ := State.completeApply_tables s (s.tb.withNote c work)
  have profile : (s.completeApply (s.tb.withNote c work)).prof = s.prof := by simp [State.prof]
  rw [State.platformsInSet_iff, profile]
  exact kept.congr services

theorem State.completeExpiry_platforms {fx : Effect} (kept : fx.tb.PlatformsIn s.prof.platforms) :
    (s.completeExpiry fx).PlatformsInSet := by
  have services : (s.completeExpiry fx).tb.services = fx.tb.services := by
    simp [State.completeExpiry, State.takeEffects_tb]
  have profile : (s.completeExpiry fx).prof = s.prof := by simp [State.prof]
  rw [State.platformsInSet_iff, profile]
  exact kept.congr services

theorem State.noted_platforms (inSet : s.PlatformsInSet) (c : Chain) : (s.noted c).1.PlatformsIn s.prof.platforms :=
  Tb.PlatformsIn.congr (a := s.tb) inSet (Tb.note_frame s.tb c.sender c.sequence).1

end

/-! ### Commands of RESET/ and LOAD, under which the service table is empty (R188 to R196) -/

/-- Until LOAD has ended no service is stored (R68, R188). -/
theorem State.StartupSound.services_nil {s : State} (sound : s.StartupSound) (starting : s.starting) :
    s.tb.services = [] := by
  obtain ⟨reset, load, -⟩ := sound
  have blocks : s.BlocksAtReset := by
    obtain inReset | inLoad := starting
    · obtain ⟨-, -, -, -, -, -, blocks⟩ := reset inReset
      exact blocks
    · exact (load inLoad).1
  obtain ⟨-, ⟨services, -⟩, -⟩ := blocks
  exact services

/-- A command that acts in RESET and LOAD alone, and leaves the tables, keeps the stored platforms in the set. -/
theorem State.StartupSound.keeps_of_tb {s t : State} (sound : s.StartupSound) (starting : s.starting)
    (tables : t.tb = s.tb) : t.PlatformsInSet :=
  State.platformsInSet_of_nil (tables ▸ sound.services_nil starting)

section
variable {s : State} (inSet : s.PlatformsInSet)

theorem execColdReset_platforms : Leads (execColdReset s) State.PlatformsInSet :=
  ⟨_, rfl, State.platformsInSet_of_nil rfl⟩

include inSet

theorem execResetRelease_platforms (sound : s.StartupSound) (node : BitVec 6) (glyport : Bool) :
    Leads (execResetRelease node glyport s) State.PlatformsInSet := by
  simp only [execResetRelease]
  split
  next inReset =>
    have keeps (t : State) : t.tb = s.tb → t.PlatformsInSet := sound.keeps_of_tb (Or.inl inReset)
    split
    · exact ⟨_, rfl, keeps _ rfl⟩
    · exact ⟨_, rfl, keeps _ (by simp)⟩
  next => exact ⟨s, rfl, inSet⟩

theorem execGlyphReadComplete_platforms (sound : s.StartupSound) (data : Byte) :
    Leads (execGlyphReadComplete data s) State.PlatformsInSet := by
  unfold execGlyphReadComplete
  split
  next a inLoad _ =>
    have keeps (t : State) : t.tb = s.tb → t.PlatformsInSet := sound.keeps_of_tb (Or.inr inLoad)
    split
    · exact ⟨_, rfl, keeps _ (by simp)⟩
    · exact ⟨_, rfl, keeps _ (by simp)⟩
  next => exact ⟨s, rfl, inSet⟩

theorem execGlyphReadTimeout_platforms (sound : s.StartupSound) :
    Leads (execGlyphReadTimeout s) State.PlatformsInSet := by
  unfold execGlyphReadTimeout
  split
  next a inLoad _ =>
    have keeps (t : State) : t.tb = s.tb → t.PlatformsInSet := sound.keeps_of_tb (Or.inr inLoad)
    split
    · exact ⟨_, rfl, keeps _ (by simp)⟩
    · exact ⟨_, rfl, keeps _ (by simp)⟩
  next => exact ⟨s, rfl, inSet⟩

/-- A RESTART empties the tables or leaves its header note alone (R198). -/
theorem execRestart_platforms : Leads (execRestart s) State.PlatformsInSet := by
  simp only [execRestart]
  split
  next => exact ⟨s, rfl, inSet⟩
  next c _ =>
    have stand (t : State) : ServicesStand s t → t.PlatformsInSet := fun h => h.platformsInSet inSet
    split
    · split
      · exact ⟨_, rfl, State.platformsInSet_of_nil rfl⟩
      · exact ⟨_, rfl, stand _ (by simp [ServicesStand])⟩
    · exact ⟨_, rfl, stand _ (by simp [ServicesStand])⟩

/-! ### Commands that complete a table work (R47) -/

theorem execNameApply_platforms : Leads (execNameApply s) State.PlatformsInSet := by
  unfold execNameApply
  split
  next => exact ⟨s, rfl, inSet⟩
  next c _ => exact ⟨_, rfl, s.completeApply_platforms c ((s.noted_platforms inSet c).congr (by simp))⟩

theorem execServiceApply_platforms : Leads (execServiceApply s) State.PlatformsInSet := by
  unfold execServiceApply
  split
  next => exact ⟨s, rfl, inSet⟩
  next c _ => exact ⟨_, rfl, s.completeApply_platforms c ((s.noted_platforms inSet c).serviceWork _ _)⟩

theorem execAmendApply_platforms : Leads (execAmendApply s) State.PlatformsInSet := by
  unfold execAmendApply
  split
  next => exact ⟨s, rfl, inSet⟩
  next c _ => exact ⟨_, rfl, s.completeApply_platforms c ((s.noted_platforms inSet c).amendWork _)⟩

theorem execWithdrawApply_platforms : Leads (execWithdrawApply s) State.PlatformsInSet := by
  unfold execWithdrawApply
  split
  next => exact ⟨s, rfl, inSet⟩
  next c _ => exact ⟨_, rfl, s.completeApply_platforms c ((s.noted_platforms inSet c).withdrawWork _)⟩

theorem execSweepOpen_platforms : Leads (execSweepOpen s) State.PlatformsInSet := by
  unfold execSweepOpen
  split
  next => exact ⟨s, rfl, inSet⟩
  next c _ => exact ⟨_, rfl, s.completeApply_platforms c ((s.noted_platforms inSet c).sweepOpenWork _ _)⟩

theorem execSweepClose_platforms : Leads (execSweepClose s) State.PlatformsInSet := by
  unfold execSweepClose
  split
  next => exact ⟨s, rfl, inSet⟩
  next c _ => exact ⟨_, rfl, s.completeApply_platforms c ((s.noted_platforms inSet c).sweepCloseWork _ _)⟩

theorem execClock_platforms : Leads (execClock s) State.PlatformsInSet := by
  unfold execClock
  split
  next => exact ⟨s, rfl, inSet⟩
  next c _ => exact ⟨_, rfl, s.completeApply_platforms c ((s.noted_platforms inSet c).congr (by simp))⟩

theorem execHeaderOnlyApply_platforms : Leads (execHeaderOnlyApply s) State.PlatformsInSet := by
  unfold execHeaderOnlyApply
  split
  next => exact ⟨s, rfl, inSet⟩
  next c _ => exact ⟨_, rfl, s.completeApply_platforms c ((s.noted_platforms inSet c).congr (by simp))⟩

theorem execRefreshTableWork_platforms : Leads (execRefreshTableWork s) State.PlatformsInSet := by
  unfold execRefreshTableWork
  split
  next => exact ⟨_, rfl, s.completeExpiry_platforms ((s.platformsInSet_iff.1 inSet).refreshWork _ _)⟩
  next => exact ⟨s, rfl, inSet⟩

theorem execFeederLifetimeTableWork_platforms : Leads (execFeederLifetimeTableWork s) State.PlatformsInSet := by
  unfold execFeederLifetimeTableWork
  split
  next => exact ⟨_, rfl, s.completeExpiry_platforms ((s.platformsInSet_iff.1 inSet).congr (by simp))⟩
  next => exact ⟨s, rfl, inSet⟩

theorem execSweepLimitTableWork_platforms : Leads (execSweepLimitTableWork s) State.PlatformsInSet := by
  unfold execSweepLimitTableWork
  split
  next => exact ⟨_, rfl, s.completeExpiry_platforms ((s.platformsInSet_iff.1 inSet).congr (by simp))⟩
  next => exact ⟨s, rfl, inSet⟩

theorem execTickTableWork_platforms : Leads (execTickTableWork s) State.PlatformsInSet := by
  unfold execTickTableWork
  split
  next => exact ⟨_, rfl, s.completeExpiry_platforms ((s.platformsInSet_iff.1 inSet).congr (by simp))⟩
  next => exact ⟨s, rfl, inSet⟩

/-- An expired refresh timer leaves the platform of its entry (R61). -/
theorem execRefreshTimerExpiry_platforms (service : Nat) :
    Leads (execRefreshTimerExpiry service s) State.PlatformsInSet := by
  unfold execRefreshTimerExpiry
  split
  next => exact ⟨s, rfl, inSet⟩
  next v stored =>
    split
    · have tables := s.platformsInSet_iff.1 inSet
      have kept : s.prof.platforms.contains v.platform = true := tables.of_find stored
      exact ⟨_, rfl, tables.put (v := { v with refresh := .expired }) kept (by simp)⟩
    · exact ⟨s, rfl, inSet⟩

end

/-! ### Every step (R45) -/

/-- Every command keeps the stored platforms in the set in force. -/
theorem exec_platforms {s : State} (sound : s.StartupSound) (inSet : s.PlatformsInSet) (i : Instr) :
    Leads (exec i s) State.PlatformsInSet := by
  have stand {a : Answer} (h : Leads a (ServicesStand s)) : Leads a State.PlatformsInSet :=
    h.imp fun _ stands => stands.platformsInSet inSet
  cases i with
  | coldReset => exact execColdReset_platforms
  | resetRelease node glyport => exact execResetRelease_platforms inSet sound node glyport
  | glyphReadComplete data => exact execGlyphReadComplete_platforms inSet sound data
  | glyphReadTimeout => exact execGlyphReadTimeout_platforms inSet sound
  | listenTimerExpiry => exact stand (execListenTimerExpiry_servicesStand s)
  | discardEnd bits => exact stand (execDiscardEnd_servicesStand s bits)
  | startMark bits => exact stand (execStartMark_servicesStand s bits)
  | frameHeader kind sender group sequence length =>
    exact stand (execFrameHeader_servicesStand s kind sender group sequence length)
  | receiveByte data => exact stand (execReceiveByte_servicesStand s data)
  | frameEnd check => exact stand (execFrameEnd_servicesStand s check)
  | chainComplete => exact stand (execChainComplete_servicesStand s)
  | busyPeriodLimit bits => exact stand (execBusyPeriodLimit_servicesStand s bits)
  | txAttemptStart => exact stand (execTxAttemptStart_servicesStand s)
  | txSuccess => exact stand (execTxSuccess_servicesStand s)
  | collision bit => exact stand (execCollision_servicesStand s bit)
  | jamEnd => exact stand (execJamEnd_servicesStand s)
  | backoffEnd => exact stand (execBackoffEnd_servicesStand s)
  | nameApply => exact execNameApply_platforms inSet
  | serviceApply => exact execServiceApply_platforms inSet
  | amendApply => exact execAmendApply_platforms inSet
  | withdrawApply => exact execWithdrawApply_platforms inSet
  | sweepOpen => exact execSweepOpen_platforms inSet
  | sweepClose => exact execSweepClose_platforms inSet
  | clock => exact execClock_platforms inSet
  | headerOnlyApply => exact execHeaderOnlyApply_platforms inSet
  | refreshTimerExpiry service => exact execRefreshTimerExpiry_platforms inSet service
  | refreshTableWork => exact execRefreshTableWork_platforms inSet
  | feederLifetimeExpiry node => exact stand (execFeederLifetimeExpiry_servicesStand s node)
  | feederLifetimeTableWork => exact execFeederLifetimeTableWork_platforms inSet
  | sweepLimitExpiry node => exact stand (execSweepLimitExpiry_servicesStand s node)
  | sweepLimitTableWork => exact execSweepLimitTableWork_platforms inSet
  | secondTimerExpiry => exact stand (execSecondTimerExpiry_servicesStand s)
  | tickTableWork => exact execTickTableWork_platforms inSet
  | windowRelease => exact stand (execWindowRelease_servicesStand s)
  | composeComplete => exact stand (execComposeComplete_servicesStand s)
  | digestNotice => exact stand (execDigestNotice_servicesStand s)
  | paceNotice => exact stand (execPaceNotice_servicesStand s)
  | statusNotice => exact stand (execStatusNotice_servicesStand s)
  | peerLifetimeExpiry index => exact stand (execPeerLifetimeExpiry_servicesStand s index)
  | agreementTimerExpiry => exact stand (execAgreementTimerExpiry_servicesStand s)
  | paceTick => exact stand (execPaceTick_servicesStand s)
  | beaconTimerExpiry => exact stand (execBeaconTimerExpiry_servicesStand s)
  | frameEvent => exact stand (execFrameEvent_servicesStand s)
  | frameComplete => exact stand (execFrameComplete_servicesStand s)
  | dim => exact stand (execDim_servicesStand s)
  | staffNotice => exact stand (execStaffNotice_servicesStand s)
  | query => exact stand (execQuery_servicesStand s)
  | intervalTimerExpiry index => exact stand (execIntervalTimerExpiry_servicesStand s index)
  | restart => exact execRestart_platforms inSet

/-- Settles O9: membership as R45 has it; every command leaves the stored services and the profile, empties the
tables, acts before any service is stored, or stores only platforms it has found in the set. -/
theorem storedPlatformsStayInSet : Obligations.StoredPlatformsStayInSet := by
  unfold Obligations.StoredPlatformsStayInSet
  refine ⟨PlatformSet.contains_all, PlatformSet.contains_members, PlatformSet.contains_bare,
    PlatformSet.contains_suffixed, fun _ _ => Platform.ne_of_parts, fun s t sound inSet stepped => ?_⟩
  unfold step at stepped
  split at stepped
  next =>
    cases stepped
    exact inSet
  next i rest _ =>
    exact (exec_platforms (s := { s with pending := rest }) sound inSet i).of_next stepped

end Sys2Proof.Machine
end

