-- ==== Sys2Proof/Proofs/CentredText.lean ====
section
/-! SUPPORT. Where a centred text stands on the board (R155), the board columns of a segment's window (R141), and the
statement of the place of a centred text. -/

namespace Sys2Proof.Machine

/-! ### A text wider than the board (R155) -/

/-- A text that fills the board, or overflows it, stands from board column 0. -/
theorem Brush.centredPixel_of_boardWidth_le {k : Brush} {t : Text} (c : TextClass) (n : Nat) {x : Nat}
    (fills : k.boardWidth ≤ textWidth k.glyphs t) (onBoard : x < k.boardWidth) :
    k.centredPixel c t n x = k.ink c t n x := by
  have start : (k.boardWidth - textWidth k.glyphs t) / 2 = 0 := by rw [Nat.sub_eq_zero_of_le fills, Nat.zero_div]
  have within : 0 ≤ x ∧ x < 0 + textWidth k.glyphs t := by omega
  simp only [Brush.centredPixel, start, if_pos within, Nat.sub_zero]

/-! ### The text lines and the window of a segment (R141) -/

/-- A panel line that lies `offset` lines below the top, on text line `j`, and its glyph row there. -/
theorem textLine_of_offset {height j offset : Nat} (reached : j * height ≤ offset)
    (below : offset < (j + 1) * height) :
    offset / height = j ∧ offset % height = offset - j * height := by
  have line : offset / height = j := Nat.div_eq_of_lt_le reached below
  refine ⟨line, ?_⟩
  rw [Nat.mod_eq_sub_div_mul, line]

/-- On the panel lines of the bottom line, within the window, a segment paints the bottom line at its own board
columns (R141, R142). -/
theorem Brush.pixel_bottomLine {k : Brush} (f : FrameSample) {line column : Nat}
    (left : k.geometry.windowBegin ≤ column) (right : column ≤ k.geometry.windowEnd)
    (top : k.geometry.topLine + (k.geometry.rowCount + 1) * k.height ≤ line)
    (bottom : line < k.geometry.topLine + (k.geometry.rowCount + 2) * k.height) :
    k.pixel f line column =
      k.bottomPixel f (line - (k.geometry.topLine + (k.geometry.rowCount + 1) * k.height))
        (k.segmentIndex * k.geometry.windowWidth + (column - k.geometry.windowBegin)) := by
  have onBoard : k.geometry.topLine ≤ line ∧ line < k.geometry.topLine + (k.geometry.rowCount + 2) * k.height ∧
      k.geometry.windowBegin ≤ column ∧ column ≤ k.geometry.windowEnd := ⟨by omega, bottom, left, right⟩
  obtain ⟨lineOf, rowOf⟩ := textLine_of_offset (height := k.height) (j := k.geometry.rowCount + 1)
    (offset := line - k.geometry.topLine) (by omega)
    (by rw [show k.geometry.rowCount + 1 + 1 = k.geometry.rowCount + 2 from rfl]; omega)
  simp only [Brush.pixel, if_pos onBoard, Brush.linePixel, lineOf, rowOf, if_true, Nat.sub_sub]

/-- In LISTEN the bottom line is the phrase Starting (R154). -/
theorem Brush.bottomPixel_listen (k : Brush) {f : FrameSample} (listening : f.node = .listen) (n x : Nat) :
    k.bottomPixel f n x = k.centredPixel .text startingText n x := by
  simp only [Brush.bottomPixel, listening]

/-- The board columns of a segment's window lie on the board of every board that has the segment. -/
theorem Geometry.boardColumn_lt {g : Geometry} {segment count column : Nat} (right : column ≤ g.windowEnd)
    (member : segment < count) :
    segment * g.windowWidth + (column - g.windowBegin) < count * g.windowWidth := by
  have inWindow : column - g.windowBegin < g.windowWidth := by unfold Geometry.windowWidth; omega
  calc segment * g.windowWidth + (column - g.windowBegin)
      < segment * g.windowWidth + g.windowWidth := Nat.add_lt_add_left inWindow _
    _ = (segment + 1) * g.windowWidth := (Nat.succ_mul _ _).symm
    _ ≤ count * g.windowWidth := Nat.mul_le_mul_right _ member

/-- Settles O19: a centred text begins at half the columns it leaves free, of which a text wider than the board leaves
none, and the bottom line of LISTEN is painted through the window of the segment. -/
theorem centredTextPlace : Obligations.CentredTextPlace := by
  unfold Obligations.CentredTextPlace
  refine ⟨fun _ _ _ _ _ _ => rfl, fun k c t n x wider onBoard => ?_, ?_⟩
  · exact Brush.centredPixel_of_boardWidth_le c n (Nat.le_of_lt wider) onBoard
  · intro k f line column listening _ left right top bottom
    refine ⟨?_, fun count member => Geometry.boardColumn_lt right member⟩
    rw [Brush.pixel_bottomLine f left right top bottom, k.bottomPixel_listen listening]

end Sys2Proof.Machine
end

