-- ==== Sys2Proof/Proofs/Brightness.lean ====
section
/-! SUPPORT. The brightness in force after RESTART, DIM and a cold reset (R157, R158), the painter that no command
lights before the end of LOAD, and the statement of the brightness through resets. -/

namespace Sys2Proof.Machine

/-! ### The notices that set a brightness (R157, R158, R198) -/

/-- A RESTART that names the part leads to a warm restart after its direct note (R198). -/
theorem execRestart_of_restarting {s : State} {c : Chain} (restarting : s.Restarting c) :
    execRestart s = .next (s.directNote c).warmRestart := by
  obtain ⟨arrived, wellFormed, named⟩ := restarting
  simp only [execRestart, (s.delivered_iff .restart c).2 arrived, if_pos wellFormed, if_pos named]

/-- A warm restart puts the brightness of the profile in force (R158). -/
theorem State.warmRestart_brightness (s : State) : s.warmRestart.pa.brightness = some s.prof.brightness := rfl

/-- A well-formed DIM puts its own brightness in force (R157). -/
theorem State.applyDim_brightness (s : State) {body : List Byte} (wellFormed : dimOk body = true) :
    (s.applyDim body).pa.brightness = some (num1 body 0) := by
  simp [State.applyDim, if_pos wellFormed]

/-- A delivered DIM is applied and completed after its direct note (R28, R157). -/
theorem execDim_of_delivered {s : State} {c : Chain} (arrived : s.Delivered .dim c) :
    execDim s = .next ((s.directNote c).applyDim c.body).completeNotice := by
  simp only [execDim, (s.delivered_iff .dim c).2 arrived]

/-! ### The painter before the end of LOAD -/

/-- In RESET and LOAD no brightness is in force and the panel is DARK (R158, R159). -/
def State.DarkWhileStarting (s : State) : Prop := s.starting → s.pa.brightness = none ∧ s.pa.paint = .dark

/-- Between `s` and `t` the node state, the brightness and the paint state stand. -/
def PainterStands (s t : State) : Prop :=
  t.sc.node = s.sc.node ∧ t.pa.brightness = s.pa.brightness ∧ t.pa.paint = s.pa.paint

theorem State.not_starting_iff_started (s : State) : ¬ s.starting ↔ s.started := by
  unfold State.started State.starting
  cases s.sc.node <;> simp

theorem State.darkWhileStarting_of_started {s : State} (started : s.started) : s.DarkWhileStarting :=
  fun starting => absurd starting (s.not_starting_iff_started.2 started)

/-- A command that acts in LISTEN and RUN alone and leaves the node state. -/
theorem State.darkWhileStarting_of_node {s t : State} (started : s.started) (node : t.sc.node = s.sc.node) :
    t.DarkWhileStarting :=
  State.darkWhileStarting_of_started (by unfold State.started; rwa [node])

theorem PainterStands.darkWhileStarting {s t : State} (stands : PainterStands s t) (dark : s.DarkWhileStarting) :
    t.DarkWhileStarting := by
  obtain ⟨node, brightness, paint⟩ := stands
  unfold State.DarkWhileStarting State.starting
  rwa [node, brightness, paint]

section
variable {s : State} (sound : s.StartupSound)
include sound

/-- The blocks hold their cold-reset values until the end of LOAD (R188, R190). -/
theorem State.StartupSound.blocksAtReset (starting : s.starting) : s.BlocksAtReset := by
  obtain ⟨reset, load, -⟩ := sound
  obtain inReset | inLoad := starting
  · obtain ⟨-, -, -, -, -, -, blocks⟩ := reset inReset
    exact blocks
  · obtain ⟨blocks, -⟩ := load inLoad
    exact blocks

theorem State.StartupSound.paAtReset (starting : s.starting) : s.pa.AtReset := by
  obtain ⟨-, -, -, -, pa, -⟩ := sound.blocksAtReset starting
  exact pa

theorem State.StartupSound.darkWhileStarting : s.DarkWhileStarting := by
  intro starting
  obtain ⟨paint, -, -, -, -, -, -, brightness, -⟩ := sound.paAtReset starting
  exact ⟨brightness, paint⟩

/-- The frame timer starts with LISTEN (R143). -/
theorem State.StartupSound.started_of_frameTimer (runs : s.pa.frameTimer = true) : s.started := by
  refine s.not_starting_iff_started.1 fun starting => ?_
  obtain ⟨-, -, stopped, -⟩ := sound.paAtReset starting
  exact absurd (stopped.symm.trans runs) (by decide)

theorem State.StartupSound.started_of_painting (painting : s.pa.paint = .painting) : s.started := by
  refine s.not_starting_iff_started.1 fun starting => ?_
  obtain ⟨dark, -⟩ := sound.paAtReset starting
  exact absurd (dark.symm.trans painting) (by decide)

/-- No chain is IN-WORK before LISTEN, so a notice is delivered in LISTEN and RUN alone (R37). -/
theorem State.StartupSound.started_of_delivered {k : NoticeKind} {c : Chain} (arrived : s.delivered k = some c) :
    s.started := by
  refine s.not_starting_iff_started.1 fun starting => ?_
  obtain ⟨⟨-, -, -, ring, -⟩, -⟩ := sound.blocksAtReset starting
  obtain ⟨inWork, -⟩ := (s.delivered_iff k c).1 arrived
  rw [ring] at inWork
  exact nomatch inWork

end

/-! ### Commands that lead through RESET and LOAD, to LISTEN and to RUN (R188 to R198) -/

@[simp] theorem State.endLoad_node (s : State) : s.endLoad.sc.node = .listen := by
  simp [State.endLoad, State.enterListen]

@[simp] theorem State.enterRun_node (s : State) : s.enterRun.sc.node = .run := by
  simp [State.enterRun]

theorem State.endLoad_darkWhileStarting (s : State) : s.endLoad.DarkWhileStarting :=
  State.darkWhileStarting_of_started (Or.inl s.endLoad_node)

theorem State.fontFails_darkWhileStarting (s : State) : s.fontFails.DarkWhileStarting :=
  s.useFallbackFont.endLoad_darkWhileStarting

/-- A font byte ends LOAD, or leaves the painter but for its glyph store (R195). -/
theorem State.readFontByte_darkWhileStarting {s : State} (dark : s.DarkWhileStarting) (a : Nat) (b : Byte) :
    (s.readFontByte a b).DarkWhileStarting := by
  simp only [State.readFontByte]
  split
  · exact s.fontFails_darkWhileStarting
  · split
    · split
      · exact State.endLoad_darkWhileStarting _
      · exact s.fontFails_darkWhileStarting
    · exact PainterStands.darkWhileStarting ⟨rfl, rfl, rfl⟩ dark

section
variable {s : State}

theorem execColdReset_darkWhileStarting (s : State) : Leads (execColdReset s) State.DarkWhileStarting :=
  ⟨s.coldReset, rfl, fun _ => ⟨rfl, rfl⟩⟩

/-- The release leaves the painter and the reads begin, or LOAD ends at once (R189, R190). -/
theorem execResetRelease_darkWhileStarting (dark : s.DarkWhileStarting) (node : BitVec 6) (glyport : Bool) :
    Leads (execResetRelease node glyport s) State.DarkWhileStarting := by
  simp only [execResetRelease]
  split
  next inReset =>
    split
    · exact ⟨_, rfl, fun _ => dark (Or.inl inReset)⟩
    · exact ⟨_, rfl, State.fontFails_darkWhileStarting _⟩
  next => exact ⟨s, rfl, dark⟩

theorem execGlyphReadComplete_darkWhileStarting (dark : s.DarkWhileStarting) (data : Byte) :
    Leads (execGlyphReadComplete data s) State.DarkWhileStarting := by
  unfold execGlyphReadComplete
  split
  next a _ _ =>
    split
    · exact ⟨_, rfl, PainterStands.darkWhileStarting (by simp [PainterStands]) dark⟩
    · exact ⟨_, rfl, State.readFontByte_darkWhileStarting dark a data⟩
  next => exact ⟨s, rfl, dark⟩

theorem execGlyphReadTimeout_darkWhileStarting (dark : s.DarkWhileStarting) :
    Leads (execGlyphReadTimeout s) State.DarkWhileStarting := by
  unfold execGlyphReadTimeout
  split
  next =>
    split
    · exact ⟨_, rfl, PainterStands.darkWhileStarting (by simp [PainterStands]) dark⟩
    · exact ⟨_, rfl, s.fontFails_darkWhileStarting⟩
  next => exact ⟨s, rfl, dark⟩

theorem execListenTimerExpiry_darkWhileStarting (dark : s.DarkWhileStarting) :
    Leads (execListenTimerExpiry s) State.DarkWhileStarting := by
  unfold execListenTimerExpiry
  split
  · exact ⟨_, rfl, State.darkWhileStarting_of_started (Or.inr s.enterRun_node)⟩
  · exact ⟨s, rfl, dark⟩

/-- A RESTART leads to LISTEN or leaves the painter (R198). -/
theorem execRestart_darkWhileStarting (dark : s.DarkWhileStarting) :
    Leads (execRestart s) State.DarkWhileStarting := by
  simp only [execRestart]
  split
  next => exact ⟨s, rfl, dark⟩
  next c _ =>
    have stands (t : State) : PainterStands s t → t.DarkWhileStarting := fun h => h.darkWhileStarting dark
    split
    · split
      · exact ⟨_, rfl, State.darkWhileStarting_of_started (Or.inl rfl)⟩
      · exact ⟨_, rfl, stands _ (by simp [PainterStands])⟩
    · exact ⟨_, rfl, stands _ (by simp [PainterStands])⟩

end

/-! ### Commands that change the brightness or the paint state in LISTEN and RUN alone (R143, R147, R157) -/

section
variable {s : State} (sound : s.StartupSound)
include sound

theorem execDim_darkWhileStarting : Leads (execDim s) State.DarkWhileStarting := by
  unfold execDim
  split
  next => exact ⟨s, rfl, sound.darkWhileStarting⟩
  next c arrived =>
    exact ⟨_, rfl, State.darkWhileStarting_of_node (sound.started_of_delivered arrived) (by simp)⟩

theorem execFrameEvent_darkWhileStarting : Leads (execFrameEvent s) State.DarkWhileStarting := by
  unfold execFrameEvent
  split
  next due => exact ⟨_, rfl, State.darkWhileStarting_of_node (sound.started_of_frameTimer due.1) (by simp)⟩
  next => exact ⟨s, rfl, sound.darkWhileStarting⟩

theorem execFrameComplete_darkWhileStarting : Leads (execFrameComplete s) State.DarkWhileStarting := by
  unfold execFrameComplete
  split
  next painting => exact ⟨_, rfl, State.darkWhileStarting_of_node (sound.started_of_painting painting) rfl⟩
  next => exact ⟨s, rfl, sound.darkWhileStarting⟩

end

/-! ### Every step -/

/-- Every command keeps the painter without a brightness and DARK until LOAD ends. -/
theorem exec_darkWhileStarting {s : State} (sound : s.StartupSound) (i : Instr) :
    Leads (exec i s) State.DarkWhileStarting := by
  have dark := sound.darkWhileStarting
  have stand {a : Answer} (h : Leads a (PainterStands s)) : Leads a State.DarkWhileStarting :=
    h.imp fun _ stands => stands.darkWhileStarting dark
  cases i with
  | coldReset => exact execColdReset_darkWhileStarting s
  | resetRelease node glyport => exact execResetRelease_darkWhileStarting dark node glyport
  | glyphReadComplete data => exact execGlyphReadComplete_darkWhileStarting dark data
  | glyphReadTimeout => exact execGlyphReadTimeout_darkWhileStarting dark
  | listenTimerExpiry => exact execListenTimerExpiry_darkWhileStarting dark
  | restart => exact execRestart_darkWhileStarting dark
  | dim => exact execDim_darkWhileStarting sound
  | frameEvent => exact execFrameEvent_darkWhileStarting sound
  | frameComplete => exact execFrameComplete_darkWhileStarting sound
  | discardEnd | startMark | frameHeader | receiveByte | frameEnd | chainComplete | busyPeriodLimit =>
    apply stand
    simp only [exec, execDiscardEnd, execStartMark, execFrameHeader, execReceiveByte, execFrameEnd,
      execChainComplete, execBusyPeriodLimit]
    (repeat' split) <;> simp [PainterStands]
  | txAttemptStart | txSuccess | collision | jamEnd | backoffEnd =>
    apply stand
    simp only [exec, execTxAttemptStart, execTxSuccess, execCollision, execJamEnd, execBackoffEnd]
    (repeat' split) <;> simp [PainterStands]
  | nameApply | serviceApply | amendApply | withdrawApply | sweepOpen | sweepClose | clock | headerOnlyApply =>
    apply stand
    simp only [exec, execNameApply, execServiceApply, execAmendApply, execWithdrawApply, execSweepOpen,
      execSweepClose, execClock, execHeaderOnlyApply]
    split <;> simp [PainterStands]
  | refreshTimerExpiry | feederLifetimeExpiry | sweepLimitExpiry | secondTimerExpiry =>
    apply stand
    simp only [exec, execRefreshTimerExpiry, execFeederLifetimeExpiry, execSweepLimitExpiry, execSecondTimerExpiry]
    (repeat' split) <;> simp [PainterStands]
  | refreshTableWork | feederLifetimeTableWork | sweepLimitTableWork | tickTableWork =>
    apply stand
    simp only [exec, execRefreshTableWork, execFeederLifetimeTableWork, execSweepLimitTableWork, execTickTableWork]
    split <;> simp [PainterStands]
  | windowRelease | composeComplete =>
    apply stand
    simp only [exec, execWindowRelease, execComposeComplete]
    split <;> simp [PainterStands]
  | digestNotice | paceNotice | statusNotice | staffNotice | query =>
    apply stand
    simp only [exec, execDigestNotice, execPaceNotice, execStatusNotice, execStaffNotice, execQuery]
    split <;> simp [PainterStands]
  | peerLifetimeExpiry | agreementTimerExpiry | paceTick | beaconTimerExpiry | intervalTimerExpiry =>
    apply stand
    simp only [exec, execPeerLifetimeExpiry, execAgreementTimerExpiry, execPaceTick, execBeaconTimerExpiry,
      execIntervalTimerExpiry]
    (repeat' split) <;> simp [PainterStands]

theorem step_darkWhileStarting {s t : State} (sound : s.StartupSound) (stepped : step s = .next t) :
    t.DarkWhileStarting := by
  unfold step at stepped
  split at stepped
  next =>
    cases stepped
    exact sound.darkWhileStarting
  next i rest _ => exact (exec_darkWhileStarting (s := { s with pending := rest }) sound i).of_next stepped

/-- Settles O20: a warm restart and a DIM put their brightness in force after the direct note, a cold reset puts the
painter at its reset values, and every step keeps them until LOAD ends. -/
theorem brightnessThroughResets : Obligations.BrightnessThroughResets := by
  unfold Obligations.BrightnessThroughResets
  refine ⟨fun s c restarting => ?_, fun s c arrived wellFormed => ?_, fun s => ⟨s.coldReset, rfl, rfl, rfl⟩,
    fun s t sound stepped => step_darkWhileStarting sound stepped⟩
  · refine ⟨_, execRestart_of_restarting restarting, ?_⟩
    simp [State.warmRestart_brightness, State.prof]
  · refine ⟨_, execDim_of_delivered arrived, ?_⟩
    simp [(s.directNote c).applyDim_brightness wellFormed]

end Sys2Proof.Machine
end

