-- ==== Sys2Proof/Proofs/TakeBoundary.lean ====
section
/-! SUPPORT. Multiples of 64 among the pace values of a step (R168), the line and the banner after a take boundary
(R165, R170), and the statement of take boundaries on them. -/

namespace Sys2Proof.Machine

/-! ### Pace values modulo 64 -/

/-- The cycle of the pace is a multiple of 64, so a pace value passed keeps its plain remainder. -/
theorem toNat_pace_add_mod (p0 : Pace) (j : Nat) :
    (p0 + BitVec.ofNat 32 j).toNat % 64 = (p0.toNat + j) % 64 := by
  rw [BitVec.toNat_add, BitVec.toNat_ofNat]
  omega

/-- A step ends at the last pace value it passes. -/
theorem pace_add_steps (p0 p1 : Pace) : p0 + BitVec.ofNat 32 (p1 - p0).toNat = p1 := by
  rw [BitVec.ofNat_toNat, BitVec.setWidth_eq, BitVec.add_comm, BitVec.sub_add_cancel]

theorem toNat_mod_of_steps (p0 p1 : Pace) : p1.toNat % 64 = (p0.toNat + (p1 - p0).toNat) % 64 := by
  rw [← toNat_pace_add_mod, pace_add_steps]

/-! ### Crossing a take boundary (R168) -/

theorem crossesBoundary_iff (p0 p1 : Pace) :
    crossesBoundary p0 p1 = true ↔ 64 - p0.toNat % 64 ≤ (p1 - p0).toNat := decide_eq_true_iff

/-- The first multiple of 64 ahead of `p0` lies `64 - p0 % 64` pace steps on. -/
theorem crossesBoundary_iff_exists_multiple (p0 p1 : Pace) :
    crossesBoundary p0 p1 = true ↔
      ∃ j, 1 ≤ j ∧ j ≤ (p1 - p0).toNat ∧ (p0 + BitVec.ofNat 32 j).toNat % 64 = 0 := by
  rw [crossesBoundary_iff]
  constructor
  · intro reached
    refine ⟨64 - p0.toNat % 64, by omega, reached, ?_⟩
    rw [toNat_pace_add_mod]
    omega
  · rintro ⟨j, positive, passed, multiple⟩
    rw [toNat_pace_add_mod] at multiple
    omega

theorem crossesBoundary_tick_iff (p0 : Pace) :
    crossesBoundary p0 (p0 + 1) = true ↔ (p0 + 1).toNat % 64 = 0 := by
  have oneStep : (p0 + 1 - p0).toNat = 1 := by rw [BitVec.add_comm, BitVec.add_sub_cancel]; rfl
  have remainder := toNat_mod_of_steps p0 (p0 + 1)
  rw [oneStep] at remainder
  rw [crossesBoundary_iff, oneStep, remainder]
  omega

/-! ### The take pace (R168) -/

/-- The mask of the take pace clears the six bits below 64. -/
theorem takePaceOf_eq_shift (p1 : Pace) : takePaceOf p1 = (p1 >>> 6) <<< 6 := by
  have mask : 0xFFFFFFC0#32 = BitVec.allOnes 32 <<< 6 := by decide
  rw [takePaceOf, mask, BitVec.shiftLeft_ushiftRight]

theorem toNat_takePaceOf (p1 : Pace) : (takePaceOf p1).toNat = p1.toNat - p1.toNat % 64 := by
  rw [takePaceOf_eq_shift, BitVec.toNat_shiftLeft, BitVec.toNat_ushiftRight, Nat.shiftLeft_eq,
    Nat.shiftRight_eq_div_pow]
  omega

theorem toNat_sub_takePaceOf (p1 : Pace) : (p1 - takePaceOf p1).toNat = p1.toNat % 64 := by
  have taken := toNat_takePaceOf p1
  bv_omega

theorem takePaceOf_mod (p1 : Pace) : (takePaceOf p1).toNat % 64 = 0 := by
  rw [toNat_takePaceOf]
  omega

theorem toNat_sub_takePaceOf_le (p1 : Pace) : (p1 - takePaceOf p1).toNat ≤ 63 := by
  rw [toNat_sub_takePaceOf]
  omega

theorem paceAhead_takePaceOf (p1 : Pace) : paceAhead (takePaceOf p1) p1 = false := by
  have taken := toNat_takePaceOf p1
  rw [← Bool.not_eq_true, paceAhead_iff, toNat_sub_eq_cyclicDifference]
  have inCycle := p1.isLt
  omega

/-- A step whose remainder does not reach back to `p0` passes its take pace, `p1 % 64` pace steps before its end. -/
theorem takePaceOf_eq_add {p0 p1 : Pace} (within : p1.toNat % 64 ≤ (p1 - p0).toNat) :
    takePaceOf p1 = p0 + BitVec.ofNat 32 ((p1 - p0).toNat - p1.toNat % 64) := by
  have taken := toNat_takePaceOf p1
  apply BitVec.eq_of_toNat_eq
  bv_omega

/-- The take pace of a step that crosses is the last multiple of 64 the step passes. -/
theorem takePaceOf_last_multiple {p0 p1 : Pace} (crosses : crossesBoundary p0 p1 = true) :
    ∃ j, 1 ≤ j ∧ j ≤ (p1 - p0).toNat ∧ takePaceOf p1 = p0 + BitVec.ofNat 32 j ∧
      (takePaceOf p1).toNat % 64 = 0 ∧
      ∀ i, j < i → i ≤ (p1 - p0).toNat → (p0 + BitVec.ofNat 32 i).toNat % 64 ≠ 0 := by
  have reached := (crossesBoundary_iff p0 p1).1 crosses
  have remainder := toNat_mod_of_steps p0 p1
  have after : p1.toNat % 64 < (p1 - p0).toNat := by omega
  refine ⟨(p1 - p0).toNat - p1.toNat % 64, by omega, Nat.sub_le _ _, takePaceOf_eq_add (Nat.le_of_lt after),
    takePaceOf_mod p1, fun i later passed => ?_⟩
  rw [toNat_pace_add_mod]
  omega

/-! ### The Banner Unit at a take boundary (R165, R170) -/

@[simp] theorem Bu.discard_line (bu : Bu) (p : Profile) : (bu.discard p).line = bu.line := rfl

/-- A take leaves the Banner Unit as it is, where no group is REQUESTING, or puts in force a banner with the take pace
and the banner duration as its end mark. -/
theorem Bu.makeTake_cases (bu : Bu) (p : Profile) (shown : Option AdoptedSet) (takePace : Pace) :
    bu.makeTake p shown takePace = bu ∨
    ∃ b, (bu.makeTake p shown takePace).banner = some b ∧ b.takePace = takePace ∧ b.endMark = p.bannerDuration := by
  unfold Bu.makeTake
  cases bu.firstRequesting with
  | none => exact .inl rfl
  | some g => exact .inr ⟨_, rfl, rfl, rfl⟩

theorem Bu.boundary_of_not_crosses {bu : Bu} {p : Profile} {shown : Option AdoptedSet} {p0 p1 : Pace}
    (stays : ¬ crossesBoundary p0 p1 = true) : bu.boundary p shown p0 p1 = bu := if_neg stays

/-- On an IDLE line the discards leave the line IDLE, and the take follows. -/
theorem Bu.boundary_of_crosses {bu : Bu} {p : Profile} {shown : Option AdoptedSet} {p0 p1 : Pace}
    (crosses : crossesBoundary p0 p1 = true) (idle : bu.line = .idle) :
    bu.boundary p shown p0 p1 = (bu.discard p).makeTake p shown (takePaceOf p1) := by
  have kept : (bu.discard p).line = .idle := idle
  rw [Bu.boundary, if_pos crosses]
  exact if_pos kept

/-- A banner cannot end at the step that takes it: its steps since take are at most 63. -/
theorem Bu.boundary_below_endMark (bu : Bu) {p : Profile} (shown : Option AdoptedSet) (p0 p1 : Pace)
    (long : 64 ≤ p.bannerDuration) (idle : bu.line = .idle) :
    (bu.boundary p shown p0 p1).line = .idle ∨
    ∃ b, (bu.boundary p shown p0 p1).banner = some b ∧ (p1 - b.takePace).toNat < b.endMark := by
  by_cases crosses : crossesBoundary p0 p1 = true
  · rw [Bu.boundary_of_crosses crosses idle]
    obtain unchanged | ⟨b, inForce, taken, endMark⟩ := (bu.discard p).makeTake_cases p shown (takePaceOf p1)
    · left
      rw [unchanged, Bu.discard_line, idle]
    · right
      refine ⟨b, inForce, ?_⟩
      rw [taken, endMark]
      exact Nat.lt_of_le_of_lt (toNat_sub_takePaceOf_le p1) long
  · left
    rw [Bu.boundary_of_not_crosses crosses, idle]

/-- Settles O18: modulo 64 the pace values of a step are plain sums, so the first multiple ahead decides the crossing
and the take pace is the last one; a banner taken lies at most 63 steps back, below an end mark of at least 100. -/
theorem paceStepCrossesBoundary : Obligations.PaceStepCrossesBoundary := by
  unfold Obligations.PaceStepCrossesBoundary
  refine ⟨fun p0 p1 => ⟨crossesBoundary_iff_exists_multiple p0 p1, crossesBoundary_iff p0 p1⟩,
    crossesBoundary_tick_iff, fun p0 p1 crosses => takePaceOf_last_multiple crosses,
    fun p1 => ⟨paceAhead_takePaceOf p1, toNat_sub_takePaceOf_le p1⟩, fun bu p shown p0 p1 long idle => ?_⟩
  exact bu.boundary_below_endMark shown p0 p1 (Nat.le_trans (by decide) long) idle

end Sys2Proof.Machine
end

