-- ==== Sys2Proof/Proofs/GeometryCut.lean ====
section
/-! SUPPORT. Numbers read back from the bytes of a body (R5), the places of the counts in a STATUS body (R12), the event
of GEOMETRY_CUT beside that of PROFILE_DEFAULT (R179, R180), and the statement of the family on them. -/

namespace Sys2Proof.Machine

/-! ### Numbers in a body (R5 (1)) -/

@[simp] theorem length_toLe (k n : Nat) : (toLe k n).length = k := by
  induction k generalizing n with
  | zero => rfl
  | succ k ih => simp [toLe, ih]

theorem leNat_toLe (k n : Nat) : leNat (toLe k n) = n % 256 ^ k := by
  induction k generalizing n with
  | zero => simp [toLe, leNat, Nat.mod_one]
  | succ k ih =>
    calc leNat (toLe (k + 1) n)
      _ = n % 256 + 256 * (n / 256 % 256 ^ k) := by rw [toLe, leNat, ih, BitVec.toNat_ofNat]
      _ = n % 256 ^ (k + 1) := by rw [Nat.pow_succ', Nat.mod_mul]

/-- Bytes beyond the end read as 0, so the two readers agree at every offset. -/
theorem num2_eq_numN (body : List Byte) (i : Nat) : num2 body i = numN body i 2 := by
  simp only [num2, numN, byteAt, List.getD_eq_getElem?_getD, ← List.getElem?_drop (i := i) (j := 1),
    ← List.head?_drop]
  rcases body.drop i with _ | ⟨b, _ | ⟨c, rest⟩⟩ <;> simp [leNat]

theorem numN_append_right (front body : List Byte) (i n : Nat) :
    numN (front ++ body) (front.length + i) n = numN body i n := by
  rw [numN, List.drop_length_add_append, numN]

theorem numN_toLe_append (k n : Nat) (rest : List Byte) : numN (toLe k n ++ rest) 0 k = n % 256 ^ k := by
  rw [numN, List.drop_zero, List.take_left' (length_toLe k n), leNat_toLe]

/-- Number `i` of a row of numbers of `k` bytes each. -/
theorem numN_flatMap_toLe (k : Nat) (ns : List Nat) (rest : List Byte) {i : Nat} (inside : i < ns.length) :
    numN (ns.flatMap (toLe k) ++ rest) (k * i) k = ns.getD i 0 % 256 ^ k := by
  induction ns generalizing i with
  | nil => cases inside
  | cons n ns ih =>
    rw [List.flatMap_cons, List.append_assoc]
    cases i with
    | zero => exact numN_toLe_append k n _
    | succ i =>
      have after := numN_append_right (toLe k n) (ns.flatMap (toLe k) ++ rest) (k * i) k
      rw [length_toLe, Nat.add_comm, ← Nat.mul_succ] at after
      rw [after, ih (Nat.lt_of_succ_lt_succ inside), List.getD_cons_succ]

theorem length_flatMap_toLe (k : Nat) (ns : List Nat) : (ns.flatMap (toLe k)).length = k * ns.length := by
  induction ns with
  | nil => rfl
  | cons n ns ih =>
    rw [List.flatMap_cons, List.length_append, length_toLe, ih, List.length_cons, Nat.mul_succ, Nat.add_comm]

/-! ### The STATUS body (R12) -/

/-- The nine bytes before the pending field: segment index, pace, the two states and the shown digest. -/
def StatusReport.front (segment : Nat) (r : StatusReport) (pace : Pace) : List Byte :=
  BitVec.ofNat 8 segment :: toLe 4 pace.toNat ++ [r.node.code, r.agreement.code] ++ toLe 2 r.shownDigest.toNat

/-- The three bytes after the count of GEOMETRY_CUT. -/
def StatusReport.back (r : StatusReport) : List Byte :=
  [r.profileSource.code, r.fontSource.code, BitVec.ofNat 8 r.knownFeeders]

section
variable (segment : Nat) (r : StatusReport) (pace : Pace)

theorem StatusReport.length_front : (r.front segment pace).length = 9 := by simp [StatusReport.front]

theorem BoardNotice.status_body : (BoardNotice.status segment r).body pace =
    r.front segment pace ++ (toLe 3 r.pendingKinds.toNat ++
      (r.counts.flatMap (toLe 2) ++ (toLe 2 r.geometryCut ++ r.back))) := by
  simp [BoardNotice.body, StatusReport.bytes, StatusReport.front, StatusReport.back]

/-- The pending field stands at offset 9, bit k for kind k. -/
theorem BoardNotice.status_body_pendingKinds :
    numN ((BoardNotice.status segment r).body pace) 9 3 = r.pendingKinds.toNat := by
  rw [status_body, ← r.length_front segment pace, ← Nat.add_zero (List.length _), numN_append_right,
    numN_toLe_append]
  exact Nat.mod_eq_of_lt (Nat.lt_trans r.pendingKinds.isLt (by decide))

/-- What follows the pending field starts at offset 12. -/
theorem BoardNotice.status_body_after (i : Nat) : num2 ((BoardNotice.status segment r).body pace) (12 + i) =
    numN (r.counts.flatMap (toLe 2) ++ (toLe 2 r.geometryCut ++ r.back)) i 2 := by
  have start : 12 + i = (r.front segment pace).length + ((toLe 3 r.pendingKinds.toNat).length + i) := by
    rw [r.length_front, length_toLe]
    omega
  rw [num2_eq_numN, status_body, start, numN_append_right, numN_append_right]

/-- The count of kind k stands at offset 12 + 2k, modulo 65536. -/
theorem BoardNotice.status_body_count {k : Nat} (inside : k < r.counts.length) :
    num2 ((BoardNotice.status segment r).body pace) (12 + 2 * k) = r.counts.getD k 0 % 65536 := by
  exact (status_body_after segment r pace _).trans (numN_flatMap_toLe 2 _ _ inside)

/-- The count of GEOMETRY_CUT stands after the counts of the kinds, modulo 65536. -/
theorem BoardNotice.status_body_geometryCut :
    num2 ((BoardNotice.status segment r).body pace) (12 + 2 * r.counts.length) = r.geometryCut % 65536 := by
  rw [status_body_after, ← length_flatMap_toLe, ← Nat.add_zero (List.length _), numN_append_right]
  exact numN_toLe_append 2 _ _

end

/-! ### The events (R179, R180) -/

section
variable (s : State) (k : ReportKind)

@[simp] theorem State.setRu_maySend (x : Ru) : (s.setRu x).maySend = s.maySend := rfl

@[simp] theorem State.setRu_prof (x : Ru) : (s.setRu x).prof = s.prof := rfl

theorem State.flag_pending : (s.flag k).ru.pending = s.ru.pending ||| k.bit := rfl

theorem State.flag_timers : (s.flag k).ru.timers =
    if s.maySend then s.ru.timers.set (s.prof.intervalOf k) true else s.ru.timers := rfl

theorem State.flag_pending_self : kindBit (s.flag k).ru.pending k = true := by
  simp [State.flag_pending]

/-- What an event does to the pending flags and the timers rests on those two and on the parts outside the RU; the
counts have no say in it. -/
theorem State.flag_setRu_flags {x : Ru} (samePending : x.pending = s.ru.pending) (sameTimers : x.timers = s.ru.timers) :
    ((s.setRu x).flag k).ru.pending = (s.flag k).ru.pending ∧
    ((s.setRu x).flag k).ru.timers = (s.flag k).ru.timers := by
  constructor
  · simp [State.flag_pending, samePending]
  · simp [State.flag_timers, sameTimers]

/-- An event of GEOMETRY_CUT and an event of PROFILE_DEFAULT raise one flag after a count of their own. -/
theorem State.countGeometryCut_flags :
    s.countGeometryCut.ru.pending = (s.count .profileDefault).ru.pending ∧
    s.countGeometryCut.ru.timers = (s.count .profileDefault).ru.timers := by
  obtain ⟨ownPending, ownTimers⟩ := s.flag_setRu_flags .profileDefault
    (x := { s.ru with geometryCut := bump s.ru.geometryCut }) rfl rfl
  obtain ⟨otherPending, otherTimers⟩ := s.flag_setRu_flags .profileDefault
    (x := { s.ru with counts := s.ru.counts.modify ReportKind.profileDefault.number bump }) rfl rfl
  exact ⟨ownPending.trans otherPending.symm, ownTimers.trans otherTimers.symm⟩

theorem State.countGeometryCut_geometryCut : s.countGeometryCut.ru.geometryCut = bump s.ru.geometryCut := rfl

theorem State.countGeometryCut_pendingField :
    kindBit s.countGeometryCut.ru.pendingField .profileDefault = true := by
  rw [Ru.pendingField, kindBit_or, State.countGeometryCut, State.flag_pending_self, Bool.true_or]

end

/-- Settles O15: the event raises the flag of PROFILE_DEFAULT after its own count, and the body of a STATUS holds the
19 counts from offset 12 on and that of GEOMETRY_CUT after them. -/
theorem geometryCutActsOnProfileDefault : Obligations.GeometryCutActsOnProfileDefault := by
  unfold Obligations.GeometryCutActsOnProfileDefault
  constructor
  · intro s
    obtain ⟨samePending, sameTimers⟩ := s.countGeometryCut_flags
    exact ⟨s.countGeometryCut_geometryCut, by simp, samePending, sameTimers, rfl, s.countGeometryCut_pendingField⟩
  · intro segment r pace nineteen countsBounded cutBounded
    have inside : 16 < r.counts.length := by omega
    have bounded : r.counts.getD 16 0 ≤ 65535 := by
      rw [← List.getElem_eq_getD (h := inside)]
      exact countsBounded _ (List.getElem_mem inside)
    have count := BoardNotice.status_body_count segment r pace inside
    have cut := BoardNotice.status_body_geometryCut segment r pace
    rw [nineteen] at cut
    refine ⟨?_, ?_, ?_⟩
    · exact count.trans (Nat.mod_eq_of_lt (Nat.lt_succ_of_le bounded))
    · exact cut.trans (Nat.mod_eq_of_lt (Nat.lt_succ_of_le cutBounded))
    · rw [BoardNotice.status_body_pendingKinds]
      rfl

end Sys2Proof.Machine
end

