-- ==== Sys2Proof/Proofs/Lists.lean ====
section
/-! SUPPORT. Facts about lists that grow at their end. -/

namespace Sys2Proof.Machine

theorem nodup_snoc {α : Type} {l : List α} {a : α} (distinct : l.Nodup) (new : a ∉ l) : (l ++ [a]).Nodup :=
  List.nodup_append.2 ⟨distinct, List.nodup_cons.2 ⟨List.not_mem_nil, List.nodup_nil⟩, fun b member c last same =>
    new (by rwa [← List.mem_singleton.1 last, ← same])⟩

theorem nodup_of_map {α β : Type} {f : α → β} {l : List α} (distinct : (l.map f).Nodup) : l.Nodup :=
  (List.pairwise_map.1 distinct).imp fun other same => other (congrArg f same)

/-- Elements of which no two have one image have different images. -/
theorem nodup_map_of_inj {α β : Type} {f : α → β} {l : List α} (distinct : l.Nodup)
    (inj : ∀ x ∈ l, ∀ y ∈ l, f x = f y → x = y) : (l.map f).Nodup :=
  List.pairwise_map.2 (distinct.imp_of_mem fun inX inY other same => other (inj _ inX _ inY same))

theorem eq_of_nodup_map {α β : Type} {f : α → β} {l : List α} (distinct : (l.map f).Nodup) {x y : α}
    (inX : x ∈ l) (inY : y ∈ l) (same : f x = f y) : x = y := by
  induction l with
  | nil => exact absurd inX List.not_mem_nil
  | cons a rest ih =>
    obtain ⟨new, distinct⟩ := List.nodup_cons.1 distinct
    have others {z : α} (later : z ∈ rest) : f z ≠ f a := fun same => new (same ▸ List.mem_map_of_mem later)
    obtain rfl | laterX := List.mem_cons.1 inX <;> obtain rfl | laterY := List.mem_cons.1 inY
    · rfl
    · exact absurd same.symm (others laterY)
    · exact absurd same (others laterX)
    · exact ih distinct laterX laterY

/-- A list without repetitions is no longer than a list it lies in. -/
theorem length_le_of_nodup {α : Type} [DecidableEq α] {l : List α} (distinct : l.Nodup) :
    ∀ {m : List α}, (∀ x ∈ l, x ∈ m) → l.length ≤ m.length := by
  induction l with
  | nil => exact fun _ => Nat.zero_le _
  | cons a rest ih =>
    intro m within
    obtain ⟨new, distinct⟩ := List.nodup_cons.1 distinct
    have shorter := ih distinct (m := m.erase a) fun x later =>
      (List.mem_erase_of_ne fun same : x = a => new (same ▸ later)).2 (within x (List.mem_cons_of_mem a later))
    have inside := within a List.mem_cons_self
    have some := List.length_pos_of_mem inside
    rw [List.length_erase_of_mem inside] at shorter
    rw [List.length_cons]
    omega

theorem exists_snoc {α : Type} {l : List α} (some : l ≠ []) : ∃ before last, l = before ++ [last] :=
  ⟨l.dropLast, l.getLast some, (List.dropLast_concat_getLast some).symm⟩

theorem getD_of_lt {α : Type} {l : List α} {i : Nat} (d : α) (inside : i < l.length) : l.getD i d = l[i] := by
  rw [List.getD_eq_getElem?_getD, List.getElem?_eq_getElem inside, Option.getD_some]

/-- Induction on a list from its beginning to its last element. -/
theorem snoc_induction {α : Type} {P : List α → Prop} (nil : P []) (snoc : ∀ l a, P l → P (l ++ [a])) (l : List α) :
    P l := by
  have reversed : ∀ m : List α, P m.reverse := by
    intro m
    induction m with
    | nil => exact nil
    | cons a rest ih =>
      rw [List.reverse_cons]
      exact snoc _ a ih
  rw [← List.reverse_reverse l]
  exact reversed l.reverse

end Sys2Proof.Machine
end

