-- ==== Sys2Proof/Proofs/Acts.lean ====
section
/-! SUPPORT. What a command can do: every command idles, or meets one of the cases of `Act` with its guard. Proofs
about all commands go through these cases and do not unfold `exec`. -/

namespace Sys2Proof.Machine

/-! ### The table works (R47) -/

/-- The work of an apply, where its notice is being applied (R44 to R82). -/
inductive ApplyWork (s : State) (c : Chain) : Instr → (Tb → Effect) → Prop
  | name (on : s.Applying .name c) : ApplyWork s c .nameApply fun tb => tb.nameWork c.body
  | service (on : s.Applying .service c) :
      ApplyWork s c .serviceApply fun tb => tb.serviceWork s.prof c.sender c.body
  | amend (on : s.Applying .amend c) : ApplyWork s c .amendApply fun tb => tb.amendWork s.prof c.body
  | withdraw (on : s.Applying .withdraw c) : ApplyWork s c .withdrawApply fun tb => tb.withdrawWork c.body
  | sweepOpen (on : s.Applying .sweepOpen c) :
      ApplyWork s c .sweepOpen fun tb => tb.sweepOpenWork c.sender c.body
  | sweepClose (on : s.Applying .sweepClose c) :
      ApplyWork s c .sweepClose fun tb => tb.sweepCloseWork c.sender c.body
  | clock (on : s.Applying .clock c) : ApplyWork s c .clock fun tb => tb.clockWork c.body
  | headerOnly (working : s.tb.state = .working .apply) (inWork : s.lc.ring.inWork = some c)
      (mark : c.headerOnly = true) : ApplyWork s c .headerOnlyApply fun tb => tb.headerOnlyWork c.sender c.kind

/-- The work of an expiry, where it is in flight (R61, R74, R79, R83). -/
inductive ExpiryWork (s : State) : Instr → Effect → Prop
  | refresh (n : Nat) (live : Bool) (working : s.tb.state = .working (.refresh n live)) :
      ExpiryWork s .refreshTableWork (s.tb.refreshWork n live)
  | lifetime (node : Nat) (working : s.tb.state = .working (.lifetime node)) :
      ExpiryWork s .feederLifetimeTableWork (s.tb.lifetimeWork node)
  | sweepLimit (node : Nat) (working : s.tb.state = .working (.sweepLimit node)) :
      ExpiryWork s .sweepLimitTableWork (s.tb.sweepLimitWork node)
  | tick (working : s.tb.state = .working .tick) : ExpiryWork s .tickTableWork s.tb.tickWork

/-- A running timer of the Table Builder expires: the tables with the timer expired, and the claim (R48). -/
inductive TimerExpiry (s : State) : Instr → Tb → Expiry → Prop
  | refresh (n : Nat) (v : Service) (found : s.tb.find n = some v) (running : v.refresh = .running) :
      TimerExpiry s (.refreshTimerExpiry n)
        { s.tb with services := putService { v with refresh := .expired } s.tb.services } (.refresh n)
  | lifetime (node : Nat) (f : Feeder) (found : s.tb.feeder node = some f) (running : f.lifetime = .running) :
      TimerExpiry s (.feederLifetimeExpiry node)
        (s.tb.updateFeeder node fun g => { g with lifetime := .expired }) (.lifetime node)
  | sweepLimit (node : Nat) (f : Feeder) (found : s.tb.feeder node = some f) (running : f.limit = .running) :
      TimerExpiry s (.sweepLimitExpiry node)
        (s.tb.updateFeeder node fun g => { g with limit := .expired }) (.sweepLimit node)
  | second (running : s.tb.time.secondTimer = true) :
      TimerExpiry s .secondTimerExpiry
        { s.tb with time := { s.tb.time with elapsed := min 255 (s.tb.time.elapsed + 1) } } .tick

/-! ### The board notices -/

/-- The command that takes a board notice of a kind (R116). -/
inductive BoardCommand : Instr → NoticeKind → Prop
  | digest : BoardCommand .digestNotice .digest
  | pace : BoardCommand .paceNotice .pace
  | status : BoardCommand .statusNotice .status

/-! ### Headers -/

/-- The receiver with the header taken (R17). -/
def Receiver.withHeader (r : Receiver) (h : Header) : Receiver :=
  { r with headerRegister := h, checkRegister := crcFeed r.checkRegister h.bytes, remaining := h.length.toNat }

/-- The 40 bits of a header in line order (R1, R3). -/
def Header.bits (h : Header) : List Bool := h.bytes.flatMap byteBits

/-- The check bits agree with the check register (R4, R19). -/
def Receiver.passes (r : Receiver) (check : Digest) : Bool := decide (~~~ r.checkRegister = check)

/-! ### The cases of a command -/

/-- What command `i` can do to `s`: it idles, or its guard holds and it leads where its rule says. -/
inductive Act (s : State) : Instr → State → Prop
  | idle (i : Instr) : Act s i s
  | coldReset : Act s .coldReset s.coldReset
  | beginLoad (node : BitVec 6) (reset : s.sc.node = .reset) :
      Act s (.resetRelease node true)
        (s.setSc { s.sc with node := .load, nodeNumber := node, glyphStrap := true, loadPosition := some 0 })
  | skipLoad (node : BitVec 6) (reset : s.sc.node = .reset) :
      Act s (.resetRelease node false)
        (s.setSc { s.sc with node := .load, nodeNumber := node, glyphStrap := false }).useDefaultProfile.fontFails
  | profileByte (a : Nat) (b : Byte) (load : s.sc.node = .load) (position : s.sc.loadPosition = some a)
      (below : a < fontBase) : Act s (.glyphReadComplete b) (s.readProfileByte a b)
  | fontByte (a : Nat) (b : Byte) (load : s.sc.node = .load) (position : s.sc.loadPosition = some a)
      (from_ : fontBase ≤ a) : Act s (.glyphReadComplete b) (s.readFontByte a b)
  | profileTimeout (a : Nat) (load : s.sc.node = .load) (position : s.sc.loadPosition = some a)
      (below : a < fontBase) : Act s .glyphReadTimeout s.useDefaultProfile.beginFont
  | fontTimeout (a : Nat) (load : s.sc.node = .load) (position : s.sc.loadPosition = some a)
      (from_ : fontBase ≤ a) : Act s .glyphReadTimeout s.fontFails
  | enterRun (listen : s.sc.node = .listen) (timer : s.sc.listenTimer = true) :
      Act s .listenTimerExpiry s.enterRun
  | discardBits (bits : List Bool) (discard : s.lc.receiver.state = .discard) :
      Act s (.discardEnd bits) (s.sampleBits bits)
  | huntBits (bits : List Bool) (hunt : s.lc.receiver.state = .hunt) : Act s (.startMark bits) (s.sampleBits bits)
  | headerFails (h : Header) (header : s.lc.receiver.state = .header) (fails : h.examine = none) :
      Act s (.frameHeader h.kind h.sender h.group h.sequence h.length)
        (((s.watchEnd h.bits).setReceiver (s.lc.receiver.withHeader h).toDiscard).raise .lineCrc)
  | headerPasses (h : Header) (k : NoticeKind) (header : s.lc.receiver.state = .header)
      (passes : h.examine = some k) :
      Act s (.frameHeader h.kind h.sender h.group h.sequence h.length)
        (((s.watchBits h.bits).setReceiver (s.lc.receiver.withHeader h)).followFrame k)
  | storedByte (b : Byte) (more : s.lc.receiver.remaining ≠ 0) (store : s.lc.receiver.state = .store) :
      Act s (.receiveByte b) (((s.watchBits (byteBits b)).feedByte b).offerByte b)
  | foreignByte (b : Byte) (more : s.lc.receiver.remaining ≠ 0) (foreign : s.lc.receiver.state = .foreign) :
      Act s (.receiveByte b) ((s.watchBits (byteBits b)).feedByte b)
  | otherByte (b : Byte) (more : s.lc.receiver.remaining ≠ 0)
      (other : s.lc.receiver.state = .skip ∨ s.lc.receiver.state = .lockout) :
      Act s (.receiveByte b)
        ((s.watchBits (byteBits b)).setReceiver { s.lc.receiver with remaining := s.lc.receiver.remaining - 1 })
  | storedEnd (check : Digest) (last : s.lc.receiver.remaining = 0) (store : s.lc.receiver.state = .store) :
      Act s (.frameEnd check) ((s.watchEnd (checkBits check)).endStored (s.lc.receiver.passes check))
  | foreignEnd (check : Digest) (last : s.lc.receiver.remaining = 0) (foreign : s.lc.receiver.state = .foreign) :
      Act s (.frameEnd check) ((s.watchEnd (checkBits check)).endForeign (s.lc.receiver.passes check))
  | otherEnd (check : Digest) (last : s.lc.receiver.remaining = 0)
      (other : s.lc.receiver.state = .skip ∨ s.lc.receiver.state = .lockout) :
      Act s (.frameEnd check) (s.watchEnd (checkBits check)).toHunt
  | completeDue : Act s .chainComplete s.completeDue
  | limitInFrame (bits : List Bool) (following : s.following = true) (frame : s.lc.receiver.state.inFrame = true) :
      Act s (.busyPeriodLimit bits) (s.watchAhead bits)
  | limitOutside (bits : List Bool) (following : s.following = true)
      (outside : s.lc.receiver.state.inFrame = false) :
      Act s (.busyPeriodLimit bits) ((s.sampleBits bits).tally (s.sampleBits bits).lc.watch)
  | attempt (n : BoardNotice) (wait : s.lc.transmitter.state = .wait) (line : s.lc.lineIdle = true)
      (may : s.maySend = true) (notice : s.lc.transmitter.notice = some n) :
      Act s .txAttemptStart (s.beginAttempt n)
  | success (send : s.lc.transmitter.state = .send) :
      Act s .txSuccess (s.resumeReceiver (frameBits s.lc.transmitter.frame).length).releaseNotice
  | collision (bit : Nat) (send : s.lc.transmitter.state = .send)
      (sent : (frameBits s.lc.transmitter.frame).getD bit false = true) :
      Act s (.collision bit) (s.setLc { s.lc with
        transmitter := { s.lc.transmitter with
          state := .jam, frame := [], late := decide (claimWindowBits ≤ bit) }
        watch := s.lc.watch.drive (bit + 1) })
  | lateJam (jam : s.lc.transmitter.state = .jam) (late : s.lc.transmitter.late = true) :
      Act s .jamEnd ((s.resumeReceiver jamBits).raise .txLate).releaseNotice
  | backOff (jam : s.lc.transmitter.state = .jam) (early : s.lc.transmitter.late = false)
      (left : s.lc.transmitter.attempts < attemptLimit) : Act s .jamEnd (s.resumeReceiver jamBits).backOff
  | giveUp (jam : s.lc.transmitter.state = .jam) (early : s.lc.transmitter.late = false)
      (spent : attemptLimit ≤ s.lc.transmitter.attempts) :
      Act s .jamEnd ((s.resumeReceiver jamBits).raise .txGiveup).releaseNotice
  | backoffEnd (backoff : s.lc.transmitter.state = .backoff) :
      Act s .backoffEnd (s.setTransmitter { s.lc.transmitter with state := .wait, slots := 0 })
  | apply (i : Instr) (c : Chain) (work : Tb → Effect) (applies : ApplyWork s c i work) :
      Act s i (s.completeApply (s.tb.withNote c work))
  | timerExpiry (i : Instr) (tb : Tb) (e : Expiry) (expires : TimerExpiry s i tb e) :
      Act s i (s.setTb (tb.claim e))
  | expiryWork (i : Instr) (fx : Effect) (works : ExpiryWork s i fx) : Act s i (s.completeExpiry fx)
  | windowRelease (reading : s.co.pass = .reading) :
      Act s .windowRelease (s.setCo { s.co with
        pass := .digesting
        working := s.buildWorking.1
        nameMiss := s.co.nameMiss || s.buildWorking.2 }).beginWaiting
  | composeComplete (digesting : s.co.pass = .digesting) :
      Act s .composeComplete (s.completePass.setCo { s.completePass.co with pass := .idle }).askWindow
  | boardNotice (i : Instr) (k : NoticeKind) (c : Chain) (takes : BoardCommand i k) (delivered : s.Delivered k c) :
      Act s i (s.takeBoardNotice k c)
  | peerExpiryRun (index : Nat) (live : (s.au.peer index).live = true) (run : s.sc.node = .run) :
      Act s (.peerLifetimeExpiry index)
        (s.setAu { s.au with peers := s.au.peers.set index (s.au.peer index).expire }).agreementAfterExpiry
  | peerExpiryElse (index : Nat) (live : (s.au.peer index).live = true) (not_run : s.sc.node ≠ .run) :
      Act s (.peerLifetimeExpiry index)
        (s.setAu { s.au with peers := s.au.peers.set index (s.au.peer index).expire })
  | agreementTimeout (timer : s.au.agreementTimer = true) (pending : s.au.agreement = .pending) :
      Act s .agreementTimerExpiry
        (((s.setAu { s.au with agreementTimer := false }).adopt s.au.ownOrigin).setAgreement .diverged)
  | agreementTimerStops (timer : s.au.agreementTimer = true) (not_pending : s.au.agreement ≠ .pending) :
      Act s .agreementTimerExpiry (s.setAu { s.au with agreementTimer := false })
  | paceTick (timer : s.au.paceTimer = true) : Act s .paceTick (s.changePace (s.au.pace + 1))
  | beaconSent (timer : s.au.beaconTimer = true) (sent : s.au.sent = true) :
      Act s .beaconTimerExpiry (s.setAu { s.au with sent := false })
  | beaconOffers (timer : s.au.beaconTimer = true) (sent : s.au.sent = false) :
      Act s .beaconTimerExpiry ((s.offer (.pace s.prof.segmentIndex)).setAu
        { (s.offer (.pace s.prof.segmentIndex)).au with sent := false })
  | frameEvent (timer : s.pa.frameTimer = true) (waiting : s.pa.paint = .waiting) :
      Act s .frameEvent s.frameStart.askWindow
  | frameComplete (painting : s.pa.paint = .painting) :
      Act s .frameComplete (s.setPa { s.pa with paint := .waiting })
  | dim (c : Chain) (delivered : s.Delivered .dim c) :
      Act s .dim ((s.directNote c).applyDim c.body).completeNotice
  | staff (c : Chain) (delivered : s.Delivered .staff c) :
      Act s .staffNotice ((s.directNote c).applyStaff c.body).completeNotice
  | query (c : Chain) (delivered : s.Delivered .query c) :
      Act s .query ((s.directNote c).applyQuery c.group c.body).completeNotice
  | restart (c : Chain) (delivered : s.Delivered .restart c)
      (names : s.named (num1 c.body 0) c.group = true) (ok : targetOk c.body = true) :
      Act s .restart (s.directNote c).warmRestart
  | restartElsewhere (c : Chain) (delivered : s.Delivered .restart c)
      (elsewhere : s.named (num1 c.body 0) c.group = false) (ok : targetOk c.body = true) :
      Act s .restart (s.directNote c).completeNotice
  | restartMalformed (c : Chain) (delivered : s.Delivered .restart c) (bad : targetOk c.body = false) :
      Act s .restart ((s.directNote c).raise .lineCrc).completeNotice
  | intervalExpiry (index : Nat) (timer : s.ru.timers.getD index false = true) :
      Act s (.intervalTimerExpiry index) (s.expireInterval index)

/-! ### Every command meets one of the cases -/

/-- The answer of a command that meets one of the cases. -/
def Acts (s : State) (i : Instr) (a : Answer) : Prop := ∃ t, a = .next t ∧ Act s i t

section
variable (s : State)

theorem acts_idle (i : Instr) : Acts s i (.next s) := ⟨s, rfl, .idle i⟩

variable {s}

theorem Act.acts {i : Instr} {t : State} (act : Act s i t) : Acts s i (.next t) := ⟨t, rfl, act⟩

theorem ApplyWork.acts {c : Chain} {i : Instr} {work : Tb → Effect} (applies : ApplyWork s c i work) :
    Acts s i (.next (s.completeApply (s.tb.withNote c work))) := (Act.apply i c work applies).acts

variable (s)

theorem execResetRelease_acts (node : BitVec 6) (glyport : Bool) :
    Acts s (.resetRelease node glyport) (execResetRelease node glyport s) := by
  simp only [execResetRelease]
  split
  next reset =>
    cases glyport with
    | true => exact (Act.beginLoad node reset).acts
    | false => exact (Act.skipLoad node reset).acts
  next => exact acts_idle s _

theorem execGlyphReadComplete_acts (b : Byte) : Acts s (.glyphReadComplete b) (execGlyphReadComplete b s) := by
  unfold execGlyphReadComplete
  split
  next a load position =>
    split
    next below => exact (Act.profileByte a b load position below).acts
    next from_ => exact (Act.fontByte a b load position (Nat.le_of_not_lt from_)).acts
  next => exact acts_idle s _

theorem execGlyphReadTimeout_acts : Acts s .glyphReadTimeout (execGlyphReadTimeout s) := by
  unfold execGlyphReadTimeout
  split
  next a load position =>
    split
    next below => exact (Act.profileTimeout a load position below).acts
    next from_ => exact (Act.fontTimeout a load position (Nat.le_of_not_lt from_)).acts
  next => exact acts_idle s _

theorem execListenTimerExpiry_acts : Acts s .listenTimerExpiry (execListenTimerExpiry s) := by
  unfold execListenTimerExpiry
  split
  next due => exact (Act.enterRun due.1 due.2).acts
  next => exact acts_idle s _

theorem execDiscardEnd_acts (bits : List Bool) : Acts s (.discardEnd bits) (execDiscardEnd bits s) := by
  unfold execDiscardEnd
  split
  next discard => exact (Act.discardBits bits discard).acts
  next => exact acts_idle s _

theorem execStartMark_acts (bits : List Bool) : Acts s (.startMark bits) (execStartMark bits s) := by
  unfold execStartMark
  split
  next hunt => exact (Act.huntBits bits hunt).acts
  next => exact acts_idle s _

theorem execFrameHeader_acts (kind sender group sequence length : Byte) :
    Acts s (.frameHeader kind sender group sequence length)
      (execFrameHeader kind sender group sequence length s) := by
  simp only [execFrameHeader]
  split
  next header =>
    split
    next fails => exact (Act.headerFails ⟨kind, sender, group, sequence, length⟩ header fails).acts
    next k passes => exact (Act.headerPasses ⟨kind, sender, group, sequence, length⟩ k header passes).acts
  next => exact acts_idle s _

theorem execReceiveByte_acts (b : Byte) : Acts s (.receiveByte b) (execReceiveByte b s) := by
  simp only [execReceiveByte]
  split
  next => exact acts_idle s _
  next more =>
    split
    next store => exact (Act.storedByte b more store).acts
    next foreign => exact (Act.foreignByte b more foreign).acts
    next skip => exact (Act.otherByte b more (Or.inl skip)).acts
    next lockout => exact (Act.otherByte b more (Or.inr lockout)).acts
    all_goals exact acts_idle s _

theorem execFrameEnd_acts (check : Digest) : Acts s (.frameEnd check) (execFrameEnd check s) := by
  simp only [execFrameEnd]
  split
  next last =>
    split
    next store => exact (Act.storedEnd check last store).acts
    next foreign => exact (Act.foreignEnd check last foreign).acts
    next skip => exact (Act.otherEnd check last (Or.inl skip)).acts
    next lockout => exact (Act.otherEnd check last (Or.inr lockout)).acts
    all_goals exact acts_idle s _
  next => exact acts_idle s _

theorem execBusyPeriodLimit_acts (bits : List Bool) :
    Acts s (.busyPeriodLimit bits) (execBusyPeriodLimit bits s) := by
  simp only [execBusyPeriodLimit]
  split
  next following =>
    split
    next frame => exact (Act.limitInFrame bits following frame).acts
    next outside => exact (Act.limitOutside bits following (eq_false_of_ne_true outside)).acts
  next => exact acts_idle s _

theorem execTxAttemptStart_acts : Acts s .txAttemptStart (execTxAttemptStart s) := by
  unfold execTxAttemptStart
  split
  next due =>
    obtain ⟨wait, line, may⟩ := due
    split
    next n notice => exact (Act.attempt n wait line may notice).acts
    next => exact acts_idle s _
  next => exact acts_idle s _

theorem execTxSuccess_acts : Acts s .txSuccess (execTxSuccess s) := by
  unfold execTxSuccess
  split
  next send => exact (Act.success send).acts
  next => exact acts_idle s _

theorem execCollision_acts (bit : Nat) : Acts s (.collision bit) (execCollision bit s) := by
  unfold execCollision
  split
  next sent => exact (Act.collision bit sent.1 sent.2).acts
  next => exact acts_idle s _

theorem execJamEnd_acts : Acts s .jamEnd (execJamEnd s) := by
  simp only [execJamEnd]
  split
  next jam =>
    split
    next late => exact (Act.lateJam jam late).acts
    next early =>
      have early := eq_false_of_ne_true early
      split
      next left => exact (Act.backOff jam early left).acts
      next spent => exact (Act.giveUp jam early (Nat.le_of_not_lt spent)).acts
  next => exact acts_idle s _

theorem execBackoffEnd_acts : Acts s .backoffEnd (execBackoffEnd s) := by
  unfold execBackoffEnd
  split
  next backoff => exact (Act.backoffEnd backoff).acts
  next => exact acts_idle s _

theorem execNameApply_acts : Acts s .nameApply (execNameApply s) := by
  unfold execNameApply
  split
  next => exact acts_idle s _
  next c on => exact (ApplyWork.name ((s.applying_iff _ c).1 on)).acts

theorem execServiceApply_acts : Acts s .serviceApply (execServiceApply s) := by
  unfold execServiceApply
  split
  next => exact acts_idle s _
  next c on => exact (ApplyWork.service ((s.applying_iff _ c).1 on)).acts

theorem execAmendApply_acts : Acts s .amendApply (execAmendApply s) := by
  unfold execAmendApply
  split
  next => exact acts_idle s _
  next c on => exact (ApplyWork.amend ((s.applying_iff _ c).1 on)).acts

theorem execWithdrawApply_acts : Acts s .withdrawApply (execWithdrawApply s) := by
  unfold execWithdrawApply
  split
  next => exact acts_idle s _
  next c on => exact (ApplyWork.withdraw ((s.applying_iff _ c).1 on)).acts

theorem execSweepOpen_acts : Acts s .sweepOpen (execSweepOpen s) := by
  unfold execSweepOpen
  split
  next => exact acts_idle s _
  next c on => exact (ApplyWork.sweepOpen ((s.applying_iff _ c).1 on)).acts

theorem execSweepClose_acts : Acts s .sweepClose (execSweepClose s) := by
  unfold execSweepClose
  split
  next => exact acts_idle s _
  next c on => exact (ApplyWork.sweepClose ((s.applying_iff _ c).1 on)).acts

theorem execClock_acts : Acts s .clock (execClock s) := by
  unfold execClock
  split
  next => exact acts_idle s _
  next c on => exact (ApplyWork.clock ((s.applying_iff _ c).1 on)).acts

theorem State.applyingHeader_iff (c : Chain) : s.applyingHeader = some c ↔
    s.tb.state = .working .apply ∧ s.lc.ring.inWork = some c ∧ c.headerOnly = true := by
  unfold State.applyingHeader
  split
  next d working inWork =>
    rw [working, inWork]
    cases mark : d.headerOnly with
    | true =>
      constructor
      · intro e
        cases e
        exact ⟨rfl, rfl, mark⟩
      · rintro ⟨-, e, -⟩
        rw [if_pos rfl, e]
    | false =>
      constructor
      · intro e
        exact nomatch e
      · rintro ⟨-, e, marked⟩
        cases e
        exact absurd (mark.symm.trans marked) (by decide)
  next none =>
    constructor
    · intro e
      exact nomatch e
    · rintro ⟨working, inWork, -⟩
      exact absurd inWork (none c working)

theorem execHeaderOnlyApply_acts : Acts s .headerOnlyApply (execHeaderOnlyApply s) := by
  unfold execHeaderOnlyApply
  split
  next => exact acts_idle s _
  next c on =>
    obtain ⟨working, inWork, mark⟩ := (s.applyingHeader_iff c).1 on
    exact (ApplyWork.headerOnly working inWork mark).acts

theorem execRefreshTimerExpiry_acts (n : Nat) : Acts s (.refreshTimerExpiry n) (execRefreshTimerExpiry n s) := by
  unfold execRefreshTimerExpiry
  split
  next => exact acts_idle s _
  next v found =>
    split
    next running => exact (Act.timerExpiry _ _ _ (.refresh n v found running)).acts
    next => exact acts_idle s _

theorem execFeederLifetimeExpiry_acts (node : Nat) :
    Acts s (.feederLifetimeExpiry node) (execFeederLifetimeExpiry node s) := by
  unfold execFeederLifetimeExpiry
  split
  next => exact acts_idle s _
  next f found =>
    split
    next running => exact (Act.timerExpiry _ _ _ (.lifetime node f found running)).acts
    next => exact acts_idle s _

theorem execSweepLimitExpiry_acts (node : Nat) : Acts s (.sweepLimitExpiry node) (execSweepLimitExpiry node s) := by
  unfold execSweepLimitExpiry
  split
  next => exact acts_idle s _
  next f found =>
    split
    next running => exact (Act.timerExpiry _ _ _ (.sweepLimit node f found running)).acts
    next => exact acts_idle s _

theorem execSecondTimerExpiry_acts : Acts s .secondTimerExpiry (execSecondTimerExpiry s) := by
  unfold execSecondTimerExpiry
  split
  next running => exact (Act.timerExpiry _ _ _ (.second running)).acts
  next => exact acts_idle s _

theorem execRefreshTableWork_acts : Acts s .refreshTableWork (execRefreshTableWork s) := by
  unfold execRefreshTableWork
  split
  next n live working => exact (Act.expiryWork _ _ (.refresh n live working)).acts
  next => exact acts_idle s _

theorem execFeederLifetimeTableWork_acts : Acts s .feederLifetimeTableWork (execFeederLifetimeTableWork s) := by
  unfold execFeederLifetimeTableWork
  split
  next node working => exact (Act.expiryWork _ _ (.lifetime node working)).acts
  next => exact acts_idle s _

theorem execSweepLimitTableWork_acts : Acts s .sweepLimitTableWork (execSweepLimitTableWork s) := by
  unfold execSweepLimitTableWork
  split
  next node working => exact (Act.expiryWork _ _ (.sweepLimit node working)).acts
  next => exact acts_idle s _

theorem execTickTableWork_acts : Acts s .tickTableWork (execTickTableWork s) := by
  unfold execTickTableWork
  split
  next working => exact (Act.expiryWork _ _ (.tick working)).acts
  next => exact acts_idle s _

theorem execWindowRelease_acts : Acts s .windowRelease (execWindowRelease s) := by
  unfold execWindowRelease
  split
  next reading => exact (Act.windowRelease reading).acts
  next => exact acts_idle s _

theorem execComposeComplete_acts : Acts s .composeComplete (execComposeComplete s) := by
  simp only [execComposeComplete]
  split
  next digesting => exact (Act.composeComplete digesting).acts
  next => exact acts_idle s _

theorem execDigestNotice_acts : Acts s .digestNotice (execDigestNotice s) := by
  unfold execDigestNotice
  split
  next => exact acts_idle s _
  next c arrived => exact (Act.boardNotice _ _ c .digest ((s.delivered_iff _ c).1 arrived)).acts

theorem execPaceNotice_acts : Acts s .paceNotice (execPaceNotice s) := by
  unfold execPaceNotice
  split
  next => exact acts_idle s _
  next c arrived => exact (Act.boardNotice _ _ c .pace ((s.delivered_iff _ c).1 arrived)).acts

theorem execStatusNotice_acts : Acts s .statusNotice (execStatusNotice s) := by
  unfold execStatusNotice
  split
  next => exact acts_idle s _
  next c arrived => exact (Act.boardNotice _ _ c .status ((s.delivered_iff _ c).1 arrived)).acts

theorem execPeerLifetimeExpiry_acts (index : Nat) :
    Acts s (.peerLifetimeExpiry index) (execPeerLifetimeExpiry index s) := by
  simp only [execPeerLifetimeExpiry]
  split
  next live =>
    split
    next run => exact (Act.peerExpiryRun index live run).acts
    next not_run => exact (Act.peerExpiryElse index live not_run).acts
  next => exact acts_idle s _

theorem execAgreementTimerExpiry_acts : Acts s .agreementTimerExpiry (execAgreementTimerExpiry s) := by
  simp only [execAgreementTimerExpiry]
  split
  next timer =>
    split
    next pending => exact (Act.agreementTimeout timer pending).acts
    next not_pending => exact (Act.agreementTimerStops timer not_pending).acts
  next => exact acts_idle s _

theorem execPaceTick_acts : Acts s .paceTick (execPaceTick s) := by
  unfold execPaceTick
  split
  next timer => exact (Act.paceTick timer).acts
  next => exact acts_idle s _

theorem execBeaconTimerExpiry_acts : Acts s .beaconTimerExpiry (execBeaconTimerExpiry s) := by
  simp only [execBeaconTimerExpiry]
  split
  next timer =>
    cases sent : s.au.sent with
    | true => exact (Act.beaconSent timer sent).acts
    | false => exact (Act.beaconOffers timer sent).acts
  next => exact acts_idle s _

theorem execFrameEvent_acts : Acts s .frameEvent (execFrameEvent s) := by
  unfold execFrameEvent
  split
  next due => exact (Act.frameEvent due.1 due.2).acts
  next => exact acts_idle s _

theorem execFrameComplete_acts : Acts s .frameComplete (execFrameComplete s) := by
  unfold execFrameComplete
  split
  next painting => exact (Act.frameComplete painting).acts
  next => exact acts_idle s _

theorem execDim_acts : Acts s .dim (execDim s) := by
  unfold execDim
  split
  next => exact acts_idle s _
  next c arrived => exact (Act.dim c ((s.delivered_iff _ c).1 arrived)).acts

theorem execStaffNotice_acts : Acts s .staffNotice (execStaffNotice s) := by
  unfold execStaffNotice
  split
  next => exact acts_idle s _
  next c arrived => exact (Act.staff c ((s.delivered_iff _ c).1 arrived)).acts

theorem execQuery_acts : Acts s .query (execQuery s) := by
  unfold execQuery
  split
  next => exact acts_idle s _
  next c arrived => exact (Act.query c ((s.delivered_iff _ c).1 arrived)).acts

theorem execRestart_acts : Acts s .restart (execRestart s) := by
  simp only [execRestart]
  split
  next => exact acts_idle s _
  next c arrived =>
    have delivered := (s.delivered_iff _ c).1 arrived
    split
    next ok =>
      split
      next names => exact (Act.restart c delivered names ok).acts
      next elsewhere => exact (Act.restartElsewhere c delivered (eq_false_of_ne_true elsewhere) ok).acts
    next bad => exact (Act.restartMalformed c delivered (eq_false_of_ne_true bad)).acts

theorem execIntervalTimerExpiry_acts (index : Nat) :
    Acts s (.intervalTimerExpiry index) (execIntervalTimerExpiry index s) := by
  unfold execIntervalTimerExpiry
  split
  next timer => exact (Act.intervalExpiry index timer).acts
  next => exact acts_idle s _

/-- Every command answers a next state, by one of the cases. -/
theorem exec_acts (i : Instr) : Acts s i (exec i s) := by
  cases i with
  | coldReset => exact Act.coldReset.acts
  | resetRelease node glyport => exact execResetRelease_acts s node glyport
  | glyphReadComplete data => exact execGlyphReadComplete_acts s data
  | glyphReadTimeout => exact execGlyphReadTimeout_acts s
  | listenTimerExpiry => exact execListenTimerExpiry_acts s
  | discardEnd bits => exact execDiscardEnd_acts s bits
  | frameHeader kind sender group sequence length => exact execFrameHeader_acts s kind sender group sequence length
  | receiveByte data => exact execReceiveByte_acts s data
  | frameEnd check => exact execFrameEnd_acts s check
  | chainComplete => exact Act.completeDue.acts
  | busyPeriodLimit bits => exact execBusyPeriodLimit_acts s bits
  | txAttemptStart => exact execTxAttemptStart_acts s
  | txSuccess => exact execTxSuccess_acts s
  | collision bit => exact execCollision_acts s bit
  | jamEnd => exact execJamEnd_acts s
  | backoffEnd => exact execBackoffEnd_acts s
  | nameApply => exact execNameApply_acts s
  | serviceApply => exact execServiceApply_acts s
  | amendApply => exact execAmendApply_acts s
  | withdrawApply => exact execWithdrawApply_acts s
  | sweepOpen => exact execSweepOpen_acts s
  | sweepClose => exact execSweepClose_acts s
  | clock => exact execClock_acts s
  | headerOnlyApply => exact execHeaderOnlyApply_acts s
  | refreshTimerExpiry service => exact execRefreshTimerExpiry_acts s service
  | refreshTableWork => exact execRefreshTableWork_acts s
  | feederLifetimeExpiry node => exact execFeederLifetimeExpiry_acts s node
  | feederLifetimeTableWork => exact execFeederLifetimeTableWork_acts s
  | sweepLimitExpiry node => exact execSweepLimitExpiry_acts s node
  | sweepLimitTableWork => exact execSweepLimitTableWork_acts s
  | secondTimerExpiry => exact execSecondTimerExpiry_acts s
  | tickTableWork => exact execTickTableWork_acts s
  | windowRelease => exact execWindowRelease_acts s
  | composeComplete => exact execComposeComplete_acts s
  | digestNotice => exact execDigestNotice_acts s
  | paceNotice => exact execPaceNotice_acts s
  | statusNotice => exact execStatusNotice_acts s
  | peerLifetimeExpiry index => exact execPeerLifetimeExpiry_acts s index
  | agreementTimerExpiry => exact execAgreementTimerExpiry_acts s
  | paceTick => exact execPaceTick_acts s
  | beaconTimerExpiry => exact execBeaconTimerExpiry_acts s
  | frameEvent => exact execFrameEvent_acts s
  | frameComplete => exact execFrameComplete_acts s
  | dim => exact execDim_acts s
  | staffNotice => exact execStaffNotice_acts s
  | query => exact execQuery_acts s
  | intervalTimerExpiry index => exact execIntervalTimerExpiry_acts s index
  | restart => exact execRestart_acts s
  | startMark bits => exact execStartMark_acts s bits

end

/-- Where a command answers `t`, one of the cases led there. -/
theorem act_of_exec {s t : State} {i : Instr} (answered : exec i s = .next t) : Act s i t := by
  obtain ⟨u, next, act⟩ := exec_acts s i
  cases answered.symm.trans next
  exact act

/-- A property of states that every case keeps, whatever waits in the queue, is kept by every step. -/
theorem step_keeps {P : State → Prop} (queue : ∀ (s : State) (l : List Instr), P s → P { s with pending := l })
    (keeps : ∀ (s t : State) (i : Instr), P s → Act s i t → P t) {s t : State} (holds : P s)
    (stepped : step s = .next t) : P t := by
  unfold step at stepped
  split at stepped
  next =>
    cases stepped
    exact holds
  next i rest _ => exact keeps _ t i (queue s rest holds) (act_of_exec stepped)

end Sys2Proof.Machine
end

