-- ==== Sys2Proof/Proofs/WholeMachine.lean ====
section
/-! SUPPORT. The machine as a whole: a step and the queue, the commands whose event cannot occur, the cold reset, and
the pace between resets. -/

namespace Sys2Proof.Machine

/-! ### A step and the queue (log entry 1) -/

/-- Settles O1: a step is the front command on the state with the queue's rest, by the definition of `step`. -/
theorem stepRunsFrontCommand : Obligations.StepRunsFrontCommand := by
  unfold Obligations.StepRunsFrontCommand
  refine ⟨fun c rest s => rfl, fun s empty => ?_⟩
  unfold step
  rw [empty]

/-- No command touches the queue. -/
theorem Act.pending {s t : State} {i : Instr} (act : Act s i t) : t.pending = s.pending := by
  cases act with
  | coldReset => rfl
  | restart => simp [State.warmRestart]
  | _ => simp

/-- Settles O2: every command meets one of the cases of `Act`, and none of them touches the queue. -/
theorem execAnswersNextAndKeepsQueue : Obligations.ExecAnswersNextAndKeepsQueue := by
  intro c s
  obtain ⟨t, next, act⟩ := exec_acts s c
  exact ⟨t, next, act.pending⟩

/-! ### The pace (R130, R131) -/

theorem paceAhead_succ (p : Pace) : paceAhead (p + 1) p = true := by
  have one : p + 1 - p = 1 := by bv_omega
  rw [paceAhead_iff, one]
  decide

@[simp] theorem State.changePace_pace (s : State) (q : Pace) : (s.changePace q).au.pace = q := by
  unfold State.changePace
  split <;> simp

/-- A pace taken from a board notice is ahead of the own one (R131). -/
theorem State.adoptPace_ahead (s : State) (q : Pace) :
    (s.adoptPace q).au.pace = s.au.pace ∨ paceAhead (s.adoptPace q).au.pace s.au.pace = true := by
  unfold State.adoptPace
  split
  next ahead => exact Or.inr (by simpa using ahead)
  next => exact Or.inl rfl

/-- Every command but COLD_RESET and RESTART leaves the pace or takes it ahead. -/
theorem Act.pace {s t : State} {i : Instr} (act : Act s i t) (cold : i ≠ .coldReset) (warm : i ≠ .restart) :
    t.au.pace = s.au.pace ∨ paceAhead t.au.pace s.au.pace = true := by
  cases act with
  | coldReset => exact absurd rfl cold
  | restart => exact absurd rfl warm
  | paceTick => exact Or.inr (by simpa using paceAhead_succ s.au.pace)
  | boardNotice k c => simpa [State.takeBoardNotice] using s.adoptPace_ahead _
  | _ => exact Or.inl (by simp)

/-- Settles O16: a tick adds 1, and a board notice's pace is taken where it is ahead. -/
theorem paceNeverMovesBack : Obligations.PaceNeverMovesBack :=
  fun _ _ _ answered cold warm => (act_of_exec answered).pace cold warm

/-! ### The cold reset (R188) -/

theorem StopPool.length_reset_cells : StopPool.reset.cells.length = 640 := by
  unfold StopPool.reset
  rw [List.length_replicate]
  rfl

theorem StopPool.reset_free : StopPool.reset.free = List.range 640 := by
  unfold StopPool.reset
  rw [Config.poolCells]

theorem Tb.reset_atReset : Tb.reset.AtReset :=
  ⟨rfl, StopPool.length_reset_cells, StopPool.reset_free, rfl, rfl, rfl, rfl, rfl, rfl, rfl, rfl, rfl⟩

theorem State.coldReset_coldResetValues (s : State) : s.coldReset.ColdResetValues := by
  refine ⟨rfl, rfl, rfl, rfl, rfl, rfl, ?_, ?_, rfl, rfl, ?_, rfl, rfl⟩
  · exact ⟨rfl, rfl, rfl, rfl, rfl, rfl, rfl, rfl, rfl, rfl, rfl⟩
  · exact Tb.reset_atReset
  · exact ⟨rfl, rfl, rfl, rfl, rfl, rfl, rfl, rfl, rfl⟩

/-- Settles O4: the reset state is its own cold reset. -/
theorem coldResetGivesColdResetValues : Obligations.ColdResetGivesColdResetValues :=
  ⟨State.reset.coldReset_coldResetValues, fun s => ⟨s.coldReset, rfl, s.coldReset_coldResetValues, rfl, rfl⟩⟩

/-! ### Commands whose event cannot occur (log entry 2) -/

section
variable {s : State}

/-- No apply is in flight without an IN-WORK chain. -/
theorem State.applying_none (k : NoticeKind) (none : s.tb.state ≠ .working .apply ∨ s.lc.ring.inWork = none) :
    s.applying k = .none := by
  refine Option.eq_none_iff_forall_ne_some.2 fun c e => ?_
  obtain ⟨working, inWork, -⟩ := (s.applying_iff k c).1 e
  rcases none with idle | empty
  · exact idle working
  · exact nomatch empty.symm.trans inWork

theorem State.applyingHeader_none (none : s.tb.state ≠ .working .apply ∨ s.lc.ring.inWork = none) :
    s.applyingHeader = .none := by
  refine Option.eq_none_iff_forall_ne_some.2 fun c e => ?_
  obtain ⟨working, inWork, -⟩ := (s.applyingHeader_iff c).1 e
  rcases none with idle | empty
  · exact idle working
  · exact nomatch empty.symm.trans inWork

theorem exec_apply_idle {i : Instr} (apply : i ∈ [Instr.nameApply, .serviceApply, .amendApply, .withdrawApply,
      .sweepOpen, .sweepClose, .clock, .headerOnlyApply])
    (none : s.tb.state ≠ .working .apply ∨ s.lc.ring.inWork = none) : exec i s = .next s := by
  have whole := fun k => State.applying_none k none
  have header := State.applyingHeader_none none
  simp only [List.mem_cons, List.not_mem_nil, or_false] at apply
  rcases apply with rfl | rfl | rfl | rfl | rfl | rfl | rfl | rfl
  · simp [exec, execNameApply, whole]
  · simp [exec, execServiceApply, whole]
  · simp [exec, execAmendApply, whole]
  · simp [exec, execWithdrawApply, whole]
  · simp [exec, execSweepOpen, whole]
  · simp [exec, execSweepClose, whole]
  · simp [exec, execClock, whole]
  · simp [exec, execHeaderOnlyApply, header]

theorem exec_expiryWork_idle {i : Instr} (work : i ∈ [Instr.refreshTableWork, .feederLifetimeTableWork,
      .sweepLimitTableWork, .tickTableWork])
    (other : s.tb.state = .free ∨ s.tb.state = .window ∨ s.tb.state = .working .apply) : exec i s = .next s := by
  simp only [List.mem_cons, List.not_mem_nil, or_false] at work
  rcases work with rfl | rfl | rfl | rfl
  · rcases other with h | h | h <;> simp [exec, execRefreshTableWork, h]
  · rcases other with h | h | h <;> simp [exec, execFeederLifetimeTableWork, h]
  · rcases other with h | h | h <;> simp [exec, execSweepLimitTableWork, h]
  · rcases other with h | h | h <;> simp [exec, execTickTableWork, h]

theorem exec_delivered_idle {i : Instr} (notice : i ∈ [Instr.digestNotice, .paceNotice, .statusNotice, .dim,
      .staffNotice, .query, .restart])
    (none : s.lc.ring.inWork = none) : exec i s = .next s := by
  have nothing (k : NoticeKind) : s.delivered k = .none := by simp [State.delivered, none]
  simp only [List.mem_cons, List.not_mem_nil, or_false] at notice
  rcases notice with rfl | rfl | rfl | rfl | rfl | rfl | rfl
  · simp [exec, execDigestNotice, nothing]
  · simp [exec, execPaceNotice, nothing]
  · simp [exec, execStatusNotice, nothing]
  · simp [exec, execDim, nothing]
  · simp [exec, execStaffNotice, nothing]
  · simp [exec, execQuery, nothing]
  · simp [exec, execRestart, nothing]

theorem exec_glyphRead_idle (b : Byte) (none : s.sc.node ≠ .load ∨ s.sc.loadPosition = none) :
    exec (.glyphReadComplete b) s = .next s ∧ exec .glyphReadTimeout s = .next s := by
  simp only [exec, execGlyphReadComplete, execGlyphReadTimeout]
  constructor
  · split
    next a load position => rcases none with n | n <;> simp_all
    next => rfl
  · split
    next a load position => rcases none with n | n <;> simp_all
    next => rfl

theorem exec_body_idle (b : Byte) (v : Digest) (store : s.lc.receiver.state ≠ .store)
    (foreign : s.lc.receiver.state ≠ .foreign) (skip : s.lc.receiver.state ≠ .skip)
    (lockout : s.lc.receiver.state ≠ .lockout) :
    exec (.receiveByte b) s = .next s ∧ exec (.frameEnd v) s = .next s := by
  simp only [exec, execReceiveByte, execFrameEnd]
  cases state : s.lc.receiver.state <;> simp_all

/-- A busy period below its limit, or already reported, reports nothing (R30). -/
theorem State.tally_idle (s : State) (quiet : s.lc.watch.busyBits ≠ 5000 ∨ s.lc.watch.reported = true) :
    s.tally s.lc.watch = s :=
  (s.tally_stands s.lc.watch).2 quiet

/-- BUSY_PERIOD_LIMIT without bits leaves what does not stand at the limit. -/
theorem exec_busyPeriodLimit_idle (quiet : s.lc.watch.busyBits ≠ 5000 ∨ s.lc.watch.reported = true) :
    exec (.busyPeriodLimit []) s = .next s := by
  simp [exec, execBusyPeriodLimit, State.watchAhead, Watch.follow, s.tally_idle quiet]

end

/-- Settles O3: each command's guard is false in the state named. -/
theorem impossibleEventsChangeNothing : Obligations.ImpossibleEventsChangeNothing := by
  refine ⟨?release, fun s b => exec_glyphRead_idle b, ?listen, ?discard, ?hunt, ?header,
    fun s b v => exec_body_idle b v, ?byte, ?frameEnd, ?chain, ?limit, fun s => exec_busyPeriodLimit_idle, ?attempt,
    ?send, ?jam, ?backoff, fun s i => exec_apply_idle, fun s i => exec_expiryWork_idle, ?refresh, ?feeder, ?second,
    ?window, ?compose, fun s i => exec_delivered_idle, ?peer, ?agreement, ?pace, ?beacon, ?frame, ?frameComplete,
    ?interval⟩
  case release => intro s node strap h; simp [exec, execResetRelease, h]
  case listen => rintro s (h | h) <;> simp [exec, execListenTimerExpiry, h]
  case discard => intro s bits h; simp [exec, execDiscardEnd, h]
  case hunt => intro s bits h; simp [exec, execStartMark, h]
  case header => intro s k a g q l h; simp [exec, execFrameHeader, h]
  case byte => intro s b h; simp [exec, execReceiveByte, h]
  case frameEnd => intro s v h; simp [exec, execFrameEnd, h]
  case chain => intro s h; simp [exec, execChainComplete, State.completeDue, h]
  case limit =>
    intro s bits starting
    have following : s.following = false := by
      rw [← Bool.not_eq_true, s.following_iff_started, ← s.not_starting_iff_started]
      exact fun h => h starting
    simp [exec, execBusyPeriodLimit, following]
  case attempt => rintro s (h | h) <;> simp [exec, execTxAttemptStart, h]
  case send => intro s b h; simp [exec, execTxSuccess, execCollision, h]
  case jam => intro s h; simp [exec, execJamEnd, h]
  case backoff => intro s h; simp [exec, execBackoffEnd, h]
  case refresh => intro s n h; simp [exec, execRefreshTimerExpiry, h]
  case feeder => intro s n h; simp [exec, execFeederLifetimeExpiry, execSweepLimitExpiry, h]
  case second => intro s h; simp [exec, execSecondTimerExpiry, h]
  case window => intro s h; simp [exec, execWindowRelease, h]
  case compose => intro s h; simp [exec, execComposeComplete, h]
  case peer => intro s i h; simp [exec, execPeerLifetimeExpiry, h]
  case agreement => intro s h; simp [exec, execAgreementTimerExpiry, h]
  case pace => intro s h; simp [exec, execPaceTick, h]
  case beacon => intro s h; simp [exec, execBeaconTimerExpiry, h]
  case frame => rintro s (h | h) <;> simp [exec, execFrameEvent, h]
  case frameComplete => intro s h; simp [exec, execFrameComplete, h]
  case interval =>
    intro s i h
    simp only [exec, execIntervalTimerExpiry, h]
    rfl

end Sys2Proof.Machine
end

