-- ==== Sys2Proof/Proofs/StartupInvariant.lean ====
section
/-! SUPPORT. Every step keeps the start-up invariant. In RESET and LOAD the blocks hold their reset values, so only
the commands of RESET/ and LOAD act; in LISTEN and RUN the others leave what the invariant speaks of. -/

namespace Sys2Proof.Machine

/-! ### What acts in RESET and LOAD -/

/-- The commands that act in RESET and LOAD (R188 to R195). -/
inductive StartsUp : Instr → Prop
  | coldReset : StartsUp .coldReset
  | resetRelease (node : BitVec 6) (glyport : Bool) : StartsUp (.resetRelease node glyport)
  | glyphReadComplete (b : Byte) : StartsUp (.glyphReadComplete b)
  | glyphReadTimeout : StartsUp .glyphReadTimeout

theorem absent_getD_live (k : Nat) : ((List.replicate 8 Peer.absent).getD k .absent).live = false := by
  have absent : (List.replicate 8 Peer.absent).getD k .absent = .absent := by
    rw [List.getD_eq_getElem?_getD, List.getElem?_replicate]
    split <;> rfl
  rw [absent]
  rfl

/-- Where the blocks hold their reset values, no guard of another command holds. -/
theorem Act.idle_of_blocksAtReset {s t : State} {i : Instr} (act : Act s i t) (blocks : s.BlocksAtReset)
    (starting : s.starting) (other : ¬ StartsUp i) : t = s := by
  obtain ⟨lc, tb, co, au, pa, -, ru⟩ := blocks
  obtain ⟨off, -, -, ring, -, silent, -⟩ := lc
  obtain ⟨services, -, -, -, -, free, -, -, -, feeders, -, time⟩ := tb
  obtain ⟨dark, -, frame, -⟩ := pa
  have following : ¬ s.following = true := fun h =>
    (s.not_starting_iff_started.2 (s.following_iff_started.1 h)) starting
  have pass : s.co.pass = .idle := by rw [co]
  have agreement : s.au.agreementTimer = false := by rw [au]
  have pace : s.au.paceTimer = false := by rw [au]
  have beacon : s.au.beaconTimer = false := by rw [au]
  have peer (k : Nat) : (s.au.peer k).live = false := by
    rw [Au.peer, au]
    exact absent_getD_live k
  have timers (k : Nat) : s.ru.timers.getD k false = false := by
    rw [ru]
    rcases k with _ | _ | _ | k <;> rfl
  cases act with
  | idle => rfl
  | coldReset => exact absurd .coldReset other
  | beginLoad => exact absurd (.resetRelease _ _) other
  | skipLoad => exact absurd (.resetRelease _ _) other
  | profileByte => exact absurd (.glyphReadComplete _) other
  | fontByte => exact absurd (.glyphReadComplete _) other
  | profileTimeout => exact absurd .glyphReadTimeout other
  | fontTimeout => exact absurd .glyphReadTimeout other
  | enterRun listen => rcases starting with h | h <;> simp_all
  | completeDue => simp [State.completeDue, Lc.chainDue, ring]
  | otherByte b more skip => rcases skip with h | h <;> simp_all
  | otherEnd check last skip => rcases skip with h | h <;> simp_all
  | limitInFrame bits follows => exact absurd follows following
  | limitOutside bits follows => exact absurd follows following
  | apply i c work applies =>
    cases applies with
    | headerOnly working => simp_all
    | _ on => simp_all [State.Applying]
  | timerExpiry i tb e expires => cases expires <;> simp_all [Tb.find, Tb.feeder]
  | expiryWork i fx works => cases works <;> simp_all
  | boardNotice i k c takes delivered => simp_all [State.Delivered]
  | dim c delivered => simp_all [State.Delivered]
  | staff c delivered => simp_all [State.Delivered]
  | query c delivered => simp_all [State.Delivered]
  | restart c delivered => simp_all [State.Delivered]
  | restartElsewhere c delivered => simp_all [State.Delivered]
  | restartMalformed c delivered => simp_all [State.Delivered]
  | _ => simp_all

/-- With the start-up invariant a command idles, is one of RESET/ and LOAD, or acts in LISTEN or RUN. -/
theorem Act.started {s t : State} {i : Instr} (act : Act s i t) (sound : s.StartupSound) (other : ¬ StartsUp i) :
    t = s ∨ s.started := by
  by_cases starting : s.starting
  · exact Or.inl (act.idle_of_blocksAtReset (sound.blocksAtReset starting) starting other)
  · exact Or.inr (s.not_starting_iff_started.1 starting)

/-! ### LISTEN and RUN -/

/-- Between `s` and `t` stands what the start-up invariant says of LISTEN and RUN; a brightness stays in force, and
a panel that is not DARK stays so. -/
structure StartupStands (s t : State) : Prop where
  sc : t.sc = s.sc
  geometry : t.pa.geometry = s.pa.geometry
  layout : t.pa.layout = s.pa.layout
  fontHeight : t.pa.fontHeight = s.pa.fontHeight
  frameTimer : t.pa.frameTimer = s.pa.frameTimer
  paceTimer : t.au.paceTimer = s.au.paceTimer
  beaconTimer : t.au.beaconTimer = s.au.beaconTimer
  brightness : s.pa.brightness.isSome = true → t.pa.brightness.isSome = true
  paint : s.pa.paint ≠ .dark → t.pa.paint ≠ .dark

theorem StartupStands.keeps {s t : State} (stands : StartupStands s t) (started : s.started)
    (sound : s.StartupSound) : t.StartupSound := by
  obtain ⟨-, -, values, profile, listen, beacon⟩ := sound
  obtain ⟨p, ps, fs, position, geometry, layout, height, brightness, paint, frame, pace⟩ := values started
  have running : ¬ t.starting := by
    unfold State.starting
    rw [stands.sc]
    exact s.not_starting_iff_started.2 started
  refine ⟨fun h => absurd (Or.inl h) running, fun h => absurd (Or.inr h) running, fun _ => ?_, ?_, ?_, ?_⟩
  · refine ⟨?_, ?_, ?_, ?_, ?_, ?_, ?_, stands.brightness brightness, stands.paint paint, ?_, ?_⟩
    · rwa [stands.sc]
    · rwa [stands.sc]
    · rwa [stands.sc]
    · rwa [stands.sc]
    · rwa [stands.geometry]
    · rwa [stands.layout]
    · rwa [stands.fontHeight]
    · rwa [stands.frameTimer]
    · rwa [stands.paceTimer]
  · rwa [stands.sc]
  · rwa [stands.sc]
  · rwa [stands.sc, stands.beaconTimer]

/-- A DIM leaves a brightness in force (R157). -/
theorem State.applyDim_brightness_isSome (s : State) (body : List Byte) (some : s.pa.brightness.isSome = true) :
    (s.applyDim body).pa.brightness.isSome = true := by
  unfold State.applyDim
  split <;> simp [some]

/-- The commands that lead through the node states (R188 to R198). -/
inductive LeadsOn : Instr → Prop
  | startsUp {i : Instr} (h : StartsUp i) : LeadsOn i
  | listenTimerExpiry : LeadsOn .listenTimerExpiry
  | restart : LeadsOn .restart

section
variable {s : State} {i : Instr}

theorem ApplyWork.not_leadsOn {c : Chain} {work : Tb → Effect} (applies : ApplyWork s c i work) : ¬ LeadsOn i := by
  cases applies <;> rintro ⟨⟨⟩⟩

theorem TimerExpiry.not_leadsOn {tb : Tb} {e : Expiry} (expires : TimerExpiry s i tb e) : ¬ LeadsOn i := by
  cases expires <;> rintro ⟨⟨⟩⟩

theorem ExpiryWork.not_leadsOn {fx : Effect} (works : ExpiryWork s i fx) : ¬ LeadsOn i := by
  cases works <;> rintro ⟨⟨⟩⟩

theorem BoardCommand.not_leadsOn {k : NoticeKind} (takes : BoardCommand i k) : ¬ LeadsOn i := by
  cases takes <;> rintro ⟨⟨⟩⟩

end

/-- Every other command leaves what the start-up invariant says of LISTEN and RUN. -/
theorem Act.startupStands {s t : State} {i : Instr} (act : Act s i t) (other : ¬ LeadsOn i) : StartupStands s t := by
  cases act with
  | coldReset => exact absurd (.startsUp .coldReset) other
  | beginLoad => exact absurd (.startsUp (.resetRelease _ _)) other
  | skipLoad => exact absurd (.startsUp (.resetRelease _ _)) other
  | profileByte => exact absurd (.startsUp (.glyphReadComplete _)) other
  | fontByte => exact absurd (.startsUp (.glyphReadComplete _)) other
  | profileTimeout => exact absurd (.startsUp .glyphReadTimeout) other
  | fontTimeout => exact absurd (.startsUp .glyphReadTimeout) other
  | enterRun => exact absurd .listenTimerExpiry other
  | restart => exact absurd .restart other
  | restartElsewhere => exact absurd .restart other
  | restartMalformed => exact absurd .restart other
  | dim c =>
    exact { sc := by simp, geometry := by simp, layout := by simp, fontHeight := by simp, frameTimer := by simp
            paceTimer := by simp, beaconTimer := by simp
            brightness := fun h => by simpa using State.applyDim_brightness_isSome _ _ (by simpa using h)
            paint := by simp }
  | frameEvent => constructor <;> simp [State.frameStart, State.sampleAndPaint]
  | _ => constructor <;> simp

/-! ### The commands that lead through the node states -/

section
variable {s : State}

/-- While it stays in RESET or LOAD, LOAD touches neither the blocks' reset values nor the timers. -/
theorem State.BlocksAtReset.congr {t : State} (blocks : s.BlocksAtReset) (lc : t.lc = s.lc) (tb : t.tb = s.tb)
    (co : t.co = s.co) (au : t.au = s.au) (bu : t.bu = s.bu) (ru : t.ru = s.ru)
    (pa : s.pa.AtReset → t.pa.AtReset) : t.BlocksAtReset := by
  obtain ⟨h1, h2, h3, h4, h5, h6, h7⟩ := blocks
  exact ⟨lc ▸ h1, tb ▸ h2, co ▸ h3, au ▸ h4, pa h5, bu ▸ h6, ru ▸ h7⟩

/-- A state in LOAD with its blocks at reset and a read in flight meets the invariant. -/
theorem State.startupSound_of_load {t : State} (load : t.sc.node = .load) (blocks : t.BlocksAtReset)
    (read : ∃ a, t.sc.loadPosition = some a ∧
      (fontBase ≤ a → t.sc.profile.isSome = true ∧ t.sc.profileSource.isSome = true))
    (profile : ∀ p, t.sc.profile = some p → p.segmentIndex < p.segmentCount ∧ p.segmentCount ≤ 8)
    (timer : t.sc.listenTimer = false) : t.StartupSound := by
  have beacon : t.au.beaconTimer = false := by
    obtain ⟨-, -, -, au, -⟩ := blocks
    rw [au]
  refine ⟨fun h => ?_, fun _ => ⟨blocks, read⟩, fun h => ?_, profile, ?_, ?_⟩
  · simp [load] at h
  · simp [State.started, load] at h
  · simp [load, timer]
  · simp [load, beacon]

/-- A state in LISTEN with the values LOAD leaves meets the invariant. -/
theorem State.startupSound_of_listen {t : State} (listen : t.sc.node = .listen) (values : t.StartedValues)
    (profile : ∀ p, t.sc.profile = some p → p.segmentIndex < p.segmentCount ∧ p.segmentCount ≤ 8)
    (timer : t.sc.listenTimer = true) (beacon : t.au.beaconTimer = false) : t.StartupSound := by
  refine ⟨fun h => ?_, fun h => ?_, fun _ => values, profile, ?_, ?_⟩
  · simp [listen] at h
  · simp [listen] at h
  · simp [listen, timer]
  · simp [listen, beacon]

theorem defaultProfile_segments : defaultProfile.segmentIndex < defaultProfile.segmentCount ∧
    defaultProfile.segmentCount ≤ 8 := by decide

/-- A profile block that passes names a segment below its segment count (R191, R192). -/
theorem profileOfBlock_segments {block : List Byte} (passes : blockPasses block = true) :
    (profileOfBlock block).segmentIndex < (profileOfBlock block).segmentCount ∧
      (profileOfBlock block).segmentCount ≤ 8 := by
  simp only [blockPasses, blockShapeOk, Bool.and_eq_true, decide_eq_true_eq] at passes
  simp only [profileOfBlock]
  omega

/-- The end of LOAD leads to LISTEN with its values (R196). -/
theorem State.endLoad_startupSound (profile : s.sc.profile.isSome = true) (ps : s.sc.profileSource.isSome = true)
    (fs : s.sc.fontSource.isSome = true) (height : s.pa.fontHeight.isSome = true)
    (segments : ∀ p, s.sc.profile = some p → p.segmentIndex < p.segmentCount ∧ p.segmentCount ≤ 8)
    (beacon : s.au.beaconTimer = false) : s.endLoad.StartupSound := by
  refine State.startupSound_of_listen (by simp) ⟨?_, ?_, ?_, ?_, ?_, ?_, ?_, ?_, ?_, ?_, ?_⟩ ?_ ?_ ?_
  · simpa using profile
  · simpa using ps
  · simpa using fs
  · simp [State.endLoad, State.enterListen]
  · simp [State.endLoad, State.takeUp, State.enterListen]
  · simp [State.endLoad, State.takeUp, State.enterListen]
  · simpa using height
  · simp [State.endLoad, State.takeUp, State.enterListen]
  · simp [State.endLoad, State.frameStart, State.sampleAndPaint]
  · simp [State.endLoad, State.enterListen]
  · simp [State.endLoad, State.enterListen]
  · simpa using segments
  · simp [State.endLoad, State.enterListen]
  · simpa using beacon

/-- A failed font read leads to LISTEN with its values (R195, R196). -/
theorem State.fontFails_startupSound (profile : s.sc.profile.isSome = true)
    (ps : s.sc.profileSource.isSome = true)
    (segments : ∀ p, s.sc.profile = some p → p.segmentIndex < p.segmentCount ∧ p.segmentCount ≤ 8)
    (beacon : s.au.beaconTimer = false) : s.fontFails.StartupSound :=
  State.endLoad_startupSound (by simpa using profile) (by simpa using ps)
    (by simp [State.useFallbackFont]) (by simp [State.useFallbackFont]) (by simpa using segments)
    (by simpa using beacon)

/-- The entry to RUN keeps the values of LISTEN (R197). -/
theorem State.enterRun_startupSound (sound : s.StartupSound) (listen : s.sc.node = .listen) :
    s.enterRun.StartupSound := by
  obtain ⟨-, -, values, profile, -⟩ := sound
  obtain ⟨p, ps, fs, position, geometry, layout, height, brightness, paint, frame, pace⟩ := values (Or.inl listen)
  have sc : s.enterRun.sc = { s.sc with node := .run, listenTimer := false } := by simp [State.enterRun]
  have pa : s.enterRun.pa = s.pa := by simp [State.enterRun]
  refine ⟨fun h => ?_, fun h => ?_, fun _ => ?_, ?_, ?_, ?_⟩
  · simp [sc] at h
  · simp [sc] at h
  · refine ⟨?_, ?_, ?_, ?_, ?_, ?_, ?_, ?_, ?_, ?_, ?_⟩ <;> simp [*]
  · simpa [sc] using profile
  · simp [sc]
  · simp [State.enterRun]

/-- A warm restart leads to LISTEN and keeps profile, font and geometry (R198). -/
theorem State.warmRestart_startupSound (sound : s.StartupSound) (started : s.started) :
    s.warmRestart.StartupSound := by
  obtain ⟨-, -, values, profile, -⟩ := sound
  obtain ⟨p, ps, fs, position, geometry, layout, height, brightness, paint, frame, pace⟩ := values started
  exact State.startupSound_of_listen rfl
    ⟨p, ps, fs, position, geometry, layout, height, rfl, by simp [State.warmRestart, Pa.restart], frame, rfl⟩
    profile rfl rfl

end

/-! ### The reads of LOAD (R189 to R195) -/

section
variable {s : State} (sound : s.StartupSound)
include sound

theorem State.StartupSound.segments : ∀ p, s.sc.profile = some p →
    p.segmentIndex < p.segmentCount ∧ p.segmentCount ≤ 8 := by
  obtain ⟨-, -, -, profile, -⟩ := sound
  exact profile

theorem State.StartupSound.timers_stopped (starting : s.starting) :
    s.sc.listenTimer = false ∧ s.au.beaconTimer = false := by
  obtain ⟨-, -, -, -, listen, beacon⟩ := sound
  constructor
  · rw [← Bool.not_eq_true, listen]
    rcases starting with h | h <;> simp [h]
  · rw [← Bool.not_eq_true, beacon]
    rcases starting with h | h <;> simp [h]

theorem State.StartupSound.beginLoad (reset : s.sc.node = .reset) (node : BitVec 6) :
    (s.setSc { s.sc with
      node := .load, nodeNumber := node, glyphStrap := true, loadPosition := some 0 }).StartupSound := by
  refine State.startupSound_of_load rfl ?_ ⟨0, rfl, fun h => absurd h (by decide)⟩ sound.segments ?_
  · exact (sound.blocksAtReset (Or.inl reset)).congr rfl rfl rfl rfl rfl rfl id
  · exact (sound.timers_stopped (Or.inl reset)).1

theorem State.StartupSound.skipLoad (reset : s.sc.node = .reset) (node : BitVec 6) :
    (s.setSc { s.sc with node := .load, nodeNumber := node, glyphStrap := false }).useDefaultProfile.fontFails
      |>.StartupSound := by
  refine State.fontFails_startupSound rfl rfl ?_ (sound.timers_stopped (Or.inl reset)).2
  intro p e
  cases e
  exact defaultProfile_segments

theorem State.StartupSound.beginFont_of (load : s.sc.node = .load) {p : Profile} {source : Source}
    {bytes : List Byte} (segments : p.segmentIndex < p.segmentCount ∧ p.segmentCount ≤ 8) :
    (s.setSc { s.sc with
      profileBytes := bytes, profile := some p, profileSource := some source }).beginFont.StartupSound := by
  refine State.startupSound_of_load load ?_ ⟨fontBase, rfl, fun _ => ⟨rfl, rfl⟩⟩ ?_ ?_
  · exact (sound.blocksAtReset (Or.inr load)).congr rfl rfl rfl rfl rfl rfl id
  · intro q e
    cases e
    exact segments
  · exact (sound.timers_stopped (Or.inr load)).1

theorem State.StartupSound.profileByte (load : s.sc.node = .load) {a : Nat} (below : a < fontBase) (b : Byte) :
    (s.readProfileByte a b).StartupSound := by
  simp only [State.readProfileByte]
  split
  next =>
    simp only [State.endProfile]
    split
    next passes => exact sound.beginFont_of load (profileOfBlock_segments passes)
    next => exact sound.beginFont_of load defaultProfile_segments
  next notLast =>
    refine State.startupSound_of_load load ?_ ⟨a + 1, rfl, fun h => absurd h (by omega)⟩ sound.segments ?_
    · exact (sound.blocksAtReset (Or.inr load)).congr rfl rfl rfl rfl rfl rfl id
    · exact (sound.timers_stopped (Or.inr load)).1

variable (load : s.sc.node = .load) {a : Nat} (position : s.sc.loadPosition = some a) (from_ : fontBase ≤ a)
include load position from_

/-- The font read begins with a profile in force (R190, R192). -/
theorem State.StartupSound.profile_of_font : s.sc.profile.isSome = true ∧ s.sc.profileSource.isSome = true := by
  obtain ⟨-, inLoad, -⟩ := sound
  obtain ⟨-, a', at_, holds⟩ := inLoad load
  cases at_.symm.trans position
  exact holds from_

theorem State.StartupSound.fontTimeout : s.fontFails.StartupSound := by
  obtain ⟨profile, source⟩ := sound.profile_of_font load position from_
  exact State.fontFails_startupSound profile source sound.segments (sound.timers_stopped (Or.inr load)).2

theorem State.StartupSound.fontByte (b : Byte) : (s.readFontByte a b).StartupSound := by
  obtain ⟨profile, source⟩ := sound.profile_of_font load position from_
  have fails := sound.fontTimeout load position from_
  simp only [State.readFontByte]
  split
  next => exact fails
  next =>
    split
    next =>
      split
      next =>
        exact State.endLoad_startupSound profile source rfl rfl sound.segments
          (sound.timers_stopped (Or.inr load)).2
      next => exact fails
    next =>
      refine State.startupSound_of_load load ?_ ⟨a + 1, rfl, fun _ => ⟨profile, source⟩⟩ sound.segments ?_
      · exact (sound.blocksAtReset (Or.inr load)).congr rfl rfl rfl rfl rfl rfl id
      · exact (sound.timers_stopped (Or.inr load)).1

end

/-! ### Every step -/

theorem State.coldReset_startupSound (s : State) : s.coldReset.StartupSound := by
  refine ⟨fun _ => s.coldReset_coldResetValues, fun load => ?_, fun started => ?_, fun p profile => ?_, ?_, ?_⟩
  · exact nomatch load
  · rcases started with h | h <;> exact nomatch h
  · exact nomatch profile
  · exact ⟨(nomatch ·), (nomatch ·)⟩
  · exact ⟨(nomatch ·), (nomatch ·)⟩

/-- Every command keeps the start-up invariant. -/
theorem Act.keeps_startup {s t : State} {i : Instr} (sound : s.StartupSound) (act : Act s i t) : t.StartupSound := by
  have stands {u : State} (other : ¬ StartsUp i) (act : Act s i u) (h : StartupStands s u) : u.StartupSound := by
    obtain rfl | started := act.started sound other
    · exact sound
    · exact h.keeps started sound
  by_cases leads : LeadsOn i
  · have chain {k : NoticeKind} {c : Chain} (delivered : s.Delivered k c) : s.started :=
      sound.started_of_delivered ((s.delivered_iff k c).2 delivered)
    cases act with
    | idle => exact sound
    | coldReset => exact s.coldReset_startupSound
    | beginLoad node reset => exact sound.beginLoad reset node
    | skipLoad node reset => exact sound.skipLoad reset node
    | profileByte a b load position below => exact sound.profileByte load below b
    | fontByte a b load position from_ => exact sound.fontByte load position from_ b
    | profileTimeout a load => exact sound.beginFont_of load defaultProfile_segments
    | fontTimeout a load position from_ => exact sound.fontTimeout load position from_
    | enterRun listen => exact State.enterRun_startupSound sound listen
    | restart c delivered =>
      have noted : StartupStands s (s.directNote c) := by constructor <;> simp
      refine State.warmRestart_startupSound (noted.keeps (chain delivered) sound) ?_
      simpa [State.started] using chain delivered
    | restartElsewhere c delivered =>
      exact StartupStands.keeps (by constructor <;> simp) (chain delivered) sound
    | restartMalformed c delivered =>
      exact StartupStands.keeps (by constructor <;> simp) (chain delivered) sound
    | apply i c work applies => exact absurd leads applies.not_leadsOn
    | timerExpiry i tb e expires => exact absurd leads expires.not_leadsOn
    | expiryWork i fx works => exact absurd leads works.not_leadsOn
    | boardNotice i k c takes => exact absurd leads takes.not_leadsOn
    | _ => rcases leads with ⟨⟨⟩⟩
  · exact stands (fun h => leads (.startsUp h)) act (act.startupStands leads)

/-- Settles O6: in RESET and LOAD only the commands of RESET/ and LOAD act, and the others leave what LISTEN and RUN
hold, but for those that lead from one to the other. -/
theorem startupInvariantKept : Obligations.StartupInvariantKept :=
  fun _ _ sound stepped => step_keeps (P := State.StartupSound) (fun _ _ h => h)
    (fun _ _ _ sound act => act.keeps_startup sound) sound stepped

end Sys2Proof.Machine
end

