-- ==== Sys2Proof/Proofs/ReportMoves.lean ====
section
/-! SUPPORT. What happens to the Report Unit, the transmit queue and the transmitter: each operation that reports is a
chain of a few moves, and what every move keeps is kept by the operation. -/

namespace Sys2Proof.Machine

/-! ### The moves -/

/-- One move of the Report Unit and the transmit queue; `aside` is any change elsewhere. -/
inductive ReportMove (s : State) : State → Prop
  | aside (t : State) (sc : t.sc = s.sc) (ru : t.ru = s.ru) (queue : t.lc.queue = s.lc.queue)
      (transmitter : t.lc.transmitter = s.lc.transmitter) : ReportMove s t
  | count (k : ReportKind) : ReportMove s (s.count k)
  | geometryCut : ReportMove s s.countGeometryCut
  | marks (m : StartMarks) : ReportMove s (s.setRu { s.ru with marks := m })
  | stop (i : Nat) : ReportMove s (s.setRu { s.ru with timers := s.ru.timers.set i false })
  | start (i : Nat) (may : s.maySend = true) :
      ReportMove s (s.setRu { s.ru with timers := s.ru.timers.set i true })
  | offer (n : BoardNotice) : ReportMove s (s.offer n)
  | offerStatus (keep : BitVec 19) : ReportMove s (s.offerStatus keep)

/-- A chain of moves. -/
inductive ReportChain (s : State) : State → Prop
  | refl : ReportChain s s
  | tail {t u : State} (chain : ReportChain s t) (move : ReportMove t u) : ReportChain s u

namespace ReportChain

theorem trans {s t u : State} (first : ReportChain s t) (next : ReportChain t u) : ReportChain s u := by
  induction next with
  | refl => exact first
  | tail _ move ih => exact ih.tail move

theorem single {s t : State} (move : ReportMove s t) : ReportChain s t := refl.tail move

/-- What every move keeps, a chain keeps. -/
theorem keeps {P : State → Prop} (move : ∀ s t, ReportMove s t → P s → P t) {s t : State} (chain : ReportChain s t)
    (holds : P s) : P t := by
  induction chain with
  | refl => exact holds
  | tail _ last ih => exact move _ _ last ih

theorem aside {s t : State} (sc : t.sc = s.sc) (ru : t.ru = s.ru) (queue : t.lc.queue = s.lc.queue)
    (transmitter : t.lc.transmitter = s.lc.transmitter) : ReportChain s t :=
  single (.aside t sc ru queue transmitter)

/-- A chain goes on with a change elsewhere. -/
theorem andAside {s t u : State} (chain : ReportChain s t) (sc : u.sc = t.sc) (ru : u.ru = t.ru)
    (queue : u.lc.queue = t.lc.queue) (transmitter : u.lc.transmitter = t.lc.transmitter) : ReportChain s u :=
  chain.trans (aside sc ru queue transmitter)

/-- A chain begins with a change elsewhere. -/
theorem after {s t u : State} (chain : ReportChain t u) (sc : t.sc = s.sc) (ru : t.ru = s.ru)
    (queue : t.lc.queue = s.lc.queue) (transmitter : t.lc.transmitter = s.lc.transmitter) : ReportChain s u :=
  (aside sc ru queue transmitter).trans chain

end ReportChain

/-! ### The operations that report -/

theorem State.expireInterval_chain (s : State) (i : Nat) : ReportChain s (s.expireInterval i) := by
  simp only [State.expireInterval]
  split
  · exact .single (.stop i)
  · exact (ReportChain.single (.stop i)).tail (.offerStatus _)

theorem State.expireIfZero_chain (s : State) (i : Nat) : ReportChain s (s.expireIfZero i) := by
  unfold State.expireIfZero
  split
  · exact s.expireInterval_chain i
  · exact .refl

theorem State.expireZeros_chain (s : State) : ReportChain s s.expireZeros :=
  ((s.expireIfZero_chain 0).trans (State.expireIfZero_chain _ 1)).trans (State.expireIfZero_chain _ 2)

theorem State.foldCount_chain (s : State) (ks : List ReportKind) : ReportChain s (ks.foldl State.count s) := by
  induction ks generalizing s with
  | nil => exact .refl
  | cons k rest ih => exact (ReportChain.single (.count k)).trans (ih (s.count k))

theorem State.raiseAll_chain (s : State) (ks : List ReportKind) : ReportChain s (s.raiseAll ks) := by
  cases ks with
  | nil => exact .refl
  | cons k rest => exact (s.foldCount_chain (k :: rest)).trans (State.expireZeros_chain _)

theorem State.raise_chain (s : State) (k : ReportKind) : ReportChain s (s.raise k) := s.raiseAll_chain [k]

section
variable (s : State)

theorem State.tally_chain (w : Watch) : ReportChain s (s.tally w) := by
  unfold State.tally
  split
  · exact (State.raise_chain _ _).after rfl rfl rfl rfl
  · exact .aside rfl rfl rfl rfl

theorem State.watchAhead_chain (bits : List Bool) : ReportChain s (s.watchAhead bits) := s.tally_chain _

theorem State.watchBits_chain (bits : List Bool) : ReportChain s (s.watchBits bits) := s.tally_chain _

theorem State.watchEnd_chain (bits : List Bool) : ReportChain s (s.watchEnd bits) :=
  (s.watchBits_chain _).trans (State.tally_chain _ _)

theorem State.sampleBit_chain (b : Bool) : ReportChain s (s.sampleBit b) := by
  simp only [State.sampleBit]
  split
  · exact (State.tally_chain _ _).after rfl rfl rfl rfl
  · exact .refl

theorem State.sampleBits_chain (bits : List Bool) : ReportChain s (s.sampleBits bits) := by
  induction bits generalizing s with
  | nil => exact .refl
  | cons b rest ih =>
    rw [State.sampleBits_cons]
    exact (s.sampleBit_chain b).trans (ih _)

theorem State.completeDue_chain : ReportChain s s.completeDue := by
  unfold State.completeDue
  split
  · exact .refl
  · split
    · exact .aside (by simp) (by simp) (by simp) (by simp)
    · exact (State.raise_chain _ _).after rfl rfl rfl rfl

theorem State.enterStore_chain : ReportChain s s.enterStore := by
  simp only [State.enterStore]
  split
  · exact s.completeDue_chain.andAside rfl rfl (by simp) (by simp)
  · exact s.completeDue_chain.trans ((State.raise_chain _ _).after rfl rfl rfl rfl)

theorem State.followFrame_chain (k : NoticeKind) : ReportChain s (s.followFrame k) := by
  simp only [State.followFrame]
  split
  · exact s.enterStore_chain
  · exact .aside rfl rfl rfl rfl
  · exact .aside rfl rfl rfl rfl

theorem State.offerByte_chain (b : Byte) : ReportChain s (s.offerByte b) := by
  unfold State.offerByte
  split
  · exact .aside rfl rfl (by simp) (by simp)
  · exact (State.raise_chain _ _).after rfl rfl rfl rfl

theorem State.endStored_chain (passes : Bool) : ReportChain s (s.endStored passes) := by
  unfold State.endStored
  split
  · exact .aside rfl rfl rfl rfl
  · exact (State.raise_chain _ _).after rfl rfl rfl rfl

theorem State.endForeign_chain (passes : Bool) : ReportChain s (s.endForeign passes) := by
  have hunt : ReportChain s s.toHunt := .aside rfl rfl rfl rfl
  have due := hunt.trans s.toHunt.completeDue_chain
  simp only [State.endForeign]
  split
  · split
    · exact due.andAside rfl rfl (by simp [State.dropHeader, State.setReceiver])
        (by simp [State.dropHeader, State.setReceiver])
    · exact due.trans ((State.raise_chain _ _).after rfl rfl rfl rfl)
  · exact hunt.trans ((State.raise_chain _ _).after rfl rfl rfl rfl)

theorem State.directNote_chain (c : Chain) : ReportChain s (s.directNote c) :=
  (State.raiseAll_chain _ _).after rfl rfl rfl rfl

theorem State.applyDim_chain (body : List Byte) : ReportChain s (s.applyDim body) := by
  unfold State.applyDim
  split
  · exact .aside rfl rfl rfl rfl
  · exact s.raise_chain _

theorem State.applyStaff_chain (body : List Byte) : ReportChain s (s.applyStaff body) := by
  unfold State.applyStaff
  split
  · exact .aside rfl rfl rfl rfl
  · exact s.raise_chain _

theorem State.applyQuery_chain (group : Nat) (body : List Byte) : ReportChain s (s.applyQuery group body) := by
  unfold State.applyQuery
  split
  · split
    · exact .single (.offerStatus 0)
    · exact .refl
  · exact s.raise_chain _

theorem State.takeEffects_chain (fx : Effect) : ReportChain s (s.takeEffects fx) := by
  have raised : ReportChain s ((s.place fx).raiseAll (s.workReports fx)) :=
    (State.raiseAll_chain _ _).after rfl rfl rfl rfl
  simp only [State.takeEffects]
  split
  · exact raised.andAside rfl rfl rfl rfl
  · exact raised

theorem State.completeExpiry_chain (fx : Effect) : ReportChain s (s.completeExpiry fx) :=
  (s.takeEffects_chain fx).andAside (by simp [State.completeExpiry]) (by simp [State.completeExpiry])
    (by simp [State.completeExpiry]) (by simp [State.completeExpiry])

theorem State.completeApply_chain' (fx : Effect) : ReportChain s (s.completeApply fx) :=
  (s.takeEffects_chain fx).andAside (by simp [State.completeApply]) (by simp [State.completeApply])
    (by simp [State.completeApply]) (by simp [State.completeApply])

/-! ### The operations of the Agreement Unit and the Composer -/

theorem State.setAgreement_chain (x : AgreementState) : ReportChain s (s.setAgreement x) := by
  have set : ReportChain s (s.setAu { s.au with agreement := x }) := .aside rfl rfl rfl rfl
  simp only [State.setAgreement]
  split
  · exact set.trans (State.raise_chain _ _)
  · exact set

theorem State.adopt_chain (origin : Pace) : ReportChain s (s.adopt origin) :=
  .aside (by simp) (by simp) (by simp) (by simp)

theorem State.checkAdoption_chain : ReportChain s s.checkAdoption :=
  .aside (by simp) (by simp) (by simp) (by simp)

theorem State.agreementAfterDigest_chain : ReportChain s s.agreementAfterDigest := by
  unfold State.agreementAfterDigest
  split
  · exact .refl
  · exact s.checkAdoption_chain
  · split
    · exact .refl
    · exact s.setAgreement_chain _
  · exact s.setAgreement_chain _

theorem State.agreementAfterExpiry_chain : ReportChain s s.agreementAfterExpiry := by
  unfold State.agreementAfterExpiry
  split
  · exact .refl
  · exact s.checkAdoption_chain
  · exact .refl
  · exact s.setAgreement_chain _

theorem State.agreeAlone_chain (d : Digest) : ReportChain s (s.agreeAlone d) :=
  .aside (by simp) (by simp) (by simp) (by simp)

theorem State.agreeWithPeers_chain (d : Digest) : ReportChain s (s.agreeWithPeers d) := by
  have set (x : Au) : ReportChain s (s.setAu x) := .aside rfl rfl rfl rfl
  unfold State.agreeWithPeers
  split
  · split
    · exact (set _).trans (State.setAgreement_chain _ _)
    · exact s.checkAdoption_chain
  · exact (set _).trans (State.checkAdoption_chain _)
  · split
    · exact s.setAgreement_chain _
    · exact (set _).trans (State.checkAdoption_chain _)
  · split
    · exact s.setAgreement_chain _
    · exact (set _).trans (State.checkAdoption_chain _)

theorem State.takeCompletion_chain (c : ComposedSet) : ReportChain s (s.takeCompletion c) := by
  have offered (x : Au) (n : BoardNotice) : ReportChain s ((s.setAu x).offer n) :=
    (ReportChain.single (.offer n)).after rfl rfl rfl rfl
  simp only [State.takeCompletion]
  split
  · exact (offered _ _).trans (State.agreeAlone_chain _ _)
  · exact (offered _ _).trans (State.agreeWithPeers_chain _ _)

theorem State.completePass_chain : ReportChain s s.completePass := by
  have missed (t : State) (m : Bool) : ReportChain t (if m then t.raise .nameMiss else t) := by
    split
    · exact t.raise_chain _
    · exact .refl
  have composed : ReportChain s (s.setCo { s.co with composed := some s.completedSet, number := s.completedSet.number }) :=
    .aside rfl rfl rfl rfl
  simp only [State.completePass]
  split
  · exact (composed.trans (missed _ _)).trans (State.takeCompletion_chain _ _)
  · exact composed.trans (missed _ _)

theorem State.judgeBoardNotice_chain (k : NoticeKind) (sender : Nat) (body : List Byte) :
    ReportChain s (s.judgeBoardNotice k sender body) := by
  simp only [State.judgeBoardNotice]
  split
  · exact s.raise_chain _
  · split
    · exact s.raise_chain _
    · split
      · exact (State.agreementAfterDigest_chain _).after rfl rfl rfl rfl
      · exact .aside rfl rfl rfl rfl

theorem State.takeBoardNotice_chain (k : NoticeKind) (c : Chain) : ReportChain s (s.takeBoardNotice k c) := by
  have paced (q : Pace) : ReportChain s (s.adoptPace q) := .aside (by simp) (by simp) (by simp) (by simp)
  exact ((paced (paceAt c.body 1)).trans (State.judgeBoardNotice_chain _ k c.sender c.body)).andAside (by simp [State.takeBoardNotice])
    (by simp [State.takeBoardNotice]) (by simp [State.takeBoardNotice]) (by simp [State.takeBoardNotice])

/-! ### The entry to RUN -/

theorem State.startInterval_chain (i : Nat) : ReportChain s (s.startInterval i) := by
  unfold State.startInterval
  split
  next due => exact .single (.start i due.1)
  next => exact .refl

theorem State.startIntervals_chain : ReportChain s s.startIntervals :=
  ((s.startInterval_chain 0).trans (State.startInterval_chain _ 1)).trans (State.startInterval_chain _ 2)

theorem State.raiseStartKinds_chain : ReportChain s s.raiseStartKinds := by
  have kinds := s.foldCount_chain s.ru.marks.kinds
  simp only [State.raiseStartKinds]
  split
  · exact (kinds.tail .geometryCut).tail (.marks _)
  · exact kinds.tail (.marks _)

theorem State.reportsAtRun_chain : ReportChain s s.reportsAtRun :=
  ((s.raiseStartKinds_chain.trans (State.expireZeros_chain _)).trans (State.startIntervals_chain _)).trans
    (State.expireZeros_chain _)

/-- The part has entered RUN, and has reported nothing yet (R197). -/
def State.inRun : State :=
  { s with
    sc := { s.sc with node := .run, listenTimer := false }
    co := { s.co with request := true }
    au := { s.au with beaconTimer := true, sent := false } }

theorem State.enterRun_chain : ReportChain s.inRun s.enterRun :=
  s.inRun.reportsAtRun_chain.andAside (by simp [State.enterRun, State.inRun])
    (by simp [State.enterRun, State.inRun]) (by simp [State.enterRun, State.inRun])
    (by simp [State.enterRun, State.inRun])

end

/-! ### The commands that are chains -/

/-- The commands that send a notice, and those that enter a node state. -/
inductive SendsOrEnters : Instr → Prop
  | leads {i : Instr} (h : LeadsOn i) : SendsOrEnters i
  | txAttemptStart : SendsOrEnters .txAttemptStart
  | txSuccess : SendsOrEnters .txSuccess
  | collision (bit : Nat) : SendsOrEnters (.collision bit)
  | jamEnd : SendsOrEnters .jamEnd
  | backoffEnd : SendsOrEnters .backoffEnd

/-- Every other command is a chain of moves. -/
theorem Act.chain {s t : State} {i : Instr} (act : Act s i t) (other : ¬ SendsOrEnters i) : ReportChain s t := by
  have leads : ¬ LeadsOn i := fun h => other (.leads h)
  cases act with
  | idle => exact .refl
  | coldReset => exact absurd (.startsUp .coldReset) leads
  | beginLoad => exact absurd (.startsUp (.resetRelease _ _)) leads
  | skipLoad => exact absurd (.startsUp (.resetRelease _ _)) leads
  | profileByte => exact absurd (.startsUp (.glyphReadComplete _)) leads
  | fontByte => exact absurd (.startsUp (.glyphReadComplete _)) leads
  | profileTimeout => exact absurd (.startsUp .glyphReadTimeout) leads
  | fontTimeout => exact absurd (.startsUp .glyphReadTimeout) leads
  | enterRun => exact absurd .listenTimerExpiry leads
  | restart => exact absurd .restart leads
  | restartElsewhere => exact absurd .restart leads
  | restartMalformed => exact absurd .restart leads
  | attempt => exact absurd .txAttemptStart other
  | success => exact absurd .txSuccess other
  | collision bit => exact absurd (.collision bit) other
  | lateJam => exact absurd .jamEnd other
  | backOff => exact absurd .jamEnd other
  | giveUp => exact absurd .jamEnd other
  | backoffEnd => exact absurd .backoffEnd other
  | discardBits bits => exact s.sampleBits_chain bits
  | huntBits bits => exact s.sampleBits_chain bits
  | headerFails h =>
    exact (s.watchEnd_chain h.bits).trans
      ((State.raise_chain _ _).after (by simp) (by simp) (by simp) (by simp))
  | headerPasses h k =>
    exact (s.watchBits_chain h.bits).trans
      ((State.followFrame_chain _ _).after (by simp) (by simp) (by simp) (by simp))
  | storedByte b =>
    exact (s.watchBits_chain (byteBits b)).trans
      ((State.offerByte_chain _ _).after (by simp) (by simp) (by simp) (by simp))
  | foreignByte b => exact (s.watchBits_chain (byteBits b)).andAside (by simp) (by simp) (by simp) (by simp)
  | otherByte b => exact (s.watchBits_chain (byteBits b)).andAside (by simp) (by simp) (by simp) (by simp)
  | storedEnd check => exact (s.watchEnd_chain _).trans (State.endStored_chain _ _)
  | foreignEnd check => exact (s.watchEnd_chain _).trans (State.endForeign_chain _ _)
  | otherEnd check => exact (s.watchEnd_chain (checkBits check)).andAside (by simp) (by simp) (by simp) (by simp)
  | completeDue => exact s.completeDue_chain
  | limitInFrame bits => exact s.watchAhead_chain bits
  | limitOutside bits => exact (s.sampleBits_chain bits).trans (State.tally_chain _ _)
  | apply i c work => exact s.completeApply_chain' _
  | expiryWork i fx => exact s.completeExpiry_chain fx
  | composeComplete => exact s.completePass_chain.andAside (by simp) (by simp) (by simp) (by simp)
  | boardNotice i k c => exact s.takeBoardNotice_chain k c
  | peerExpiryRun => exact (State.agreementAfterExpiry_chain _).after rfl rfl rfl rfl
  | agreementTimeout =>
    exact (State.setAgreement_chain _ _).after (by simp) (by simp) (by simp) (by simp)
  | beaconOffers => exact (ReportChain.single (.offer _)).andAside rfl rfl rfl rfl
  | dim c =>
    exact ((s.directNote_chain c).trans (State.applyDim_chain _ c.body)).andAside (by simp) (by simp) (by simp) (by simp)
  | staff c =>
    exact ((s.directNote_chain c).trans (State.applyStaff_chain _ c.body)).andAside (by simp) (by simp) (by simp)
      (by simp)
  | query c =>
    exact ((s.directNote_chain c).trans (State.applyQuery_chain _ c.group c.body)).andAside (by simp) (by simp) (by simp)
      (by simp)
  | intervalExpiry index => exact s.expireInterval_chain index
  | _ => exact .aside (by simp) (by simp) (by simp) (by simp)

/-- A RESTART that does not name the part is a chain of moves (R198). -/
theorem State.restartElsewhere_chain (s : State) (c : Chain) : ReportChain s (s.directNote c).completeNotice :=
  (s.directNote_chain c).andAside (by simp) (by simp) (by simp) (by simp)

theorem State.restartMalformed_chain (s : State) (c : Chain) :
    ReportChain s ((s.directNote c).raise .lineCrc).completeNotice :=
  ((s.directNote_chain c).trans (State.raise_chain _ .lineCrc)).andAside (by simp) (by simp) (by simp) (by simp)

end Sys2Proof.Machine
end

