-- ==== Sys2Proof/Proofs/ReportInvariant.lean ====
section
/-! SUPPORT. What every report move keeps: the counts, the timers and the listed set of the Report Unit, and the
transmit queue with its transmitter. From there the report invariant, and that only a cold reset lowers a count. -/

namespace Sys2Proof.Machine

/-! ### The transmit queue and its transmitter (R31, R32) -/

/-- What the intake invariant says of the transmit queue and the transmitter. -/
def Lc.TransmitSound (lc : Lc) : Prop :=
  (lc.transmitter.state = .idle ↔ lc.transmitter.notice = none) ∧ (lc.queue.map BoardNotice.kind).Nodup

/-- The transmitter drives the line (R33, R34). -/
def Lc.driving (lc : Lc) : Prop := lc.transmitter.state = .send ∨ lc.transmitter.state = .jam

/-- What a take does: it idles, or an IDLE transmitter takes the oldest notice (R32, R183). -/
theorem State.takeNotice_cases (s : State) : s.takeNotice = s ∨ ∃ n rest,
    s.lc.transmitter.state = .idle ∧ s.maySend = true ∧ s.lc.queue = n :: rest ∧
    s.takeNotice.lc = { s.lc with queue := rest, transmitter := ⟨.wait, some n, 0, 0, [], false⟩ } ∧
    s.takeNotice.ru = { s.ru with listed := if n.kind = .status then 0 else s.ru.listed } := by
  unfold State.takeNotice
  split
  next free =>
    split
    next => exact Or.inl rfl
    next n rest queue =>
      refine Or.inr ⟨n, rest, free.1, free.2, queue, ?_, ?_⟩
      · split <;> rfl
      · split <;> rfl
  next => exact Or.inl rfl

theorem State.takeNotice_transmitSound {s : State} (sound : s.lc.TransmitSound) : s.takeNotice.lc.TransmitSound := by
  obtain idles | ⟨n, rest, -, -, queue, lc, -⟩ := s.takeNotice_cases
  · rwa [idles]
  · obtain ⟨-, distinct⟩ := sound
    rw [queue, List.map_cons, List.nodup_cons] at distinct
    rw [lc]
    exact ⟨by simp, distinct.2⟩

theorem State.takeNotice_driving (s : State) : s.takeNotice.lc.driving ↔ s.lc.driving := by
  obtain idles | ⟨n, rest, idle, -, -, lc, -⟩ := s.takeNotice_cases
  · rw [idles]
  · rw [lc]
    simp [Lc.driving, idle]

theorem State.offer_transmitSound {s : State} (sound : s.lc.TransmitSound) (n : BoardNotice) :
    (s.offer n).lc.TransmitSound := by
  obtain ⟨idle, distinct⟩ := sound
  unfold State.offer
  split
  · exact State.takeNotice_transmitSound ⟨idle, placeNotice_nodup _ n distinct⟩
  · exact ⟨idle, distinct⟩

theorem State.offer_driving (s : State) (n : BoardNotice) : (s.offer n).lc.driving ↔ s.lc.driving := by
  unfold State.offer
  split
  · exact State.takeNotice_driving _
  · rfl

/-- A report move keeps the transmit queue distinct, and whether the transmitter drives the line. -/
theorem ReportMove.transmitSound {s t : State} (move : ReportMove s t) (sound : s.lc.TransmitSound) :
    t.lc.TransmitSound := by
  cases move with
  | aside _ sc ru queue transmitter =>
    unfold Lc.TransmitSound
    rwa [queue, transmitter]
  | offer n => exact State.offer_transmitSound sound n
  | offerStatus keep =>
    unfold State.offerStatus
    split
    · exact State.offer_transmitSound (by simpa using sound) _
    · exact sound
  | _ => simpa using sound

theorem ReportMove.driving {s t : State} (move : ReportMove s t) : t.lc.driving ↔ s.lc.driving := by
  cases move with
  | aside _ sc ru queue transmitter =>
    unfold Lc.driving
    rw [transmitter]
  | offer n => exact s.offer_driving n
  | offerStatus keep =>
    unfold State.offerStatus
    split
    · exact State.offer_driving _ _
    · rfl
  | _ => simp

theorem ReportChain.transmitSound {s t : State} (chain : ReportChain s t) (sound : s.lc.TransmitSound) :
    t.lc.TransmitSound :=
  chain.keeps (P := fun u => u.lc.TransmitSound) (fun _ _ move => move.transmitSound) sound

theorem ReportChain.driving {s t : State} (chain : ReportChain s t) : t.lc.driving ↔ s.lc.driving :=
  chain.keeps (P := fun u => u.lc.driving ↔ s.lc.driving) (fun _ _ move ih => move.driving.trans ih) Iff.rfl

/-! ### The Report Unit (R179 to R185) -/

/-- What the report invariant says beside the start-up invariant. -/
def State.ReportsHeld (s : State) : Prop :=
  s.ru.counts.length = 19 ∧ (∀ n ∈ s.ru.counts, n ≤ 65535) ∧ s.ru.geometryCut ≤ 65535 ∧
  s.ru.timers.length = 3 ∧ (true ∈ s.ru.timers → s.maySend = true) ∧
  (s.ru.listed ≠ 0 → ∃ n ∈ s.lc.queue, n.kind = .status)

theorem bump_le {n : Nat} (h : n ≤ 65535) : bump n ≤ 65535 := by
  unfold bump Config.countLimit
  split <;> omega

/-- A timer that starts belongs to a part that may send; one that stops leaves fewer. -/
theorem mem_set_of_ne {l : List Bool} {i : Nat} {b : Bool} (h : true ∈ l.set i b) : b = true ∨ true ∈ l := by
  obtain h | rfl := List.mem_or_eq_of_mem_set h
  · exact Or.inr h
  · exact Or.inl rfl

theorem State.maySend_congr {s t : State} (sc : t.sc = s.sc) : t.maySend = s.maySend := by
  unfold State.maySend
  rw [sc]

/-- A take leaves the STATUS that a listed set belongs to, or empties the listed set (R183). -/
theorem State.takeNotice_reportsHeld {s : State} (held : s.ReportsHeld) : s.takeNotice.ReportsHeld := by
  obtain idles | ⟨n, rest, -, -, queue, lc, ru⟩ := s.takeNotice_cases
  · rwa [idles]
  · obtain ⟨length, counts, cut, timers, may, listed⟩ := held
    have sc : s.takeNotice.maySend = s.maySend := State.maySend_congr (by simp)
    unfold State.ReportsHeld
    rw [lc, ru, sc]
    refine ⟨length, counts, cut, timers, may, fun some => ?_⟩
    by_cases status : n.kind = .status
    · simp [status] at some
    · simp only [if_neg status] at some
      obtain ⟨m, member, kind⟩ := listed some
      rw [queue, List.mem_cons] at member
      obtain rfl | member := member
      · exact absurd kind status
      · exact ⟨m, member, kind⟩

/-- A placed notice leaves a STATUS in the queue. -/
theorem placeNotice_status {q : List BoardNotice} (h : ∃ m ∈ q, m.kind = .status) (n : BoardNotice) :
    ∃ m ∈ placeNotice q n, m.kind = .status := by
  obtain ⟨m, member, kind⟩ := h
  have replaced : ∃ x ∈ q.map (fun m => if m.kind == n.kind then n else m), x.kind = .status := by
    refine ⟨_, List.mem_map_of_mem member, ?_⟩
    by_cases same : m.kind = n.kind
    · rw [if_pos (by simpa using same)]
      exact same ▸ kind
    · rw [if_neg (by simpa using same)]
      exact kind
  simp only [placeNotice]
  split
  · cases n with
    | pace => exact ⟨m, member, kind⟩
    | _ => exact replaced
  · exact ⟨m, by simp [member], kind⟩

theorem State.offer_reportsHeld {s : State} (n : BoardNotice)
    (held : (s.setLc { s.lc with queue := placeNotice s.lc.queue n }).ReportsHeld) (else_ : s.ReportsHeld) :
    (s.offer n).ReportsHeld := by
  unfold State.offer
  split
  · exact State.takeNotice_reportsHeld held
  · exact else_

/-- Every report move keeps what the report invariant says. -/
theorem ReportMove.reportsHeld {s t : State} (move : ReportMove s t) (held : s.ReportsHeld) : t.ReportsHeld := by
  have whole := held
  obtain ⟨length, counts, cut, timers, may, listed⟩ := held
  cases move with
  | aside _ sc ru queue transmitter =>
    unfold State.ReportsHeld
    rw [ru, queue, State.maySend_congr sc]
    exact whole
  | count k =>
    refine ⟨by simpa [State.count, State.flag] using length, ?_, cut, ?_, ?_, listed⟩
    · intro n member
      obtain ⟨i, e⟩ := List.mem_iff_getElem?.1 member
      simp only [State.count, State.flag, State.setRu_ru] at e
      rw [List.getElem?_modify] at e
      obtain ⟨m, at_, rfl⟩ := Option.map_eq_some_iff.1 e
      have bound := counts m (List.mem_of_getElem? at_)
      split
      · exact bump_le bound
      · exact bound
    · simp only [State.count, State.flag, State.setRu_ru]
      split <;> simpa using timers
    · simp only [State.count, State.flag, State.setRu_ru]
      split
      next sends => exact fun _ => sends
      next => exact may
  | geometryCut =>
    refine ⟨length, counts, bump_le cut, ?_, ?_, listed⟩
    · simp only [State.countGeometryCut, State.flag, State.setRu_ru]
      split <;> simpa using timers
    · simp only [State.countGeometryCut, State.flag, State.setRu_ru]
      split
      next sends => exact fun _ => sends
      next => exact may
  | marks m => exact whole
  | stop i =>
    refine ⟨length, counts, cut, by simpa using timers, fun runs => ?_, listed⟩
    obtain h | h := mem_set_of_ne runs
    · exact nomatch h
    · exact may h
  | start i sends => exact ⟨length, counts, cut, by simpa using timers, fun _ => sends, listed⟩
  | offer n =>
    exact State.offer_reportsHeld n
      ⟨length, counts, cut, timers, may, fun some => placeNotice_status (listed some) n⟩ whole
  | offerStatus keep =>
    unfold State.offerStatus
    split
    next sends =>
      have sends' : (s.setRu { s.ru with
          listed := s.ru.pendingField, pending := s.ru.pending &&& keep }).maySend = true := sends
      rw [State.offer, if_pos sends']
      refine State.takeNotice_reportsHeld ⟨length, counts, cut, timers, may, fun _ => ?_⟩
      exact ⟨_, mem_placeNotice_status _ _ _, rfl⟩
    next => exact whole

theorem ReportChain.reportsHeld {s t : State} (chain : ReportChain s t) (held : s.ReportsHeld) : t.ReportsHeld :=
  chain.keeps (fun _ _ move => move.reportsHeld) held

/-! ### The counts (R179) -/

/-- Between `s` and `t` no count has fallen, and none has risen above 65535 (R179). -/
def CountsGrow (s t : State) : Prop := ∀ n, s.ru.counts.getD n 0 ≤ 65535 →
  s.ru.counts.getD n 0 ≤ t.ru.counts.getD n 0 ∧ t.ru.counts.getD n 0 ≤ 65535

theorem CountsGrow.of_counts {s t : State} (counts : t.ru.counts = s.ru.counts) : CountsGrow s t := by
  intro n bound
  rw [counts]
  exact ⟨Nat.le_refl _, bound⟩

theorem CountsGrow.trans {s t u : State} (h : CountsGrow s t) (g : CountsGrow t u) : CountsGrow s u := by
  intro n bound
  obtain ⟨rise, bound⟩ := h n bound
  obtain ⟨rise', bound'⟩ := g n bound
  exact ⟨Nat.le_trans rise rise', bound'⟩

/-- A count after an event of a kind (R179 (1)). -/
theorem getD_modify_bump (l : List Nat) (k n : Nat) :
    (l.modify k bump).getD n 0 = if k = n ∧ n < l.length then bump (l.getD n 0) else l.getD n 0 := by
  simp only [List.getD_eq_getElem?_getD, List.getElem?_modify]
  by_cases inside : n < l.length
  · rw [List.getElem?_eq_getElem inside]
    by_cases same : k = n <;> simp [same, inside]
  · rw [List.getElem?_eq_none (Nat.le_of_not_lt inside)]
    simp [inside]

theorem State.count_grows (s : State) (k : ReportKind) : CountsGrow s (s.count k) := by
  intro n bound
  have counts : (s.count k).ru.counts = s.ru.counts.modify k.number bump := rfl
  rw [counts, getD_modify_bump]
  split
  · unfold bump Config.countLimit
    split <;> omega
  · exact ⟨Nat.le_refl _, bound⟩

theorem ReportMove.grows {s t : State} (move : ReportMove s t) : CountsGrow s t := by
  cases move with
  | aside _ sc ru => exact .of_counts (by rw [ru])
  | count k => exact s.count_grows k
  | _ => exact .of_counts (by simp)

theorem ReportChain.grows {s t : State} (chain : ReportChain s t) : CountsGrow s t :=
  chain.keeps (P := CountsGrow s) (fun _ _ move ih => ih.trans move.grows) (.of_counts rfl)

/-! ### The commands that send a notice or enter a node state -/

section
variable {s : State} {i : Instr}

theorem ApplyWork.not_sendsOrEnters {c : Chain} {work : Tb → Effect} (applies : ApplyWork s c i work) :
    ¬ SendsOrEnters i := by
  cases applies <;> rintro ⟨⟨⟨⟩⟩⟩

theorem TimerExpiry.not_sendsOrEnters {tb : Tb} {e : Expiry} (expires : TimerExpiry s i tb e) :
    ¬ SendsOrEnters i := by
  cases expires <;> rintro ⟨⟨⟨⟩⟩⟩

theorem ExpiryWork.not_sendsOrEnters {fx : Effect} (works : ExpiryWork s i fx) : ¬ SendsOrEnters i := by
  cases works <;> rintro ⟨⟨⟨⟩⟩⟩

theorem BoardCommand.not_sendsOrEnters {k : NoticeKind} (takes : BoardCommand i k) : ¬ SendsOrEnters i := by
  cases takes <;> rintro ⟨⟨⟨⟩⟩⟩

end


/-- Where the transmitter releases its notice, the take that follows keeps what the report invariant says. -/
theorem State.releaseNotice_reportsHeld {s : State} (held : s.ReportsHeld) : s.releaseNotice.ReportsHeld :=
  State.takeNotice_reportsHeld held

theorem State.ReportsHeld.congr {s t : State} (held : s.ReportsHeld) (ru : t.ru = s.ru)
    (queue : t.lc.queue = s.lc.queue) (sc : t.maySend = s.maySend) : t.ReportsHeld := by
  unfold State.ReportsHeld
  rwa [ru, queue, sc]

/-- With no timer running the Report Unit does not depend on the node state. -/
theorem State.ReportsHeld.of_stopped {s t : State} (held : s.ReportsHeld) (stopped : true ∉ s.ru.timers)
    (counts : t.ru.counts = s.ru.counts) (cut : t.ru.geometryCut = s.ru.geometryCut)
    (timers : t.ru.timers = s.ru.timers) (listed : t.ru.listed = s.ru.listed) (queue : t.lc.queue = s.lc.queue) :
    t.ReportsHeld := by
  obtain ⟨h1, h2, h3, h4, -, h6⟩ := held
  unfold State.ReportsHeld
  rw [counts, cut, timers, listed, queue]
  exact ⟨h1, h2, h3, h4, fun runs => absurd runs stopped, h6⟩

/-- Before RUN no interval timer runs (R179, R185). -/
theorem State.ReportsHeld.stopped {s : State} (held : s.ReportsHeld) (not_run : s.sc.node ≠ .run) :
    true ∉ s.ru.timers := by
  obtain ⟨-, -, -, -, may, -⟩ := held
  intro runs
  have := may runs
  simp [State.maySend, not_run] at this

theorem not_runs_stopped {P : Prop} (runs : true ∈ [false, false, false]) : P := absurd runs (by decide)

/-- A cold reset clears the Report Unit (R187). -/
theorem State.coldReset_reportsHeld (s : State) : s.coldReset.ReportsHeld := by
  refine ⟨rfl, ?_, Nat.zero_le _, rfl, ?_, fun listed => absurd rfl listed⟩
  · intro n member
    rw [List.eq_of_mem_replicate member]
    exact Nat.zero_le _
  · exact not_runs_stopped

/-- Every command keeps what the report invariant says beside the start-up invariant. -/
theorem Act.keeps_reports {s t : State} {i : Instr} (held : s.ReportsHeld) (act : Act s i t) : t.ReportsHeld := by
  have load (u : State) (load : s.sc.node ≠ .run) : u.ru.counts = s.ru.counts → u.ru.geometryCut = s.ru.geometryCut →
      u.ru.timers = s.ru.timers → u.ru.listed = s.ru.listed → u.lc.queue = s.lc.queue → u.ReportsHeld :=
    held.of_stopped (held.stopped load)
  by_cases other : SendsOrEnters i
  · cases act with
    | idle => exact held
    | coldReset => exact s.coldReset_reportsHeld
    | beginLoad node reset => exact load _ (by simp [reset]) rfl rfl rfl rfl rfl
    | skipLoad node reset => refine load _ (by simp [reset]) ?_ ?_ ?_ ?_ ?_ <;> simp
    | profileByte a b inLoad => refine load _ (by simp [inLoad]) ?_ ?_ ?_ ?_ ?_ <;> simp
    | fontByte a b inLoad => refine load _ (by simp [inLoad]) ?_ ?_ ?_ ?_ ?_ <;> simp
    | profileTimeout a inLoad => refine load _ (by simp [inLoad]) ?_ ?_ ?_ ?_ ?_ <;> simp
    | fontTimeout a inLoad => refine load _ (by simp [inLoad]) ?_ ?_ ?_ ?_ ?_ <;> simp
    | enterRun listen =>
      exact s.enterRun_chain.reportsHeld (load s.inRun (by simp [listen]) rfl rfl rfl rfl rfl)
    | restart c =>
      obtain ⟨length, counts, cut, -⟩ := (s.directNote_chain c).reportsHeld held
      exact ⟨length, counts, cut, rfl, not_runs_stopped, fun listed => absurd rfl listed⟩
    | restartElsewhere c => exact (s.restartElsewhere_chain c).reportsHeld held
    | restartMalformed c => exact (s.restartMalformed_chain c).reportsHeld held
    | attempt n => exact held.congr (by simp) (by simp) (State.maySend_congr (by simp))
    | success => exact State.releaseNotice_reportsHeld (held.congr rfl rfl rfl)
    | collision bit => exact held.congr rfl rfl rfl
    | lateJam =>
      have resumed : (s.resumeReceiver jamBits).ReportsHeld := held.congr rfl rfl rfl
      exact State.releaseNotice_reportsHeld ((State.raise_chain _ _).reportsHeld resumed)
    | backOff => exact held.congr (by simp) (by simp) (State.maySend_congr (by simp))
    | giveUp =>
      have resumed : (s.resumeReceiver jamBits).ReportsHeld := held.congr rfl rfl rfl
      exact State.releaseNotice_reportsHeld ((State.raise_chain _ _).reportsHeld resumed)
    | backoffEnd => exact held.congr rfl rfl rfl
    | apply i c work applies => exact absurd other applies.not_sendsOrEnters
    | timerExpiry i tb e expires => exact absurd other expires.not_sendsOrEnters
    | expiryWork i fx works => exact absurd other works.not_sendsOrEnters
    | boardNotice i k c takes => exact absurd other takes.not_sendsOrEnters
    | _ => rcases other with ⟨⟨⟨⟩⟩⟩
  · exact (act.chain other).reportsHeld held

/-- Settles O13: the start-up invariant, and what every report move keeps. -/
theorem reportsInvariantKept : Obligations.ReportsInvariantKept := by
  refine fun _ _ sound stepped => step_keeps (P := State.ReportsSound) (fun _ _ h => h) ?_ sound stepped
  rintro s t i ⟨startup, held⟩ act
  exact ⟨act.keeps_startup startup, act.keeps_reports held⟩

/-- Every command but COLD_RESET raises counts alone. -/
theorem Act.grows {s t : State} {i : Instr} (act : Act s i t) (cold : i ≠ .coldReset) : CountsGrow s t := by
  by_cases other : SendsOrEnters i
  · cases act with
    | coldReset => exact absurd rfl cold
    | enterRun => exact (CountsGrow.of_counts (t := s.inRun) rfl).trans s.enterRun_chain.grows
    | restart c => exact (s.directNote_chain c).grows.trans (.of_counts rfl)
    | restartElsewhere c => exact (s.restartElsewhere_chain c).grows
    | restartMalformed c => exact (s.restartMalformed_chain c).grows
    | lateJam => exact (State.raise_chain (s.resumeReceiver jamBits) .txLate).grows.trans (.of_counts (by simp))
    | giveUp => exact (State.raise_chain (s.resumeReceiver jamBits) .txGiveup).grows.trans (.of_counts (by simp))
    | apply i c work applies => exact absurd other applies.not_sendsOrEnters
    | timerExpiry i tb e expires => exact absurd other expires.not_sendsOrEnters
    | expiryWork i fx works => exact absurd other works.not_sendsOrEnters
    | boardNotice i k c takes => exact absurd other takes.not_sendsOrEnters
    | idle => exact .of_counts rfl
    | beginLoad => exact .of_counts rfl
    | skipLoad => exact .of_counts (by simp)
    | profileByte => exact .of_counts (by simp)
    | fontByte => exact .of_counts (by simp)
    | profileTimeout => exact .of_counts (by simp)
    | fontTimeout => exact .of_counts (by simp)
    | attempt => exact .of_counts (by simp)
    | success => exact .of_counts (by simp)
    | collision => exact .of_counts rfl
    | backOff => exact .of_counts (by simp)
    | backoffEnd => exact .of_counts (by simp)
    | _ => rcases other with ⟨⟨⟨⟩⟩⟩
  · exact (act.chain other).grows

/-! ### One report event (R179) -/

section
variable (s : State) (k : ReportKind)

theorem State.count_self (length : s.ru.counts.length = 19) : (s.count k).ru.counts.getD k.number 0 =
    (if s.ru.counts.getD k.number 0 < 65535 then s.ru.counts.getD k.number 0 + 1
      else s.ru.counts.getD k.number 0) := by
  have counts : (s.count k).ru.counts = s.ru.counts.modify k.number bump := rfl
  rw [counts, getD_modify_bump, if_pos ⟨rfl, length ▸ k.number_lt⟩]
  rfl

theorem State.count_other {j : ReportKind} (other : j ≠ k) :
    (s.count k).ru.counts.getD j.number 0 = s.ru.counts.getD j.number 0 := by
  have counts : (s.count k).ru.counts = s.ru.counts.modify k.number bump := rfl
  rw [counts, getD_modify_bump, if_neg fun h => other (ReportKind.number_inj h.1.symm)]

theorem State.count_pending (j : ReportKind) :
    kindBit (s.count k).ru.pending j = (kindBit s.ru.pending j || decide (j = k)) := by
  simp [State.count, State.flag]

/-- The interval timer of the kind starts where the part may send (R179 (3)). -/
theorem State.count_timers (length : s.ru.timers.length = 3) (bound : s.prof.intervalOf k < 3) (i : Nat) :
    (s.count k).ru.timers.getD i false =
      (s.ru.timers.getD i false || (s.maySend && decide (i = s.prof.intervalOf k))) := by
  have timers : (s.count k).ru.timers =
      if s.maySend then s.ru.timers.set (s.prof.intervalOf k) true else s.ru.timers := rfl
  rw [timers]
  split
  next may =>
    simp only [may, Bool.true_and, List.getD_eq_getElem?_getD, List.getElem?_set]
    by_cases same : s.prof.intervalOf k = i
    · subst same
      simp [length, bound]
    · simp [same, Ne.symm same]
  next silent => simp [eq_false_of_ne_true silent]

end

/-- Settles O14: one event by the definition of `count`, a list by folding, and every command but COLD_RESET by the
report moves it is made of. -/
theorem reportEventCountsAndFlags : Obligations.ReportEventCountsAndFlags := by
  refine ⟨fun s k counts timers bound => ⟨s.count_self k counts, fun j other => s.count_other k other, ?_, ?_,
    s.count_timers k timers bound, rfl⟩, fun s ks => (s.raiseAll_reported ks).1, ?_⟩
  · simp [s.count_pending k]
  · intro j other
    simp [s.count_pending k, other]
  · intro c s t answered cold k
    exact (act_of_exec answered).grows cold k.number

end Sys2Proof.Machine
end

