-- ==== Sys2Proof/Proofs/WindowInvariant.lean ====
section
/-! SUPPORT. Every step keeps the arbitration invariant. A completing table work is a stage of its own: the tables are
still WORKING, and the apply that may wait is that of the chain dispatched since. -/

namespace Sys2Proof.Machine

/-! ### What the invariant speaks of -/

/-- Between `s` and `t` stands what the arbitration invariant speaks of. -/
structure WindowStands (s t : State) : Prop where
  state : t.tb.state = s.tb.state
  windowRequest : t.tb.windowRequest = s.tb.windowRequest
  waitingApply : t.tb.waitingApply = s.tb.waitingApply
  waiting : t.tb.waiting = s.tb.waiting
  pass : t.co.pass = s.co.pass
  inWork : t.lc.ring.inWork = s.lc.ring.inWork

theorem WindowStands.tableChain {s t : State} (stands : WindowStands s t) : t.tableChain ↔ s.tableChain := by
  unfold State.tableChain
  rw [stands.inWork]

theorem WindowStands.windowSound {s t : State} (stands : WindowStands s t) (sound : s.WindowSound) :
    t.WindowSound := by
  unfold State.WindowSound
  rw [stands.tableChain, stands.state, stands.windowRequest, stands.waitingApply, stands.waiting, stands.pass]
  exact sound

/-- The tables are being released: no window is held or asked for, and an apply waits exactly where a Table Builder
chain is IN-WORK. -/
structure State.Released (s : State) : Prop where
  not_reading : s.co.pass ≠ .reading
  not_asking : s.co.pass ≠ .asking
  not_asked : s.tb.windowRequest = false
  chain : s.tableChain ↔ s.tb.waitingApply = true
  distinct : s.tb.waiting.Nodup

/-- A table work is being completed: the tables are WORKING, and an apply waits exactly where a Table Builder chain is
IN-WORK. -/
structure State.Settling (s : State) : Prop where
  working : ∃ w, s.tb.state = .working w
  asking : s.tb.windowRequest = true ↔ s.co.pass = .asking
  not_reading : s.co.pass ≠ .reading
  chain : s.tableChain ↔ s.tb.waitingApply = true
  distinct : s.tb.waiting.Nodup

/-! ### Arbitration (R50, R90 to R92) -/

section
variable {s : State}

theorem Tb.mem_claims {tb : Tb} {c : Claim} (member : c ∈ tb.claims) :
    (c = .apply ∧ tb.waitingApply = true) ∨ ∃ e, c = .expiry e ∧ e ∈ tb.waiting := by
  unfold Tb.claims at member
  rcases List.mem_append.1 member with h | h
  · split at h
    next waits => exact Or.inl ⟨List.mem_singleton.1 h, waits⟩
    next => exact absurd h List.not_mem_nil
  · obtain ⟨e, waits, rfl⟩ := List.mem_map.1 h
    exact Or.inr ⟨e, rfl, waits⟩

/-- The work of an expiry is no apply. -/
theorem Tb.workOf_ne_apply (tb : Tb) (e : Expiry) : tb.workOf e ≠ .apply := by cases e <;> simp [Tb.workOf]

/-- A waiting work begins on released tables. -/
theorem State.Released.start (released : s.Released) {c : Claim} (waits : c ∈ s.tb.claims) :
    (s.setTb (s.tb.start c)).WindowSound := by
  obtain ⟨not_reading, not_asking, not_asked, chain, distinct⟩ := released
  have same : (s.setTb (s.tb.start c)).tableChain ↔ s.tableChain := Iff.rfl
  unfold State.WindowSound
  rw [same, chain]
  rcases Tb.mem_claims waits with ⟨rfl, waitsApply⟩ | ⟨e, rfl, member⟩
  · simp [Tb.start, not_reading, not_asking, not_asked, waitsApply, distinct]
  · simp [Tb.start, not_reading, not_asking, not_asked, s.tb.workOf_ne_apply e, distinct.erase]

theorem State.Released.beginWaiting (released : s.Released) : s.beginWaiting.WindowSound := by
  unfold State.beginWaiting
  split
  next none =>
    obtain ⟨not_reading, not_asking, not_asked, chain, distinct⟩ := released
    simp only [Tb.claims, List.append_eq_nil_iff, List.map_eq_nil_iff, ite_eq_right_iff] at none
    obtain ⟨noApply, noExpiry⟩ := none
    have noApply : s.tb.waitingApply = false := eq_false_of_ne_true fun h => nomatch noApply h
    have same : (s.setTb { s.tb with state := .free }).tableChain ↔ s.tableChain := Iff.rfl
    unfold State.WindowSound
    rw [same, chain]
    simp [not_reading, not_asking, not_asked, noApply, noExpiry]
  next c one => exact released.start (by rw [one]; exact List.mem_singleton_self c)
  next c d rest several =>
    have inside : Config.workChoice s.freeCounter % (rest.length + 2) < (c :: d :: rest).length :=
      Nat.mod_lt _ (Nat.succ_pos _)
    have chosen := released.start (c := (c :: d :: rest).getD
      (Config.workChoice s.freeCounter % (rest.length + 2)) c) (by
        rw [several, getD_of_lt _ inside]
        exact List.getElem_mem _)
    exact WindowStands.windowSound (by constructor <;> rfl) chosen

/-- The window is granted, or given back where a swap is pending (R91, R92). -/
theorem State.Released.grantWindow {t : State} (released : s.Released)
    (tb : t.tb = s.tb) (lc : t.lc = s.lc) : t.grantWindow.WindowSound := by
  obtain ⟨not_reading, not_asking, not_asked, chain, distinct⟩ := released
  have chain : t.tableChain ↔ t.tb.waitingApply = true := by
    unfold State.tableChain
    rw [lc, tb]
    exact chain
  unfold State.grantWindow
  split
  · exact State.Released.beginWaiting ⟨by simp, by simp, by simpa [tb] using not_asked, chain,
      by simpa [tb] using distinct⟩
  · have same : ((t.setTb { t.tb with state := .window }).setCo
        { t.co with request := false, pass := .reading, working := [], nameMiss := false }).tableChain ↔
        t.tableChain := Iff.rfl
    unfold State.WindowSound
    rw [same, chain]
    simp [tb, not_asked, distinct]

theorem State.Settling.arbitrate (settling : s.Settling) : s.arbitrate.WindowSound := by
  obtain ⟨⟨w, working⟩, asking, not_reading, chain, distinct⟩ := settling
  unfold State.arbitrate
  split
  next asked =>
    refine State.Released.grantWindow
      (s := (s.setTb { s.tb with windowRequest := false }).setCo { s.co with pass := .idle })
      ⟨by simp, by simp, rfl, chain, distinct⟩ rfl rfl
  next not_asked =>
    exact State.Released.beginWaiting ⟨not_reading, fun h => not_asked (asking.2 h),
      eq_false_of_ne_true not_asked, chain, distinct⟩

theorem State.Settling.askWindow (settling : s.Settling) : s.askWindow.Settling := by
  obtain ⟨⟨w, working⟩, asking, not_reading, chain, distinct⟩ := settling
  simp only [State.askWindow]
  split
  · rw [if_neg (by simp [working])]
    exact ⟨⟨w, working⟩, by simp, by simp, chain, distinct⟩
  · exact ⟨⟨w, working⟩, asking, not_reading, chain, distinct⟩

theorem State.Settling.closeWork (settling : s.Settling) (asked : Bool) : (s.closeWork asked).WindowSound := by
  unfold State.closeWork
  split
  · exact settling.askWindow.arbitrate
  · exact settling.arbitrate

/-- The Composer asks, and is granted FREE tables (R49, R90). -/
theorem State.WindowSound.askWindow (sound : s.WindowSound) : s.askWindow.WindowSound := by
  have whole := sound
  obtain ⟨window, asking, working, chain, once, free, distinct⟩ := sound
  simp only [State.askWindow]
  split
  next due =>
    obtain ⟨-, idle, -, -⟩ := due
    have not_asked : s.tb.windowRequest = false := by
      rw [← Bool.not_eq_true, asking, idle]
      simp
    split
    next isFree =>
      have isFree : s.tb.state = .free := isFree
      obtain ⟨noApply, -⟩ := free isFree
      refine State.Released.grantWindow (s := s) ⟨by simp [idle], by simp [idle], not_asked, ?_, distinct⟩ rfl rfl
      rw [chain]
      simp [isFree]
    next isBusy =>
      have isBusy : s.tb.state ≠ .free := isBusy
      have isWorking : ∃ w, s.tb.state = .working w := by
        cases state : s.tb.state with
        | free => exact absurd state isBusy
        | working w => exact ⟨w, rfl⟩
        | window => exact absurd (window.1 state) (by simp [idle])
      obtain ⟨w, isWorking⟩ := isWorking
      have same : ((s.setCo { s.co with pass := .asking }).setTb
          { s.tb with windowRequest := true }).tableChain ↔ s.tableChain := Iff.rfl
      unfold State.WindowSound
      refine ⟨?_, ?_, fun _ => ⟨w, isWorking⟩, chain, once, fun h => absurd h isBusy, distinct⟩
      · simp [isWorking]
      · simp
  next => exact whole

/-! ### Dispatch and completion (R27, R29, R48) -/

theorem State.WindowSound.dispatch (sound : s.WindowSound) : s.dispatch.WindowSound := by
  have whole := sound
  obtain ⟨window, asking, working, chain, once, free, distinct⟩ := sound
  simp only [State.dispatch]
  split
  next c rest none ready =>
    have no_chain : ¬ s.tableChain := by
      rintro ⟨d, some, -⟩
      exact nomatch none.symm.trans some
    rw [chain, not_or] at no_chain
    obtain ⟨not_applying, not_waiting⟩ := no_chain
    have inWork (t : State) (e : t.lc.ring.inWork = some c) : t.tableChain ↔ c.forTables = true := by
      simp [State.tableChain, e]
    split
    next tables =>
      unfold State.WindowSound
      rw [inWork _ rfl]
      by_cases isFree : s.tb.state = .free
      · have deliver : s.tb.deliver = { s.tb with state := .working .apply } := by simp [Tb.deliver, isFree]
        have not_asked : s.tb.windowRequest = false := by
          rw [← Bool.not_eq_true]
          intro asked
          obtain ⟨w, isWorking⟩ := working asked
          exact nomatch isFree.symm.trans isWorking
        have not_reading : s.co.pass ≠ .reading := fun h => nomatch isFree.symm.trans (window.2 h)
        have not_asking : s.co.pass ≠ .asking := fun h => by simpa [not_asked] using asking.2 h
        simp [deliver, tables, not_asked, not_reading, not_asking, not_waiting, distinct]
      · have deliver : s.tb.deliver = { s.tb with waitingApply := true } := by simp [Tb.deliver, isFree]
        simp only [State.setTb_tb, State.setLc_tb, State.setTb_co, State.setLc_co, deliver]
        exact ⟨window, asking, working, by simp [tables], by simp [not_applying], fun h => absurd h isFree, distinct⟩
    next other =>
      unfold State.WindowSound
      rw [inWork _ rfl]
      exact ⟨window, asking, working, by simp [other, not_applying, not_waiting], once, free, distinct⟩
  next => exact whole

theorem State.Settling.dispatch (settling : s.Settling) (none : s.lc.ring.inWork = none) : s.dispatch.Settling := by
  have whole := settling
  obtain ⟨⟨w, working⟩, asking, not_reading, chain, distinct⟩ := settling
  simp only [State.dispatch]
  split
  next c rest _ ready =>
    have inWork (t : State) (e : t.lc.ring.inWork = some c) : t.tableChain ↔ c.forTables = true := by
      simp [State.tableChain, e]
    have not_waiting : ¬ s.tb.waitingApply = true := by
      rw [← chain]
      rintro ⟨d, some, -⟩
      exact nomatch none.symm.trans some
    split
    next tables =>
      have deliver : s.tb.deliver = { s.tb with waitingApply := true } := by simp [Tb.deliver, working]
      refine ⟨⟨w, ?_⟩, ?_, not_reading, ?_, ?_⟩
      · simp [deliver, working]
      · simpa [deliver] using asking
      · rw [inWork _ rfl]
        simp [deliver, tables]
      · simpa [deliver] using distinct
    next other =>
      refine ⟨⟨w, working⟩, asking, not_reading, ?_, distinct⟩
      rw [inWork _ rfl]
      simp [other, not_waiting]
  next => exact whole

@[simp] theorem Ring.freeInWork_inWork (r : Ring) : r.freeInWork.inWork = none := by
  unfold Ring.freeInWork
  split
  next none => exact none
  next => rfl

/-- The slots of a chain that is no Table Builder chain are freed, and the next is dispatched (R29). -/
theorem State.WindowSound.completeNotice (sound : s.WindowSound) (other : ¬ s.tableChain) :
    s.completeNotice.WindowSound := by
  refine State.WindowSound.dispatch ?_
  obtain ⟨window, asking, working, chain, once, free, distinct⟩ := sound
  have none : ¬ (s.setLc (Lc.drain { s.lc with ring := s.lc.ring.freeInWork })).tableChain := by
    simp [State.tableChain]
  exact ⟨window, asking, working, (iff_of_false none other).trans chain, once, free, distinct⟩

/-- An apply completes with its chain (R29, R47). -/
theorem State.WindowSound.settle (sound : s.WindowSound) (applying : s.tb.state = .working .apply) :
    s.completeNotice.Settling := by
  obtain ⟨window, asking, working, chain, once, free, distinct⟩ := sound
  refine State.Settling.dispatch ⟨⟨_, applying⟩, asking, ?_, ?_, distinct⟩ (by simp)
  · exact fun reading => nomatch applying.symm.trans (window.2 reading)
  · have not_waiting : ¬ s.tb.waitingApply = true := fun waits => once ⟨applying, waits⟩
    simpa [State.tableChain] using not_waiting

/-- A table work that is no apply completes (R47). -/
theorem State.WindowSound.settling (sound : s.WindowSound) {w : TableWork} (isWorking : s.tb.state = .working w)
    (other : w ≠ .apply) : s.Settling := by
  obtain ⟨window, asking, working, chain, once, free, distinct⟩ := sound
  refine ⟨⟨w, isWorking⟩, asking, ?_, ?_, distinct⟩
  · exact fun reading => nomatch isWorking.symm.trans (window.2 reading)
  · rw [chain]
    simp [isWorking, other]

/-- A delivered notice without a header-only mark is no Table Builder chain where its kind is not the Table
Builder's. -/
theorem State.Delivered.not_tableChain {k : NoticeKind} {c : Chain} (delivered : s.Delivered k c)
    (other : k ∈ [NoticeKind.digest, .pace, .status, .dim, .staff, .query, .restart]) : ¬ s.tableChain := by
  obtain ⟨inWork, whole, kind⟩ := delivered
  rintro ⟨d, same, tables⟩
  cases inWork.symm.trans same
  simp only [List.mem_cons, List.not_mem_nil, or_false] at other
  rcases other with rfl | rfl | rfl | rfl | rfl | rfl | rfl <;> simp [Chain.forTables, whole, kind] at tables

/-! ### Expiries (R48) -/

/-- An expiry begins its work on FREE tables, or waits once. -/
theorem State.WindowSound.claim (sound : s.WindowSound) {tb : Tb} (e : Expiry) (stands : WindowStands s (s.setTb tb)) :
    (s.setTb (tb.claim e)).WindowSound := by
  have before := stands.windowSound sound
  have whole := before
  obtain ⟨window, asking, working, chain, once, free, distinct⟩ := before
  unfold Tb.claim
  split
  next isFree =>
    obtain ⟨noApply, none⟩ := free isFree
    have not_asked : tb.windowRequest = false := by
      rw [← Bool.not_eq_true]
      intro asked
      obtain ⟨w, isWorking⟩ := working asked
      exact nomatch isFree.symm.trans isWorking
    have noApply : tb.waitingApply = false := noApply
    have not_reading : s.co.pass ≠ .reading := fun h => nomatch isFree.symm.trans (window.2 h)
    have not_asking : s.co.pass ≠ .asking := fun h => by simpa [not_asked] using asking.2 h
    have no_chain : ¬ s.tableChain := by
      have := (not_congr chain).2 (by simp [isFree, noApply])
      exact this
    have same (x : Tb) : (s.setTb x).tableChain ↔ s.tableChain := Iff.rfl
    unfold State.WindowSound
    rw [same]
    have none : tb.waiting = [] := none
    simp [not_asked, noApply, not_reading, not_asking, no_chain, tb.workOf_ne_apply e, none]
  next isBusy =>
    split
    next => exact whole
    next new =>
      refine ⟨window, asking, working, chain, once, fun h => absurd h isBusy, ?_⟩
      exact nodup_snoc distinct (by simpa using new)

end

/-! ### Every step -/

section
variable {s : State} {i : Instr}

theorem ApplyWork.applying {c : Chain} {work : Tb → Effect} (applies : ApplyWork s c i work) :
    s.tb.state = .working .apply := by
  cases applies with
  | headerOnly working => exact working
  | _ on => exact on.1

/-- No work of an apply touches the arbitration (R47). -/
theorem ApplyWork.stands {c : Chain} {work : Tb → Effect} (applies : ApplyWork s c i work) :
    WindowStands s (s.setTb (s.tb.withNote c work).tb) := by
  cases applies <;> constructor <;> simp

theorem ExpiryWork.working {fx : Effect} (works : ExpiryWork s i fx) :
    ∃ w, s.tb.state = .working w ∧ w ≠ .apply := by
  cases works with
  | refresh n live working => exact ⟨_, working, by simp⟩
  | lifetime node working => exact ⟨_, working, by simp⟩
  | sweepLimit node working => exact ⟨_, working, by simp⟩
  | tick working => exact ⟨_, working, by simp⟩

theorem ExpiryWork.stands {fx : Effect} (works : ExpiryWork s i fx) : WindowStands s (s.setTb fx.tb) := by
  cases works <;> constructor <;> simp

theorem TimerExpiry.stands {tb : Tb} {e : Expiry} (expires : TimerExpiry s i tb e) :
    WindowStands s (s.setTb tb) := by
  cases expires <;> constructor <;> simp

/-- The effects of a work leave the arbitration as the tables they leave (R47). -/
theorem State.takeEffects_stands {fx : Effect} (stands : WindowStands s (s.setTb fx.tb)) :
    WindowStands s (s.takeEffects fx) := by
  obtain ⟨state, windowRequest, waitingApply, waiting, pass, inWork⟩ := stands
  have tb := s.takeEffects_tb fx
  exact ⟨by rwa [tb], by rwa [tb], by rwa [tb], by rwa [tb], by simp, by simp⟩

end

theorem Tb.reset_windowSound {t : State} (tb : t.tb = Tb.reset) (co : t.co = Co.reset)
    (ring : t.lc.ring.inWork = none) : t.WindowSound := by
  unfold State.WindowSound State.tableChain
  rw [tb, co, ring]
  simp [Tb.reset, Co.reset]

/-- A chain that is due leaves the IN-WORK chain, or is dispatched (R25, R27). -/
theorem State.WindowSound.completeDue {s : State} (sound : s.WindowSound) : s.completeDue.WindowSound := by
  unfold State.completeDue
  split
  next => exact sound
  next f =>
    split
    · exact State.WindowSound.dispatch (WindowStands.windowSound (by constructor <;> rfl) sound)
    · exact WindowStands.windowSound (by constructor <;> simp [Lc.freeFilling]) sound

theorem State.WindowSound.enterStore {s : State} (sound : s.WindowSound) : s.enterStore.WindowSound := by
  simp only [State.enterStore]
  split
  · exact WindowStands.windowSound (by constructor <;> simp) sound.completeDue
  · exact WindowStands.windowSound (by constructor <;> simp [State.setReceiver]) sound.completeDue

theorem State.WindowSound.followFrame {s : State} (sound : s.WindowSound) (k : NoticeKind) :
    (s.followFrame k).WindowSound := by
  simp only [State.followFrame]
  split
  · exact sound.enterStore
  · exact WindowStands.windowSound (by constructor <;> rfl) sound
  · exact WindowStands.windowSound (by constructor <;> rfl) sound

theorem State.offerByte_stands (s : State) (b : Byte) : WindowStands s (s.offerByte b) := by
  unfold State.offerByte
  split
  · constructor <;> simp
  · constructor <;> simp [Lc.freeFilling]

theorem State.endStored_stands (s : State) (passes : Bool) : WindowStands s (s.endStored passes) := by
  unfold State.endStored
  split
  · constructor <;> simp
  · constructor <;> simp [Lc.freeFilling]

theorem State.WindowSound.endForeign {s : State} (sound : s.WindowSound) (passes : Bool) :
    (s.endForeign passes).WindowSound := by
  have hunt : s.toHunt.WindowSound := WindowStands.windowSound (by constructor <;> rfl) sound
  simp only [State.endForeign]
  split
  · split
    · exact WindowStands.windowSound (by constructor <;> simp [State.dropHeader, State.setReceiver]) hunt.completeDue
    · exact WindowStands.windowSound (by constructor <;> simp) hunt.completeDue
  · exact WindowStands.windowSound (by constructor <;> simp) hunt

/-- Every command keeps the arbitration invariant. -/
theorem Act.keeps_window {s t : State} {i : Instr} (sound : s.WindowSound) (act : Act s i t) : t.WindowSound := by
  have notice {u : State} {k : NoticeKind} {c : Chain} (delivered : s.Delivered k c)
      (other : k ∈ [NoticeKind.digest, .pace, .status, .dim, .staff, .query, .restart])
      (stands : WindowStands s u) : u.completeNotice.WindowSound := by
    refine (stands.windowSound sound).completeNotice ?_
    rw [stands.tableChain]
    exact delivered.not_tableChain other
  cases act with
  | idle => exact sound
  | coldReset => exact Tb.reset_windowSound rfl rfl rfl
  | enterRun =>
    refine State.WindowSound.askWindow (WindowStands.windowSound ?_ sound)
    constructor <;> simp
  | headerPasses h k =>
    refine State.WindowSound.followFrame (WindowStands.windowSound ?_ sound) k
    constructor <;> simp
  | storedByte b =>
    refine (State.offerByte_stands _ b).windowSound (WindowStands.windowSound ?_ sound)
    constructor <;> simp
  | storedEnd check =>
    refine (State.endStored_stands _ _).windowSound (WindowStands.windowSound ?_ sound)
    constructor <;> simp
  | foreignEnd check =>
    refine State.WindowSound.endForeign (WindowStands.windowSound ?_ sound) _
    constructor <;> simp
  | completeDue => exact sound.completeDue
  | apply i c work applies =>
    have stands := State.takeEffects_stands applies.stands
    exact ((stands.windowSound sound).settle (stands.state.trans applies.applying)).closeWork _
  | timerExpiry i tb e expires => exact sound.claim e expires.stands
  | expiryWork i fx works =>
    have stands := State.takeEffects_stands works.stands
    obtain ⟨w, working, other⟩ := works.working
    exact ((stands.windowSound sound).settling (stands.state.trans working) other).closeWork _
  | windowRelease reading =>
    obtain ⟨window, asking, working, chain, once, free, distinct⟩ := sound
    have isWindow := window.2 reading
    refine State.Released.beginWaiting ⟨by simp, by simp, ?_, ?_, distinct⟩
    · rw [← Bool.not_eq_true]
      simp [asking, reading]
    · show s.tableChain ↔ s.tb.waitingApply = true
      simp [chain, isWindow]
  | composeComplete digesting =>
    refine State.WindowSound.askWindow ?_
    obtain ⟨window, asking, working, chain, once, free, distinct⟩ := sound
    have same : (s.completePass.setCo { s.completePass.co with pass := .idle }).tableChain ↔ s.tableChain := by
      simp [State.tableChain]
    unfold State.WindowSound
    rw [same]
    simp only [digesting, reduceCtorEq, iff_false] at window asking
    exact ⟨by simpa using window, by simpa using asking, by simpa using working, by simpa using chain,
      by simpa using once, by simpa using free, by simpa using distinct⟩
  | boardNotice i k c takes delivered =>
    refine notice delivered (by cases takes <;> simp) ?_
    constructor <;> simp
  | frameEvent =>
    refine State.WindowSound.askWindow (WindowStands.windowSound ?_ sound)
    constructor <;> simp
  | dim c delivered => exact notice delivered (by simp) (by constructor <;> simp)
  | staff c delivered => exact notice delivered (by simp) (by constructor <;> simp)
  | query c delivered => exact notice delivered (by simp) (by constructor <;> simp)
  | restart c => exact Tb.reset_windowSound rfl rfl rfl
  | restartElsewhere c delivered => exact notice delivered (by simp) (by constructor <;> simp)
  | restartMalformed c delivered => exact notice delivered (by simp) (by constructor <;> simp)
  | _ => exact WindowStands.windowSound (by constructor <;> simp) sound

/-- Settles O10: a completing work is settled by the arbitration, a delivered notice of another block frees a chain
that is none of the tables', and every other command leaves the arbitration. -/
theorem windowInvariantKept : Obligations.WindowInvariantKept :=
  fun _ _ sound stepped => step_keeps (P := State.WindowSound) (fun _ _ h => h)
    (fun _ _ _ sound act => act.keeps_window sound) sound stepped

end Sys2Proof.Machine
end

