-- ==== Sys2Proof/Proofs/BannerInvariant.lean ====
section
/-! SUPPORT. Every step keeps the banner invariant: messages and STAFF keep lists and groups, a pace step ends,
discards and takes, and the other commands leave the Banner Unit. -/

namespace Sys2Proof.Machine

/-! ### What the invariant says of the Banner Unit under a profile -/

/-- The lists, slots, groups and banner of R161 to R170 under a profile. -/
structure Bu.Sound (bu : Bu) (p : Profile) : Prop where
  lists : ∀ g, AttentionsSound (bu.list g)
  slots : bu.slots.length = 8
  banner : bu.line = .idle ↔ bu.banner = none
  held : ∀ g, bu.group g = .held ↔ bu.line = .showing ∧ bu.banner.map (fun b => b.group) = some g
  quiet : ∀ g, p.groupEnabled g = false → bu.group g = .quiet

theorem State.bannerSound_iff (s : State) : s.BannerSound ↔
    s.StartupSound ∧ s.bu.Sound s.prof ∧ (s.sc.node ≠ .run → s.bu.line = .idle) := by
  constructor
  · rintro ⟨startup, a, b, c, slots, banner, held, quiet, idle⟩
    refine ⟨startup, ⟨fun g => ?_, slots, banner, held, quiet⟩, idle⟩
    cases g with
    | a => exact a
    | b => exact b
    | c => exact c
    | d => exact ⟨Nat.zero_le _, List.nodup_nil⟩
  · rintro ⟨startup, ⟨lists, slots, banner, held, quiet⟩, idle⟩
    exact ⟨startup, lists .a, lists .b, lists .c, slots, banner, held, quiet, idle⟩

theorem Bu.reset_sound (p : Profile) : Bu.reset.Sound p where
  lists g := by cases g <;> exact ⟨Nat.zero_le _, List.nodup_nil⟩
  slots := rfl
  banner := by simp [Bu.reset]
  held g := by cases g <;> simp [Bu.reset, Bu.group]
  quiet g _ := by cases g <;> rfl

/-! ### Lists (R161 to R163) -/

theorem AttentionsSound.withArgument {l : List Attention} (sound : AttentionsSound l) (n : Nat) (a : Argument) :
    AttentionsSound (withArgument l n a) := by
  have services : (Machine.withArgument l n a).map (fun e => e.service) = l.map fun e => e.service := by
    unfold Machine.withArgument
    rw [List.map_map]
    refine List.map_congr_left fun e _ => ?_
    simp only [Function.comp]
    split <;> rfl
  refine ⟨?_, services ▸ sound.2⟩
  simpa [Machine.withArgument] using sound.1

/-- Entries taken from a sound list are sound. -/
theorem AttentionsSound.sublist {l m : List Attention} (sound : AttentionsSound l) (sub : m.Sublist l) :
    AttentionsSound m :=
  ⟨Nat.le_trans sub.length_le sound.1, (sub.map _).nodup sound.2⟩

theorem AttentionsSound.withoutService {l : List Attention} (sound : AttentionsSound l) (n : Nat) :
    AttentionsSound (withoutService l n) := sound.sublist List.filter_sublist

theorem AttentionsSound.nil : AttentionsSound [] := ⟨Nat.zero_le _, List.nodup_nil⟩

/-- An entry joins a list that has room and none for its service (R162). -/
theorem AttentionsSound.append {l : List Attention} (sound : AttentionsSound l) {e : Attention}
    (new : listed l e.service = false) (room : l.length < Config.attentionCapacity) :
    AttentionsSound (l ++ [e]) := by
  obtain ⟨length, distinct⟩ := sound
  constructor
  · rw [List.length_append]
    exact room
  · rw [List.map_append, List.map_singleton]
    refine nodup_snoc distinct ?_
    simp only [listed, List.any_eq_false, beq_iff_eq] at new
    simpa using new

@[simp] theorem Bu.setList_list (bu : Bu) (g h : Group) (l : List Attention) :
    (bu.setList g l).list h = if g = h ∧ g ≠ .d then l else bu.list h := by
  cases g <;> cases h <;> rfl

section
variable {bu : Bu} {p : Profile} (sound : bu.Sound p)
include sound

/-- Replaced by a sound list, every list is sound. -/
theorem Bu.Sound.setList (g : Group) {l : List Attention} (list : AttentionsSound l) :
    (bu.setList g l).Sound p := by
  obtain ⟨lists, slots, banner, held, quiet⟩ := sound
  have frame := bu.setList_frame g l
  refine ⟨fun h => ?_, ?_, ?_, ?_, ?_⟩
  · rw [Bu.setList_list]
    split
    · exact list
    · exact lists h
  all_goals cases g <;> assumption

/-- A group that has content requests, and is then enabled and not HELD (R166). -/
theorem Bu.Sound.examine (g : Group) : (bu.examine p g).Sound p := by
  unfold Bu.examine
  split
  next due =>
    obtain ⟨isQuiet, content⟩ := due
    obtain ⟨lists, slots, banner, held, quiet⟩ := sound
    have enabled : p.groupEnabled g = true := by
      unfold Bu.hasContent at content
      exact (Bool.and_eq_true _ _ ▸ content).1
    have not_held : ¬ (bu.line = .showing ∧ bu.banner.map (fun b => b.group) = some g) := by
      rw [← held g, isQuiet]
      simp
    have frame := bu.setGroup_frame g .requesting
    refine ⟨fun h => ?_, ?_, ?_, fun h => ?_, fun h off => ?_⟩
    · have list : (bu.setGroup g .requesting).list h = bu.list h := by cases g <;> cases h <;> rfl
      rw [list]
      exact lists h
    · cases g <;> exact slots
    · cases g <;> exact banner
    · have line : (bu.setGroup g .requesting).line = bu.line := by cases g <;> rfl
      have same : (bu.setGroup g .requesting).banner = bu.banner := by cases g <;> rfl
      rw [line, same, Bu.setGroup_group]
      split
      next e =>
        subst e
        simpa using not_held
      next => exact held h
    · rw [Bu.setGroup_group]
      split
      next e =>
        subst e
        exact absurd (enabled.symm.trans off) (by decide)
      next => exact quiet h off
  next => exact sound

theorem Bu.Sound.raise (g : Group) (n : Nat) (a : Argument) : (bu.raise p g n a).1.Sound p := by
  unfold Bu.raise
  split
  next => exact sound.setList g ((sound.lists g).withArgument n a)
  next new =>
    split
    next room =>
      refine Bu.Sound.examine (sound.setList g ?_) g
      exact (sound.lists g).append (eq_false_of_ne_true new) room
    next => exact sound

theorem Bu.Sound.releaseAll (n : Nat) : (bu.releaseAll n).Sound p := by
  obtain ⟨lists, slots, banner, held, quiet⟩ := sound
  refine ⟨fun g => ?_, slots, banner, fun g => ?_, fun g off => ?_⟩
  · cases g with
    | a => exact (lists .a).withoutService n
    | b => exact (lists .b).withoutService n
    | c => exact (lists .c).withoutService n
    | d => exact lists .d
  · have := held g
    cases g <;> exact this
  · have := quiet g off
    cases g <;> exact this

theorem Bu.Sound.take (m : Message) : (bu.take p m).1.Sound p := by
  cases m with
  | raise g n a => exact sound.raise g n a
  | update n d => exact sound.setList .c ((sound.lists .c).withArgument n _)
  | release g n => exact sound.setList g ((sound.lists g).withoutService n)
  | releaseAll n => exact sound.releaseAll n

omit sound in
/-- The messages of a work keep the Banner Unit sound (R162, R163). -/
theorem Bu.Sound.takeAll (messages : List Message) {bu : Bu} (sound : bu.Sound p) :
    (bu.takeAll p messages).1.Sound p := by
  induction messages generalizing bu with
  | nil => exact sound
  | cons m rest ih => exact ih (sound.take m)

/-- A slot replaced leaves eight of them (R164). -/
theorem Bu.Sound.setSlot (k : Nat) (m : Option StaffMessage) : Bu.Sound { bu with slots := bu.slots.set k m } p := by
  obtain ⟨lists, slots, banner, held, quiet⟩ := sound
  refine ⟨fun g => ?_, by simpa using slots, banner, fun g => ?_, fun g off => ?_⟩
  · have := lists g
    cases g <;> exact this
  · have := held g
    cases g <;> exact this
  · have := quiet g off
    cases g <;> exact this

theorem Bu.Sound.staff (k repeats : Nat) (text : Text) : (bu.staff p k repeats text).Sound p := by
  simp only [Bu.staff]
  split
  · exact sound.setSlot k none
  · split
    · exact Bu.Sound.examine (sound.setSlot k _) .d
    · exact sound.setSlot k _

end

/-! ### What leaves the banner line -/

@[simp] theorem Bu.examine_line (bu : Bu) (p : Profile) (g : Group) : (bu.examine p g).line = bu.line := by
  unfold Bu.examine
  split
  · cases g <;> rfl
  · rfl

@[simp] theorem Bu.take_line (bu : Bu) (p : Profile) (m : Message) : (bu.take p m).1.line = bu.line := by
  cases m with
  | raise g n a =>
    simp only [Bu.take, Bu.raise]
    split
    · simp
    · split <;> simp
  | update n d => rfl
  | release g n => simp [Bu.take]
  | releaseAll n => rfl

@[simp] theorem Bu.takeAll_line (bu : Bu) (p : Profile) (messages : List Message) :
    (bu.takeAll p messages).1.line = bu.line := by
  induction messages generalizing bu with
  | nil => rfl
  | cons m rest ih => exact (ih _).trans (bu.take_line p m)

@[simp] theorem Bu.staff_line (bu : Bu) (p : Profile) (k repeats : Nat) (text : Text) :
    (bu.staff p k repeats text).line = bu.line := by
  simp only [Bu.staff]
  split
  · rfl
  · split <;> simp

/-! ### The pace step (R165 to R172) -/

section
variable {bu : Bu} {p : Profile} (sound : bu.Sound p)
include sound

/-- The end of SHOWING frees the group that was HELD (R167 (1), R169). -/
theorem Bu.Sound.endShowing (p1 : Pace) : (bu.endShowing p p1).Sound p := by
  unfold Bu.endShowing
  split
  next b line banner =>
    split
    next =>
      refine Bu.Sound.examine ?_ b.group
      obtain ⟨lists, slots, both, held, quiet⟩ := sound
      have group (h : Group) : ({ bu with line := .gap }.setGroup b.group .quiet).group h =
          if h = b.group then .quiet else bu.group h := by
        rw [Bu.setGroup_group]
        cases h <;> rfl
      refine ⟨fun h => ?_, ?_, ?_, fun h => ?_, fun h off => ?_⟩
      · have := lists h
        cases b.group <;> cases h <;> exact this
      · cases b.group <;> exact slots
      · cases b.group <;> simp [Bu.setGroup, banner]
      · have gap : ({ bu with line := .gap }.setGroup b.group .quiet).line = .gap := by cases b.group <;> rfl
        rw [group, gap]
        split
        next => simp
        next other => simpa [held h, line, banner] using fun e => other e.symm
      · rw [group]
        split
        next => rfl
        next => exact quiet h off
    next => exact sound
  next => exact sound

theorem Bu.Sound.endGap (p1 : Pace) : (bu.endGap p1).Sound p := by
  unfold Bu.endGap
  split
  next b line banner =>
    split
    next =>
      obtain ⟨lists, slots, both, held, quiet⟩ := sound
      refine ⟨fun g => ?_, slots, by simp, fun g => ?_, fun g off => ?_⟩
      · have := lists g
        cases g <;> exact this
      · have := held g
        simp only [line, reduceCtorEq, false_and, iff_false] at this
        simpa using by cases g <;> exact this
      · have := quiet g off
        cases g <;> exact this
    next => exact sound
  next => exact sound

/-- The discards leave groups, line and banner (R165). -/
theorem Bu.Sound.discard : (bu.discard p).Sound p := by
  obtain ⟨lists, slots, banner, held, quiet⟩ := sound
  have kept (b : Bool) {l : List Attention} (h : AttentionsSound l) : AttentionsSound (if b then l else []) := by
    split
    · exact h
    · exact .nil
  refine ⟨fun g => ?_, by simpa [Bu.discard] using slots, banner, fun g => ?_, fun g off => ?_⟩
  · cases g with
    | a => exact kept _ (lists .a)
    | b => exact kept _ (lists .b)
    | c => exact kept _ (lists .c)
    | d => exact .nil
  · have := held g
    cases g <;> exact this
  · have := quiet g off
    cases g <;> exact this

/-- The text of a take is chosen with lists and slots that stay sound (R171, R172). -/
theorem Bu.Sound.chooseText (shown : Option AdoptedSet) (g : Group) : (bu.chooseText p shown g).1.Sound p := by
  have list (g : Group) : (bu.takeList g shown).1.Sound p := by
    have remaining := (sound.lists g).sublist (m := eligible (shownServiceRows shown) (bu.list g))
      List.filter_sublist
    simp only [Bu.takeList]
    split
    · exact sound.setList g (remaining.withoutService _)
    · exact sound.setList g remaining
  cases g with
  | a => exact list .a
  | b => exact list .b
  | c => exact list .c
  | d =>
    simp only [Bu.chooseText, Bu.takeSlot]
    split
    · exact sound
    · split
      · exact sound
      · exact sound.setSlot _ _

end

/-- What choosing a text leaves. -/
theorem Bu.chooseText_frame (bu : Bu) (p : Profile) (shown : Option AdoptedSet) (g : Group) :
    (bu.chooseText p shown g).1.line = bu.line ∧ ∀ h, (bu.chooseText p shown g).1.group h = bu.group h := by
  have setList (g : Group) (l : List Attention) :
      (bu.setList g l).line = bu.line ∧ ∀ h, (bu.setList g l).group h = bu.group h := by
    refine ⟨by simp, fun h => ?_⟩
    cases g <;> cases h <;> rfl
  have list (g : Group) : (bu.takeList g shown).1.line = bu.line ∧
      ∀ h, (bu.takeList g shown).1.group h = bu.group h := by
    simp only [Bu.takeList]
    split <;> exact setList g _
  cases g with
  | a => exact list .a
  | b => exact list .b
  | c => exact list .c
  | d =>
    simp only [Bu.chooseText, Bu.takeSlot]
    split
    · exact ⟨rfl, fun _ => rfl⟩
    · split
      · exact ⟨rfl, fun _ => rfl⟩
      · exact ⟨rfl, fun h => by cases h <;> rfl⟩

theorem Bu.firstRequesting_requests {bu : Bu} {g : Group} (first : bu.firstRequesting = some g) :
    bu.group g = .requesting := by
  unfold Bu.firstRequesting at first
  split at first
  next h => cases first; exact h
  next =>
    split at first
    next h => cases first; exact h
    next =>
      split at first
      next h => cases first; exact h
      next =>
        split at first
        next h => cases first; exact h
        next => exact nomatch first

/-- A take on an IDLE line: its group is HELD, and no other (R170). -/
theorem Bu.Sound.makeTake {bu : Bu} {p : Profile} (sound : bu.Sound p) (idle : bu.line = .idle)
    (shown : Option AdoptedSet) (takePace : Pace) : (bu.makeTake p shown takePace).Sound p := by
  simp only [Bu.makeTake]
  split
  next => exact sound
  next g first =>
    have requests := Bu.firstRequesting_requests first
    obtain ⟨-, groups⟩ := bu.chooseText_frame p shown g
    obtain ⟨lists, slots, banner, held, quiet⟩ := sound.chooseText shown g
    have none_held (h : Group) : bu.group h ≠ .held := by
      rw [Ne, sound.held h, idle]
      simp
    generalize bu.chooseText p shown g = chosen at *
    have group (h : Group) (x : LineState) (b : Option Banner) :
        Bu.group { chosen.1.setGroup g .held with line := x, banner := b } h =
          if h = g then .held else bu.group h := by
      have same : Bu.group { chosen.1.setGroup g .held with line := x, banner := b } h =
          (chosen.1.setGroup g .held).group h := by cases h <;> rfl
      rw [same, Bu.setGroup_group, groups]
    refine ⟨fun h => ?_, ?_, by simp, fun h => ?_, fun h off => ?_⟩
    · have := lists h
      cases g <;> cases h <;> exact this
    · cases g <;> exact slots
    · rw [group]
      split
      next e => simp [e]
      next other => simpa [none_held h] using fun e => other e.symm
    · rw [group, if_neg, ← groups]
      · exact quiet h off
      · rintro rfl
        have := quiet h off
        rw [groups, requests] at this
        exact nomatch this
  
theorem Bu.Sound.paceStep {bu : Bu} {p : Profile} (sound : bu.Sound p) (shown : Option AdoptedSet) (p0 p1 : Pace) :
    (bu.paceStep p shown p0 p1).Sound p := by
  have ended := (sound.endShowing p1).endGap p1
  simp only [Bu.paceStep, Bu.boundary]
  split
  · split
    next idle => exact ended.discard.makeTake idle shown _
    next => exact ended.discard
  · exact ended

/-! ### Every step -/

section
variable {s : State}

/-- What the banner invariant says beside the start-up invariant. -/
def State.BannerHeld (s : State) : Prop := s.bu.Sound s.prof ∧ (s.sc.node ≠ .run → s.bu.line = .idle)

theorem State.BannerHeld.stands {t : State} (held : s.BannerHeld) (bu : t.bu = s.bu) (sc : t.sc = s.sc) :
    t.BannerHeld := by
  unfold State.BannerHeld State.prof
  rwa [bu, sc]

theorem State.bannerHeld_of_reset {t : State} (bu : t.bu = Bu.reset) : t.BannerHeld := by
  unfold State.BannerHeld
  rw [bu]
  exact ⟨Bu.reset_sound _, fun _ => rfl⟩

/-- The effects of a work keep the banners (R47). -/
theorem State.BannerHeld.takeEffects (held : s.BannerHeld) (fx : Effect) : (s.takeEffects fx).BannerHeld := by
  obtain ⟨sound, idle⟩ := held
  unfold State.BannerHeld State.prof
  rw [State.takeEffects_bu]
  simpa using ⟨sound.takeAll fx.messages, idle⟩

theorem State.BannerHeld.changePace (held : s.BannerHeld) (q : Pace) : (s.changePace q).BannerHeld := by
  simp only [State.changePace]
  split
  next run => exact ⟨held.1.paceStep _ _ _, fun not_run => absurd run not_run⟩
  next => exact held

theorem State.BannerHeld.adoptPace (held : s.BannerHeld) (q : Pace) : (s.adoptPace q).BannerHeld := by
  unfold State.adoptPace
  split
  · exact held.changePace q
  · exact held

theorem State.BannerHeld.applyStaff (held : s.BannerHeld) (body : List Byte) : (s.applyStaff body).BannerHeld := by
  unfold State.applyStaff
  split
  · exact ⟨held.1.staff _ _ _, fun not_run => by simpa using held.2 not_run⟩
  · exact held.stands (by simp) (by simp)

theorem State.StartupSound.bu_reset (sound : s.StartupSound) (starting : s.starting) : s.bu = Bu.reset := by
  obtain ⟨-, -, -, -, -, bu, -⟩ := sound.blocksAtReset starting
  exact bu

end

/-- Every command keeps what the banner invariant says beside the start-up invariant. -/
theorem Act.keeps_banner {s t : State} {i : Instr} (startup : s.StartupSound) (held : s.BannerHeld)
    (act : Act s i t) : t.BannerHeld := by
  have load {u : State} (inLoad : s.sc.node = .load) (bu : u.bu = s.bu) : u.BannerHeld :=
    State.bannerHeld_of_reset (bu.trans (startup.bu_reset (Or.inr inLoad)))
  cases act with
  | coldReset => exact State.bannerHeld_of_reset rfl
  | beginLoad node reset => exact State.bannerHeld_of_reset (startup.bu_reset (Or.inl reset))
  | skipLoad node reset => exact State.bannerHeld_of_reset (by simpa using startup.bu_reset (Or.inl reset))
  | profileByte a b inLoad => exact load inLoad (by simp)
  | fontByte a b inLoad => exact load inLoad (by simp)
  | profileTimeout a inLoad => exact load inLoad (by simp)
  | fontTimeout a inLoad => exact load inLoad (by simp)
  | enterRun =>
    have bu : s.enterRun.bu = s.bu := by simp
    have prof : s.enterRun.prof = s.prof := by simp [State.prof]
    exact ⟨by rw [bu, prof]; exact held.1, fun not_run => absurd s.enterRun_node not_run⟩
  | apply i c work =>
    exact (held.takeEffects (s.tb.withNote c work)).stands (by simp [State.completeApply])
      (by simp [State.completeApply])
  | expiryWork i fx =>
    exact (held.takeEffects fx).stands (by simp [State.completeExpiry]) (by simp [State.completeExpiry])
  | paceTick => exact held.changePace _
  | boardNotice i k c =>
    exact (held.adoptPace (paceAt c.body 1)).stands (t := s.takeBoardNotice k c) (by simp [State.takeBoardNotice])
      (by simp [State.takeBoardNotice])
  | staff c =>
    have noted : (s.directNote c).BannerHeld := held.stands (by simp) (by simp)
    exact (noted.applyStaff c.body).stands (by simp) (by simp)
  | restart => exact State.bannerHeld_of_reset rfl
  | _ => exact held.stands (by simp) (by simp)

/-- Settles O12: the start-up invariant, messages, STAFF and pace steps, and the commands that leave the banners. -/
theorem bannerInvariantKept : Obligations.BannerInvariantKept := by
  refine fun _ _ sound stepped => step_keeps (P := State.BannerSound) (fun _ _ h => h) ?_ sound stepped
  intro s t i sound act
  obtain ⟨startup, held⟩ := s.bannerSound_iff.1 sound
  exact t.bannerSound_iff.2 ⟨act.keeps_startup startup, act.keeps_banner startup held⟩

end Sys2Proof.Machine
end

