-- ==== Sys2Proof/Proofs/AgreementInvariant.lean ====
section
/-! SUPPORT. Every step keeps the agreement invariant. Its parts are what holds in every agreement state (peers, the
composed digest, the swap buffer) and what each agreement state asks for. -/

namespace Sys2Proof.Machine

/-! ### The parts of the invariant -/

/-- What holds in every agreement state (R115, R119, R120, R122). -/
structure State.Based (s : State) : Prop where
  length : s.au.peers.length = 8
  peers : ∀ q ∈ s.au.peers, q.Sound
  live : ∀ i, (s.au.peer i).live = true → s.prof.isPeer i = true
  composed : s.au.composedDigest.isSome = true → s.au.ownProposal.isSome = true ∧
    s.co.composed.map (fun c => c.digest) = s.au.composedDigest
  swap : s.pa.swapPending = s.au.swapBuffer.isSome
  shown : s.au.shownDigest = (s.au.swapBuffer.or s.au.shown).map fun x => x.digest

/-- What the agreement states ask for (R119, R125, R126, R128). -/
structure State.Staged (s : State) : Prop where
  empty : s.au.agreement = .empty → s.au.swapBuffer = none ∧ s.au.shown = none ∧ s.au.shownDigest = none
  listen : s.sc.node = .listen → s.au.agreement = .empty ∧ s.au.composedDigest = none
  timer : s.au.agreementTimer = true ↔ s.au.agreement = .pending
  adopted : s.au.agreement = .agreed ∨ s.au.agreement = .diverged → s.au.shownDigest.isSome = true
  taken : s.au.agreement ≠ .empty → s.au.composedDigest.isSome = true
  alone : s.prof.segmentCount = 1 → s.au.agreement = .empty ∨ s.au.agreement = .agreed

theorem State.agreementSound_iff (s : State) : s.AgreementSound ↔ s.StartupSound ∧ s.Based ∧ s.Staged := by
  constructor
  · rintro ⟨startup, h1, h2, h3, h4, h5, h6, h7, h8, h9, h10, h11, h12⟩
    exact ⟨startup, ⟨h1, h2, h3, h9, h11, h12⟩, ⟨h4, h5, h6, h7, h8, h10⟩⟩
  · rintro ⟨startup, ⟨h1, h2, h3, h9, h11, h12⟩, ⟨h4, h5, h6, h7, h8, h10⟩⟩
    exact ⟨startup, h1, h2, h3, h4, h5, h6, h7, h8, h9, h10, h11, h12⟩

/-- Between `s` and `t` stands what the agreement invariant speaks of. -/
structure AgreementStands (s t : State) : Prop where
  node : t.sc.node = s.sc.node
  profile : t.sc.profile = s.sc.profile
  peers : t.au.peers = s.au.peers
  agreement : t.au.agreement = s.au.agreement
  composedDigest : t.au.composedDigest = s.au.composedDigest
  ownProposal : t.au.ownProposal = s.au.ownProposal
  agreementTimer : t.au.agreementTimer = s.au.agreementTimer
  swapBuffer : t.au.swapBuffer = s.au.swapBuffer
  shown : t.au.shown = s.au.shown
  shownDigest : t.au.shownDigest = s.au.shownDigest
  composed : t.co.composed = s.co.composed
  swapPending : t.pa.swapPending = s.pa.swapPending

section
variable {s t : State}

theorem AgreementStands.prof (stands : AgreementStands s t) : t.prof = s.prof := by
  unfold State.prof
  rw [stands.profile]

theorem AgreementStands.peer (stands : AgreementStands s t) (i : Nat) : t.au.peer i = s.au.peer i := by
  unfold Au.peer
  rw [stands.peers]

theorem AgreementStands.based (stands : AgreementStands s t) (based : s.Based) : t.Based where
  length := stands.peers ▸ based.length
  peers := stands.peers ▸ based.peers
  live i := by
    rw [stands.peer, stands.prof]
    exact based.live i
  composed := by
    rw [stands.composedDigest, stands.ownProposal, stands.composed]
    exact based.composed
  swap := by rw [stands.swapPending, stands.swapBuffer, based.swap]
  shown := by rw [stands.shownDigest, stands.swapBuffer, stands.shown, based.shown]

theorem AgreementStands.staged (stands : AgreementStands s t) (staged : s.Staged) : t.Staged where
  empty := by
    rw [stands.agreement, stands.swapBuffer, stands.shown, stands.shownDigest]
    exact staged.empty
  listen := by
    rw [stands.node, stands.agreement, stands.composedDigest]
    exact staged.listen
  timer := by
    rw [stands.agreementTimer, stands.agreement]
    exact staged.timer
  adopted := by
    rw [stands.agreement, stands.shownDigest]
    exact staged.adopted
  taken := by
    rw [stands.agreement, stands.composedDigest]
    exact staged.taken
  alone := by
    rw [stands.prof, stands.agreement]
    exact staged.alone

/-- What the agreement invariant says beside the start-up invariant. -/
def State.AgreementHeld (s : State) : Prop := s.Based ∧ s.Staged

theorem AgreementStands.held (stands : AgreementStands s t) (held : s.AgreementHeld) : t.AgreementHeld :=
  ⟨stands.based held.1, stands.staged held.2⟩

end

/-! ### Reset values -/

/-- The Agreement Unit holds its reset values but for the pace, its timer and the sent flag (R136, R138). -/
structure Au.Fresh (au : Au) : Prop where
  peers : au.peers = List.replicate 8 .absent
  agreement : au.agreement = .empty
  composedDigest : au.composedDigest = none
  agreementTimer : au.agreementTimer = false
  swapBuffer : au.swapBuffer = none
  shown : au.shown = none
  shownDigest : au.shownDigest = none

theorem Au.Fresh.agreementHeld {s : State} (fresh : s.au.Fresh) (swap : s.pa.swapPending = false) :
    s.AgreementHeld := by
  obtain ⟨peers, agreement, composedDigest, timer, swapBuffer, shown, shownDigest⟩ := fresh
  constructor
  · refine ⟨by rw [peers, List.length_replicate], fun q member => ?_, fun i live => ?_, fun taken => ?_, ?_, ?_⟩
    · rw [peers] at member
      rw [List.eq_of_mem_replicate member]
      exact ⟨(nomatch ·), rfl, fun _ => ⟨rfl, rfl⟩⟩
    · rw [Au.peer, peers, absent_getD_live] at live
      exact nomatch live
    · rw [composedDigest] at taken
      exact nomatch taken
    · rw [swap, swapBuffer]
      rfl
    · rw [shownDigest, swapBuffer, shown]
      rfl
  · refine ⟨fun _ => ⟨swapBuffer, shown, shownDigest⟩, fun _ => ⟨agreement, composedDigest⟩, ?_, ?_, ?_,
      fun _ => Or.inl agreement⟩
    · simp [timer, agreement]
    · simp [agreement]
    · exact fun other => absurd agreement other

theorem Au.reset_fresh : Au.reset.Fresh := ⟨rfl, rfl, rfl, rfl, rfl, rfl, rfl⟩

theorem Au.restart_fresh : Au.restart.Fresh := ⟨rfl, rfl, rfl, rfl, rfl, rfl, rfl⟩

theorem State.StartupSound.au_reset {s : State} (sound : s.StartupSound) (starting : s.starting) :
    s.au = Au.reset := by
  obtain ⟨-, -, -, au, -⟩ := sound.blocksAtReset starting
  exact au

theorem State.StartupSound.swapPending {s : State} (sound : s.StartupSound) (starting : s.starting) :
    s.pa.swapPending = false := by
  obtain ⟨-, -, -, swap, -⟩ := sound.paAtReset starting
  exact swap

/-! ### The swap (R122) -/

/-- A swap shows the set in the swap buffer. -/
theorem State.AgreementHeld.swap {s : State} (held : s.AgreementHeld) : s.swap.AgreementHeld := by
  unfold State.swap
  split
  next pending =>
    obtain ⟨⟨length, peers, live, composed, swap, shown⟩, ⟨empty, listen, timer, adopted, taken, alone⟩⟩ := held
    obtain ⟨x, buffer⟩ := Option.isSome_iff_exists.1 (swap.symm.trans pending)
    have not_empty : s.au.agreement ≠ .empty := by
      intro e
      obtain ⟨none, -⟩ := empty e
      exact nomatch none.symm.trans buffer
    refine ⟨⟨length, peers, live, composed, rfl, ?_⟩, ⟨fun e => absurd e not_empty, listen, timer, adopted, taken,
      alone⟩⟩
    simpa [buffer] using shown
  next => exact held

theorem State.swap_idle {s : State} (none : s.pa.swapPending = false) : s.swap = s := by
  unfold State.swap
  rw [none]
  rfl

/-- The end of LOAD leaves a fresh Agreement Unit (R137). -/
theorem State.endLoad_fresh {s : State} (fresh : s.au.Fresh) (swap : s.pa.swapPending = false) :
    s.endLoad.au.Fresh ∧ s.endLoad.pa.swapPending = false := by
  have none : s.takeUp.enterListen.pa.swapPending = false := by simpa using swap
  rw [State.endLoad, State.frameStart, State.swap_idle none]
  obtain ⟨h1, h2, h3, h4, h5, h6, h7⟩ := fresh
  exact ⟨⟨h1, h2, h3, h4, h5, h6, h7⟩, none⟩

theorem State.endLoad_agreementHeld {s : State} (fresh : s.au.Fresh) (swap : s.pa.swapPending = false) :
    s.endLoad.AgreementHeld := by
  obtain ⟨fresh, swap⟩ := State.endLoad_fresh fresh swap
  exact fresh.agreementHeld swap

theorem State.readFontByte_agreementHeld {s : State} (fresh : s.au.Fresh) (swap : s.pa.swapPending = false)
    (a : Nat) (b : Byte) : (s.readFontByte a b).AgreementHeld := by
  simp only [State.readFontByte]
  split
  · exact State.endLoad_agreementHeld fresh swap
  · split
    · split
      · exact State.endLoad_agreementHeld fresh swap
      · exact State.endLoad_agreementHeld fresh swap
    · exact Au.Fresh.agreementHeld (s := (s.setPa _).setSc _) fresh swap

/-! ### Agreement and adoption (R119, R120, R125 to R129) -/

/-- An agreement state is set, and nothing else of the Agreement Unit. -/
theorem State.setAgreement_stands (s : State) (x : AgreementState) :
    AgreementStands (s.setAu { s.au with agreement := x }) (s.setAgreement x) := by
  simp only [State.setAgreement]
  split
  · constructor <;> simp
  · constructor <;> rfl

section
variable {s : State}

/-- The segment index of the profile in force lies below its segment count (R191). -/
theorem State.StartupSound.prof_segments (sound : s.StartupSound) : s.prof.segmentIndex < s.prof.segmentCount := by
  unfold State.prof
  cases profile : s.sc.profile with
  | none => exact Nat.zero_lt_one
  | some p => exact (sound.segments p profile).1

/-- Only where there is a peer does the evaluation diverge (R119). -/
theorem Au.evaluation_diverged {au : Au} {p : Profile} (segments : p.segmentIndex < p.segmentCount)
    (diverged : au.evaluation p = .diverged) : p.segmentCount ≠ 1 := by
  intro alone
  have nobody (i : Nat) : au.considered p i = none := by
    have : p.isPeer i = false := by
      simp only [Profile.isPeer, decide_eq_false_iff_not]
      omega
    simp [Au.considered, this]
  unfold Au.evaluation at diverged
  split at diverged
  · exact nomatch diverged
  · simp [Au.allHold, nobody] at diverged

theorem Au.evaluation_cases (au : Au) (p : Profile) : au.evaluation p = .agreed ∨ au.evaluation p = .diverged := by
  unfold Au.evaluation
  split
  · exact Or.inl rfl
  · split
    · exact Or.inl rfl
    · exact Or.inr rfl

/-- AGREED or DIVERGED is entered where a set has been adopted. -/
theorem State.Based.setAgreement (based : s.Based) {x : AgreementState} (adopted : s.au.shownDigest.isSome = true)
    (taken : s.au.composedDigest.isSome = true) (timer : s.au.agreementTimer = false)
    (settles : x = .agreed ∨ (x = .diverged ∧ s.prof.segmentCount ≠ 1)) (not_listen : s.sc.node ≠ .listen) :
    (s.setAgreement x).AgreementHeld := by
  have not_pending : x ≠ .pending := by rcases settles with rfl | ⟨rfl, -⟩ <;> simp
  have not_empty : x ≠ .empty := by rcases settles with rfl | ⟨rfl, -⟩ <;> simp
  refine (s.setAgreement_stands x).held ⟨?_, ⟨fun e => absurd e not_empty, fun h => absurd h not_listen, ?_,
    fun _ => adopted, fun _ => taken, fun alone => ?_⟩⟩
  · obtain ⟨length, peers, live, composed, swap, shown⟩ := based
    exact ⟨length, peers, live, composed, swap, shown⟩
  · show s.au.agreementTimer = true ↔ x = .pending
    simp [timer, not_pending]
  · rcases settles with rfl | ⟨-, several⟩
    · exact Or.inr rfl
    · exact absurd alone several

/-- The evaluation of agreement where a set has been adopted (R119). -/
theorem State.Based.evaluate (based : s.Based) (segments : s.prof.segmentIndex < s.prof.segmentCount) (adopted : s.au.shownDigest.isSome = true)
    (taken : s.au.composedDigest.isSome = true) (timer : s.au.agreementTimer = false)
    (not_listen : s.sc.node ≠ .listen) {au : Au} : (s.setAgreement (au.evaluation s.prof)).AgreementHeld := by
  refine based.setAgreement adopted taken timer ?_ not_listen
  rcases au.evaluation_cases s.prof with agreed | diverged
  · exact Or.inl agreed
  · exact Or.inr ⟨diverged, Au.evaluation_diverged segments diverged⟩

/-- An adoption places the composed set in the swap buffer (R120). -/
theorem State.Based.adopt (based : s.Based) (taken : s.au.composedDigest.isSome = true) (origin : Pace) :
    (s.adopt origin).Based ∧ (s.adopt origin).au.shownDigest.isSome = true := by
  obtain ⟨length, peers, live, composed, swap, shown⟩ := based
  obtain ⟨proposal, digests⟩ := composed taken
  unfold State.adopt
  split
  next none =>
    rw [none, Option.map_none] at digests
    rw [← digests] at taken
    exact nomatch taken
  next c some => exact ⟨⟨length, peers, live, composed, rfl, rfl⟩, rfl⟩

/-- The check for adoption in PENDING (R127). -/
theorem State.AgreementHeld.checkAdoption (held : s.AgreementHeld) : s.checkAdoption.AgreementHeld := by
  unfold State.checkAdoption
  split
  next due =>
    obtain ⟨based, empty, listen, timer, adopted, taken, alone⟩ := held
    obtain ⟨pending, -⟩ := due
    have taken : s.au.composedDigest.isSome = true := taken (by simp [pending])
    obtain ⟨⟨length, peers, live, composed, swap, shown⟩, adopted⟩ := based.adopt taken (s.au.agreedOrigin s.prof)
    refine ⟨⟨length, peers, live, composed, swap, shown⟩, ⟨(nomatch ·), ?_, ?_, fun _ => adopted, fun _ => ?_,
      fun _ => Or.inr rfl⟩⟩
    · intro inListen
      have : s.au.agreement = .empty := (listen (by simpa using inListen)).1
      exact absurd (pending.symm.trans this) (by decide)
    · simp
    · simpa using taken
  next => exact held

variable (segments : s.prof.segmentIndex < s.prof.segmentCount) (held : s.AgreementHeld)
include segments held

/-- Where AGREED or DIVERGED holds, the evaluation may be taken again. -/
theorem State.AgreementHeld.reevaluate (settled : s.au.agreement = .agreed ∨ s.au.agreement = .diverged) :
    (s.setAgreement (s.au.evaluation s.prof)).AgreementHeld := by
  obtain ⟨based, empty, listen, timer, adopted, taken, alone⟩ := held
  have not_empty : s.au.agreement ≠ .empty := by rcases settled with h | h <;> simp [h]
  refine based.evaluate segments (adopted settled) (taken not_empty) ?_ fun h => not_empty (listen h).1
  rw [← Bool.not_eq_true, timer]
  rcases settled with h | h <;> simp [h]

theorem State.AgreementHeld.afterDigest : s.agreementAfterDigest.AgreementHeld := by
  unfold State.agreementAfterDigest
  split
  next => exact held
  next => exact held.checkAdoption
  next agreed =>
    split
    next => exact held
    next => exact held.reevaluate segments (Or.inl agreed)
  next diverged => exact held.reevaluate segments (Or.inr diverged)

theorem State.AgreementHeld.afterExpiry : s.agreementAfterExpiry.AgreementHeld := by
  unfold State.agreementAfterExpiry
  split
  next => exact held
  next => exact held.checkAdoption
  next => exact held
  next diverged => exact held.reevaluate segments (Or.inr diverged)

/-- The rule of one segment (R126). -/
theorem State.AgreementHeld.alone (taken : s.au.composedDigest.isSome = true) (not_listen : s.sc.node ≠ .listen)
    (one : s.prof.segmentCount = 1) (d : Digest) : (s.agreeAlone d).AgreementHeld := by
  simp only [State.agreeAlone]
  split
  · obtain ⟨based, empty, listen, timer, adopted, -, alone⟩ := held
    obtain ⟨⟨length, peers, live, composed, swap, shown⟩, adopted⟩ := based.adopt taken s.au.ownOrigin
    have stopped : s.au.agreementTimer = false := by
      rw [← Bool.not_eq_true, timer]
      rcases alone one with h | h <;> simp [h]
    refine ⟨⟨length, peers, live, composed, swap, shown⟩, ⟨(nomatch ·), ?_, ?_, fun _ => adopted, fun _ => ?_,
      fun _ => Or.inr rfl⟩⟩
    · exact fun h => absurd (by simpa using h) not_listen
    · simpa using stopped
    · simpa using taken
  · exact held

omit segments in
/-- PENDING is entered with its timer (R125). -/
theorem State.AgreementHeld.pend (taken : s.au.composedDigest.isSome = true) (not_listen : s.sc.node ≠ .listen)
    (several : s.prof.segmentCount ≠ 1) :
    (s.setAu { s.au with agreement := .pending, agreementTimer := true }).AgreementHeld := by
  obtain ⟨⟨length, peers, live, composed, swap, shown⟩, -⟩ := held
  exact ⟨⟨length, peers, live, composed, swap, shown⟩, ⟨(nomatch ·), fun h => absurd h not_listen, by simp,
    by simp, fun _ => taken, fun one => absurd one several⟩⟩

/-- The rule of 2 to 8 segments (R125). -/
theorem State.AgreementHeld.withPeers (taken : s.au.composedDigest.isSome = true)
    (not_listen : s.sc.node ≠ .listen) (several : s.prof.segmentCount ≠ 1) (d : Digest) :
    (s.agreeWithPeers d).AgreementHeld := by
  have pends := (held.pend taken not_listen several).checkAdoption
  unfold State.agreeWithPeers
  split
  next pending =>
    split
    next same =>
      obtain ⟨⟨length, peers, live, composed, swap, shown⟩, -⟩ := held
      refine State.Based.evaluate (s := s.setAu { s.au with agreementTimer := false })
        ⟨length, peers, live, composed, swap, shown⟩ segments ?_ taken rfl not_listen
      show s.au.shownDigest.isSome = true
      rw [same]
      rfl
    next => exact held.checkAdoption
  next => exact pends
  next agreed =>
    split
    next => exact held.reevaluate segments (Or.inl agreed)
    next => exact pends
  next diverged =>
    split
    next => exact held.reevaluate segments (Or.inr diverged)
    next => exact pends

/-- A compose completion taken in RUN (R124): the composed digest is that of the set just completed. -/
theorem State.AgreementHeld.takeCompletion {t : State} (c : ComposedSet) (run : s.sc.node = .run)
    (composed : t.co.composed = some c) (sc : t.sc = s.sc) (au : t.au = s.au) (pa : t.pa = s.pa) :
    (t.takeCompletion c).AgreementHeld := by
  obtain ⟨⟨length, peers, live, -, swap, shown⟩, empty, listen, timer, adopted, taken, alone⟩ := held
  have prof : t.prof = s.prof := by
    unfold State.prof
    rw [sc]
  have not_listen : s.sc.node ≠ .listen := by simp [run]
  let u := (t.setAu { t.au with
    composedDigest := some c.digest
    ownProposal := some (t.au.pace + BitVec.ofNat 32 t.prof.leadIn) }).offer
    (.digest t.prof.segmentIndex c.number c.digest (t.au.pace + BitVec.ofNat 32 t.prof.leadIn) c.rowCount c.boardWidth)
  have uSc : u.sc = s.sc := by simp [u, sc]
  have uProf : u.prof = s.prof := by
    unfold State.prof
    rw [uSc]
  have uAu : u.au = { s.au with
      composedDigest := some c.digest
      ownProposal := some (s.au.pace + BitVec.ofNat 32 s.prof.leadIn) } := by simp [u, au, prof]
  have uPa : u.pa = s.pa := by simp [u, pa]
  have uCo : u.co.composed = some c := by simp [u, composed]
  have held : u.AgreementHeld := by
    constructor
    · refine ⟨?_, ?_, fun i => ?_, fun _ => ?_, ?_, ?_⟩
      · rw [uAu]; exact length
      · rw [uAu]; exact peers
      · rw [uAu, uProf]; exact live i
      · rw [uAu, uCo]; exact ⟨rfl, rfl⟩
      · rw [uAu, uPa]; exact swap
      · rw [uAu]; exact shown
    · refine ⟨?_, ?_, ?_, ?_, fun _ => ?_, ?_⟩
      · rw [uAu]; exact empty
      · rw [uSc]; exact fun h => absurd h not_listen
      · rw [uAu]; exact timer
      · rw [uAu]; exact adopted
      · rw [uAu]; rfl
      · rw [uProf, uAu]; exact alone
  have taken : u.au.composedDigest.isSome = true := by
    rw [uAu]
    rfl
  have not_listen : u.sc.node ≠ .listen := by rwa [uSc]
  have segments : u.prof.segmentIndex < u.prof.segmentCount := by rwa [uProf]
  show (if t.prof.segmentCount = 1 then u.agreeAlone c.digest else u.agreeWithPeers c.digest).AgreementHeld
  rw [prof]
  split
  next one => exact held.alone segments taken not_listen (by rwa [uProf]) c.digest
  next several => exact held.withPeers segments taken not_listen (by rwa [uProf]) c.digest

/-- The completion of a pass in LISTEN or RUN (R95, R123). -/
theorem State.AgreementHeld.completePass (started : s.started) : s.completePass.AgreementHeld := by
  simp only [State.completePass]
  split
  next run =>
    split
    · exact held.takeCompletion segments _ run (by simp) (by simp) (by simp) (by simp)
    · exact held.takeCompletion segments _ run (by simp) (by simp) (by simp) (by simp)
  next not_run =>
    have listens : s.sc.node = .listen := started.resolve_right not_run
    have unheard {u : State} (au : u.au = s.au) (pa : u.pa = s.pa) (sc : u.sc = s.sc) : u.AgreementHeld := by
      obtain ⟨⟨length, peers, live, -, swap, shown⟩, staged⟩ := held
      obtain ⟨empty, listen, timer, adopted, taken, alone⟩ := staged
      have prof : u.prof = s.prof := by
        unfold State.prof
        rw [sc]
      obtain ⟨-, none⟩ := listen listens
      constructor
      · refine ⟨?_, ?_, fun i => ?_, fun taken => ?_, ?_, ?_⟩
        · rw [au]; exact length
        · rw [au]; exact peers
        · rw [au, prof]; exact live i
        · rw [au, none] at taken; exact nomatch taken
        · rw [au, pa]; exact swap
        · rw [au]; exact shown
      · refine ⟨?_, ?_, ?_, ?_, ?_, ?_⟩
        · rw [au]; exact empty
        · rw [sc, au]; exact listen
        · rw [au]; exact timer
        · rw [au]; exact adopted
        · rw [au]; exact taken
        · rw [prof, au]; exact alone
    split
    · exact unheard (by simp) (by simp) (by simp)
    · exact unheard rfl rfl rfl

end

/-! ### Peers (R115 to R118) -/

section
variable {s : State}

/-- A peer entry is replaced by a sound one, LIVE only where it is a peer's. -/
theorem State.AgreementHeld.setPeer (held : s.AgreementHeld) (i : Nat) {q : Peer} (sound : q.Sound)
    (peer : q.live = true → s.prof.isPeer i = true) :
    (s.setAu { s.au with peers := s.au.peers.set i q }).AgreementHeld := by
  obtain ⟨⟨length, peers, live, composed, swap, shown⟩, ⟨empty, listen, timer, adopted, taken, alone⟩⟩ := held
  refine ⟨⟨by simpa using length, fun x member => ?_, fun j => ?_, composed, swap, shown⟩,
    ⟨empty, listen, timer, adopted, taken, alone⟩⟩
  · obtain member | rfl := List.mem_or_eq_of_mem_set member
    · exact peers x member
    · exact sound
  · simp only [Au.peer, State.setAu_au, List.getD_eq_getElem?_getD, List.getElem?_set]
    split
    next same =>
      subst same
      split
      · exact peer
      · exact (nomatch ·)
    next =>
      intro lives
      exact live j (by simpa [Au.peer] using lives)

theorem Peer.update_sound {q : Peer} (sound : q.Sound) (sender : Nat) (digest : Option (Digest × Pace)) :
    (q.update sender digest).Sound := by
  obtain ⟨-, both, -⟩ := sound
  cases digest with
  | none => exact ⟨fun _ => rfl, both, (nomatch ·)⟩
  | some x => exact ⟨fun _ => rfl, rfl, (nomatch ·)⟩

theorem Peer.expire_sound (q : Peer) : q.expire.Sound := ⟨(nomatch ·), rfl, fun _ => ⟨rfl, rfl⟩⟩

theorem State.Based.peer_sound (based : s.Based) (i : Nat) : (s.au.peer i).Sound := by
  unfold Au.peer
  rw [List.getD_eq_getElem?_getD]
  cases at_ : s.au.peers[i]? with
  | none => exact ⟨(nomatch ·), rfl, fun _ => ⟨rfl, rfl⟩⟩
  | some q => exact based.peers q (List.mem_of_getElem? at_)

/-- What is no clash comes from a peer's segment index (R116). -/
theorem State.isPeer_of_not_clash {i sender : Nat} (clear : s.isClash i sender = false) : s.prof.isPeer i = true := by
  simp only [State.isClash, decide_eq_false_iff_not, not_or, Nat.not_le] at clear
  simp only [Profile.isPeer, decide_eq_true_eq]
  exact ⟨clear.2.1, clear.1⟩

theorem State.AgreementHeld.judge (held : s.AgreementHeld) (segments : s.prof.segmentIndex < s.prof.segmentCount)
    (k : NoticeKind) (sender : Nat) (body : List Byte) : (s.judgeBoardNotice k sender body).AgreementHeld := by
  have raised (r : ReportKind) : (s.raise r).AgreementHeld := by
    refine AgreementStands.held ?_ held
    constructor <;> simp
  simp only [State.judgeBoardNotice]
  split
  next => exact raised _
  next =>
    split
    next => exact raised _
    next clear =>
      have updated := held.setPeer (num1 body 0)
        (Peer.update_sound (held.1.peer_sound (num1 body 0)) sender (if k = .digest then some (digestFields body) else none))
        fun _ => State.isPeer_of_not_clash (eq_false_of_ne_true clear)
      split
      · exact updated.afterDigest segments
      · exact updated

end

/-! ### Every step -/

/-- Every command keeps what the agreement invariant says beside the start-up invariant. -/
theorem Act.keeps_agreement {s t : State} {i : Instr} (startup : s.StartupSound) (held : s.AgreementHeld)
    (act : Act s i t) : t.AgreementHeld := by
  have segments := startup.prof_segments
  have fresh (starting : s.starting) : s.au.Fresh ∧ s.pa.swapPending = false :=
    ⟨startup.au_reset starting ▸ Au.reset_fresh, startup.swapPending starting⟩
  cases act with
  | idle => exact held
  | coldReset => exact Au.reset_fresh.agreementHeld rfl
  | beginLoad node reset =>
    obtain ⟨fresh, swap⟩ := fresh (Or.inl reset)
    exact Au.Fresh.agreementHeld (s := s.setSc _) fresh swap
  | skipLoad node reset =>
    obtain ⟨fresh, swap⟩ := fresh (Or.inl reset)
    exact State.endLoad_agreementHeld (by simpa using fresh) (by simpa using swap)
  | profileByte a b load =>
    obtain ⟨fresh, swap⟩ := fresh (Or.inr load)
    exact Au.Fresh.agreementHeld (by simpa using fresh) (by simpa using swap)
  | fontByte a b load =>
    obtain ⟨fresh, swap⟩ := fresh (Or.inr load)
    exact State.readFontByte_agreementHeld fresh swap a b
  | profileTimeout a load =>
    obtain ⟨fresh, swap⟩ := fresh (Or.inr load)
    exact Au.Fresh.agreementHeld (by simpa using fresh) (by simpa using swap)
  | fontTimeout a load =>
    obtain ⟨fresh, swap⟩ := fresh (Or.inr load)
    exact State.endLoad_agreementHeld (by simpa using fresh) (by simpa using swap)
  | enterRun listen =>
    obtain ⟨⟨length, peers, live, composed, swap, shown⟩, ⟨empty, listen, timer, adopted, taken, alone⟩⟩ := held
    have inRun : s.inRun.AgreementHeld := ⟨⟨length, peers, live, composed, swap, shown⟩,
      ⟨empty, (nomatch ·), timer, adopted, taken, alone⟩⟩
    refine AgreementStands.held ?_ inRun
    constructor <;> simp [State.enterRun, State.inRun]
  | composeComplete digesting =>
    obtain same | started := Act.started (.composeComplete digesting) startup (nomatch ·)
    · exact (congrArg State.AgreementHeld same).mpr held
    · refine AgreementStands.held ?_ (held.completePass segments started)
      constructor <;> simp
  | boardNotice i k c takes delivered =>
    have paced : (s.adoptPace (paceAt c.body 1)).AgreementHeld := by
      refine AgreementStands.held ?_ held
      constructor <;> simp
    have judged := paced.judge (by simpa [State.prof] using segments) k c.sender c.body
    refine AgreementStands.held ?_ judged
    constructor <;> simp [State.takeBoardNotice]
  | peerExpiryRun index =>
    exact (held.setPeer index (Peer.expire_sound _) (nomatch ·)).afterExpiry segments
  | peerExpiryElse index => exact held.setPeer index (Peer.expire_sound _) (nomatch ·)
  | agreementTimeout timer pending =>
    obtain ⟨based, empty, listen, timer, adopted, taken, alone⟩ := held
    obtain ⟨length, peers, live, composed, swap, shown⟩ := based
    have taken : s.au.composedDigest.isSome = true := taken (by simp [pending])
    obtain ⟨based, adopted⟩ := State.Based.adopt (s := s.setAu { s.au with agreementTimer := false })
      ⟨length, peers, live, composed, swap, shown⟩ taken s.au.ownOrigin
    refine based.setAgreement adopted (by simpa using taken) (by simp) (Or.inr ⟨rfl, ?_⟩) ?_
    · intro one
      have := alone (by simpa [State.prof] using one)
      simp [pending] at this
    · intro inListen
      have := (listen (by simpa using inListen)).1
      exact absurd (pending.symm.trans this) (by decide)
  | agreementTimerStops timer not_pending =>
    exact absurd (held.2.timer.1 timer) not_pending
  | frameEvent =>
    refine AgreementStands.held ?_ held.swap
    constructor <;> simp [State.frameStart]
  | restart => exact Au.restart_fresh.agreementHeld rfl
  | _ =>
    refine AgreementStands.held ?_ held
    constructor <;> simp

/-- Settles O11: the peers, the adoptions and the agreement states, rule by rule. -/
theorem agreementInvariantKept : Obligations.AgreementInvariantKept := by
  refine fun _ _ sound stepped => step_keeps (P := State.AgreementSound) (fun _ _ h => h) ?_ sound stepped
  intro s t i sound act
  obtain ⟨startup, held⟩ := s.agreementSound_iff.1 sound
  exact t.agreementSound_iff.2 ⟨act.keeps_startup startup, act.keeps_agreement startup held⟩

end Sys2Proof.Machine
end

