-- ==== Sys2Proof/Proofs/TablesInvariant.lean ====
section
/-! SUPPORT. Every step keeps the invariant of the tables: the works one by one on services and stop pool, refusal
list, names, feeders and station time, and the commands that leave the tables. -/

namespace Sys2Proof.Machine

/-! ### Services and the stop pool (R39 to R42, R60) -/

/-- The cells of the calling chains of a list of services. -/
def chainCells (l : List Service) : List Nat := l.flatMap fun v => v.chain

theorem chainCells_cons (v : Service) (l : List Service) : chainCells (v :: l) = v.chain ++ chainCells l := rfl

/-- An entry put in the place of the entry of its number: number by number the table stands. -/
theorem putService_numbers {v old : Service} : ∀ {l : List Service},
    l.find? (fun w => w.number == v.number) = some old → (putService v l).map (fun w => w.number) = l.map fun w => w.number
  | [], h => nomatch h
  | w :: rest, h => by
    by_cases same : w.number = v.number
    · simp [putService, same]
    · have later : rest.find? (fun w => w.number == v.number) = some old := by
        simpa [List.find?_cons, same] using h
      simp [putService, same, putService_numbers later]

/-- The chain of the entry put takes the place of the old one's. -/
theorem putService_cells {v old : Service} : ∀ {l : List Service},
    l.find? (fun w => w.number == v.number) = some old →
      (chainCells (putService v l) ++ old.chain).Perm (v.chain ++ chainCells l)
  | [], h => nomatch h
  | w :: rest, h => by
    by_cases same : w.number = v.number
    · have found : w = old := by simpa [List.find?_cons, same] using h
      subst found
      simp only [putService, if_pos same, chainCells_cons, List.append_assoc]
      exact List.perm_append_comm.append_left _
    · have later : rest.find? (fun w => w.number == v.number) = some old := by
        simpa [List.find?_cons, same] using h
      have ih := putService_cells later
      simp only [putService, if_neg same, chainCells_cons, List.append_assoc]
      refine (ih.append_left w.chain).trans ?_
      rw [← List.append_assoc, ← List.append_assoc]
      exact List.perm_append_comm.append_right _

/-- Without one of its services the table's chains lose that chain. -/
theorem filter_cells {v : Service} : ∀ {l : List Service}, v ∈ l → (l.map fun w => w.number).Nodup →
    (v.chain ++ chainCells (l.filter fun w => w.number ≠ v.number)).Perm (chainCells l)
  | w :: rest, member, distinct => by
    rw [List.map_cons, List.nodup_cons] at distinct
    obtain ⟨new, distinct⟩ := distinct
    obtain rfl | later := List.mem_cons.1 member
    · have whole : rest.filter (fun w => w.number ≠ v.number) = rest := by
        refine List.filter_eq_self.2 fun x stored => ?_
        have : x.number ≠ v.number := fun e => new (e ▸ List.mem_map_of_mem stored)
        simpa using this
      rw [List.filter_cons_of_neg (by simp), whole, chainCells_cons]
    · have other : w.number ≠ v.number := fun e => new (e ▸ List.mem_map_of_mem later)
      rw [List.filter_cons_of_pos (by simpa using other), chainCells_cons, chainCells_cons, ← List.append_assoc]
      refine (List.perm_append_comm.append_right _).trans ?_
      rw [List.append_assoc]
      exact (filter_cells later distinct).append_left _

section
variable {tb : Tb} (sound : tb.ServicesSound)
include sound

/-- The service table and the stop pool alone decide. -/
theorem Tb.ServicesSound.congr {b : Tb} (services : b.services = tb.services) (pool : b.pool = tb.pool) :
    b.ServicesSound := by
  unfold Tb.ServicesSound Tb.chained
  rw [services, pool]
  exact sound

/-- An entry with the chain of the one it replaces (R56, R59, R61). -/
theorem Tb.ServicesSound.put {old v : Service} (found : tb.find v.number = some old) (chain : v.chain = old.chain)
    (expected : v.status = .expected → v.expected.isSome = true) :
    Tb.ServicesSound { tb with services := putService v tb.services } := by
  obtain ⟨room, distinct, cells, perm, times⟩ := sound
  have numbers := putService_numbers found
  refine ⟨?_, numbers ▸ distinct, cells, ?_, fun w stored => ?_⟩
  · have := congrArg List.length numbers
    simp only [List.length_map] at this
    exact this ▸ room
  · have moved := putService_cells found
    rw [chain] at moved
    have same : (chainCells (putService v tb.services)).Perm (chainCells tb.services) :=
      (List.perm_append_left_iff old.chain).1 (List.perm_append_comm.trans moved)
    exact (same.append_left _).trans perm
  · obtain rfl | old := mem_putService stored
    · exact expected
    · exact times w old

theorem Tb.ServicesSound.drop {v : Service} (stored : v ∈ tb.services) : (tb.drop v).ServicesSound := by
  obtain ⟨room, distinct, cells, perm, times⟩ := sound
  have sub : (tb.services.filter fun w => w.number ≠ v.number).Sublist tb.services := List.filter_sublist
  refine ⟨Nat.le_trans sub.length_le room, (sub.map _).nodup distinct, cells, ?_, fun w kept => times w (sub.subset kept)⟩
  have chains := filter_cells stored distinct
  show ((v.chain ++ tb.pool.free) ++ chainCells (tb.services.filter fun w => w.number ≠ v.number)).Perm _
  refine List.Perm.trans ?_ perm
  refine (List.perm_append_comm.append_right _).trans ?_
  rw [List.append_assoc]
  exact chains.append_left _

theorem Tb.ServicesSound.drop_of_find {v : Service} {n : Nat} (found : tb.find n = some v) :
    (tb.drop v).ServicesSound := sound.drop (Tb.find_some found).1

/-- A list of services of distinct numbers is dropped one after another (R78). -/
theorem Tb.ServicesSound.dropAll {gone : List Service} (stored : ∀ v ∈ gone, v ∈ tb.services)
    (distinct : (gone.map fun v => v.number).Nodup) : (gone.foldl Tb.drop tb).ServicesSound := by
  induction gone generalizing tb with
  | nil => exact sound
  | cons v rest ih =>
    rw [List.map_cons, List.nodup_cons] at distinct
    obtain ⟨new, distinct⟩ := distinct
    refine ih (sound.drop (stored v List.mem_cons_self)) (fun w later => ?_) distinct
    refine List.mem_filter.2 ⟨stored w (List.mem_cons_of_mem v later), ?_⟩
    have : w.number ≠ v.number := fun e => new (e ▸ List.mem_map_of_mem later)
    simpa using this

/-- A record of a new number takes cells from the free list (R42, R53). -/
theorem Tb.ServicesSound.write_new (sender : Nat) {r : ServiceRecord} (new : tb.find r.number = none)
    (room : tb.services.length < 64) (expected : r.status = .expected → r.expected.isSome = true) :
    (tb.write sender r).ServicesSound := by
  obtain ⟨-, distinct, cells, perm, times⟩ := sound
  have others := Tb.find_none new
  have put := putService_new (r.entry sender (tb.pool.free.take r.stops.length)) tb.services others
  have services : (tb.write sender r).services = tb.services ++ [r.entry sender (tb.pool.free.take r.stops.length)] :=
    put
  refine ⟨?_, ?_, ?_, ?_, fun w stored => ?_⟩
  · rw [services, List.length_append]
    exact room
  · rw [services, List.map_append]
    refine nodup_snoc distinct ?_
    simpa [ServiceRecord.entry] using others
  · exact (writeCells_length _ _ _).trans cells
  · show (tb.pool.free.drop r.stops.length ++ chainCells (tb.write sender r).services).Perm _
    have chains : chainCells (tb.write sender r).services =
        chainCells tb.services ++ tb.pool.free.take r.stops.length := by
      rw [services]
      simp [chainCells, ServiceRecord.entry]
    rw [chains]
    refine List.Perm.trans ?_ perm
    conv => rhs; rw [← List.take_append_drop r.stops.length tb.pool.free]
    rw [← List.append_assoc]
    refine List.perm_append_comm.trans ?_
    rw [← List.append_assoc]
    exact List.Perm.refl _
  · rw [services, List.mem_append, List.mem_singleton] at stored
    obtain old | rfl := stored
    · exact times w old
    · exact expected

/-- A record of a stored number frees the old chain and takes cells anew (R42, R55). -/
theorem Tb.ServicesSound.rewrite (sender : Nat) {old : Service} {r : ServiceRecord} (found : tb.find r.number = some old)
    (expected : r.status = .expected → r.expected.isSome = true) :
    (Tb.write { tb with pool := tb.pool.give old.chain } sender r).ServicesSound := by
  obtain ⟨room, distinct, cells, perm, times⟩ := sound
  let free := old.chain ++ tb.pool.free
  let v := r.entry sender (free.take r.stops.length)
  have numbers : (putService v tb.services).map (fun w => w.number) = tb.services.map fun w => w.number :=
    putService_numbers (v := v) found
  have moved : (chainCells (putService v tb.services) ++ old.chain).Perm
      (free.take r.stops.length ++ chainCells tb.services) := putService_cells (v := v) found
  refine ⟨?_, numbers ▸ distinct, (writeCells_length _ _ _).trans cells, ?_, fun w stored => ?_⟩
  · have := congrArg List.length numbers
    simp only [List.length_map] at this
    exact this ▸ room
  · show (free.drop r.stops.length ++ chainCells (putService v tb.services)).Perm _
    refine List.Perm.trans ?_ perm
    refine (List.perm_append_right_iff old.chain).1 ?_
    rw [List.append_assoc]
    refine (moved.append_left _).trans ?_
    rw [← List.append_assoc]
    have split : (free.drop r.stops.length ++ free.take r.stops.length).Perm free := by
      conv => rhs; rw [← List.take_append_drop r.stops.length free]
      exact List.perm_append_comm
    refine (split.append_right _).trans ?_
    rw [List.append_assoc]
    exact List.perm_append_comm
  · obtain rfl | old := mem_putService stored
    · exact expected
    · exact times w old

end

/-! ### The refusal list (R46) -/

theorem refuse_sound {l : List Nat} (room : l.length ≤ 16) (distinct : l.Nodup) (n : Nat) :
    (refuse n l).length ≤ 16 ∧ (refuse n l).Nodup := by
  have join {m : List Nat} (distinct : m.Nodup) (new : n ∉ m) : (m ++ [n]).Nodup :=
    nodup_snoc distinct (by simpa using new)
  unfold refuse
  split
  next listed =>
    refine ⟨?_, join (distinct.erase n) (by simp [distinct.mem_erase_iff])⟩
    have := List.length_erase_of_mem listed
    have := List.length_pos_of_mem listed
    simp only [List.length_append, List.length_singleton]
    omega
  next new =>
    split
    next few => exact ⟨by rw [List.length_append]; exact few, join distinct new⟩
    next full =>
      refine ⟨?_, join (distinct.sublist (List.drop_sublist 1 l)) fun h => new (List.mem_of_mem_drop h)⟩
      simp only [List.length_append, List.length_drop, List.length_singleton]
      unfold Config.refusalCapacity at full
      omega

/-! ### The name table (R43, R44) -/

theorem insertBy_mem {α : Type} (before : α → α → Bool) (x y : α) : ∀ {l : List α}, y ∈ insertBy before x l →
    y = x ∨ y ∈ l
  | [], h => Or.inl (List.mem_singleton.1 h)
  | z :: rest, h => by
    unfold insertBy at h
    split at h
    · exact List.mem_cons.1 h
    · obtain rfl | later := List.mem_cons.1 h
      · exact Or.inr List.mem_cons_self
      · exact (insertBy_mem before x y later).imp id (List.mem_cons_of_mem z)

/-- A name number of its own is inserted in its place. -/
theorem insertName_sorted (d : Nat × Text) : ∀ {l : List (Nat × Text)}, (∀ e ∈ l, e.1 ≠ d.1) →
    (l.map fun e => e.1).Pairwise (· < ·) →
    ((insertBy (fun a b => decide (a.1 < b.1)) d l).map fun e => e.1).Pairwise (· < ·)
  | [], _, _ => List.pairwise_singleton _ _
  | e :: rest, other, sorted => by
    rw [List.map_cons, List.pairwise_cons] at sorted
    obtain ⟨first, sorted⟩ := sorted
    unfold insertBy
    split
    next before =>
      have before : d.1 < e.1 := by simpa using before
      rw [List.map_cons, List.map_cons, List.pairwise_cons, List.pairwise_cons]
      refine ⟨fun n member => ?_, first, sorted⟩
      obtain rfl | later := List.mem_cons.1 member
      · exact before
      · exact Nat.lt_trans before (first n later)
    next after =>
      have after : e.1 < d.1 := by
        have : ¬ d.1 < e.1 := by simpa using after
        have := other e List.mem_cons_self
        omega
      rw [List.map_cons, List.pairwise_cons]
      refine ⟨fun n member => ?_, insertName_sorted d (fun x h => other x (List.mem_cons_of_mem e h)) sorted⟩
      obtain ⟨x, inserted, rfl⟩ := List.mem_map.1 member
      obtain rfl | old := insertBy_mem _ _ _ inserted
      · exact after
      · exact first _ (List.mem_map_of_mem old)

/-- The canonical form of a name table. -/
def NameForm (names : List (Nat × Text)) : Prop :=
  (names.map fun d => d.1).Pairwise (· < ·) ∧ ∀ d ∈ names, d.2 ≠ []

theorem NameForm.define {names : List (Nat × Text)} (form : NameForm names) (d : Nat × Text) :
    NameForm (defineName names d) := by
  obtain ⟨sorted, texts⟩ := form
  have sub : (names.filter fun e => e.1 ≠ d.1).Sublist names := List.filter_sublist
  have sorted := sorted.sublist (sub.map fun e => e.1)
  simp only [defineName]
  split
  next => exact ⟨sorted, fun e kept => texts e (sub.subset kept)⟩
  next text =>
    refine ⟨insertName_sorted d (fun e kept => ?_) sorted, fun e member => ?_⟩
    · simpa using (List.mem_filter.1 kept).2
    · obtain rfl | kept := insertBy_mem _ _ _ member
      · exact text
      · exact texts e (sub.subset kept)

theorem NameForm.defineAll {names : List (Nat × Text)} (form : NameForm names) (ds : List (Nat × Text)) :
    NameForm (ds.foldl defineName names) := by
  induction ds generalizing names with
  | nil => exact form
  | cons d rest ih => exact ih (form.define d)

/-! ### The feeder table (R70 to R79) -/

section
variable {tb : Tb} (sound : tb.FeedersSound)
include sound

theorem Tb.FeedersSound.congr {b : Tb} (feeders : b.feeders = tb.feeders) (stale : b.staleOrder = tb.staleOrder) :
    b.FeedersSound := by
  unfold Tb.FeedersSound
  rw [feeders, stale]
  exact sound

/-- An entry is changed; a stale one stays IDLE, without expected sequence and lifetime. -/
theorem Tb.FeedersSound.update {n : Nat} {f : Feeder → Feeder} (node : ∀ x, (f x).node = x.node)
    (count : ∀ x, x.count ≤ 65535 → (f x).count ≤ 65535)
    (quiet : n ∈ tb.staleOrder → ∀ x, x.expectedSequence = none ∧ x.sweeping = false ∧ x.lifetime = .stopped →
      (f x).expectedSequence = none ∧ (f x).sweeping = false ∧ (f x).lifetime = .stopped) :
    (tb.updateFeeder n f).FeedersSound := by
  obtain ⟨room, distinct, staleDistinct, inUse, silent, counts⟩ := sound
  have nodes : (tb.updateFeeder n f).feeders.map (fun x => x.node) = tb.feeders.map fun x => x.node := by
    simp only [Tb.updateFeeder, List.map_map]
    refine List.map_congr_left fun x _ => ?_
    simp only [Function.comp]
    split
    · exact node x
    · rfl
  refine ⟨by simpa [Tb.updateFeeder] using room, nodes ▸ distinct, staleDistinct, nodes ▸ inUse, ?_, ?_⟩
  · intro x member stale
    obtain ⟨y, old, rfl⟩ := List.mem_map.1 member
    split at stale
    next same =>
      have listed : y.node ∈ tb.staleOrder := node y ▸ stale
      rw [if_pos same]
      exact quiet (same ▸ listed) y (silent y old listed)
    next other =>
      rw [if_neg other]
      exact silent y old stale
  · intro x member
    obtain ⟨y, old, rfl⟩ := List.mem_map.1 member
    split
    · exact count y (counts y old)
    · exact counts y old

/-- A note finds, revives, takes or reuses an entry, which is then not stale (R72). -/
theorem Tb.FeedersSound.learn (sender : Nat) : (tb.learn sender).1.FeedersSound ∧
    ((tb.learn sender).2 = true → sender ∉ (tb.learn sender).1.staleOrder) ∧
    ((tb.learn sender).2 = false → (tb.learn sender).1.feeder sender = none) := by
  have whole := sound
  obtain ⟨room, distinct, staleDistinct, inUse, silent, counts⟩ := sound
  unfold Tb.learn
  split
  next f found =>
    refine ⟨⟨room, distinct, staleDistinct.erase sender, fun n stale => inUse n (List.mem_of_mem_erase stale),
      fun x member stale => silent x member (List.mem_of_mem_erase stale), counts⟩, fun _ => ?_, (nomatch ·)⟩
    simp [staleDistinct.mem_erase_iff]
  next unknown =>
    have others := Tb.feeder_none unknown
    have not_stale : sender ∉ tb.staleOrder := by
      intro stale
      obtain ⟨x, member, same⟩ := List.mem_map.1 (inUse sender stale)
      exact others x member same
    split
    next few =>
      refine ⟨⟨?_, ?_, staleDistinct, fun n stale => ?_, fun x member stale => ?_, fun x member => ?_⟩,
        fun _ => not_stale, (nomatch ·)⟩
      · rw [List.length_append]
        exact few
      · rw [List.map_append]
        refine nodup_snoc distinct ?_
        simpa [Feeder.fresh] using others
      · rw [List.map_append]
        exact List.mem_append_left _ (inUse n stale)
      · obtain old | rfl := (List.mem_append.1 member).imp_right List.mem_singleton.1
        · exact silent x old stale
        · exact ⟨rfl, rfl, rfl⟩
      · obtain old | rfl := (List.mem_append.1 member).imp_right List.mem_singleton.1
        · exact counts x old
        · exact Nat.zero_le _
    next full =>
      split
      next none => exact ⟨whole, (nomatch ·), fun _ => unknown⟩
      next old rest order =>
        rw [order, List.nodup_cons] at staleDistinct
        obtain ⟨oldNew, restDistinct⟩ := staleDistinct
        have nodes : (tb.feeders.map fun x => if x.node = old then Feeder.fresh sender else x).map (fun x => x.node) =
            (tb.feeders.map fun x => x.node).map fun n => if n = old then sender else n := by
          simp only [List.map_map]
          refine List.map_congr_left fun x _ => ?_
          simp only [Function.comp]
          split <;> rfl
        refine ⟨⟨by simpa using room, ?_, restDistinct, fun n stale => ?_, fun x member stale => ?_,
          fun x member => ?_⟩, fun _ stale => not_stale (order ▸ List.mem_cons_of_mem old stale), (nomatch ·)⟩
        · show (List.map (fun x : Feeder => x.node) _).Nodup
          rw [nodes]
          refine nodup_map_of_inj distinct fun m inM n inN e => ?_
          have notM : m ≠ sender := by
            obtain ⟨x, member, rfl⟩ := List.mem_map.1 inM
            exact others x member
          have notN : n ≠ sender := by
            obtain ⟨x, member, rfl⟩ := List.mem_map.1 inN
            exact others x member
          split at e <;> split at e
          next h1 h2 => rw [h1, h2]
          next => exact absurd e.symm notN
          next => exact absurd e notM
          next => exact e
        · show n ∈ List.map (fun x : Feeder => x.node) _
          rw [nodes]
          have other : n ≠ old := fun e => oldNew (e ▸ stale)
          exact List.mem_map.2 ⟨n, inUse n (order ▸ List.mem_cons_of_mem old stale), if_neg other⟩
        · obtain ⟨y, oldEntry, rfl⟩ := List.mem_map.1 member
          split
          · exact ⟨rfl, rfl, rfl⟩
          next other =>
            rw [if_neg other] at stale
            exact silent y oldEntry (order ▸ List.mem_cons_of_mem old stale)
        · obtain ⟨y, oldEntry, rfl⟩ := List.mem_map.1 member
          split
          · exact Nat.zero_le _
          · exact counts y oldEntry

/-- A header note keeps the feeder table, and the sender's entry, where there is one, is not stale (R71 to R74). -/
theorem Tb.FeedersSound.note (sender : Nat) (q : BitVec 8) : (tb.note sender q).1.FeedersSound ∧
    (∀ f, (tb.note sender q).1.feeder sender = some f → sender ∉ (tb.note sender q).1.staleOrder) := by
  obtain ⟨learned, known, unknown⟩ := sound.learn sender
  unfold Tb.note
  split
  next t e =>
    rw [e] at learned unknown
    exact ⟨learned, fun f found => nomatch (unknown rfl).symm.trans found⟩
  next t e =>
    rw [e] at learned known
    have not_stale := known rfl
    refine ⟨learned.update (fun _ => rfl) (fun _ h => h) fun stale => absurd stale not_stale, fun _ _ => not_stale⟩

theorem Tb.FeedersSound.countSweep (sender : Nat) : (tb.countSweep sender).FeedersSound := by
  refine sound.update (fun x => ?_) (fun x bound => ?_) fun _ x quiet => ?_
  · split <;> rfl
  · split
    · exact bump_le bound
    · exact bound
  · rw [if_neg (by simp [quiet.2.1])]
    exact quiet

/-- A sweep ends (R77 to R79). -/
theorem Tb.FeedersSound.idle (node : Nat) : (tb.updateFeeder node Feeder.idle).FeedersSound :=
  sound.update (fun _ => rfl) (fun _ h => h) fun _ _ quiet => ⟨quiet.1, rfl, quiet.2.2⟩

theorem Tb.FeedersSound.not_stale {node : Nat} {f : Feeder} (found : tb.feeder node = some f)
    (runs : f.lifetime ≠ .stopped) : node ∉ tb.staleOrder := by
  intro stale
  obtain ⟨-, -, -, -, silent, -⟩ := sound
  obtain ⟨member, same⟩ := Tb.feeder_some found
  obtain ⟨-, -, stopped⟩ := silent f member (same ▸ stale)
  exact runs stopped

/-- A feeder becomes stale (R74). -/
theorem Tb.FeedersSound.lifetimeWork (node : Nat) : (tb.lifetimeWork node).tb.FeedersSound := by
  simp only [Tb.lifetimeWork]
  split
  next => exact sound
  next f found =>
    split
    next expired =>
      have not_stale := sound.not_stale found (by simp [expired])
      obtain ⟨room, distinct, staleDistinct, inUse, silent, counts⟩ :=
        sound.update (n := node) (f := Feeder.silent) (fun _ => rfl) (fun _ h => h)
          fun stale => absurd stale not_stale
      obtain ⟨member, same⟩ := Tb.feeder_some found
      refine ⟨room, distinct, ?_, fun n stale => ?_, fun x member stale => ?_, counts⟩
      · exact nodup_snoc staleDistinct (by simpa using not_stale)
      · obtain old | rfl := (List.mem_append.1 stale).imp_right List.mem_singleton.1
        · exact inUse n old
        · refine List.mem_map.2 ⟨f.silent, List.mem_map.2 ⟨f, member, if_pos same⟩, same⟩
      · obtain old | node := (List.mem_append.1 stale).imp_right List.mem_singleton.1
        · exact silent x member old
        · obtain ⟨y, entry, rfl⟩ := List.mem_map.1 member
          split at node
          next is => rw [if_pos is]; exact ⟨rfl, rfl, rfl⟩
          next other => exact absurd node other
    next => exact sound

theorem Tb.FeedersSound.sweepLimitWork (node : Nat) : (tb.sweepLimitWork node).tb.FeedersSound := by
  unfold Tb.sweepLimitWork
  split
  next => exact sound
  next =>
    split
    next => exact sound.idle node
    next => exact sound

/-- A sweep begins where the sender's entry is not stale (R75). -/
theorem Tb.FeedersSound.sweepOpenWork {sender : Nat}
    (fresh : ∀ f, tb.feeder sender = some f → sender ∉ tb.staleOrder) (body : List Byte) :
    (tb.sweepOpenWork sender body).tb.FeedersSound := by
  unfold Tb.sweepOpenWork
  split
  next => exact sound
  next f found =>
    have opened := sound.update (n := sender)
      (f := fun x => { x with sweeping := true, epoch := byteAt body 0, count := 0, spoiled := false, limit := .running })
      (fun _ => rfl) (fun _ _ => Nat.zero_le _) fun stale => absurd stale (fresh f found)
    exact opened.congr rfl rfl

end

/-! ### Station time (R81 to R84) -/

theorem StationTime.Sound.second {t : StationTime} (sound : t.Sound) {x : Nat} (held : t.second = some x) :
    x < 86400 ∧ t.secondTimer = true := sound.2.1 x held

theorem StationTime.sound_of_some {t : StationTime} {x : Nat} (held : t.second = some x) (day : x < 86400)
    (timer : t.secondTimer = true) (elapsed : t.elapsed ≤ 255) (age : t.age ≤ 900)
    (stale : t.stale = true ↔ t.age = 900) : t.Sound := by
  refine ⟨fun none => (nomatch held.symm.trans none), fun y same => ?_, elapsed, age, stale⟩
  cases held.symm.trans same
  exact ⟨day, timer⟩

theorem Tb.clockWork_time {tb : Tb} (sound : tb.time.Sound) (body : List Byte) : (tb.clockWork body).tb.time.Sound := by
  simp only [Tb.clockWork]
  split
  next ok =>
    exact StationTime.sound_of_some rfl (by simpa [clockOk] using ok) rfl (Nat.zero_le _) (Nat.zero_le _) (by simp)
  next => exact sound

/-- A tick keeps a second of day, and the clock age reaches 900 with the stale flag (R83, R84). -/
theorem Tb.tickWork_time {tb : Tb} (sound : tb.time.Sound) : tb.tickWork.tb.time.Sound := by
  unfold Tb.tickWork
  split
  next => exact sound
  next x held =>
    split
    next => exact sound
    next =>
      obtain ⟨-, timer⟩ := sound.second held
      obtain ⟨-, -, elapsed, age, stale⟩ := sound
      refine StationTime.sound_of_some rfl (Nat.mod_lt _ (by decide)) timer (Nat.zero_le _)
        (Nat.min_le_left _ _) ?_
      simp only [Config.staleAge, Bool.or_eq_true, Bool.and_eq_true, decide_eq_true_eq, Bool.not_eq_true']
      constructor
      · rintro (already | ⟨now, -⟩)
        · have := stale.1 already
          omega
        · exact of_decide_eq_true now
      · intro now
        by_cases already : tb.time.stale = true
        · exact Or.inl already
        · exact Or.inr ⟨decide_eq_true now, eq_false_of_ne_true already⟩

/-- The elapsed seconds stop at 255 (R83). -/
theorem StationTime.Sound.elapse {t : StationTime} (sound : t.Sound) (timer : t.secondTimer = true) :
    StationTime.Sound { t with elapsed := min 255 (t.elapsed + 1) } := by
  obtain ⟨unset, day, elapsed, age, stale⟩ := sound
  refine ⟨fun none => ?_, day, Nat.min_le_left _ _, age, stale⟩
  rw [unset none] at timer
  exact nomatch timer

/-! ### The works (R44 to R84) -/

/-- A record that is in range has an expected time where its status is EXPECTED (R7). -/
theorem serviceRecord_expected {body : List Byte} (ok : serviceOk body = true) :
    (serviceRecord body).status = .expected → (serviceRecord body).expected.isSome = true := by
  simp only [serviceOk, Bool.and_eq_true, Bool.not_eq_true', Bool.and_eq_false_iff, decide_eq_true_eq,
    decide_eq_false_iff_not] at ok
  obtain ⟨-, times⟩ := ok
  intro status
  have one : num1 body 9 = 1 := by
    simp only [serviceRecord] at status
    unfold serviceStatusOf at status
    split at status <;> simp_all
  have given : num2 body 7 ≠ 0xFFFF := times.resolve_left (· one)
  simp [serviceRecord, minuteField, given]

/-- An amended entry of status EXPECTED has an expected time (R59). -/
theorem Amendment.entry_expected (a : Amendment) (old : Service) :
    (a.entry old).status = .expected → (a.entry old).expected.isSome = true := by
  simp only [Amendment.entry]
  split
  next => exact (nomatch ·)
  next given =>
    intro status
    rw [Option.isSome_iff_ne_none]
    exact fun none => given ⟨status, none⟩

theorem latestOf_mem_find {tb : Tb} {v : Service} {m : Option Nat} (latest : latestOf m tb.services = some v) :
    v ∈ tb.services := latestOf_mem m _ v latest

section
variable {tb : Tb} (sound : tb.Sound)
include sound

/-- The parts of the tables decide. -/
theorem Tb.Sound.congr {b : Tb} (services : b.services = tb.services) (pool : b.pool = tb.pool)
    (refusals : b.refusals = tb.refusals) (names : b.names = tb.names) (feeders : b.feeders = tb.feeders)
    (stale : b.staleOrder = tb.staleOrder) (time : b.time = tb.time) : b.Sound := by
  obtain ⟨h1, h2, h3, h4, h5⟩ := sound
  refine ⟨h1.congr services pool, ?_, ?_, h4.congr feeders stale, time ▸ h5⟩
  · unfold Tb.RefusalsSound
    rwa [refusals]
  · unfold Tb.NamesSound
    rwa [names]

/-- Services, pool and refusal list are replaced by sound ones. -/
theorem Tb.Sound.withServices {b : Tb} (services : b.ServicesSound) (refusals : b.RefusalsSound)
    (names : b.names = tb.names) (feeders : b.feeders = tb.feeders) (stale : b.staleOrder = tb.staleOrder)
    (time : b.time = tb.time) : b.Sound := by
  obtain ⟨-, -, h3, h4, h5⟩ := sound
  refine ⟨services, refusals, ?_, h4.congr feeders stale, time ▸ h5⟩
  unfold Tb.NamesSound
  rwa [names]

theorem Tb.Sound.withFeeders {b : Tb} (feeders : b.FeedersSound) (services : b.services = tb.services)
    (pool : b.pool = tb.pool) (refusals : b.refusals = tb.refusals) (names : b.names = tb.names)
    (time : b.time = tb.time) : b.Sound := by
  obtain ⟨h1, h2, h3, -, h5⟩ := sound
  refine ⟨h1.congr services pool, ?_, ?_, feeders, time ▸ h5⟩
  · unfold Tb.RefusalsSound
    rwa [refusals]
  · unfold Tb.NamesSound
    rwa [names]

theorem Tb.Sound.note (sender : Nat) (q : BitVec 8) : (tb.note sender q).1.Sound := by
  obtain ⟨feeders, -⟩ := sound.2.2.2.1.note sender q
  exact sound.withFeeders feeders (by simp) (by simp) (by simp) (by simp) (by simp)

theorem Tb.Sound.nameWork (body : List Byte) : (tb.nameWork body).tb.Sound := by
  unfold Tb.nameWork
  split
  next => exact sound
  next ds _ =>
    split
    next =>
      obtain ⟨h1, h2, h3, h4, h5⟩ := sound
      exact ⟨h1, h2, NameForm.defineAll h3 ds, h4, h5⟩
    next => exact sound

theorem Tb.Sound.refuse {b : Tb} (services : b.ServicesSound) (refusals : b.refusals = tb.refusals)
    (names : b.names = tb.names) (feeders : b.feeders = tb.feeders) (stale : b.staleOrder = tb.staleOrder)
    (time : b.time = tb.time) (n : Nat) : Tb.Sound { b with refusals := Machine.refuse n b.refusals } := by
  obtain ⟨room, distinct⟩ := sound.2.1
  refine sound.withServices (services.congr rfl rfl) ?_ names feeders stale time
  have := refuse_sound room distinct n
  unfold Tb.RefusalsSound
  rwa [refusals]

theorem Tb.Sound.drop_of_find {v : Service} {n : Nat} (found : tb.find n = some v) : (tb.drop v).Sound :=
  sound.withServices (sound.1.drop_of_find found) sound.2.1 rfl rfl rfl rfl

/-- A store into tables with room (R53, R57). -/
theorem Tb.Sound.store (p : Profile) (sender : Nat) {r : ServiceRecord} (new : tb.find r.number = none)
    (room : tb.services.length < 64) (expected : r.status = .expected → r.expected.isSome = true) :
    (tb.store p sender r).tb.Sound := by
  obtain ⟨refusals, distinct⟩ := sound.2.1
  refine sound.withServices ((sound.1.write_new sender new room expected).congr rfl rfl) ?_ rfl rfl rfl rfl
  exact ⟨Nat.le_trans List.length_erase_le refusals, distinct.erase _⟩

theorem Tb.Sound.takeIn (p : Profile) (sender : Nat) {r : ServiceRecord} (new : tb.find r.number = none)
    (expected : r.status = .expected → r.expected.isSome = true) : (tb.takeIn p sender r).1.tb.Sound := by
  unfold Tb.takeIn
  split
  next room => exact sound.store p sender new room expected
  next full =>
    split
    next => exact sound
    next v latest =>
      split
      next =>
        have stored := latestOf_mem_find latest
        have dropped : (tb.drop v).Sound := sound.withServices (sound.1.drop stored) sound.2.1 rfl rfl rfl rfl
        refine dropped.store p sender ?_ ?_ expected
        · refine List.find?_eq_none.2 fun w kept => ?_
          simpa using Tb.find_none new w (List.mem_filter.1 kept).1
        · have shorter : (tb.drop v).services.length < tb.services.length := by
            refine List.length_filter_lt_length_iff_exists.2 ⟨v, stored, by simp⟩
          have := sound.1.1
          omega
      next => exact sound

theorem Tb.Sound.applyService (p : Profile) (sender : Nat) {r : ServiceRecord}
    (expected : r.status = .expected → r.expected.isSome = true) : (tb.applyService p sender r).1.tb.Sound := by
  unfold Tb.applyService
  cases stored : tb.find r.number with
  | none =>
    dsimp only
    split
    next => exact sound.takeIn p sender stored expected
    next => exact sound.refuse sound.1 rfl rfl rfl rfl rfl r.number
  | some old =>
    obtain ⟨member, number⟩ := Tb.find_some stored
    dsimp only
    split
    next => exact sound
    next =>
      split
      next => exact sound.refuse (b := tb.drop old) (sound.1.drop member) rfl rfl rfl rfl rfl r.number
      next =>
        split
        next => exact sound.withServices ((sound.1.rewrite sender stored expected).congr rfl rfl) sound.2.1 rfl rfl rfl rfl
        next =>
          refine sound.withServices ?_ sound.2.1 rfl rfl rfl rfl
          refine sound.1.put (v := { old with mark := true, owner := sender, refresh := .running }) (old := old) ?_ rfl ?_
          · exact number ▸ stored
          · exact sound.1.2.2.2.2 old member

theorem Tb.Sound.serviceWork (p : Profile) (sender : Nat) (body : List Byte) :
    (tb.serviceWork p sender body).tb.Sound := by
  simp only [Tb.serviceWork]
  split
  next ok =>
    have applied := sound.applyService p sender (serviceRecord_expected ok)
    split
    next =>
      exact applied.withFeeders (applied.2.2.2.1.countSweep sender) (by simp) (by simp) (by simp) (by simp) (by simp)
    next => exact applied
  next => exact sound

theorem Tb.Sound.amendWork (p : Profile) (body : List Byte) : (tb.amendWork p body).tb.Sound := by
  unfold Tb.amendWork Tb.applyAmend
  split
  next =>
    cases stored : tb.find (amendment body).number with
    | none => exact sound
    | some old =>
      obtain ⟨member, number⟩ := Tb.find_some stored
      dsimp only
      split
      next => exact sound
      next =>
        split
        next => exact sound.refuse (b := tb.drop old) (sound.1.drop member) rfl rfl rfl rfl rfl _
        next =>
          refine sound.withServices ?_ sound.2.1 rfl rfl rfl rfl
          exact sound.1.put (v := (amendment body).entry old) (old := old) (number ▸ stored) rfl
            (Amendment.entry_expected _ _)
  next => exact sound

theorem Tb.Sound.withdrawWork (body : List Byte) : (tb.withdrawWork body).tb.Sound := by
  unfold Tb.withdrawWork
  split
  next =>
    split
    next => exact sound
    next old found =>
      split
      next => exact sound
      next => exact sound.drop_of_find found
  next => exact sound

theorem Tb.Sound.refreshWork (n : Nat) (live : Bool) : (tb.refreshWork n live).tb.Sound := by
  unfold Tb.refreshWork
  split
  next =>
    split
    next => exact sound
    next v found => exact sound.drop_of_find found
  next => exact sound

/-- A SWEEP-OPEN changes marks, which the invariant does not speak of, and the sender's entry (R75). -/
theorem Tb.Sound.sweepOpenWork {sender : Nat} (fresh : ∀ f, tb.feeder sender = some f → sender ∉ tb.staleOrder)
    (body : List Byte) : (tb.sweepOpenWork sender body).tb.Sound := by
  have feeders := sound.2.2.2.1.sweepOpenWork fresh body
  have services : (tb.sweepOpenWork sender body).tb.ServicesSound := by
    obtain ⟨room, distinct, cells, perm, times⟩ := sound.1
    unfold Tb.sweepOpenWork
    split
    next => exact ⟨room, distinct, cells, perm, times⟩
    next =>
      have unmark (v : Service) : (if v.owner = sender then { v with mark := false } else v).number = v.number ∧
          (if v.owner = sender then { v with mark := false } else v).chain = v.chain := by
        split <;> exact ⟨rfl, rfl⟩
      refine ⟨by simpa [Effect.none] using room, ?_, cells, ?_, fun w member => ?_⟩
      · simpa [Effect.none, List.map_map, Function.comp_def, unmark] using distinct
      · simpa [Effect.none, Tb.chained, List.flatMap_map, unmark] using perm
      · obtain ⟨v, old, rfl⟩ := List.mem_map.1 member
        split
        · exact times v old
        · exact times v old
  obtain ⟨-, refusals, names, -, time⟩ := sound
  refine ⟨services, ?_, ?_, feeders, by simpa using time⟩
  · simpa [Tb.RefusalsSound] using refusals
  · simpa [Tb.NamesSound] using names

theorem Tb.Sound.acceptSweep (sender : Nat) : (tb.acceptSweep sender).tb.Sound := by
  have sub : (tb.unannounced sender).Sublist tb.services := List.filter_sublist
  have dropped := sound.1.dropAll (gone := tb.unannounced sender) (fun v member => sub.subset member)
    ((sub.map _).nodup sound.1.2.1)
  have all : ((tb.unannounced sender).foldl Tb.drop tb).Sound :=
    sound.withServices dropped (by simpa [Tb.RefusalsSound] using sound.2.1) (by simp) (by simp) (by simp) (by simp)
  exact all.withFeeders (all.2.2.2.1.idle sender) rfl rfl rfl rfl rfl

theorem Tb.Sound.idle (node : Nat) : (tb.updateFeeder node Feeder.idle).Sound :=
  sound.withFeeders (sound.2.2.2.1.idle node) rfl rfl rfl rfl rfl

theorem Tb.Sound.sweepCloseWork (sender : Nat) (body : List Byte) : (tb.sweepCloseWork sender body).tb.Sound := by
  unfold Tb.sweepCloseWork
  split
  next => exact sound
  next =>
    split
    next => exact sound
    next =>
      split
      next => exact sound.idle sender
      next => exact sound.acceptSweep sender

theorem Tb.Sound.clockWork (body : List Byte) : (tb.clockWork body).tb.Sound := by
  have time := Tb.clockWork_time sound.2.2.2.2 body
  obtain ⟨h1, h2, h3, h4, -⟩ := sound
  exact ⟨h1.congr (by simp) (by simp), by simpa [Tb.RefusalsSound] using h2, by simpa [Tb.NamesSound] using h3,
    h4.congr (by simp) (by simp), time⟩

theorem Tb.Sound.tickWork : tb.tickWork.tb.Sound := by
  have time := Tb.tickWork_time sound.2.2.2.2
  obtain ⟨h1, h2, h3, h4, -⟩ := sound
  exact ⟨h1.congr (by simp) (by simp), by simpa [Tb.RefusalsSound] using h2, by simpa [Tb.NamesSound] using h3,
    h4.congr (by simp) (by simp), time⟩

theorem Tb.Sound.headerOnlyWork (sender : Nat) (k : Option NoticeKind) : (tb.headerOnlyWork sender k).tb.Sound := by
  unfold Tb.headerOnlyWork
  split
  · exact sound.withFeeders (sound.2.2.2.1.countSweep sender) rfl rfl rfl rfl rfl
  · exact sound

theorem Tb.Sound.lifetimeWork (node : Nat) : (tb.lifetimeWork node).tb.Sound :=
  sound.withFeeders (sound.2.2.2.1.lifetimeWork node) (by simp) (by simp) (by simp) (by simp) (by simp)

theorem Tb.Sound.sweepLimitWork (node : Nat) : (tb.sweepLimitWork node).tb.Sound :=
  sound.withFeeders (sound.2.2.2.1.sweepLimitWork node) (by simp) (by simp) (by simp) (by simp) (by simp)

theorem Tb.Sound.claim (e : Expiry) : (tb.claim e).Sound := by
  unfold Tb.claim
  split
  · exact sound
  · split
    · exact sound
    · exact sound

end

/-! ### Every step -/

section
variable {s : State} {i : Instr} (sound : s.tb.Sound)
include sound

theorem ApplyWork.keeps {c : Chain} {work : Tb → Effect} (applies : ApplyWork s c i work) :
    (work (s.noted c).1).tb.Sound := by
  have noted : (s.noted c).1.Sound := sound.note c.sender c.sequence
  cases applies with
  | name => exact noted.nameWork _
  | service => exact noted.serviceWork _ _ _
  | amend => exact noted.amendWork _ _
  | withdraw => exact noted.withdrawWork _
  | sweepOpen => exact noted.sweepOpenWork (sound.2.2.2.1.note c.sender c.sequence).2 _
  | sweepClose => exact noted.sweepCloseWork _ _
  | clock => exact noted.clockWork _
  | headerOnly => exact noted.headerOnlyWork _ _

theorem ExpiryWork.keeps {fx : Effect} (works : ExpiryWork s i fx) : fx.tb.Sound := by
  cases works with
  | refresh n live => exact sound.refreshWork n live
  | lifetime node => exact sound.lifetimeWork node
  | sweepLimit node => exact sound.sweepLimitWork node
  | tick => exact sound.tickWork

theorem TimerExpiry.keeps {tb : Tb} {e : Expiry} (expires : TimerExpiry s i tb e) : tb.Sound := by
  cases expires with
  | refresh n v found =>
    obtain ⟨member, number⟩ := Tb.find_some found
    refine sound.withServices ?_ sound.2.1 rfl rfl rfl rfl
    exact sound.1.put (v := { v with refresh := .expired }) (old := v) (number ▸ found) rfl
      (sound.1.2.2.2.2 v member)
  | lifetime node f found running =>
    refine sound.withFeeders (sound.2.2.2.1.update (fun _ => rfl) (fun _ h => h) fun stale => ?_) rfl rfl rfl rfl rfl
    exact absurd stale (sound.2.2.2.1.not_stale found (by simp [running]))
  | sweepLimit node f found running =>
    exact sound.withFeeders (sound.2.2.2.1.update (fun _ => rfl) (fun _ h => h) fun _ _ quiet => quiet)
      rfl rfl rfl rfl rfl
  | second running =>
    obtain ⟨h1, h2, h3, h4, h5⟩ := sound
    exact ⟨h1, h2, h3, h4, h5.elapse running⟩

end

theorem Tb.reset_sound : Tb.reset.Sound := by
  refine ⟨⟨Nat.zero_le _, List.nodup_nil, StopPool.length_reset_cells, ?_, ?_⟩, ⟨Nat.zero_le _, List.nodup_nil⟩,
    ⟨List.Pairwise.nil, ?_⟩, ⟨Nat.zero_le _, List.nodup_nil, List.nodup_nil, ?_, ?_, ?_⟩, ?_⟩
  · show (StopPool.reset.free ++ []).Perm _
    rw [StopPool.reset_free, List.append_nil]
  · exact fun v stored => nomatch stored
  · exact fun d listed => nomatch listed
  · exact fun n stale => nomatch stale
  · exact fun f member => nomatch member
  · exact fun f member => nomatch member
  · exact ⟨fun _ => rfl, fun x held => (nomatch held), Nat.zero_le _, Nat.zero_le _, by simp [Tb.reset, StationTime.reset]⟩

/-- Every command keeps the invariant of the tables. -/
theorem Act.keeps_tables {s t : State} {i : Instr} (sound : s.tb.Sound) (act : Act s i t) : t.tb.Sound := by
  cases act with
  | coldReset => exact Tb.reset_sound
  | apply i c work applies =>
    have worked : (s.tb.withNote c work).tb.Sound := applies.keeps sound
    have tb := s.takeEffects_tb (s.tb.withNote c work)
    refine worked.congr ?_ ?_ ?_ ?_ ?_ ?_ ?_ <;> simp [State.completeApply, tb]
  | timerExpiry i tb e expires => exact (expires.keeps sound).claim e
  | expiryWork i fx works =>
    have tb := s.takeEffects_tb fx
    refine (works.keeps sound).congr ?_ ?_ ?_ ?_ ?_ ?_ ?_ <;> simp [State.completeExpiry, tb]
  | dim c => refine (sound.note c.sender c.sequence).congr ?_ ?_ ?_ ?_ ?_ ?_ ?_ <;> simp [State.directNote]
  | staff c => refine (sound.note c.sender c.sequence).congr ?_ ?_ ?_ ?_ ?_ ?_ ?_ <;> simp [State.directNote]
  | query c => refine (sound.note c.sender c.sequence).congr ?_ ?_ ?_ ?_ ?_ ?_ ?_ <;> simp [State.directNote]
  | restart => exact Tb.reset_sound
  | restartElsewhere c =>
    refine (sound.note c.sender c.sequence).congr ?_ ?_ ?_ ?_ ?_ ?_ ?_ <;> simp [State.directNote]
  | restartMalformed c =>
    refine (sound.note c.sender c.sequence).congr ?_ ?_ ?_ ?_ ?_ ?_ ?_ <;> simp [State.directNote]
  | _ => refine sound.congr ?_ ?_ ?_ ?_ ?_ ?_ ?_ <;> simp

/-- Settles O8: each table work keeps the tables, and the other commands leave them or reset them. -/
theorem tablesInvariantKept : Obligations.TablesInvariantKept :=
  fun _ _ sound stepped => step_keeps (P := fun s => s.tb.Sound) (fun _ _ h => h)
    (fun _ _ _ sound act => act.keeps_tables sound) sound stepped

end Sys2Proof.Machine
end

