-- ==== Sys2Proof/Proofs/IntakeInvariant.lean ====
section
/-! SUPPORT. Every step keeps the intake invariant: the ring and the FIFO, the FILLING chain and STORE, the receiver and
the transmitter, and the watch, each with the operations that touch it. -/

namespace Sys2Proof.Machine

/-! ### The intake invariant in its parts -/

/-- A chain is being filled by a frame in reception (R21). -/
def Ring.receiving (r : Ring) : Prop := ∃ f, r.filling = some f ∧ f.passed = false

/-- The ring and the FIFO in their ranges; the FIFO belongs to the FILLING chain (R21, R23). -/
def Lc.RingHeld (lc : Lc) : Prop :=
  lc.fifo.length ≤ 48 ∧ lc.ring.used ≤ 24 ∧ lc.ring.oldest < 24 ∧ (lc.fifo ≠ [] → lc.ring.filling.isSome = true)

/-- What the intake invariant says of the Line Controller. -/
structure Lc.Intake (lc : Lc) : Prop where
  ring : lc.RingHeld
  store : lc.receiver.state = .store ↔ lc.ring.receiving
  suspended : lc.receiver.state = .suspended ↔ lc.driving
  transmit : lc.TransmitSound
  watch : lc.WatchSound

/-- Three kinds of board notices fill the transmit queue (R31). -/
theorem queue_le_three {q : List BoardNotice} (distinct : (q.map BoardNotice.kind).Nodup) : q.length ≤ 3 := by
  have kinds : ∀ k ∈ q.map BoardNotice.kind, k ∈ [.digest, .pace, .status] := by
    intro k member
    obtain ⟨n, -, rfl⟩ := List.mem_map.1 member
    cases n <;> simp [BoardNotice.kind]
  simpa using length_le_of_nodup distinct kinds

theorem State.intakeSound_iff (s : State) : s.IntakeSound ↔ s.StartupSound ∧ s.lc.Intake := by
  constructor
  · rintro ⟨startup, fifo, used, oldest, filling, store, suspended, idle, distinct, -, watch⟩
    exact ⟨startup, ⟨fifo, used, oldest, filling⟩, store, suspended, ⟨idle, distinct⟩, watch⟩
  · rintro ⟨startup, ⟨fifo, used, oldest, filling⟩, store, suspended, ⟨idle, distinct⟩, watch⟩
    exact ⟨startup, fifo, used, oldest, filling, store, suspended, idle, distinct, queue_le_three distinct, watch⟩

/-- The receiver is not in a frame or sending: the states in which a chain of reset values stands. -/
theorem Lc.intake_of_reset {lc : Lc} (receiver : lc.receiver.state = .off ∨ lc.receiver.state = .discard)
    (fifo : lc.fifo = []) (filling : lc.ring.filling = none) (used : lc.ring.used = 0) (oldest : lc.ring.oldest < 24)
    (queue : lc.queue = []) (state : lc.transmitter.state = .idle) (notice : lc.transmitter.notice = none)
    (watch : lc.watch = .reset) : lc.Intake := by
  refine ⟨⟨by simp [fifo], by simp [used], oldest, fun more => absurd fifo more⟩, ?_, ?_, ⟨by simp [state, notice],
    by simp [queue]⟩, ?_⟩
  · rcases receiver with h | h <;> simp [h, Ring.receiving, filling]
  · rcases receiver with h | h <;> simp [h, Lc.driving, state]
  · simp [Lc.WatchSound, watch, Watch.reset, Lc.lineIdle, idleBits]

theorem Lc.AtReset.intake {lc : Lc} (reset : lc.AtReset) {r : Receiver} (receiver : r.state = .off ∨ r.state = .discard) :
    Lc.Intake { lc with receiver := r } := by
  obtain ⟨-, -, fifo, ring, queue, state, notice, -, -, -, watch⟩ := reset
  exact Lc.intake_of_reset receiver fifo (by simp [ring]) (by simp [ring, Ring.used]) (by simp [ring]) queue state notice
    watch

/-! ### The ring and the FIFO (R21 to R29) -/

/-- Slots in use but for the FILLING ones. -/
def Ring.heldSlots (r : Ring) : Nat := Ring.used { r with filling := none }

theorem Ring.used_of_filling {r : Ring} {f : Filling} (some : r.filling = some f) :
    r.used = r.heldSlots + slotsFor f.bytes.length := by
  simp only [Ring.heldSlots, Ring.used, some]
  omega

theorem Ring.heldSlots_le (r : Ring) : r.heldSlots ≤ r.used := by
  simp only [Ring.heldSlots, Ring.used]
  omega

/-- The drain adds no byte to the FIFO. -/
theorem drainBytes_waits_le : ∀ (fifo stored : List Byte) (free : Nat),
    (drainBytes free stored fifo).2.length ≤ fifo.length
  | [], _, _ => by simp [drainBytes]
  | b :: rest, stored, free => by
    unfold drainBytes
    split
    · split
      · exact Nat.le_refl _
      · exact Nat.le_trans (drainBytes_waits_le rest _ _) (Nat.le_succ _)
    · exact Nat.le_trans (drainBytes_waits_le rest _ _) (Nat.le_succ _)

/-- The drain keeps the ring and the FIFO in their ranges. -/
theorem Lc.RingHeld.drain {lc : Lc} (held : lc.RingHeld) : lc.drain.RingHeld := by
  obtain ⟨fifo, used, oldest, filling⟩ := held
  unfold Lc.drain
  split
  next none => exact ⟨fifo, used, oldest, filling⟩
  next f some =>
    obtain ⟨-, claimed, -⟩ := drainBytes_spec lc.fifo f.bytes (Config.ringSlots - lc.ring.used)
    have before := Ring.used_of_filling some
    refine ⟨Nat.le_trans (drainBytes_waits_le _ _ _) fifo, ?_, oldest, fun _ => rfl⟩
    refine Nat.le_trans (Nat.le_of_eq (Ring.used_of_filling rfl)) ?_
    show lc.ring.heldSlots + _ ≤ 24
    simp only [Config.ringSlots] at claimed ⊢
    omega

theorem Lc.drain_receiving (lc : Lc) : lc.drain.ring.receiving ↔ lc.ring.receiving := by
  unfold Lc.drain
  split
  next => rfl
  next f some => simp [Ring.receiving, some]

theorem Lc.RingHeld.beginFrame {lc : Lc} (held : lc.RingHeld) (headerOnly passed : Bool) {bytes : List Byte}
    (few : bytes.length ≤ 48) : (lc.beginFrame headerOnly passed bytes).RingHeld := by
  obtain ⟨-, used, oldest, -⟩ := held
  refine Lc.RingHeld.drain ⟨few, ?_, oldest, fun _ => rfl⟩
  refine Nat.le_trans (Nat.le_of_eq (Ring.used_of_filling rfl)) ?_
  show lc.ring.heldSlots + slotsFor 0 ≤ 24
  rw [show slotsFor 0 = 0 from rfl]
  exact Nat.le_trans lc.ring.heldSlots_le used

theorem Lc.beginFrame_receiving (lc : Lc) (headerOnly passed : Bool) (bytes : List Byte) :
    (lc.beginFrame headerOnly passed bytes).ring.receiving ↔ passed = false := by
  unfold Lc.beginFrame
  rw [Lc.drain_receiving]
  simp [Ring.receiving]

theorem Lc.RingHeld.freeFilling {lc : Lc} (held : lc.RingHeld) : lc.freeFilling.RingHeld := by
  obtain ⟨-, used, oldest, -⟩ := held
  exact ⟨Nat.zero_le _, Nat.le_trans lc.ring.heldSlots_le used, oldest, fun more => absurd rfl more⟩

theorem Lc.freeFilling_receiving (lc : Lc) : ¬ lc.freeFilling.ring.receiving := by
  rintro ⟨f, none, -⟩
  exact nomatch none

theorem Ring.freeInWork_used (r : Ring) : r.freeInWork.used ≤ r.used := by
  unfold Ring.freeInWork
  split
  next => exact Nat.le_refl _
  next c some =>
    simp only [Ring.used, some]
    omega

/-- What the dispatcher does to the ring: the oldest READY chain becomes IN-WORK (R27). -/
theorem State.dispatch_ring (s : State) : s.dispatch.lc.ring.used = s.lc.ring.used ∧
    s.dispatch.lc.ring.oldest = s.lc.ring.oldest ∧ s.dispatch.lc.ring.filling = s.lc.ring.filling := by
  simp only [State.dispatch]
  split
  next c rest none ready =>
    have used : Ring.used { s.lc.ring with inWork := some c, ready := rest } = s.lc.ring.used := by
      simp only [Ring.used, none, ready, List.map_cons, List.sum_cons]
      omega
    split <;> exact ⟨used, rfl, rfl⟩
  next => exact ⟨rfl, rfl, rfl⟩

theorem State.dispatch_ringHeld {s : State} (held : s.lc.RingHeld) : s.dispatch.lc.RingHeld := by
  obtain ⟨used, oldest, filling⟩ := s.dispatch_ring
  unfold Lc.RingHeld
  rw [used, oldest, filling, show s.dispatch.lc.fifo = s.lc.fifo by simp]
  exact held

theorem State.dispatch_receiving (s : State) : s.dispatch.lc.ring.receiving ↔ s.lc.ring.receiving := by
  obtain ⟨-, -, filling⟩ := s.dispatch_ring
  unfold Ring.receiving
  rw [filling]

theorem State.completeNotice_ringHeld {s : State} (held : s.lc.RingHeld) : s.completeNotice.lc.RingHeld := by
  obtain ⟨fifo, used, oldest, filling⟩ := held
  refine State.dispatch_ringHeld (Lc.RingHeld.drain ⟨fifo, Nat.le_trans s.lc.ring.freeInWork_used used, ?_, ?_⟩)
  · simp only [Ring.freeInWork]
    split
    · exact oldest
    · exact Nat.mod_lt _ (by decide)
  · simp only [Ring.freeInWork]
    split <;> exact filling

theorem State.completeNotice_receiving (s : State) : s.completeNotice.lc.ring.receiving ↔ s.lc.ring.receiving := by
  refine (State.dispatch_receiving _).trans ((Lc.drain_receiving _).trans ?_)
  simp only [Ring.freeInWork]
  split <;> rfl

/-- A chain that is due has passed its check, and the FIFO is empty (R25). -/
theorem Lc.chainDue_some {lc : Lc} {f : Filling} (due : lc.chainDue = some f) :
    lc.ring.filling = some f ∧ f.passed = true ∧ lc.fifo = [] := by
  unfold Lc.chainDue at due
  split at due
  next => exact nomatch due
  next g some =>
    split at due
    next passed => exact ⟨some.trans due, by cases due; exact passed.1, passed.2⟩
    next => exact nomatch due

theorem State.completeDue_ringHeld {s : State} (held : s.lc.RingHeld) : s.completeDue.lc.RingHeld := by
  unfold State.completeDue
  split
  next => exact held
  next f due =>
    obtain ⟨some, -, empty⟩ := Lc.chainDue_some due
    split
    next =>
      obtain ⟨fifo, used, oldest, -⟩ := held
      refine State.dispatch_ringHeld ⟨fifo, ?_, oldest, fun more => absurd empty more⟩
      refine Nat.le_trans (Nat.le_of_eq ?_) used
      simp only [State.setLc_lc, Ring.used, some, List.map_append, List.sum_append, List.map_cons, List.map_nil,
        List.sum_cons, List.sum_nil]
      omega
    next => simpa [Lc.RingHeld] using held.freeFilling

/-- Completion of a chain that has passed leaves a chain in reception. -/
theorem State.completeDue_receiving (s : State) : s.completeDue.lc.ring.receiving ↔ s.lc.ring.receiving := by
  unfold State.completeDue
  split
  next => rfl
  next f due =>
    obtain ⟨some, passed, -⟩ := Lc.chainDue_some due
    have done : ¬ s.lc.ring.receiving := by
      rintro ⟨g, held, waits⟩
      cases some.symm.trans held
      exact nomatch passed.symm.trans waits
    refine iff_of_false ?_ done
    split
    next =>
      rw [State.dispatch_receiving]
      rintro ⟨g, none, -⟩
      exact nomatch none
    next => simpa using s.lc.freeFilling_receiving

/-! ### The watch (R30) -/

/-- The watch in its ranges, whatever the receiver does. -/
def Watch.Ranged (w : Watch) : Prop := w.idleRun ≤ 64 ∧ w.busyBits ≤ 5000 ∧ (w.reported = true → w.busyBits = 5000)

/-- After 64 bit times at 1 no busy period is counted. -/
def Watch.Settled (w : Watch) : Prop := w.idleRun = 64 → w.busyBits = 0 ∧ w.reported = false

/-- The watch where a busy period at its limit is reported. -/
def Watch.told (w : Watch) : Watch := { w with reported := w.reported || decide (w.busyBits = stuckBits) }

section
variable {w : Watch}

theorem Watch.Ranged.count (ranged : w.Ranged) (b : Bool) : (w.count b).Ranged := by
  obtain ⟨-, -, limit⟩ := ranged
  refine ⟨?_, Nat.min_le_left _ _, fun reported => ?_⟩
  · simp only [Watch.count, idleBits]
    split <;> omega
  · simp [Watch.count, stuckBits, limit reported]

theorem Watch.Ranged.follow (ranged : w.Ranged) (bits : List Bool) : (w.follow bits).Ranged := by
  induction bits generalizing w with
  | nil => exact ranged
  | cons b rest ih => exact ih (ranged.count b)

theorem Watch.Ranged.settle (ranged : w.Ranged) (inFrame : Bool) : (w.settle inFrame).Ranged := by
  unfold Watch.settle
  split
  · exact ⟨ranged.1, Nat.zero_le _, (nomatch ·)⟩
  · exact ranged

theorem Watch.Ranged.drive (ranged : w.Ranged) (bits : Nat) : (w.drive bits).Ranged := by
  obtain ⟨-, -, limit⟩ := ranged
  refine ⟨Nat.zero_le _, Nat.min_le_left _ _, fun reported => ?_⟩
  simp [Watch.drive, stuckBits, limit reported]

theorem Watch.Ranged.told (ranged : w.Ranged) : w.told.Ranged := by
  obtain ⟨idle, busy, limit⟩ := ranged
  refine ⟨idle, busy, fun reported => ?_⟩
  rcases Bool.or_eq_true_iff.1 reported with h | h
  · exact limit h
  · exact of_decide_eq_true h

theorem Watch.settle_settled (w : Watch) : (w.settle false).Settled := by
  intro idle
  unfold Watch.settle at idle ⊢
  split
  · exact ⟨rfl, rfl⟩
  next busy =>
    rw [if_neg busy] at idle
    exact absurd ⟨idle, rfl⟩ busy

theorem Watch.drive_settled (w : Watch) (bits : Nat) : (w.drive bits).Settled := by
  intro idle
  exact nomatch idle

theorem Watch.Settled.told (settled : w.Settled) : w.told.Settled := by
  intro idle
  obtain ⟨busy, reported⟩ := settled idle
  exact ⟨busy, by simp [Watch.told, busy, reported, stuckBits]⟩

theorem Watch.count_ahead (w : Watch) (b : Bool) : (w.count b).ahead = w.ahead := rfl

theorem Watch.follow_ahead_eq (w : Watch) (bits : List Bool) : (w.follow bits).ahead = w.ahead := by
  induction bits generalizing w with
  | nil => rfl
  | cons b rest ih => exact ih (w.count b)

theorem Watch.settle_ahead (w : Watch) (inFrame : Bool) : (w.settle inFrame).ahead = w.ahead := by
  unfold Watch.settle
  split <;> rfl

end

/-- Outside a frame the line is idle after 64 bit times at 1. -/
theorem Lc.lineIdle_iff (lc : Lc) :
    lc.lineIdle = true ↔ lc.watch.idleRun = 64 ∧ lc.receiver.state.inFrame = false := by
  show (decide (lc.watch.idleRun = 64) && !lc.receiver.state.inFrame) = true ↔ _
  simp

theorem Lc.WatchSound.ranged {lc : Lc} (sound : lc.WatchSound) : lc.watch.Ranged := by
  obtain ⟨idle, busy, -, limit, -⟩ := sound
  exact ⟨idle, busy, limit⟩

theorem Receiver.unitBits_outside {r : Receiver} (outside : r.state.inFrame = false) : r.unitBits = 0 := by
  unfold Receiver.unitBits
  cases h : r.state <;> simp [h, ReceiverState.inFrame] at outside <;> rfl

theorem Receiver.unitBits_inFrame {r : Receiver} (inFrame : r.state.inFrame = true) : 0 < r.unitBits := by
  unfold Receiver.unitBits
  cases h : r.state <;> simp [h, ReceiverState.inFrame] at inFrame <;> dsimp only <;> (try split) <;> decide

/-- Outside a frame the watch is settled, and no bit is counted ahead. -/
theorem Lc.WatchSound.outside {lc : Lc} (sound : lc.WatchSound) (outside : lc.receiver.state.inFrame = false) :
    lc.watch.Settled ∧ lc.watch.ahead = 0 := by
  obtain ⟨-, -, settled, -, ahead⟩ := sound
  refine ⟨fun idle => settled (lc.lineIdle_iff.2 ⟨idle, outside⟩), ?_⟩
  rw [Receiver.unitBits_outside outside] at ahead
  omega

theorem Lc.watchSound_of_settled {lc : Lc} (ranged : lc.watch.Ranged) (settled : lc.watch.Settled)
    (ahead : lc.watch.ahead = 0) : lc.WatchSound := by
  obtain ⟨idle, busy, limit⟩ := ranged
  exact ⟨idle, busy, fun line => settled (lc.lineIdle_iff.1 line).1, limit, Or.inl ahead⟩

theorem Lc.watchSound_inFrame {lc : Lc} (inFrame : lc.receiver.state.inFrame = true) (ranged : lc.watch.Ranged)
    (ahead : lc.watch.ahead = 0 ∨ lc.watch.ahead < lc.receiver.unitBits) : lc.WatchSound := by
  obtain ⟨idle, busy, limit⟩ := ranged
  refine ⟨idle, busy, fun line => ?_, limit, ahead⟩
  have := (lc.lineIdle_iff.1 line).2
  exact nomatch this.symm.trans inFrame

section
variable (s : State)

theorem State.tally_told (w : Watch) : (s.tally w).lc.watch = w.told := s.tally_watch w

/-- The bits of a unit in the frame leave the watch in its ranges, with none counted ahead. -/
theorem State.watchBits_watch (ranged : s.lc.watch.Ranged) (bits : List Bool) :
    (s.watchBits bits).lc.watch.Ranged ∧ (s.watchBits bits).lc.watch.ahead = 0 := by
  simp only [State.watchBits, State.tally_told]
  have afresh : ({ s.lc.watch with ahead := 0 } : Watch).Ranged := ranged
  refine ⟨(afresh.follow _).told, ?_⟩
  simp only [Watch.told]
  exact Watch.follow_ahead_eq _ _

/-- The bits with the last of which the frame ends leave a settled watch. -/
theorem State.watchEnd_watch (ranged : s.lc.watch.Ranged) (bits : List Bool) :
    (s.watchEnd bits).lc.watch.Ranged ∧ (s.watchEnd bits).lc.watch.Settled ∧ (s.watchEnd bits).lc.watch.ahead = 0 := by
  obtain ⟨first, none⟩ := s.watchBits_watch ranged bits.dropLast
  simp only [State.watchEnd, State.tally_told]
  refine ⟨((first.follow _).settle false).told, (Watch.settle_settled _).told, ?_⟩
  simp only [Watch.told, Watch.settle_ahead, Watch.follow_ahead_eq]
  exact none

theorem State.watchAhead_watchSound (sound : s.lc.WatchSound) (inFrame : s.lc.receiver.state.inFrame = true)
    (bits : List Bool) : (s.watchAhead bits).lc.WatchSound := by
  refine Lc.watchSound_inFrame (by simpa using inFrame) ?_ (Or.inr ?_)
  · simp only [State.watchAhead, State.tally_told]
    exact Watch.Ranged.told (w := { s.lc.watch.follow _ with ahead := _ }) (sound.ranged.follow _)
  · have positive := Receiver.unitBits_inFrame inFrame
    obtain ⟨-, -, -, -, ahead⟩ := sound
    simp only [State.watchAhead, State.tally_told, Watch.told, State.tally_frame, List.length_take]
    omega

/-- One bit taken in DISCARD or HUNT leads to no state but DISCARD, HUNT and HEADER (R16). -/
theorem Receiver.sample_state (r : Receiver) (b : Bool) (takes : r.state = .discard ∨ r.state = .hunt) :
    (r.sample b).state = .discard ∨ (r.sample b).state = .hunt ∨ (r.sample b).state = .header := by
  unfold Receiver.sample
  rcases takes with h | h
  · rw [h]
    dsimp only
    generalize (if b = true then r.ones + 1 else 0) = ones
    split
    · exact Or.inr (Or.inl rfl)
    · exact Or.inl rfl
  · rw [h]
    dsimp only
    split
    · exact Or.inr (Or.inl rfl)
    · exact Or.inr (Or.inr rfl)

/-- A receiver state in which no frame is stored and nothing is sent. -/
def ReceiverState.aside (x : ReceiverState) : Prop := x ≠ .store ∧ x ≠ .suspended

theorem State.sampleBit_aside (b : Bool) (aside : s.lc.receiver.state.aside) :
    (s.sampleBit b).lc.receiver.state.aside := by
  rw [State.sampleBit_receiver]
  split
  next takes => rcases s.lc.receiver.sample_state b takes with h | h | h <;> simp [h, ReceiverState.aside]
  next => exact aside

theorem State.sampleBit_watchSound (b : Bool) (sound : s.lc.WatchSound) : (s.sampleBit b).lc.WatchSound := by
  by_cases takes : s.lc.receiver.state = .discard ∨ s.lc.receiver.state = .hunt
  · have outside : s.lc.receiver.state.inFrame = false := by rcases takes with h | h <;> simp [h, ReceiverState.inFrame]
    obtain ⟨-, ahead⟩ := sound.outside outside
    have watch : (s.sampleBit b).lc.watch =
        ((s.lc.watch.count b).settle (s.lc.receiver.sample b).state.inFrame).told := by
      simp only [State.sampleBit, if_pos takes, State.tally_told]
    have receiver : (s.sampleBit b).lc.receiver = s.lc.receiver.sample b := by rw [State.sampleBit_receiver, if_pos takes]
    have ranged := ((sound.ranged.count b).settle (s.lc.receiver.sample b).state.inFrame).told
    have none : (s.sampleBit b).lc.watch.ahead = 0 := by
      simp only [watch, Watch.told, Watch.settle_ahead, Watch.count_ahead]
      exact ahead
    cases inFrame : (s.lc.receiver.sample b).state.inFrame with
    | true => exact Lc.watchSound_inFrame (receiver ▸ inFrame) (watch ▸ ranged) (Or.inl none)
    | false =>
      refine Lc.watchSound_of_settled (watch ▸ ranged) ?_ none
      rw [watch, inFrame]
      exact (Watch.settle_settled _).told
  · rwa [State.sampleBit, if_neg takes]

theorem State.sampleBits_intake (bits : List Bool) (aside : s.lc.receiver.state.aside) (sound : s.lc.WatchSound) :
    (s.sampleBits bits).lc.receiver.state.aside ∧ (s.sampleBits bits).lc.WatchSound := by
  induction bits generalizing s with
  | nil => exact ⟨aside, sound⟩
  | cons b rest ih => exact ih (s.sampleBit b) (s.sampleBit_aside b aside) (s.sampleBit_watchSound b sound)

end

/-! ### The parts of the invariant through one command -/

section
variable {s t : State}

/-- The receiver stands, or changes, aside of STORE and SUSPENDED: no chain in reception and no drive. -/
theorem Lc.Intake.aside (held : s.lc.Intake) (chain : ReportChain s t) (before : s.lc.receiver.state.aside)
    (ring : t.lc.RingHeld) (after : t.lc.receiver.state.aside) (receiving : ¬ t.lc.ring.receiving)
    (watch : t.lc.WatchSound) : t.lc.Intake where
  ring := ring
  store := iff_of_false after.1 receiving
  suspended := iff_of_false after.2 ((not_congr chain.driving).2 fun drives => before.2 (held.suspended.2 drives))
  transmit := chain.transmitSound held.transmit
  watch := watch

/-- Only reports, or nothing, happen to the Line Controller. -/
theorem Lc.Intake.chain (held : s.lc.Intake) (chain : ReportChain s t) (receiver : t.lc.receiver = s.lc.receiver)
    (ring : t.lc.RingHeld) (receiving : t.lc.ring.receiving ↔ s.lc.ring.receiving) (watch : t.lc.WatchSound) :
    t.lc.Intake where
  ring := ring
  store := by rw [receiver, receiving]; exact held.store
  suspended := by rw [receiver, chain.driving]; exact held.suspended
  transmit := chain.transmitSound held.transmit
  watch := watch

theorem Lc.Intake.congr {a b : Lc} (held : a.Intake) (same : b = a) : b.Intake := same ▸ held

theorem Lc.WatchSound.congr {a b : Lc} (sound : a.WatchSound) (watch : b.watch = a.watch)
    (receiver : b.receiver = a.receiver) : b.WatchSound := by
  unfold Lc.WatchSound Lc.lineIdle
  rw [watch, receiver]
  exact sound

theorem Lc.RingHeld.congr {a b : Lc} (held : a.RingHeld) (fifo : b.fifo = a.fifo) (ring : b.ring = a.ring) :
    b.RingHeld := by
  unfold Lc.RingHeld
  rw [fifo, ring]
  exact held

/-- Commands that leave receiver, ring, FIFO and watch. -/
theorem Lc.Intake.stands (held : s.lc.Intake) (chain : ReportChain s t) (receiver : t.lc.receiver = s.lc.receiver)
    (fifo : t.lc.fifo = s.lc.fifo) (ring : t.lc.ring = s.lc.ring) (watch : t.lc.watch = s.lc.watch) : t.lc.Intake :=
  held.chain chain receiver (held.ring.congr fifo ring) (by rw [ring]) (held.watch.congr watch receiver)

/-- Completion of a delivered notice, after reports (R29). -/
theorem Lc.Intake.completeNotice (held : s.lc.Intake) : s.completeNotice.lc.Intake :=
  held.chain (.aside (by simp) (by simp) (by simp) (by simp)) (by simp) (State.completeNotice_ringHeld held.ring)
    s.completeNotice_receiving (held.watch.congr (by simp) (by simp))

theorem Lc.Intake.not_receiving (held : s.lc.Intake) (other : s.lc.receiver.state ≠ .store) : ¬ s.lc.ring.receiving :=
  (not_congr held.store).1 other

theorem Lc.Intake.not_driving (held : s.lc.Intake) (other : s.lc.receiver.state ≠ .suspended) : ¬ s.lc.driving :=
  (not_congr held.suspended).1 other

end

/-! ### The receive operations on receiver and ring -/

/-- What the follow of a passing header leads to: STORE with its chain in reception, or another state of the frame
with none (R18, R22). -/
def Lc.Followed (lc : Lc) : Prop :=
  lc.RingHeld ∧ lc.receiver.state.inFrame = true ∧ (lc.receiver.state = .store ↔ lc.ring.receiving)

theorem State.enterStore_followed {s : State} (ring : s.lc.RingHeld) (not_receiving : ¬ s.lc.ring.receiving) :
    s.enterStore.lc.Followed := by
  have due := State.completeDue_ringHeld ring
  simp only [State.enterStore]
  split
  next empty =>
    refine ⟨(due.beginFrame false false (by simp [Header.bytes])).congr rfl rfl, rfl, iff_of_true rfl ?_⟩
    exact (Lc.beginFrame_receiving _ _ _ _).2 rfl
  next waits =>
    refine ⟨due.congr (by simp) (by simp), by simp [ReceiverState.inFrame], ?_⟩
    simpa [State.completeDue_receiving] using not_receiving

theorem State.followFrame_followed {s : State} (ring : s.lc.RingHeld) (not_receiving : ¬ s.lc.ring.receiving)
    (k : NoticeKind) : (s.followFrame k).lc.Followed := by
  simp only [State.followFrame]
  split
  next => exact State.enterStore_followed ring not_receiving
  next => exact ⟨ring.congr rfl rfl, rfl, iff_of_false (nomatch ·) not_receiving⟩
  next => exact ⟨ring.congr rfl rfl, rfl, iff_of_false (nomatch ·) not_receiving⟩

/-- A byte offered in STORE is stored, or the frame is lost and its chain freed (R21, R22). -/
theorem State.offerByte_followed {t : State} (ring : t.lc.RingHeld) (store : t.lc.receiver.state = .store)
    (receiving : t.lc.ring.receiving) (b : Byte) : (t.offerByte b).lc.Followed := by
  unfold State.offerByte
  split
  next room =>
    obtain ⟨-, used, oldest, -⟩ := ring
    refine ⟨Lc.RingHeld.drain ⟨?_, used, oldest, fun _ => ?_⟩, ?_, ?_⟩
    · have room : t.lc.fifo.length < 48 := room
      rw [List.length_append, List.length_singleton]
      omega
    · obtain ⟨f, some, -⟩ := receiving
      simp [some]
    · simp [store, ReceiverState.inFrame]
    · simpa [store, Lc.drain_receiving] using receiving
  next full =>
    refine ⟨ring.freeFilling.congr (by simp) (by simp), by simp [ReceiverState.inFrame], ?_⟩
    simpa using t.lc.freeFilling_receiving

/-- A stored frame ends: its chain has passed, or is freed (R20, R25). -/
theorem State.endStored_ended {t : State} (ring : t.lc.RingHeld) (passes : Bool) :
    (t.endStored passes).lc.RingHeld ∧ (t.endStored passes).lc.receiver.state = .hunt ∧
      ¬ (t.endStored passes).lc.ring.receiving := by
  unfold State.endStored
  split
  next =>
    refine ⟨?_, rfl, ?_⟩
    · obtain ⟨fifo, used, oldest, filling⟩ := ring
      refine ⟨fifo, Nat.le_trans (Nat.le_of_eq ?_) used, oldest, fun more => ?_⟩
      · simp only [State.toHunt, State.setReceiver, State.setLc_lc, Ring.used]
        cases t.lc.ring.filling <;> rfl
      · simpa using filling more
    · rintro ⟨f, some, waits⟩
      simp only [State.toHunt_frame, State.setLc_lc, Option.map_eq_some_iff] at some
      obtain ⟨g, -, rfl⟩ := some
      exact nomatch waits
  next =>
    refine ⟨ring.freeFilling.congr (by simp) (by simp), by simp [State.toHunt], ?_⟩
    simpa using t.lc.freeFilling_receiving

/-- A foreign frame ends with a header-only chain that has passed, or with none (R20, R26). -/
theorem State.endForeign_ended {t : State} (ring : t.lc.RingHeld) (not_receiving : ¬ t.lc.ring.receiving)
    (passes : Bool) : (t.endForeign passes).lc.RingHeld ∧ (t.endForeign passes).lc.receiver.state = .hunt ∧
      ¬ (t.endForeign passes).lc.ring.receiving := by
  have due : t.toHunt.completeDue.lc.RingHeld := State.completeDue_ringHeld (ring.congr rfl rfl)
  have hunt : t.toHunt.completeDue.lc.receiver.state = .hunt := by simp [State.toHunt]
  have none : ¬ t.toHunt.completeDue.lc.ring.receiving := by simpa [State.completeDue_receiving] using not_receiving
  simp only [State.endForeign]
  split
  next =>
    split
    next =>
      refine ⟨(due.beginFrame true true (by simp [Header.bytes])).congr rfl rfl, ?_, ?_⟩
      · simpa [State.dropHeader] using hunt
      · exact (not_congr (Lc.beginFrame_receiving _ _ _ _)).2 (nomatch ·)
    next =>
      exact ⟨due.congr (by simp) (by simp), by simpa [State.dropHeader] using hunt, by simpa using none⟩
  next =>
    exact ⟨ring.congr (by simp) (by simp), by simp [State.toHunt, State.dropHeader], by simpa using not_receiving⟩

/-! ### The receive commands -/

section
variable {s : State} (held : s.lc.Intake)
include held

/-- Bits are taken in DISCARD and HUNT alone (R16). -/
theorem Lc.Intake.sampleBits (bits : List Bool) : (s.sampleBits bits).lc.Intake := by
  by_cases takes : s.lc.receiver.state = .discard ∨ s.lc.receiver.state = .hunt
  · have aside : s.lc.receiver.state.aside := by rcases takes with h | h <;> simp [h, ReceiverState.aside]
    obtain ⟨after, watch⟩ := s.sampleBits_intake bits aside held.watch
    refine held.aside (s.sampleBits_chain bits) aside (held.ring.congr (by simp) (by simp)) after ?_ watch
    simpa using held.not_receiving aside.1
  · rw [not_or] at takes
    rwa [s.sampleBits_elsewhere takes.1 takes.2]

/-- A busy period that stands at its limit is reported (R30). -/
theorem Lc.Intake.tally : (s.tally s.lc.watch).lc.Intake := by
  refine held.chain (s.tally_chain _) (by simp) (held.ring.congr (by simp) (by simp)) (by simp) ?_
  obtain ⟨-, -, settled, -, ahead⟩ := held.watch
  obtain ⟨idle, busy, limit⟩ := held.watch.ranged.told
  have line : (s.tally s.lc.watch).lc.lineIdle = s.lc.lineIdle := by simp [Lc.lineIdle]
  unfold Lc.WatchSound
  rw [State.tally_told, line]
  refine ⟨idle, busy, fun idles => ?_, limit, by simpa [Watch.told] using ahead⟩
  obtain ⟨none, silent⟩ := settled idles
  exact ⟨none, by simp [Watch.told, none, silent, stuckBits]⟩

/-- A frame that fails, or ends, leaves its chain and the watch is settled (R17, R20). -/
theorem Lc.Intake.headerFails (header : s.lc.receiver.state = .header) (bits : List Bool) (r : Receiver) :
    (((s.watchEnd bits).setReceiver r.toDiscard).raise .lineCrc).lc.Intake := by
  have aside : s.lc.receiver.state.aside := by simp [header, ReceiverState.aside]
  obtain ⟨ranged, settled, ahead⟩ := s.watchEnd_watch held.watch.ranged bits
  refine held.aside ((s.watchEnd_chain bits).trans ((State.raise_chain _ .lineCrc).after (by simp) (by simp) (by simp)
    (by simp))) aside (held.ring.congr (by simp) (by simp)) ?_ ?_ ?_
  · simp [Receiver.toDiscard, ReceiverState.aside]
  · simpa using held.not_receiving aside.1
  · exact Lc.watchSound_of_settled (by simpa using ranged) (by simpa using settled) (by simpa using ahead)

/-- A receiver in a frame is not SUSPENDED, and the frame goes on: the bits of a unit are counted. -/
theorem Lc.Intake.goesOn {t : State} (inFrame : s.lc.receiver.state.inFrame = true) (chain : ReportChain s t)
    (followed : t.lc.Followed) {bits : List Bool} (watch : t.lc.watch = (s.watchBits bits).lc.watch) :
    t.lc.Intake := by
  obtain ⟨ring, after, store⟩ := followed
  obtain ⟨ranged, ahead⟩ := s.watchBits_watch held.watch.ranged bits
  have silent : ¬ s.lc.driving := held.not_driving fun h => by simp [h, ReceiverState.inFrame] at inFrame
  refine ⟨ring, store, iff_of_false (fun h => ?_) ((not_congr chain.driving).2 silent), chain.transmitSound held.transmit,
    Lc.watchSound_inFrame after (watch ▸ ranged) (Or.inl (watch ▸ ahead))⟩
  simp [h, ReceiverState.inFrame] at after

/-- The frame has ended: the receiver looks for the next one, no chain is in reception, and the watch is settled
(R19, R30). -/
theorem Lc.Intake.ends {t : State} (inFrame : s.lc.receiver.state.inFrame = true) (chain : ReportChain s t)
    (ring : t.lc.RingHeld) (hunt : t.lc.receiver.state = .hunt) (receiving : ¬ t.lc.ring.receiving)
    {bits : List Bool} (watch : t.lc.watch = (s.watchEnd bits).lc.watch) : t.lc.Intake := by
  obtain ⟨ranged, settled, ahead⟩ := s.watchEnd_watch held.watch.ranged bits
  have silent : ¬ s.lc.driving := held.not_driving fun h => by simp [h, ReceiverState.inFrame] at inFrame
  exact ⟨ring, iff_of_false (by simp [hunt]) receiving, iff_of_false (by simp [hunt]) ((not_congr chain.driving).2 silent),
    chain.transmitSound held.transmit, Lc.watchSound_of_settled (watch ▸ ranged) (watch ▸ settled) (watch ▸ ahead)⟩

end

/-! ### The transmit commands (R32 to R36) -/

/-- A release of the notice leaves a transmitter that does not drive the line (R33, R35). -/
theorem State.releaseNotice_transmit {t : State} (distinct : (t.lc.queue.map BoardNotice.kind).Nodup) :
    ¬ t.releaseNotice.lc.driving ∧ t.releaseNotice.lc.TransmitSound := by
  refine ⟨(not_congr (State.takeNotice_driving _)).2 ?_, State.takeNotice_transmitSound ⟨iff_of_true rfl rfl, distinct⟩⟩
  rintro (h | h) <;> exact nomatch h

section
variable {s : State} (held : s.lc.Intake)
include held

theorem Lc.Intake.suspended_of_driving (drives : s.lc.driving) : s.lc.receiver.state = .suspended :=
  held.suspended.2 drives

/-- The line is released: the receiver enters DISCARD, and the transmitter drives no more (R15). -/
theorem Lc.Intake.resumed (drives : s.lc.driving) {t : State} {bits : Nat}
    (receiver : t.lc.receiver = s.lc.receiver.toDiscard) (fifo : t.lc.fifo = s.lc.fifo) (ring : t.lc.ring = s.lc.ring)
    (watch : t.lc.watch = s.lc.watch.drive bits) (silent : ¬ t.lc.driving) (transmit : t.lc.TransmitSound) :
    t.lc.Intake := by
  have suspended := held.suspended_of_driving drives
  refine ⟨held.ring.congr fifo ring, iff_of_false ?_ ?_, iff_of_false ?_ silent, transmit, ?_⟩
  · simp [receiver, Receiver.toDiscard]
  · rw [ring]
    exact held.not_receiving (by simp [suspended])
  · simp [receiver, Receiver.toDiscard]
  · have outside : s.lc.receiver.state.inFrame = false := by simp [suspended, ReceiverState.inFrame]
    refine Lc.watchSound_of_settled ?_ ?_ ?_
    · exact watch ▸ held.watch.ranged.drive bits
    · exact watch ▸ s.lc.watch.drive_settled bits
    · rw [watch]
      exact (held.watch.outside outside).2

/-- A jam that ends with its notice released, after its report (R35, R36). -/
theorem Lc.Intake.givenUp (jam : s.lc.transmitter.state = .jam) (k : ReportKind) :
    ((s.resumeReceiver jamBits).raise k).releaseNotice.lc.Intake := by
  have resumed : (s.resumeReceiver jamBits).lc.TransmitSound := held.transmit
  obtain ⟨silent, transmit⟩ := State.releaseNotice_transmit ((State.raise_chain _ k).transmitSound resumed).2
  refine held.resumed (bits := jamBits) (Or.inr jam) ?_ (by simp) (by simp) ?_ silent transmit
  · simp [State.resumeReceiver]
  · simp [State.resumeReceiver]

/-- A jam that ends with another attempt to come (R35). -/
theorem Lc.Intake.backedOff (jam : s.lc.transmitter.state = .jam) : (s.resumeReceiver jamBits).backOff.lc.Intake := by
  obtain ⟨idle, distinct⟩ := held.transmit
  have notice : s.lc.transmitter.notice ≠ none := (not_congr idle).1 (by simp [jam])
  have state : (s.resumeReceiver jamBits).backOff.lc.transmitter.state = .wait ∨
      (s.resumeReceiver jamBits).backOff.lc.transmitter.state = .backoff := by
    simp only [State.backOff]
    split
    · exact Or.inl rfl
    · exact Or.inr rfl
  refine held.resumed (bits := jamBits) (Or.inr jam) rfl rfl rfl rfl ?_ ⟨iff_of_false ?_ notice, distinct⟩
  · rcases state with h | h <;> simp [Lc.driving, h]
  · rcases state with h | h <;> simp [h]

/-- A collision is followed by a jam: the transmitter drives on (R34). -/
theorem Lc.Intake.collided (send : s.lc.transmitter.state = .send) {x : Transmitter} (jam : x.state = .jam)
    (notice : x.notice = s.lc.transmitter.notice) (bits : Nat) :
    Lc.Intake { s.lc with transmitter := x, watch := s.lc.watch.drive bits } := by
  have suspended := held.suspended_of_driving (Or.inl send)
  obtain ⟨ring, store, -, ⟨idle, distinct⟩, watch⟩ := held
  refine ⟨ring, store, iff_of_true suspended (Or.inr jam), ⟨iff_of_false (by simp [jam]) ?_, distinct⟩, ?_⟩
  · exact notice ▸ (not_congr idle).1 (by simp [send])
  · have outside : s.lc.receiver.state.inFrame = false := by simp [suspended, ReceiverState.inFrame]
    exact Lc.watchSound_of_settled (watch.ranged.drive bits) (s.lc.watch.drive_settled bits) (watch.outside outside).2

theorem Lc.Intake.attempt (n : BoardNotice) (wait : s.lc.transmitter.state = .wait) (line : s.lc.lineIdle = true)
    (notice : s.lc.transmitter.notice = some n) : (s.beginAttempt n).lc.Intake := by
  have outside := (s.lc.lineIdle_iff.1 line).2
  have not_receiving := held.not_receiving fun h => by simp [h, ReceiverState.inFrame] at outside
  obtain ⟨-, distinct⟩ := held.transmit
  refine ⟨held.ring.congr rfl rfl, iff_of_false (nomatch ·) not_receiving, iff_of_true rfl (Or.inl rfl), ⟨?_, distinct⟩,
    ?_⟩
  · simp [State.beginAttempt, notice]
  · exact Lc.watchSound_of_settled ⟨Nat.zero_le _, Nat.zero_le _, (nomatch ·)⟩ (nomatch ·) rfl

/-- The backoff has ended: the transmitter waits for the line (R35). -/
theorem Lc.Intake.backoffEnds (backoff : s.lc.transmitter.state = .backoff) :
    (s.setTransmitter { s.lc.transmitter with state := .wait, slots := 0 }).lc.Intake := by
  obtain ⟨ring, store, suspended, ⟨idle, distinct⟩, watch⟩ := held
  refine ⟨ring, store, suspended.trans (iff_of_false ?_ ?_), ⟨iff_of_false (nomatch ·) ?_, distinct⟩, watch⟩
  · simp [Lc.driving, backoff]
  · rintro (h | h) <;> exact nomatch h
  · exact (not_congr idle).1 (by simp [backoff])

end

/-! ### Every command -/

/-- The commands of LOAD find the Line Controller at its reset values, and leave it there or in DISCARD. -/
theorem Lc.AtReset.intake_of_frame {a b : Lc} (reset : a.AtReset) (receiver : b.receiver = a.receiver ∨
    b.receiver = a.receiver.toDiscard) (fifo : b.fifo = a.fifo) (ring : b.ring = a.ring) (queue : b.queue = a.queue)
    (transmitter : b.transmitter = a.transmitter) (watch : b.watch = a.watch) : b.Intake := by
  have whole : b = { a with receiver := b.receiver } := by
    cases b
    simp_all
  rw [whole]
  refine reset.intake ?_
  rcases receiver with h | h <;> rw [h]
  · exact Or.inl reset.1
  · exact Or.inr rfl

theorem State.fontFails_receiver (s : State) : s.fontFails.lc.receiver = s.lc.receiver.toDiscard := by
  simp [State.fontFails, State.useFallbackFont, State.endLoad, State.enterListen]

theorem State.readFontByte_receiver (s : State) (a : Nat) (b : Byte) :
    (s.readFontByte a b).lc.receiver = s.lc.receiver ∨ (s.readFontByte a b).lc.receiver = s.lc.receiver.toDiscard := by
  simp only [State.readFontByte]
  split
  · exact Or.inr s.fontFails_receiver
  · split
    · split
      · exact Or.inr (by simp [State.fontStands, State.endLoad, State.enterListen])
      · exact Or.inr s.fontFails_receiver
    · exact Or.inl rfl

/-- A warm restart empties FIFO, ring and queue and lets the receiver look again (R38). -/
theorem Lc.restart_intake (lc : Lc) : lc.restart.Intake :=
  Lc.intake_of_reset (Or.inr rfl) rfl rfl rfl (Nat.mod_lt _ (by decide)) rfl rfl rfl rfl

theorem State.coldReset_intake (s : State) : s.coldReset.lc.Intake :=
  Lc.intake_of_reset (Or.inl rfl) rfl rfl rfl (Nat.zero_lt_succ 23) rfl rfl rfl rfl

/-- Every command keeps what the intake invariant says of the Line Controller. -/
theorem Act.keeps_intake {s t : State} {i : Instr} (startup : s.StartupSound) (held : s.lc.Intake) (act : Act s i t) :
    t.lc.Intake := by
  have chain (other : ¬ SendsOrEnters i) : ReportChain s t := act.chain other
  have load (inLoad : s.sc.node = .load) : s.lc.AtReset := (startup.blocksAtReset (Or.inr inLoad)).1
  cases act with
  | idle => exact held
  | coldReset => exact s.coldReset_intake
  | beginLoad => exact held
  | skipLoad node reset =>
    refine ((startup.blocksAtReset (Or.inl reset)).1).intake_of_frame (Or.inr ?_) ?_ ?_ ?_ ?_ ?_
    · exact State.fontFails_receiver _
    all_goals simp
  | profileByte a b inLoad => refine (load inLoad).intake_of_frame (Or.inl ?_) ?_ ?_ ?_ ?_ ?_ <;> simp
  | fontByte a b inLoad =>
    refine (load inLoad).intake_of_frame (s.readFontByte_receiver a b) ?_ ?_ ?_ ?_ ?_ <;> simp
  | profileTimeout a inLoad => refine (load inLoad).intake_of_frame (Or.inl ?_) ?_ ?_ ?_ ?_ ?_ <;> simp
  | fontTimeout a inLoad =>
    refine (load inLoad).intake_of_frame (Or.inr s.fontFails_receiver) ?_ ?_ ?_ ?_ ?_ <;> simp
  | enterRun =>
    have entered : s.inRun.lc.Intake := held
    exact entered.stands s.enterRun_chain (by simp [State.inRun]) (by simp [State.inRun]) (by simp [State.inRun])
      (by simp [State.inRun])
  | discardBits bits discard => exact held.sampleBits bits
  | huntBits bits hunt => exact held.sampleBits bits
  | headerFails h header => exact held.headerFails header h.bits _
  | headerPasses h k header =>
    have none := held.not_receiving (by simp [header])
    refine held.goesOn (by simp [header, ReceiverState.inFrame]) (chain (by rintro ⟨⟨⟨⟩⟩⟩))
      (State.followFrame_followed (held.ring.congr (by simp) (by simp)) (by simpa using none) k) (bits := h.bits) ?_
    simp
  | storedByte b more store =>
    refine held.goesOn (by simp [store, ReceiverState.inFrame]) (chain (by rintro ⟨⟨⟨⟩⟩⟩))
      (State.offerByte_followed (held.ring.congr (by simp) (by simp)) ?_ ?_ b) (bits := byteBits b) ?_
    · simpa [State.feedByte] using store
    · simpa using held.store.1 store
    · simp
  | foreignByte b more foreign =>
    have none := held.not_receiving (by simp [foreign])
    refine held.goesOn (by simp [foreign, ReceiverState.inFrame]) (chain (by rintro ⟨⟨⟨⟩⟩⟩))
      ⟨held.ring.congr (by simp) (by simp), ?_, ?_⟩ (bits := byteBits b) ?_
    · simp [State.feedByte, foreign, ReceiverState.inFrame]
    · simpa [State.feedByte, foreign] using none
    · simp
  | otherByte b more other =>
    have inFrame : s.lc.receiver.state.inFrame = true := by rcases other with h | h <;> simp [h, ReceiverState.inFrame]
    have not_store : s.lc.receiver.state ≠ .store := by rcases other with h | h <;> simp [h]
    have none := held.not_receiving not_store
    refine held.goesOn inFrame (chain (by rintro ⟨⟨⟨⟩⟩⟩)) ⟨held.ring.congr (by simp) (by simp), inFrame, ?_⟩
      (bits := byteBits b) (by simp)
    simpa [not_store] using none
  | storedEnd check last store =>
    obtain ⟨ring, hunt, none⟩ := State.endStored_ended (t := s.watchEnd (checkBits check))
      (held.ring.congr (by simp) (by simp)) (s.lc.receiver.passes check)
    exact held.ends (by simp [store, ReceiverState.inFrame]) (chain (by rintro ⟨⟨⟨⟩⟩⟩)) ring hunt none
      (bits := checkBits check) (by simp)
  | foreignEnd check last foreign =>
    obtain ⟨ring, hunt, none⟩ := State.endForeign_ended (t := s.watchEnd (checkBits check))
      (held.ring.congr (by simp) (by simp)) (by simpa using held.not_receiving (by simp [foreign]))
      (s.lc.receiver.passes check)
    exact held.ends (by simp [foreign, ReceiverState.inFrame]) (chain (by rintro ⟨⟨⟨⟩⟩⟩)) ring hunt none
      (bits := checkBits check) (by simp)
  | otherEnd check last other =>
    have inFrame : s.lc.receiver.state.inFrame = true := by rcases other with h | h <;> simp [h, ReceiverState.inFrame]
    have none := held.not_receiving (by rcases other with h | h <;> simp [h])
    exact held.ends inFrame (chain (by rintro ⟨⟨⟨⟩⟩⟩)) (held.ring.congr (by simp) (by simp)) rfl (by simpa using none)
      (bits := checkBits check) (by simp)
  | completeDue =>
    exact held.chain s.completeDue_chain (by simp) (State.completeDue_ringHeld held.ring) s.completeDue_receiving
      (held.watch.congr (by simp) (by simp))
  | limitInFrame bits following inFrame =>
    exact held.chain (s.watchAhead_chain bits) (by simp) (held.ring.congr (by simp) (by simp)) (by simp)
      (s.watchAhead_watchSound held.watch inFrame bits)
  | limitOutside bits following outside =>
    exact (held.sampleBits bits).tally
  | attempt n wait line may notice => exact held.attempt n wait line notice
  | success send =>
    obtain ⟨silent, transmit⟩ := State.releaseNotice_transmit (t := s.resumeReceiver (frameBits s.lc.transmitter.frame).length)
      held.transmit.2
    exact held.resumed (Or.inl send) (by simp [State.resumeReceiver]) (by simp) (by simp)
      (by simp [State.resumeReceiver]; rfl) silent transmit
  | collision bit send => exact held.collided (x := { s.lc.transmitter with
      state := .jam, frame := [], late := decide (claimWindowBits ≤ bit) }) send rfl rfl (bit + 1)
  | lateJam jam => exact held.givenUp jam .txLate
  | backOff jam => exact held.backedOff jam
  | giveUp jam => exact held.givenUp jam .txGiveup
  | backoffEnd backoff => exact held.backoffEnds backoff
  | apply i c work =>
    have taken : (s.takeEffects (s.tb.withNote c work)).lc.Intake :=
      held.stands (s.takeEffects_chain _) (by simp) (by simp) (by simp) (by simp)
    exact taken.completeNotice.congr (by simp [State.completeApply])
  | boardNotice i k c =>
    have judged : ((s.adoptPace (paceAt c.body 1)).judgeBoardNotice k c.sender c.body).lc.Intake :=
      held.stands ((State.judgeBoardNotice_chain _ k c.sender c.body).after (by simp) (by simp) (by simp) (by simp))
        (by simp) (by simp) (by simp) (by simp)
    exact judged.completeNotice
  | dim c =>
    exact (held.stands ((s.directNote_chain c).trans (State.applyDim_chain _ c.body)) (by simp) (by simp) (by simp)
      (by simp)).completeNotice
  | staff c =>
    exact (held.stands ((s.directNote_chain c).trans (State.applyStaff_chain _ c.body)) (by simp) (by simp) (by simp)
      (by simp)).completeNotice
  | query c =>
    exact (held.stands ((s.directNote_chain c).trans (State.applyQuery_chain _ c.group c.body)) (by simp) (by simp)
      (by simp) (by simp)).completeNotice
  | restart c => exact Lc.restart_intake _
  | restartElsewhere c =>
    exact (held.stands (s.directNote_chain c) (by simp) (by simp) (by simp) (by simp)).completeNotice
  | restartMalformed c =>
    exact (held.stands ((s.directNote_chain c).trans (State.raise_chain _ .lineCrc)) (by simp) (by simp) (by simp)
      (by simp)).completeNotice
  | timerExpiry i tb e expires => exact held
  | expiryWork i fx => exact held.stands (s.completeExpiry_chain fx) (by simp) (by simp) (by simp) (by simp)
  | _ => exact held.stands (chain (by rintro ⟨⟨⟨⟩⟩⟩)) (by simp) (by simp) (by simp) (by simp)

/-- Settles O7: the start-up invariant, and the parts of the intake invariant through reception, completion and
transmission. -/
theorem intakeInvariantKept : Obligations.IntakeInvariantKept := by
  refine fun _ _ sound stepped => step_keeps (P := State.IntakeSound) (fun _ _ h => h) ?_ sound stepped
  intro s t i sound act
  obtain ⟨startup, held⟩ := s.intakeSound_iff.1 sound
  exact t.intakeSound_iff.2 ⟨act.keeps_startup startup, act.keeps_intake startup held⟩

end Sys2Proof.Machine
end

