-- ==== Sys2Proof/Proofs/StartupCommands.lean ====
section
/-! SUPPORT. The reset state has every invariant, and what the commands of RESET/ and LOAD do: the straps, the profile
read, the font read, and the entry to LISTEN they end in. -/

namespace Sys2Proof.Machine

/-- Settles O5: the reset state is a cold reset of itself, and each block at its reset values has its invariant. -/
theorem invariantsHoldAtReset : Obligations.InvariantsHoldAtReset := by
  have startup : State.reset.StartupSound := State.reset.coldReset_startupSound
  refine ⟨startup, ?_, Tb.reset_sound, fun v stored => (nomatch stored), Tb.reset_windowSound rfl rfl rfl, ?_, ?_, ?_⟩
  · exact State.reset.intakeSound_iff.2 ⟨startup, State.reset.coldReset_intake⟩
  · exact State.reset.agreementSound_iff.2 ⟨startup, Au.reset_fresh.agreementHeld rfl⟩
  · exact State.reset.bannerSound_iff.2 ⟨startup, State.bannerHeld_of_reset rfl⟩
  · exact ⟨startup, State.reset.coldReset_reportsHeld⟩

/-! ### The entry to LISTEN (R196) -/

/-- With every block at its reset values LOAD ends in LISTEN, with the profile and the font that stand. -/
theorem State.endLoad_entersListen {s : State} {p : Profile} {h : Nat} (reset : s.BlocksAtReset)
    (profile : s.sc.profile = some p) (height : s.pa.fontHeight = some h) :
    EntersListen s s.endLoad p h s.pa.glyphs := by
  obtain ⟨-, -, -, au, pa, bu, -⟩ := reset
  obtain ⟨-, -, -, swap, -⟩ := pa
  have prof : s.prof = p := by simp [State.prof, profile]
  have check : s.loadCheck = geometryCheck p.geometry h := by simp [State.loadCheck, prof, height]
  have entered : s.takeUp.enterListen.pa.swapPending = false := swap
  have ends : s.endLoad = s.takeUp.enterListen.sampleAndPaint := by
    simp only [State.endLoad, State.frameStart, State.swap, entered]
    rfl
  rw [ends]
  have sample : s.takeUp.enterListen.sampleNow =
      ⟨.listen, none, s.au.pace, s.tb.time.second, s.tb.time.stale, none, p.brightness⟩ := by
    simp [State.sampleNow, State.takeUp, State.enterListen, prof, show s.au.shown = none by rw [au],
      show s.bu.showing = none by rw [bu]; rfl]
  unfold EntersListen State.sampleAndPaint
  rw [sample]
  simp [State.takeUp, State.enterListen, Receiver.toDiscard, check, prof, profile, height, swap]

/-- A failed font read ends LOAD with the fallback font (R195). -/
theorem State.fontFails_entersListen {s : State} {p : Profile} (reset : s.BlocksAtReset)
    (profile : s.sc.profile = some p) : EntersListen s s.fontFails p 7 fallbackGlyphs := by
  have fallback : s.useFallbackFont.BlocksAtReset := reset.congr rfl rfl rfl rfl rfl rfl id
  exact State.endLoad_entersListen (s := s.useFallbackFont) fallback profile rfl

theorem State.fontFails_fontSource (s : State) : s.fontFails.sc.fontSource = some .builtIn := by
  simp [State.fontFails, State.useFallbackFont]

/-- A font that passes stands in the glyph store at the end of LOAD (R195). -/
theorem State.fontStands_entersListen {s : State} {p : Profile} (reset : s.BlocksAtReset)
    (profile : s.sc.profile = some p) (bytes : List Byte) :
    EntersListen s (s.fontStands bytes) p (num1 bytes 0) (fontGlyphs bytes (num1 bytes 0)) := by
  let read := (s.setPa { s.pa with fontHeight := some (num1 bytes 0), glyphs := fontGlyphs bytes (num1 bytes 0) }).setSc
    { s.sc with fontSource := some .read, fontBytes := bytes }
  have stands : read.BlocksAtReset := reset.congr rfl rfl rfl rfl rfl rfl id
  exact State.endLoad_entersListen (s := read) stands profile rfl

theorem State.fontStands_fontSource (s : State) (bytes : List Byte) :
    (s.fontStands bytes).sc.fontSource = some .read := by
  simp [State.fontStands]

/-! ### The commands of RESET/ and LOAD -/

/-- Settles O22: the reads begin, or the default profile and the fallback font are taken. -/
theorem resetReleaseSamplesStraps : Obligations.ResetReleaseSamplesStraps := by
  refine ⟨fun s node reset => if_pos reset, fun s node sound reset => ?_⟩
  let held := (s.setSc { s.sc with node := .load, nodeNumber := node, glyphStrap := false }).useDefaultProfile
  have stands : held.BlocksAtReset := (sound.blocksAtReset (Or.inl reset)).congr rfl rfl rfl rfl rfl rfl id
  refine ⟨held.fontFails, if_pos reset, ?_, ?_, ?_, held.fontFails_fontSource, ?_⟩
  · simp [held, State.useDefaultProfile]
  · simp [held, State.useDefaultProfile]
  · simp [held, State.useDefaultProfile]
  · exact State.fontFails_entersListen (s := held) stands rfl

section
variable {s : State} (load : s.sc.node = .load) {a : Nat} (position : s.sc.loadPosition = some a)
include load position

/-- The two reads are told apart by the address (R190). -/
theorem exec_glyphReadComplete (b : Byte) : exec (.glyphReadComplete b) s =
    .next (if a < 64 then s.readProfileByte a b else s.readFontByte a b) := by
  show execGlyphReadComplete b s = _
  simp only [execGlyphReadComplete, load, position]
  exact (apply_ite Host.Outcome.next _ _ _).symm

theorem exec_glyphReadTimeout : exec .glyphReadTimeout s =
    .next (if a < 64 then s.useDefaultProfile.beginFont else s.fontFails) := by
  show execGlyphReadTimeout s = _
  simp only [execGlyphReadTimeout, load, position]
  exact (apply_ite Host.Outcome.next _ _ _).symm

end

/-- Settles O23: a byte before the last, the block that passes or fails, and the timeout. -/
theorem profileReadSettlesProfile : Obligations.ProfileReadSettlesProfile := by
  intro s a b load position below
  rw [exec_glyphReadComplete load position, exec_glyphReadTimeout load position, if_pos below, if_pos below]
  refine ⟨fun more => ?_, fun last passes => ?_, fun last fails => ?_, rfl⟩
  · have goesOn : a + 1 ≠ fontBase := by unfold fontBase; omega
    simp only [State.readProfileByte, if_neg goesOn]
    rfl
  · subst last
    have ends : s.readProfileByte 63 b = s.endProfile (s.sc.profileBytes ++ [b]) := rfl
    rw [ends, State.endProfile, if_pos passes]
    rfl
  · subst last
    have ends : s.readProfileByte 63 b = s.endProfile (s.sc.profileBytes ++ [b]) := rfl
    rw [ends, State.endProfile, if_neg (by simp [fails])]
    rfl

/-- A font takes more than the bytes of its header (R194). -/
theorem four_lt_fontSize (h : Nat) : 4 < fontSize h := by
  unfold fontSize
  omega

/-- Settles O24: the timeout, the header that fails, the whole font that passes or fails, and any other byte. -/
theorem fontReadEndsLoad : Obligations.FontReadEndsLoad := by
  intro s a b p sound load position above profile
  have reset := sound.blocksAtReset (Or.inr load)
  have fails : s.fontFails.sc.fontSource = some .builtIn ∧ EntersListen s s.fontFails p 7 fallbackGlyphs :=
    ⟨s.fontFails_fontSource, State.fontFails_entersListen reset profile⟩
  rw [exec_glyphReadComplete load position, exec_glyphReadTimeout load position, if_neg (by omega), if_neg (by omega)]
  simp only [State.readFontByte]
  generalize s.sc.fontBytes ++ [b] = bytes
  have size := four_lt_fontSize (num1 bytes 0)
  refine ⟨⟨_, rfl, fails⟩, fun four bad => ?_, fun whole passes => ?_, fun whole bad => ?_, fun other goesOn => ?_⟩
  · rw [if_pos ⟨four, bad⟩]
    exact ⟨_, rfl, fails⟩
  · rw [if_neg (by omega), if_pos ⟨by omega, whole⟩, if_pos passes]
    exact ⟨_, rfl, s.fontStands_fontSource bytes, State.fontStands_entersListen reset profile bytes⟩
  · rw [if_neg (by omega), if_pos ⟨by omega, whole⟩, if_neg (by simp [bad])]
    exact ⟨_, rfl, fails⟩
  · rw [if_neg goesOn, if_neg fun h => other h.2]
    rfl

end Sys2Proof.Machine
end

