-- ==== Sys2Proof/Proofs/Reception.lean ====
section
/-! SUPPORT. The receive commands case by case: what headers pass, where a passing header leads, what a body byte and
the end of a frame do, and how a chain is completed, dispatched and freed. -/

namespace Sys2Proof.Machine

/-! ### Headers (R3, R17) -/

theorem NoticeKind.groupOk_iff (k : NoticeKind) (g : Nat) : k.groupOk g = true ↔
    if k = .digest ∨ k = .pace ∨ k = .status then 1 ≤ g ∧ g ≤ 15 else g ≤ 15 := by
  cases k <;> simp [NoticeKind.groupOk, NoticeKind.isBoard]

theorem byte_eq_iff (b : Byte) (n : Nat) (h : n < 256) : b = BitVec.ofNat 8 n ↔ b.toNat = n := by
  rw [← BitVec.toNat_inj, BitVec.toNat_ofNat, Nat.mod_eq_of_lt h]

theorem NoticeKind.lengthOk_iff (k : NoticeKind) (l : Byte) : k.lengthOk l.toNat = true ↔
    match k with
    | .name => 4 ≤ l.toNat ∧ l.toNat ≤ 217
    | .service => 16 ≤ l.toNat ∧ l.toNat ≤ 176 ∧ (l.toNat - 16) % 4 = 0
    | .amend => l = 9
    | .withdraw | .sweepClose | .clock => l = 3
    | .sweepOpen | .dim | .query | .restart => l = 1
    | .staff => 3 ≤ l.toNat ∧ l.toNat ≤ 99
    | .digest => l = 16
    | .pace => l = 5
    | .status => l = 55 := by
  cases k
  case name | service | staff => exact decide_eq_true_iff
  all_goals exact decide_eq_true_iff.trans (byte_eq_iff l _ (by decide)).symm

/-- The kind codes (R3). -/
def kindCodes : List (Byte × NoticeKind) :=
  [(0x01, .name), (0x02, .service), (0x03, .amend), (0x04, .withdraw), (0x05, .sweepOpen), (0x06, .sweepClose),
    (0x07, .clock), (0x08, .staff), (0x09, .dim), (0x0A, .query), (0x0B, .restart), (0x41, .digest), (0x42, .pace),
    (0x43, .status)]

theorem noticeKind_iff (code : Byte) (k : NoticeKind) : noticeKind code = some k ↔ (code, k) ∈ kindCodes := by
  constructor
  · intro named
    unfold noticeKind at named
    split at named
    case h_15 => exact nomatch named
    all_goals
      next number =>
        cases named
        have named : code = BitVec.ofNat 8 code.toNat := by simp
        rw [named, number]
        decide
  · intro listed
    have all : ∀ d ∈ kindCodes, noticeKind d.1 = some d.2 := by decide
    exact all _ listed

/-! ### FRAME_HEADER (R17, R18) -/

section
variable {s : State} (header : s.lc.receiver.state = .header) {h : Header}
include header

theorem exec_frameHeader_fails (fails : h.examine = none) :
    exec (.frameHeader h.kind h.sender h.group h.sequence h.length) s =
      .next (((s.watchEnd h.bits).setReceiver (s.lc.receiver.withHeader h).toDiscard).raise .lineCrc) := by
  show execFrameHeader h.kind h.sender h.group h.sequence h.length s = _
  simp only [execFrameHeader, if_pos header, fails]
  rfl

theorem exec_frameHeader_passes {kind : NoticeKind} (passes : h.examine = some kind) :
    exec (.frameHeader h.kind h.sender h.group h.sequence h.length) s =
      .next (((s.watchBits h.bits).setReceiver (s.lc.receiver.withHeader h)).followFrame kind) := by
  show execFrameHeader h.kind h.sender h.group h.sequence h.length s = _
  simp only [execFrameHeader, if_pos header, passes]
  rfl

end

/-- What the follow of a passing header does to the receiver. -/
theorem State.followFrame_receiver (s : State) (k : NoticeKind) :
    (s.followFrame k).lc.receiver.checkRegister = s.lc.receiver.checkRegister ∧
    ((s.followFrame k).lc.receiver.state ≠ .skip →
      (s.followFrame k).lc.receiver.headerRegister = s.lc.receiver.headerRegister) := by
  simp only [State.followFrame]
  split
  next =>
    simp only [State.enterStore]
    split <;> simp
  next => exact ⟨rfl, fun _ => rfl⟩
  next => exact ⟨rfl, fun other => absurd rfl other⟩

/-- Events counted after a change elsewhere. -/
theorem Reported.after {u v t : State} {ks : List ReportKind} (reported : Reported v t ks) (ru : v.ru = u.ru)
    (queue : v.lc.queue = u.lc.queue) (transmitter : v.lc.transmitter = u.lc.transmitter) : Reported u t ks := by
  unfold Reported at *
  rwa [ru, queue, transmitter] at reported

/-- Settles O27: the tables of kinds, groups and lengths, and the two outcomes of FRAME_HEADER. -/
theorem headerExamination : Obligations.HeaderExamination := by
  refine ⟨fun h k => ?_, noticeKind_iff, fun h q => rfl, fun s k a g q l header => ?_,
    fun s k a g q l header fails u counted => ?_⟩
  · rw [Header.examine_iff, NoticeKind.groupOk_iff, NoticeKind.lengthOk_iff]
    exact and_congr_right' and_assoc
  · cases examined : (⟨k, a, g, q, l⟩ : Header).examine with
    | none =>
      refine ⟨_, exec_frameHeader_fails header examined, ?_, fun _ => ?_⟩
      · simp [Receiver.toDiscard, Receiver.withHeader, Header.bytes]
      · simp [Receiver.toDiscard, Receiver.withHeader]
    | some kind =>
      obtain ⟨check, register⟩ := State.followFrame_receiver
        ((s.watchBits (Header.bits ⟨k, a, g, q, l⟩)).setReceiver (s.lc.receiver.withHeader ⟨k, a, g, q, l⟩)) kind
      exact ⟨_, exec_frameHeader_passes header examined, check, register⟩
  · have counted : u = s.watchEnd (Header.bits ⟨k, a, g, q, l⟩) := counted
    let failed := u.setReceiver (s.lc.receiver.withHeader ⟨k, a, g, q, l⟩).toDiscard
    have reported : Reported u (failed.raise .lineCrc) [.lineCrc] :=
      (failed.raise_reported .lineCrc).after rfl rfl rfl
    have ran : exec (.frameHeader k a g q l) s = .next (failed.raise .lineCrc) := by
      simp only [failed, counted]
      exact exec_frameHeader_fails header fails
    refine ⟨failed.raise .lineCrc, ran, ?_, reported, ?_⟩
    · simp [failed, Receiver.toDiscard, Receiver.withHeader, Header.bytes]
    · simp [failed, counted]

/-! ### The FIFO into the ring (R21, R24) -/

section
variable {lc : Lc} {f : Filling}

theorem Lc.drain_of_filling (filling : lc.ring.filling = some f) : lc.drain =
    { lc with
      ring := { lc.ring with
        filling := some { f with bytes := (drainBytes (24 - lc.ring.used) f.bytes lc.fifo).1 } }
      fifo := (drainBytes (24 - lc.ring.used) f.bytes lc.fifo).2 } := by
  unfold Lc.drain
  rw [filling]
  rfl

theorem Ring.used_filling_empty (r : Ring) (headerOnly passed : Bool) :
    Ring.used { r with filling := some ⟨headerOnly, passed, []⟩ } = r.heldSlots := by
  rw [Ring.used_of_filling (f := ⟨headerOnly, passed, []⟩) rfl]
  show r.heldSlots + slotsFor 0 = r.heldSlots
  rfl

theorem Ring.used_of_none {r : Ring} (none : r.filling = none) : r.used = r.heldSlots := by
  simp [Ring.heldSlots, Ring.used, none]

theorem Lc.drain_of_none (empty : lc.ring.filling = none) : lc.drain = lc := by
  simp only [Lc.drain, empty]

/-- The drain loses no byte, and stops only where a slot is wanted and none is FREE (R21). -/
theorem Lc.drain_spec (filling : lc.ring.filling = some f) : ∃ g, lc.drain.ring.filling = some g ∧
    g.headerOnly = f.headerOnly ∧ g.passed = f.passed ∧ g.bytes ++ lc.drain.fifo = f.bytes ++ lc.fifo ∧
    (lc.drain.fifo ≠ [] → g.bytes.length % 64 = 0 ∧ 24 ≤ lc.drain.ring.used) := by
  obtain ⟨whole, -, stops⟩ := drainBytes_spec lc.fifo f.bytes (24 - lc.ring.used)
  have before := Ring.used_of_filling filling
  rw [Lc.drain_of_filling filling]
  refine ⟨_, rfl, rfl, rfl, whole, fun waits => ?_⟩
  obtain ⟨wanted, claimed⟩ := stops waits
  refine ⟨wanted, ?_⟩
  rw [Ring.used_of_filling rfl]
  show 24 ≤ lc.ring.heldSlots + slotsFor (drainBytes (24 - lc.ring.used) f.bytes lc.fifo).1.length
  omega

/-- Where a slot is wanted and none is FREE the FIFO waits. -/
theorem drainBytes_full {stored : List Byte} (wanted : stored.length % 64 = 0) (fifo : List Byte) :
    drainBytes 0 stored fifo = (stored, fifo) := by
  cases fifo with
  | nil => rfl
  | cons b rest => simp [drainBytes, wanted]

/-- A byte reaches its slot where the last slot has room or one is FREE. -/
theorem drainBytes_one {stored : List Byte} {free : Nat} (room : stored.length % 64 ≠ 0 ∨ 0 < free) (b : Byte) :
    drainBytes free stored [b] = (stored ++ [b], []) := by
  unfold drainBytes
  split
  next wanted =>
    obtain ⟨n, rfl⟩ := Nat.exists_eq_succ_of_ne_zero (Nat.pos_iff_ne_zero.1 (room.resolve_left (absurd wanted)))
    rfl
  next => rfl

theorem drainBytes_header {free : Nat} (room : 0 < free) (h : Header) :
    drainBytes free [] h.bytes = (h.bytes, []) := by
  obtain ⟨n, rfl⟩ := Nat.exists_eq_succ_of_ne_zero (Nat.pos_iff_ne_zero.1 room)
  simp [drainBytes, Header.bytes]

variable (lc) in
/-- A frame whose header finds a FREE slot begins there (R24). -/
theorem Lc.beginFrame_room (headerOnly passed : Bool) (h : Header) (empty : lc.fifo = [])
    (room : lc.ring.heldSlots < 24) : lc.beginFrame headerOnly passed h.bytes = { lc with
      ring := { lc.ring with filling := some ⟨headerOnly, passed, h.bytes⟩ } } := by
  unfold Lc.beginFrame
  rw [Lc.drain_of_filling rfl]
  simp only [Ring.used_filling_empty, drainBytes_header (Nat.sub_pos_of_lt room)]
  rw [← empty]

variable (lc) in
/-- Else the header waits in the FIFO. -/
theorem Lc.beginFrame_full (headerOnly passed : Bool) (bytes : List Byte) (full : 24 ≤ lc.ring.heldSlots) :
    lc.beginFrame headerOnly passed bytes = { lc with
      ring := { lc.ring with filling := some ⟨headerOnly, passed, []⟩ }, fifo := bytes } := by
  unfold Lc.beginFrame
  rw [Lc.drain_of_filling rfl]
  simp only [Ring.used_filling_empty, Nat.sub_eq_zero_of_le full, drainBytes_full (stored := []) rfl]

end

/-! ### A chain that is due (R25, R27) -/

section
variable {s : State}

theorem State.completeDue_of_none (none : s.lc.chainDue = none) : s.completeDue = s := by
  simp only [State.completeDue, none]

theorem Lc.chainDue_of_filling_none {lc : Lc} (empty : lc.ring.filling = none) : lc.chainDue = none := by
  simp only [Lc.chainDue, empty]

theorem Lc.chainDue_of_waits {lc : Lc} (waits : lc.fifo ≠ []) : lc.chainDue = none := by
  unfold Lc.chainDue
  split
  · rfl
  · simp [waits]

theorem Lc.chainDue_of_passed {lc : Lc} {f : Filling} (filling : lc.ring.filling = some f) (passed : f.passed = true)
    (empty : lc.fifo = []) : lc.chainDue = some f := by
  simp [Lc.chainDue, filling, passed, empty]

/-- A chain has become READY at the newest end (R25). -/
def State.chainReady (s : State) (c : Chain) : State :=
  s.setLc { s.lc with ring := { s.lc.ring with ready := s.lc.ring.ready ++ [c], filling := none } }

theorem State.completeDue_of_agrees {f : Filling} (due : s.lc.chainDue = some f) (agrees : f.agrees = true) :
    s.completeDue = (s.chainReady ⟨f.headerOnly, f.bytes⟩).dispatch := by
  show _ = State.dispatch (s.setLc _)
  simp only [State.completeDue, due, if_pos agrees]

theorem State.completeDue_of_disagrees {f : Filling} (due : s.lc.chainDue = some f) (disagrees : f.agrees = false) :
    s.completeDue = (s.setLc s.lc.freeFilling).raise .lineCrc := by
  simp [State.completeDue, due, disagrees]

/-- A chain in flight keeps the dispatcher waiting. -/
theorem State.dispatch_busy (busy : s.lc.ring.inWork.isSome = true) : s.dispatch = s := by
  obtain ⟨c, inWork⟩ := Option.isSome_iff_exists.1 busy
  simp [State.dispatch, inWork]

theorem State.dispatch_next {c : Chain} {rest : List Chain} (none : s.lc.ring.inWork = none)
    (ready : s.lc.ring.ready = c :: rest) : s.dispatch = { s with
      lc := { s.lc with ring := { s.lc.ring with inWork := some c, ready := rest } }
      tb := if c.forTables then s.tb.deliver else s.tb } := by
  simp only [State.dispatch, none, ready]
  split <;> rfl

theorem State.dispatch_empty (none : s.lc.ring.ready = []) : s.dispatch = s := by
  unfold State.dispatch
  rw [none]
  split
  next h => exact nomatch h
  next => rfl

/-- Settles O31: by whether the counts agree, and whether a chain is in flight or waits. -/
theorem chainCompletesAndIsDispatched : Obligations.ChainCompletesAndIsDispatched := by
  intro s f c filling passed empty chain
  have due := Lc.chainDue_of_passed filling passed empty
  have ran : exec .chainComplete s = .next s.completeDue := rfl
  rw [ran]
  refine ⟨fun disagrees => ?_, fun agrees busy => ?_, fun agrees none ready other => ?_,
    fun agrees none ready tables => ?_, fun agrees none d rest ready => ?_⟩
  · rw [State.completeDue_of_disagrees due disagrees, Lc.freeFilling, ← empty]
    rfl
  · rw [State.completeDue_of_agrees due agrees, ← chain, State.dispatch_busy (s := s.chainReady c) busy]
    rfl
  · have waits : (s.chainReady c).lc.ring.ready = [c] := by simp [State.chainReady, ready]
    rw [State.completeDue_of_agrees due agrees, ← chain, State.dispatch_next (s := s.chainReady c) none waits,
      if_neg (by simp [other]), ← ready]
    rfl
  · have waits : (s.chainReady c).lc.ring.ready = [c] := by simp [State.chainReady, ready]
    rw [State.completeDue_of_agrees due agrees, ← chain, State.dispatch_next (s := s.chainReady c) none waits,
      if_pos tables, ← ready]
    rfl
  · have waits : (s.chainReady c).lc.ring.ready = d :: (rest ++ [c]) := by simp [State.chainReady, ready]
    rw [State.completeDue_of_agrees due agrees, ← chain, State.dispatch_next (s := s.chainReady c) none waits]
    exact ⟨_, rfl, rfl, rfl, rfl⟩

/-- What the dispatcher does where no chain is IN-WORK. -/
theorem State.dispatch_of_free (none : s.lc.ring.inWork = none) :
    s.dispatch.lc.ring.inWork = s.lc.ring.ready.head? ∧ s.dispatch.lc.ring.ready = s.lc.ring.ready.drop 1 ∧
    ((∃ d, s.dispatch.lc.ring.inWork = some d ∧ d.forTables = true) → s.dispatch.tb = s.tb.deliver) ∧
    ((¬∃ d, s.dispatch.lc.ring.inWork = some d ∧ d.forTables = true) → s.dispatch.tb = s.tb) := by
  cases ready : s.lc.ring.ready with
  | nil =>
    rw [State.dispatch_empty ready, none, ready]
    refine ⟨rfl, rfl, ?_, fun _ => rfl⟩
    rintro ⟨d, taken, -⟩
    exact nomatch taken
  | cons c rest =>
    rw [State.dispatch_next none ready]
    refine ⟨rfl, rfl, ?_, fun other => ?_⟩
    · rintro ⟨d, taken, tables⟩
      cases taken
      exact if_pos tables
    · exact if_neg fun tables => other ⟨c, rfl, tables⟩

/-- A completion touches the ring, the FIFO and the tables alone. -/
theorem State.completeNotice_only (s : State) : s.completeNotice = { s with
    lc := { s.lc with ring := s.completeNotice.lc.ring, fifo := s.completeNotice.lc.fifo }
    tb := s.completeNotice.tb } := by
  have frame := s.completeNotice_frame
  generalize s.completeNotice = t at *
  obtain ⟨sc, ⟨receiver, fifo, ring, queue, transmitter, watch⟩, tb, co, au, pa, bu, ru, pending, free⟩ := t
  obtain ⟨rfl, rfl, rfl, rfl, rfl, -, -, -, -, -, -, -, -, -, rfl, rfl, rfl, rfl, rfl, rfl, rfl⟩ := frame
  rfl

/-- Settles O32: the slots are freed, the drain is that of `drainBytes`, and the dispatcher takes the next chain. -/
theorem completionFreesAndDrains : Obligations.CompletionFreesAndDrains := by
  intro s c inWork
  let freed := s.setLc (Lc.drain { s.lc with ring := s.lc.ring.freeInWork })
  have free : s.lc.ring.freeInWork =
      { s.lc.ring with oldest := (s.lc.ring.oldest + slotsFor c.bytes.length) % 24, inWork := none } := by
    simp only [Ring.freeInWork, inWork, Config.ringSlots]
  have none : freed.lc.ring.inWork = none := by simp [freed, free]
  have ready : freed.lc.ring.ready = s.lc.ring.ready := by simp [freed, free]
  obtain ⟨head, tail, tables, other⟩ := State.dispatch_of_free none
  obtain ⟨used, oldest, filling⟩ := freed.dispatch_ring
  have fifo : freed.dispatch.lc.fifo = freed.lc.fifo := by simp
  have same : s.lc.ring.freeInWork.filling = s.lc.ring.filling := by rw [free]
  have ends : s.completeNotice = freed.dispatch := rfl
  rw [ends, filling, used, oldest, fifo, head, tail, ready]
  refine ⟨rfl, rfl, by simp [freed, free], fun empty => ?_, fun f stored => ?_, ?_, ?_, ?_⟩
  · have stays : freed.lc = { s.lc with ring := s.lc.ring.freeInWork } := Lc.drain_of_none (same.trans empty)
    rw [stays]
    exact ⟨same.trans empty, rfl⟩
  · exact Lc.drain_spec (lc := { s.lc with ring := s.lc.ring.freeInWork }) (same.trans stored)
  · rw [← ready, ← head]
    exact tables
  · rw [← ready, ← head]
    exact other
  · rw [← fifo]
    exact s.completeNotice_only

end

/-! ### Where a passing header leads (R18, R22, R24) -/

theorem nextReceiverState_skip {k : NoticeKind} {g own : Nat} (board : k.isBoard = true) (other : g ≠ own) :
    nextReceiverState k g own = .skip := by
  cases k <;> simp_all [nextReceiverState, NoticeKind.isBoard]

theorem nextReceiverState_foreign {k : NoticeKind} {g own : Nat} (feeder : k.isBoard = false) (query : k ≠ .query)
    (restart : k ≠ .restart) (all : g ≠ 0) (other : g ≠ own) : nextReceiverState k g own = .foreign := by
  have neither : ¬(g = 0 ∨ g = own) := not_or.2 ⟨all, other⟩
  cases k <;> simp_all [nextReceiverState, NoticeKind.isBoard]

theorem nextReceiverState_store {k : NoticeKind} {g own : Nat} (mine : if k.isBoard then g = own
    else k = .query ∨ k = .restart ∨ g = 0 ∨ g = own) : nextReceiverState k g own = .store := by
  cases k <;> simp_all [nextReceiverState, NoticeKind.isBoard]

section
variable {s : State} {k : NoticeKind}

theorem State.followFrame_skip (next : nextReceiverState k s.lc.receiver.headerRegister.group.toNat s.prof.group = .skip) :
    s.followFrame k = s.setReceiver { s.lc.receiver with state := .skip, headerRegister := .cleared } := by
  simp only [State.followFrame, next]

theorem State.followFrame_foreign
    (next : nextReceiverState k s.lc.receiver.headerRegister.group.toNat s.prof.group = .foreign) :
    s.followFrame k = s.setReceiver { s.lc.receiver with state := .foreign } := by
  simp only [State.followFrame, next]

theorem State.followFrame_store
    (next : nextReceiverState k s.lc.receiver.headerRegister.group.toNat s.prof.group = .store) :
    s.followFrame k = s.enterStore := by
  simp only [State.followFrame, next]

/-- After the completion of what is due, STORE is entered with an empty FIFO. -/
theorem State.enterStore_empty (empty : s.completeDue.lc.fifo = []) : s.enterStore = s.completeDue.setLc
    { s.completeDue.lc.beginFrame false false s.lc.receiver.headerRegister.bytes with
      receiver := { s.lc.receiver with state := .store } } := by
  simp only [State.enterStore, if_pos empty, show s.completeDue.lc.receiver = s.lc.receiver by simp]

theorem State.enterStore_waits (waits : s.lc.fifo ≠ []) :
    s.enterStore = (s.setReceiver { s.lc.receiver with state := .lockout }).raise .intakeOverflow := by
  simp only [State.enterStore, State.completeDue_of_none (Lc.chainDue_of_waits waits), if_neg waits]

/-- A chain that is due leaves an empty FIFO and no FILLING chain. -/
theorem State.completeDue_of_due {f : Filling} (due : s.lc.chainDue = some f) :
    s.completeDue.lc.fifo = [] ∧ s.completeDue.lc.ring.filling = none := by
  obtain ⟨-, -, empty⟩ := Lc.chainDue_some due
  cases agrees : f.agrees with
  | true =>
    rw [State.completeDue_of_agrees due agrees]
    obtain ⟨-, -, filling⟩ := (s.chainReady ⟨f.headerOnly, f.bytes⟩).dispatch_ring
    exact ⟨by simpa [State.chainReady] using empty, filling⟩
  | false =>
    rw [State.completeDue_of_disagrees due agrees]
    simp [Lc.freeFilling]

/-- The completion of a chain depends on ring and FIFO alone. -/
theorem State.completeDue_ring_congr {t : State} (ring : t.lc.ring = s.lc.ring) (fifo : t.lc.fifo = s.lc.fifo) :
    t.completeDue.lc.ring = s.completeDue.lc.ring := by
  have same : t.lc.chainDue = s.lc.chainDue := by simp only [Lc.chainDue, ring, fifo]
  cases due : s.lc.chainDue with
  | none => rw [State.completeDue_of_none due, State.completeDue_of_none (same.trans due), ring]
  | some f =>
    cases agrees : f.agrees with
    | true =>
      rw [State.completeDue_of_agrees due agrees, State.completeDue_of_agrees (same.trans due) agrees]
      exact State.dispatch_ring_congr (by simp [State.chainReady, ring])
    | false =>
      rw [State.completeDue_of_disagrees due agrees, State.completeDue_of_disagrees (same.trans due) agrees]
      simp [Lc.freeFilling, ring]

end

/-- Settles O28: the state a passing header leads to, and in STORE whether a chain is due, the FIFO waits or a slot is
FREE. -/
theorem passingHeaderDecides : Obligations.PassingHeaderDecides := by
  intro s k a g q l kind r u header passes receiver counted
  have counted : u = s.watchBits (Header.bits ⟨k, a, g, q, l⟩) := counted
  have ran : exec (.frameHeader k a g q l) s = .next ((u.setReceiver r).followFrame kind) := by
    rw [counted, receiver]
    exact exec_frameHeader_passes header passes
  have register : (u.setReceiver r).lc.receiver.headerRegister = ⟨k, a, g, q, l⟩ := by simp [receiver]
  have group : (u.setReceiver r).lc.receiver.headerRegister.group = g := by rw [register]
  have prof : (u.setReceiver r).prof = s.prof := by simp [State.prof, counted]
  have fifo : u.lc.fifo = s.lc.fifo := by simp [counted]
  have ring : u.lc.ring = s.lc.ring := by simp [counted]
  rw [ran]
  refine ⟨fun board other => ?_, fun feeder query restart all other => ?_, fun mine => ?_⟩
  · rw [State.followFrame_skip (by rw [group, prof]; exact nextReceiverState_skip board other)]
    rfl
  · rw [State.followFrame_foreign (by rw [group, prof]; exact nextReceiverState_foreign feeder query restart all other)]
    rfl
  rw [State.followFrame_store (by rw [group, prof]; exact nextReceiverState_store mine)]
  have no_chain (none : s.lc.ring.filling = none) : (u.setReceiver r).completeDue = u.setReceiver r :=
    State.completeDue_of_none (Lc.chainDue_of_filling_none (ring ▸ none))
  have held (none : s.lc.ring.filling = none) : (u.setReceiver r).lc.ring.heldSlots = s.lc.ring.used := by
    rw [Ring.used_of_none none, ← ring]
    rfl
  refine ⟨fun empty none room => ?_, fun empty none full => ?_, fun waits => ?_, fun f empty filling passed => ?_⟩
  · rw [State.enterStore_empty (by rw [no_chain none]; exact fifo.trans empty), no_chain none, register,
      Lc.beginFrame_room (u.setReceiver r).lc _ _ _ (fifo.trans empty) (held none ▸ room)]
    rfl
  · rw [State.enterStore_empty (by rw [no_chain none]; exact fifo.trans empty), no_chain none, register,
      Lc.beginFrame_full _ _ _ _ (held none ▸ full)]
    rfl
  · rw [State.enterStore_waits (fifo ▸ waits)]
    rfl
  · have due : (u.setReceiver r).lc.chainDue = some f :=
      Lc.chainDue_of_passed (ring ▸ filling) passed (fifo.trans empty)
    obtain ⟨drained, free⟩ := State.completeDue_of_due due
    have same : (u.setReceiver r).completeDue.lc.ring = u.completeDue.lc.ring :=
      State.completeDue_ring_congr rfl rfl
    rw [State.enterStore_empty drained]
    refine ⟨_, rfl, rfl, by simp, by simp [same], by simp [same], fun room => ?_⟩
    rw [register, Lc.beginFrame_room]
    · exact ⟨rfl, drained⟩
    · exact drained
    · rw [← Ring.used_of_none free, same]
      exact room

/-! ### A body byte (R19, R21, R22) -/

theorem exec_receiveByte {s : State} (more : s.lc.receiver.remaining ≠ 0) (b : Byte) : exec (.receiveByte b) s =
    match s.lc.receiver.state with
    | .store => .next (((s.watchBits (byteBits b)).feedByte b).offerByte b)
    | .foreign => .next ((s.watchBits (byteBits b)).feedByte b)
    | .skip | .lockout => .next ((s.watchBits (byteBits b)).setReceiver
        { s.lc.receiver with remaining := s.lc.receiver.remaining - 1 })
    | .off | .suspended | .discard | .hunt | .header => .next s := if_neg more

section
variable {t : State} {f : Filling} (filling : t.lc.ring.filling = some f) (b : Byte)
include filling

omit filling in
theorem State.offerByte_room (few : t.lc.fifo.length < 48) :
    t.offerByte b = t.setLc (Lc.drain { t.lc with fifo := t.lc.fifo ++ [b] }) := if_pos few

theorem State.offerByte_stored (empty : t.lc.fifo = []) (room : f.bytes.length % 64 ≠ 0 ∨ t.lc.ring.used < 24) :
    t.offerByte b = t.setLc { t.lc with
      ring := { t.lc.ring with filling := some { f with bytes := f.bytes ++ [b] } } } := by
  have free : f.bytes.length % 64 ≠ 0 ∨ 0 < 24 - t.lc.ring.used := room.imp_right Nat.sub_pos_of_lt
  rw [State.offerByte_room b (by simp [empty]), empty, List.nil_append,
    Lc.drain_of_filling (lc := { t.lc with fifo := [b] }) filling]
  simp only [drainBytes_one free]
  rw [← empty]

theorem State.offerByte_waits (few : t.lc.fifo.length < 48) (wanted : f.bytes.length % 64 = 0)
    (full : 24 ≤ t.lc.ring.used) : t.offerByte b = t.setLc { t.lc with fifo := t.lc.fifo ++ [b] } := by
  rw [State.offerByte_room b few, Lc.drain_of_filling (lc := { t.lc with fifo := t.lc.fifo ++ [b] }) filling]
  simp only [Nat.sub_eq_zero_of_le full, drainBytes_full wanted, ← filling]

omit filling in
theorem State.offerByte_overflow (full : 48 ≤ t.lc.fifo.length) : t.offerByte b =
    (t.setLc { t.lc.freeFilling with receiver := { t.lc.receiver with state := .lockout } }).raise .intakeOverflow :=
  if_neg (Nat.not_lt.2 full)

end

/-- Settles O29: by the receiver's state, and in STORE by the room in FIFO and ring. -/
theorem bodyByteFollowsFrame : Obligations.BodyByteFollowsFrame := by
  intro s b r u more receiver counted
  have same : u.lc.receiver = s.lc.receiver := by simp [counted]
  have fifo : u.lc.fifo = s.lc.fifo := by simp [counted]
  have ring : u.lc.ring = s.lc.ring := by simp [counted]
  have fed : u.feedByte b = u.setReceiver r := by rw [State.feedByte, same, receiver]
  rw [exec_receiveByte more, ← counted, fed]
  refine ⟨fun store f filling => ?_, fun foreign => ?_, fun other => ?_⟩
  · have stored : (u.setReceiver r).lc.ring.filling = some f := ring ▸ filling
    simp only [store]
    refine ⟨fun empty room => ?_, fun few wanted full => ?_, fun full => ?_⟩
    · rw [State.offerByte_stored stored b (fifo.trans empty) (by rw [← ring] at room; exact room)]
      rfl
    · rw [State.offerByte_waits stored b (by rw [← fifo] at few; exact few) wanted (by rw [← ring] at full; exact full)]
      rfl
    · rw [State.offerByte_overflow b (by rw [← fifo] at full; exact full)]
      rfl
  · simp only [foreign]
    rfl
  · rcases other with h | h <;> simp only [h] <;> rfl

/-! ### The end of a frame (R19, R20, R25, R26) -/

theorem exec_frameEnd {s : State} (last : s.lc.receiver.remaining = 0) (check : Digest) : exec (.frameEnd check) s =
    match s.lc.receiver.state with
    | .store => .next ((s.watchEnd (checkBits check)).endStored (s.lc.receiver.passes check))
    | .foreign => .next ((s.watchEnd (checkBits check)).endForeign (s.lc.receiver.passes check))
    | .skip | .lockout => .next (s.watchEnd (checkBits check)).toHunt
    | .off | .suspended | .discard | .hunt | .header => .next s := if_pos last

theorem Receiver.passes_iff (r : Receiver) (check : Digest) : r.passes check = true ↔ check = ~~~ r.checkRegister := by
  simp [Receiver.passes, eq_comm]

section
variable {t : State}

theorem State.endStored_passes {f : Filling} (filling : t.lc.ring.filling = some f) : t.endStored true =
    t.toHunt.setLc { t.toHunt.lc with ring := { t.lc.ring with filling := some { f with passed := true } } } := by
  simp only [State.endStored, filling]
  rfl

theorem State.endStored_fails : t.endStored false = ((t.setLc t.lc.freeFilling).toHunt).raise .lineCrc := rfl

/-- A foreign frame that passes begins a header-only chain in an empty FIFO, where nothing was due (R26). -/
theorem State.endForeign_passes (none : t.lc.chainDue = none) : t.endForeign true =
    if t.lc.fifo = [] then
      (t.toHunt.setLc (t.toHunt.lc.beginFrame true true t.lc.receiver.headerRegister.bytes)).dropHeader
    else t.toHunt.dropHeader.raise .intakeOverflow := by
  simp only [State.endForeign, State.completeDue_of_none (s := t.toHunt) none, if_true]
  rfl

theorem State.endForeign_fails : t.endForeign false = t.toHunt.dropHeader.raise .lineCrc := rfl

end

/-- Settles O30: by the receiver's state and the check, and for a passing foreign frame by FIFO and ring. -/
theorem frameEndDecides : Obligations.FrameEndDecides := by
  intro s v r u last receiver counted
  have counted : u = s.watchEnd (checkBits v) := counted
  have same : u.lc.receiver = s.lc.receiver := by simp [counted]
  have fifo : u.lc.fifo = s.lc.fifo := by simp [counted]
  have ring : u.lc.ring = s.lc.ring := by simp [counted]
  have hunts : u.toHunt = u.setReceiver r := by rw [State.toHunt, same, receiver]; rfl
  have no_chain (vacant : s.lc.ring.filling = none) : u.lc.chainDue = none :=
    Lc.chainDue_of_filling_none (ring ▸ vacant)
  have held (none : s.lc.ring.filling = none) : u.toHunt.lc.ring.heldSlots = s.lc.ring.used := by
    rw [Ring.used_of_none none, ← ring]
    rfl
  have passes (agrees : v = ~~~ s.lc.receiver.checkRegister) : s.lc.receiver.passes v = true :=
    (Receiver.passes_iff _ _).2 agrees
  have fails (differs : v ≠ ~~~ s.lc.receiver.checkRegister) : s.lc.receiver.passes v = false :=
    eq_false_of_ne_true ((not_congr (Receiver.passes_iff _ _)).2 differs)
  rw [exec_frameEnd last, ← counted]
  refine ⟨fun store f filling => ⟨fun agrees => ?_, fun differs => ?_⟩,
    fun foreign => ⟨fun agrees empty none room => ?_, fun agrees empty none full => ?_, fun agrees waits => ?_,
      fun differs => ?_⟩, fun other => ?_⟩
  · simp only [store]
    rw [passes agrees, State.endStored_passes (ring ▸ filling), hunts]
    rfl
  · simp only [store]
    rw [fails differs, State.endStored_fails, receiver, ← same]
    rfl
  · simp only [foreign]
    rw [passes agrees, State.endForeign_passes (no_chain none), if_pos (fifo.trans empty),
      Lc.beginFrame_room u.toHunt.lc _ _ _ (fifo.trans empty) (held none ▸ room), hunts, same]
    rfl
  · simp only [foreign]
    rw [passes agrees, State.endForeign_passes (no_chain none), if_pos (fifo.trans empty),
      Lc.beginFrame_full u.toHunt.lc _ _ _ (held none ▸ full), hunts, same]
    rfl
  · simp only [foreign]
    rw [passes agrees, State.endForeign_passes (Lc.chainDue_of_waits (fifo ▸ waits)), if_neg (fifo ▸ waits), hunts]
    rfl
  · simp only [foreign]
    rw [fails differs, State.endForeign_fails, hunts]
    rfl
  · rcases other with h | h <;> simp only [h, hunts] <;> rfl

end Sys2Proof.Machine
end

