-- ==== Sys2Proof/Proofs/Transmission.lean ====
section
/-! SUPPORT. The transmit queue and the transmitter: an offer and a take in their cases, an attempt, a collision and what
follows them. -/

namespace Sys2Proof.Machine

/-! ### Offers and takes (R31, R32, R183) -/

section
variable {s : State}

theorem State.maySend_iff (s : State) : s.maySend = true ↔
    s.sc.node = .run ∧ s.sc.nodeNumber ≠ 0 ∧ s.sc.nodeNumber ≠ 63 := by
  have range : 1 ≤ s.sc.nodeNumber.toNat ∧ s.sc.nodeNumber.toNat ≤ 62 ↔ s.sc.nodeNumber ≠ 0 ∧ s.sc.nodeNumber ≠ 63 := by
    bv_omega
  simp only [State.maySend, Bool.and_eq_true, decide_eq_true_eq, range]

/-- A take touches the queue, the transmitter and the listed set alone. -/
theorem State.takeNotice_only (s : State) : s.takeNotice = { s with
    lc := { s.lc with queue := s.takeNotice.lc.queue, transmitter := s.takeNotice.lc.transmitter }
    ru := { s.ru with listed := s.takeNotice.ru.listed } } := by
  simp only [State.takeNotice]
  split
  · split
    · rfl
    · split <;> rfl
  · rfl

theorem State.takeNotice_busy (busy : s.lc.transmitter.state ≠ .idle) : s.takeNotice = s :=
  if_neg fun free => busy free.1

theorem State.takeNotice_empty (empty : s.lc.queue = []) : s.takeNotice = s := by
  simp only [State.takeNotice, empty, ite_self]

theorem State.takeNotice_next (idle : s.lc.transmitter.state = .idle) (may : s.maySend = true) {n : BoardNotice}
    {rest : List BoardNotice} (queue : s.lc.queue = n :: rest) : s.takeNotice = { s with
      lc := { s.lc with queue := rest, transmitter := ⟨.wait, some n, 0, 0, [], false⟩ }
      ru := { s.ru with listed := if n.kind = .status then 0 else s.ru.listed } } := by
  simp only [State.takeNotice, if_pos (And.intro idle may), queue]
  split <;> rfl

theorem State.offer_refused (silent : s.maySend = false) (n : BoardNotice) : s.offer n = s :=
  if_neg (by simp [silent])

theorem State.offer_busy (may : s.maySend = true) (busy : s.lc.transmitter.state ≠ .idle) (n : BoardNotice) :
    s.offer n = { s with lc := { s.lc with queue := placeNotice s.lc.queue n } } := by
  rw [State.offer, if_pos may]
  exact State.takeNotice_busy busy

theorem placeNotice_of_new {q : List BoardNotice} {n : BoardNotice} (new : ∀ m ∈ q, m.kind ≠ n.kind) :
    placeNotice q n = q ++ [n] :=
  if_neg (by simpa using new)

theorem placeNotice_pace {q : List BoardNotice} {n : BoardNotice} (listed : ∃ m ∈ q, m.kind = n.kind)
    (pace : n.kind = .pace) : placeNotice q n = q := by
  cases n with
  | pace => exact if_pos (by simpa using listed)
  | digest => exact nomatch pace
  | status => exact nomatch pace

theorem placeNotice_replaces {q : List BoardNotice} {n : BoardNotice} (listed : ∃ m ∈ q, m.kind = n.kind)
    (other : n.kind ≠ .pace) : placeNotice q n = q.map fun m => if m.kind = n.kind then n else m := by
  have replaced : (fun m : BoardNotice => if m.kind == n.kind then n else m) =
      fun m => if m.kind = n.kind then n else m := by simp
  rw [← replaced]
  cases n with
  | pace => exact absurd rfl other
  | digest => exact if_pos (by simpa using listed)
  | status => exact if_pos (by simpa using listed)

end

/-- Settles O36: an offer places or is refused, and an IDLE transmitter takes it at once. -/
theorem offerIntoTransmitQueue : Obligations.OfferIntoTransmitQueue := by
  intro s n
  refine ⟨fun silent => State.offer_refused silent n, s.maySend_iff, fun may busy => ⟨fun new => ?_, fun listed pace => ?_,
    fun listed other => ?_⟩, fun may idle empty => ?_⟩
  · rw [State.offer_busy may busy, placeNotice_of_new new]
  · rw [State.offer_busy may busy, placeNotice_pace listed pace]
  · rw [State.offer_busy may busy, placeNotice_replaces listed other]
  · have placed : placeNotice s.lc.queue n = [n] := by simp [placeNotice, empty]
    rw [State.offer, if_pos may, placed,
      State.takeNotice_next (s := s.setLc { s.lc with queue := [n] }) idle may rfl, ← empty]
    rfl

/-! ### Attempts (R32, R33) -/

theorem ReceiverState.not_inFrame_iff (x : ReceiverState) :
    x.inFrame = false ↔ x ∉ [ReceiverState.header, .store, .foreign, .skip, .lockout] := by
  cases x <;> simp [ReceiverState.inFrame]

/-- Settles O34: an attempt waits for the idle line, and a success releases the notice. -/
theorem attemptStartAndSuccess : Obligations.AttemptStartAndSuccess := by
  refine ⟨fun s n wait notice run low high => ⟨fun idle outside => ?_, fun busy => ?_⟩, fun s send => ?_⟩
  · have line : s.lc.lineIdle = true := s.lc.lineIdle_iff.2 ⟨idle, s.lc.receiver.state.not_inFrame_iff.2 outside⟩
    show execTxAttemptStart s = _
    rw [execTxAttemptStart, if_pos ⟨wait, line, State.maySend_of_run run low high⟩, notice]
    rfl
  · have line : ¬ s.lc.lineIdle = true := by
      rw [s.lc.lineIdle_iff, s.lc.receiver.state.not_inFrame_iff]
      rintro ⟨idle, outside⟩
      exact busy.elim (absurd idle) outside
    exact if_neg fun h => line h.2.1
  · let ended := (s.resumeReceiver (frameBits s.lc.transmitter.frame).length).setTransmitter .reset
    refine ⟨ended.takeNotice, if_pos send, ended.takeNotice_only, fun empty => ?_, fun n rest queue run low high => ?_⟩
    · rw [State.takeNotice_empty (s := ended) empty]
      exact ⟨empty, rfl, rfl⟩
    · rw [State.takeNotice_next (s := ended) rfl (State.maySend_of_run (s := ended) run low high) queue]
      exact ⟨rfl, rfl, rfl⟩

/-! ### Collisions (R34 to R36) -/

/-- The kind at the front of the queue while the transmitter holds a notice of its own. -/
def State.FrontHeld (s : State) (k : NoticeKind) : Prop :=
  s.lc.transmitter.state ≠ .idle ∧ ∃ n rest, s.lc.queue = n :: rest ∧ n.kind = k

theorem State.FrontHeld.offer {s : State} {k : NoticeKind} (held : s.FrontHeld k) (n : BoardNotice) :
    (s.offer n).FrontHeld k := by
  obtain ⟨busy, m, rest, queue, kind⟩ := held
  cases may : s.maySend with
  | false =>
    rw [State.offer_refused may]
    exact ⟨busy, m, rest, queue, kind⟩
  | true =>
    rw [State.offer_busy may busy]
    obtain ⟨m', rest', placed, same⟩ := placeNotice_head m n rest
    exact ⟨busy, m', rest', by rw [queue]; exact placed, same.trans kind⟩

/-- No report changes the kind at the front of the queue while the transmitter holds a notice. -/
theorem ReportMove.frontHeld {s t : State} {k : NoticeKind} (move : ReportMove s t) (held : s.FrontHeld k) :
    t.FrontHeld k := by
  cases move with
  | aside _ sc ru queue transmitter =>
    unfold State.FrontHeld
    rwa [queue, transmitter]
  | offer n => exact held.offer n
  | offerStatus keep =>
    unfold State.offerStatus
    split
    · exact State.FrontHeld.offer (s := s.setRu { s.ru with
        listed := s.ru.pendingField, pending := s.ru.pending &&& keep }) held _
    · exact held
  | _ => exact held

/-- Settles O35: the collision, the backoff, the two ways a notice is given up, and the end of a backoff. -/
theorem collisionJamAndBackoff : Obligations.CollisionJamAndBackoff := by
  refine ⟨fun s bit send one => ?_, fun s r jam early left draw => ⟨?_, ?_⟩, fun s k jam ends => ?_,
    fun s backoff => if_pos backoff⟩
  · exact if_pos ⟨send, by simp [List.getD_eq_getElem?_getD, one]⟩
  · rw [draw]
    exact Nat.mod_lt _ (Nat.two_pow_pos _)
  · subst draw
    exact (if_pos jam).trans ((if_neg (by simp [early])).trans (if_pos left))
  · let raised := (s.resumeReceiver jamBits).raise k
    have chain : ReportChain (s.resumeReceiver jamBits) raised := State.raise_chain _ k
    have ran : exec .jamEnd s = .next raised.releaseNotice := by
      rcases ends with ⟨late, rfl⟩ | ⟨early, spent, rfl⟩
      · exact (if_pos jam).trans (if_pos late)
      · exact (if_pos jam).trans ((if_neg (by simp [early])).trans (if_neg (Nat.not_lt.2 spent)))
    have counts : raised.ru.counts = countsAfter s.ru.counts [k] :=
      ((s.resumeReceiver jamBits).raise_reported k).1
    refine ⟨raised.releaseNotice, ran, ?_, ?_, ?_, ?_, ?_, fun n rest queue run low high => ?_, ?_⟩
    · simp [raised, State.resumeReceiver, Receiver.toDiscard]
    · simp [raised, State.resumeReceiver, Watch.drive, stuckBits, jamBits]
    · simpa using counts
    · obtain idles | ⟨n, rest, -, -, -, lc, -⟩ := (raised.setTransmitter .reset).takeNotice_cases
      · rw [State.releaseNotice, idles]
        rfl
      · rw [State.releaseNotice, lc]
    · obtain idles | ⟨n, rest, -, -, -, lc, -⟩ := (raised.setTransmitter .reset).takeNotice_cases
      · rw [State.releaseNotice, idles]
        exact Or.inl ⟨rfl, rfl⟩
      · rw [State.releaseNotice, lc]
        exact Or.inr ⟨rfl, rfl⟩
    · have front : (s.resumeReceiver jamBits).FrontHeld n.kind := ⟨by simp [jam], n, rest, queue, rfl⟩
      obtain ⟨-, m, rest', queue', kind⟩ : raised.FrontHeld n.kind :=
        chain.keeps (P := fun u => u.FrontHeld n.kind) (fun _ _ move held => move.frontHeld held) front
      have may : (raised.setTransmitter .reset).maySend = true :=
        (State.maySend_congr (by simp [raised])).trans (State.maySend_of_run run low high)
      refine ⟨m, kind, ?_⟩
      rw [State.releaseNotice, State.takeNotice_next (s := raised.setTransmitter .reset) rfl may queue']
    · simp [raised]

end Sys2Proof.Machine
end

