-- ==== Sys2Proof/Proofs/Applies.lean ====
section
/-! SUPPORT. What an apply leaves is the effect of its work on the noted tables: the frame of every apply once, the
bodies that are not well-formed, and NAME, CLOCK and AMEND. -/

namespace Sys2Proof.Machine

/-! ### Every apply (R29, R47, R71) -/

/-- After an apply the tables are those of the effect, but for who holds them next, and the rest is what every apply
does. -/
structure TakesEffect (s t : State) (c : Chain) (fx : Effect) : Prop where
  services : t.tb.services = fx.tb.services
  pool : t.tb.pool = fx.tb.pool
  names : t.tb.names = fx.tb.names
  refusals : t.tb.refusals = fx.tb.refusals
  feeders : t.tb.feeders = fx.tb.feeders
  staleOrder : t.tb.staleOrder = fx.tb.staleOrder
  time : t.tb.time = fx.tb.time
  applied : Applied s t c fx.reports fx.messages fx.compose

/-- A header note changes the feeder table and the stale order alone. -/
@[simp] theorem State.noted_frame (s : State) (c : Chain) :
    (s.noted c).1.services = s.tb.services ∧ (s.noted c).1.pool = s.tb.pool ∧ (s.noted c).1.names = s.tb.names ∧
      (s.noted c).1.refusals = s.tb.refusals ∧ (s.noted c).1.windowRequest = s.tb.windowRequest ∧
      (s.noted c).1.time = s.tb.time := by
  simp [State.noted]

@[simp] theorem State.noted_find (s : State) (c : Chain) (n : Nat) : (s.noted c).1.find n = s.tb.find n :=
  s.tb.note_find c.sender c.sequence n

section
variable {s : State} {c : Chain} {i : Instr} {work : Tb → Effect}

theorem ApplyWork.exec_eq (applies : ApplyWork s c i work) :
    exec i s = .next (s.completeApply (s.tb.withNote c work)) := by
  cases applies with
  | name on => simp only [exec, execNameApply, (s.applying_iff .name c).2 on]
  | service on => simp only [exec, execServiceApply, (s.applying_iff .service c).2 on]
  | amend on => simp only [exec, execAmendApply, (s.applying_iff .amend c).2 on]
  | withdraw on => simp only [exec, execWithdrawApply, (s.applying_iff .withdraw c).2 on]
  | sweepOpen on => simp only [exec, execSweepOpen, (s.applying_iff .sweepOpen c).2 on]
  | sweepClose on => simp only [exec, execSweepClose, (s.applying_iff .sweepClose c).2 on]
  | clock on => simp only [exec, execClock, (s.applying_iff .clock c).2 on]
  | headerOnly working inWork mark =>
    simp only [exec, execHeaderOnlyApply, (s.applyingHeader_iff c).2 ⟨working, inWork, mark⟩]

theorem ApplyWork.windowRequest (applies : ApplyWork s c i work) (tb : Tb) :
    (work tb).tb.windowRequest = tb.windowRequest := by
  cases applies <;> simp

/-- What an apply does, by the effect its work has on the noted tables. -/
theorem ApplyWork.takesEffect (applies : ApplyWork s c i work) {fx : Effect} (effect : work (s.noted c).1 = fx) :
    ∃ t, exec i s = .next t ∧ TakesEffect s t c fx := by
  refine ⟨_, applies.exec_eq, ?_⟩
  subst effect
  obtain ⟨services, pool, names, refusals, feeders, stale, time⟩ := s.completeApply_tables (s.tb.withNote c work)
  refine ⟨services, pool, names, refusals, feeders, stale, time, s.completeApply_applied c work ?_⟩
  rw [applies.windowRequest]
  simp

/-- A work without effect on the tables. -/
theorem ApplyWork.onlyNoted (applies : ApplyWork s c i work) {own : List ReportKind}
    (idle : work (s.noted c).1 = ⟨(s.noted c).1, [], own, false⟩) : ∃ t, exec i s = .next t ∧ OnlyNoted s t c own :=
  ⟨_, applies.exec_eq, s.completeApply_onlyNoted c work idle⟩

end

/-- Settles O43: a body that is not well-formed has no effect but LINE_CRC. -/
theorem malformedTableNotices : Obligations.MalformedTableNotices := by
  intro s c i cases_
  obtain ⟨on, rfl, bad⟩ | ⟨on, rfl, bad⟩ | ⟨on, rfl, bad⟩ | ⟨on, rfl, bad⟩ | ⟨on, rfl, bad⟩ := cases_
  · refine (ApplyWork.name on).onlyNoted ?_
    obtain none | ⟨ds, d, some, member, bad⟩ := bad
    · simp only [Tb.nameWork, none]
      rfl
    · have fails : ¬ ds.all definitionOk = true := fun all => by simp [List.all_eq_true.1 all d member] at bad
      simp only [Tb.nameWork, some, if_neg fails]
      rfl
  · exact (ApplyWork.service on).onlyNoted (if_neg (by simp [bad]))
  · exact (ApplyWork.amend on).onlyNoted (if_neg (by simp [bad]))
  · exact (ApplyWork.withdraw on).onlyNoted (if_neg (by simp [withdrawOk, bad]))
  · exact (ApplyWork.clock on).onlyNoted (if_neg (by simpa [clockOk] using bad))

/-! ### Names (R43, R44) -/

theorem find_insertBy_of_not {α : Type} (before : α → α → Bool) {p : α → Bool} {x : α} (not : p x = false) :
    ∀ l : List α, (insertBy before x l).find? p = l.find? p
  | [] => by simp [insertBy, not]
  | y :: rest => by
    unfold insertBy
    split
    · simp [List.find?_cons, not]
    · simp only [List.find?_cons, find_insertBy_of_not before not rest]

theorem find_insertBy_self {α : Type} (before : α → α → Bool) {p : α → Bool} {x : α} (is : p x = true) :
    ∀ l : List α, (∀ y ∈ l, p y = false) → (insertBy before x l).find? p = some x
  | [], _ => by simp [insertBy, is]
  | y :: rest, others => by
    unfold insertBy
    split
    · simp [is]
    · have not := others y List.mem_cons_self
      simp only [List.find?_cons, not]
      exact find_insertBy_self before is rest fun z later => others z (List.mem_cons_of_mem y later)

/-- A definition gives its name its text, and leaves every other name (R44). -/
theorem nameText_define (names : List (Nat × Text)) (d : Nat × Text) (n : Nat) :
    nameText (defineName names d) n = if d.1 = n then d.2 else nameText names n := by
  have others : ∀ e ∈ names.filter (fun e => e.1 ≠ d.1), (e.1 == d.1) = false := by simp
  have elsewhere (other : d.1 ≠ n) :
      (names.filter fun e => e.1 ≠ d.1).find? (fun e => e.1 == n) = names.find? fun e => e.1 == n := by
    rw [List.find?_filter]
    refine congrArg (fun p => names.find? p) (funext fun e => ?_)
    by_cases same : e.1 = n <;> simp [same, Ne.symm other]
  have gone : (names.filter fun e => e.1 ≠ d.1).find? (fun e => e.1 == d.1) = none := by simp
  simp only [nameText, defineName]
  split
  next empty =>
    split
    next same => rw [← same, gone, empty]; rfl
    next other => rw [elsewhere other]
  next text =>
    split
    next same => rw [← same, find_insertBy_self _ (by simp) _ others]; rfl
    next other => rw [find_insertBy_of_not _ (by simpa using other), elsewhere other]

/-- The last definition of a name stands (R44). -/
theorem nameText_defineAll (ds : List (Nat × Text)) (names : List (Nat × Text)) (n : Nat) :
    nameText (ds.foldl defineName names) n =
      ((ds.filter fun d => d.1 == n).getLast?.map fun d => d.2).getD (nameText names n) := by
  induction ds generalizing names with
  | nil => rfl
  | cons d rest ih =>
    rw [List.foldl_cons, ih, nameText_define]
    by_cases same : d.1 = n
    · rw [List.filter_cons_of_pos (by simpa using same), if_pos same, List.getLast?_cons]
      cases (rest.filter fun d => d.1 == n).getLast? <;> rfl
    · rw [List.filter_cons_of_neg (by simpa using same), if_neg same]

section
variable {names : List (Nat × Text)} (form : NameForm names)
include form

/-- In the canonical form a text that is not empty stands in the table. -/
theorem NameForm.mem_iff (d : Nat × Text) : d ∈ names ↔ nameText names d.1 = d.2 ∧ d.2 ≠ [] := by
  obtain ⟨sorted, texts⟩ := form
  have once {e f : Nat × Text} (inE : e ∈ names) (inF : f ∈ names) (same : e.1 = f.1) : e = f :=
    eq_of_nodup_map (sorted.imp fun h => Nat.ne_of_lt h) inE inF same
  unfold nameText
  cases found : names.find? (fun e => e.1 == d.1) with
  | none =>
    have absent : d ∉ names := fun member => by simpa using List.find?_eq_none.1 found d member
    refine iff_of_false absent ?_
    rintro ⟨empty, text⟩
    exact text empty.symm
  | some e =>
    have member := List.mem_of_find?_eq_some found
    have number : e.1 = d.1 := by simpa using List.find?_some found
    constructor
    · intro listed
      rw [once member listed number]
      exact ⟨rfl, texts d listed⟩
    · rintro ⟨text, -⟩
      rwa [← Prod.ext number (show e.2 = d.2 from text)]

/-- Two tables in canonical form with the same texts are equal (log entry 14). -/
theorem NameForm.ext {others : List (Nat × Text)} (form' : NameForm others)
    (texts : ∀ n, nameText others n = nameText names n) : others = names := by
  have nodup {l : List (Nat × Text)} (form : NameForm l) : l.Nodup := by
    have numbers : (l.map fun d => d.1).Nodup := form.1.imp fun h => Nat.ne_of_lt h
    exact nodup_of_map numbers
  have perm : others.Perm names := (List.perm_ext_iff_of_nodup (nodup form') (nodup form)).2 fun d => by
    rw [form.mem_iff, form'.mem_iff, texts]
  refine perm.eq_of_pairwise (le := fun d e => d.1 < e.1) ?_ (List.pairwise_map.1 form'.1) (List.pairwise_map.1 form.1)
  exact fun d e _ _ h h' => absurd (Nat.lt_trans h h') (Nat.lt_irrefl _)

end

/-- Settles O37: NAME by its definitions one after another, CLOCK by the time it sets. -/
theorem nameAndClockApplied : Obligations.NameAndClockApplied := by
  refine ⟨fun s c ds on defined ok => ?_, fun s c on day => ?_⟩
  · let fx : Effect := ⟨{ (s.noted c).1 with names := ds.foldl defineName s.tb.names }, [], [],
      decide (ds.foldl defineName s.tb.names ≠ s.tb.names)⟩
    have effect : (s.noted c).1.nameWork c.body = fx := by
      simp only [Tb.nameWork, defined, if_pos (List.all_eq_true.2 ok), Tb.applyNames, fx, s.noted_frame c]
    obtain ⟨t, ran, takes⟩ := (ApplyWork.name on).takesEffect effect
    have names : t.tb.names = ds.foldl defineName s.tb.names := takes.names
    refine ⟨t, ran, fun n => names ▸ nameText_defineAll ds _ n, names ▸ takes.applied, fun sound => ⟨fun same n => by rw [same],
      fun texts => ?_⟩, takes.services.trans (s.noted_frame c).1, ?_, ?_, ?_, takes.feeders, takes.staleOrder⟩
    · rw [names] at texts ⊢
      exact NameForm.ext sound (NameForm.defineAll sound ds) texts
    · simpa [fx] using takes.pool
    · simpa [fx] using takes.refusals
    · simpa [fx] using takes.time
  · have ok : clockOk c.body = true := decide_eq_true day
    have effect := (if_pos ok : (s.noted c).1.clockWork c.body = _)
    obtain ⟨t, ran, takes⟩ := (ApplyWork.clock on).takesEffect effect
    refine ⟨t, ran, takes.time, ?_, ?_, ?_, ?_, ?_, takes.feeders, takes.staleOrder⟩
    · simpa [StationTime.minute] using takes.applied
    · simpa using takes.services
    · simpa using takes.pool
    · simpa using takes.names
    · simpa using takes.refusals

/-! ### AMEND (R59) -/

/-- A service is removed from the table, and its chain freed (R60). -/
theorem removed_of_services {s t : State} {v : Service} (services : t.tb.services = (s.tb.drop v).services)
    (pool : t.tb.pool = (s.tb.drop v).pool) (names : t.tb.names = s.tb.names) (time : t.tb.time = s.tb.time) :
    Removed s t v := by
  have found (n : Nat) : t.tb.find n = if v.number = n then none else s.tb.find n := by
    rw [Tb.find_congr services, Tb.drop_find]
  exact ⟨by rw [found, if_pos rfl], fun n other => by rw [found, if_neg other.symm], pool, names, time⟩

/-- One entry is put into the service table. -/
theorem found_of_put {s t : State} {v : Service} (services : t.tb.services = putService v s.tb.services) :
    t.tb.find v.number = some v ∧ OthersStand s t v.number := by
  have found (n : Nat) : t.tb.find n = if v.number = n then some v else s.tb.find n := by
    rw [Tb.find, services]
    exact find_putService v n s.tb.services
  exact ⟨by rw [found, if_pos rfl], fun n other => by rw [found, if_neg other.symm]⟩

/-- Settles O41: by the entry of the number, the edition and the platform. -/
theorem amendApplied : Obligations.AmendApplied := by
  intro s c a on ok amends
  have effect : (s.noted c).1.amendWork s.prof c.body = (s.noted c).1.applyAmend s.prof a := by
    rw [amends]
    exact if_pos ok
  refine ⟨fun missing => ?_, fun old stored => ⟨fun older => ?_, fun newer outside => ?_, fun newer inside => ?_⟩⟩
  · refine (ApplyWork.amend on).onlyNoted (effect.trans ?_)
    simp [Tb.applyAmend, missing]
  · refine (ApplyWork.amend on).onlyNoted (effect.trans ?_)
    simp [Tb.applyAmend, stored, older, Effect.none]
  · obtain ⟨-, number⟩ := Tb.find_some stored
    have moves : (s.noted c).1.applyAmend s.prof a =
        { (s.noted c).1.removal old with
          tb := { (s.noted c).1.drop old with refusals := refuse a.number s.tb.refusals } } := by
      simp [Tb.applyAmend, stored, newer, outside, Tb.removal]
    obtain ⟨t, ran, takes⟩ := (ApplyWork.amend on).takesEffect (effect.trans moves)
    have removed : Removed s t old := by
      refine removed_of_services (takes.services.trans ?_) (takes.pool.trans ?_) (takes.names.trans ?_)
        (takes.time.trans ?_) <;> simp [Tb.drop]
    exact ⟨t, ran, removed, takes.refusals, ⟨takes.feeders, takes.staleOrder⟩, number ▸ takes.applied⟩
  · obtain ⟨-, number⟩ := Tb.find_some stored
    have amended : (s.noted c).1.applyAmend s.prof a =
        { tb := { (s.noted c).1 with services := putService (a.entry old) s.tb.services }
          messages := changeMessages s.prof.delayThreshold old (a.entry old), reports := [], compose := true } := by
      simp [Tb.applyAmend, stored, newer, inside]
    obtain ⟨t, ran, takes⟩ := (ApplyWork.amend on).takesEffect (effect.trans amended)
    obtain ⟨found, others⟩ := found_of_put (s := s) (t := t) (v := a.entry old) (by simpa using takes.services)
    have same : (a.entry old).number = a.number := number
    rw [same] at found others
    refine ⟨t, a.entry old, ran, found, rfl, others, ?_, ?_, ?_, ?_, ⟨takes.feeders, takes.staleOrder⟩,
      takes.applied⟩
    · simpa using takes.pool
    · simpa using takes.refusals
    · simpa using takes.names
    · simpa using takes.time

end Sys2Proof.Machine
end

