-- ==== Sys2Proof/Proofs/ServiceApplies.lean ====
section
/-! SUPPORT. SERVICE (R52 to R58, R76): what the apply leaves by the outcome of its work, the cells of a calling list, the
latest service, and the statements on stored and new services. -/

namespace Sys2Proof.Machine

/-! ### The apply of a SERVICE -/

/-- After a SERVICE apply that adds to the sweep count (R76), by its effect on services, pool and refusals. -/
structure ServiceTaken (s t : State) (c : Chain) (fx : Effect) : Prop where
  services : t.tb.services = fx.tb.services
  pool : t.tb.pool = fx.tb.pool
  names : t.tb.names = s.tb.names
  refusals : t.tb.refusals = fx.tb.refusals
  time : t.tb.time = s.tb.time
  swept : SweepCounted s t c
  applied : Applied s t c fx.reports fx.messages fx.compose

theorem Tb.countSweep_feeders (tb : Tb) (n : Nat) : (tb.countSweep n).feeders = tb.feeders.map fun f =>
    if f.node = n ∧ f.sweeping = true then { f with count := bump f.count } else f := by
  refine List.map_congr_left fun f _ => ?_
  by_cases same : f.node = n <;> simp [same]

section
variable {s : State} {c : Chain} {r : ServiceRecord} (on : s.Applying .service c) (ok : serviceOk c.body = true)
  (record : r = serviceRecord c.body)
include on ok record

theorem serviceApply_taken {fx : Effect} {outcome : ServiceOutcome}
    (applies : (s.noted c).1.applyService s.prof c.sender r = (fx, outcome)) (counts : outcome.counts = true) :
    ∃ t, exec .serviceApply s = .next t ∧ ServiceTaken s t c fx := by
  have work : (s.noted c).1.serviceWork s.prof c.sender c.body = { fx with tb := fx.tb.countSweep c.sender } := by
    simp only [Tb.serviceWork, if_pos ok, ← record, applies, if_pos counts]
  obtain ⟨t, ran, takes⟩ := (ApplyWork.service on).takesEffect work
  have frame := Tb.applyService_frame (s.noted c).1 s.prof c.sender r
  rw [applies] at frame
  obtain ⟨names, -, -, -, -, feeders, stale, time⟩ := frame
  obtain ⟨h1, h2, h3, h4, h5, h6, h7, applied⟩ := takes
  refine ⟨t, ran, by simpa using h1, by simpa using h2, ?_, by simpa using h4, ?_, ⟨?_, ?_⟩, applied⟩
  · exact h3.trans (by simpa using names)
  · exact h7.trans (by simpa using time)
  · exact h6.trans (by simpa using stale)
  · rw [h5, Tb.countSweep_feeders, feeders]

theorem serviceApply_ignored {outcome : ServiceOutcome}
    (applies : (s.noted c).1.applyService s.prof c.sender r = (.none (s.noted c).1, outcome))
    (counts : outcome.counts = false) : ∃ t, exec .serviceApply s = .next t ∧ OnlyNoted s t c [] := by
  refine (ApplyWork.service on).onlyNoted ?_
  simp only [Tb.serviceWork, if_pos ok, ← record, applies, counts]
  rfl

end

/-! ### Calling lists and the service table (R39 to R42) -/

/-- Cells outside those written stand, and the cells written hold the stops in order. -/
theorem writeCells_spec : ∀ (at_ : List Nat) (cells stops : List StopCell), at_.Nodup → (∀ k ∈ at_, k < cells.length) →
    at_.length ≤ stops.length →
    at_.map (fun k => (writeCells cells at_ stops)[k]?) = (stops.take at_.length).map some ∧
    ∀ k, k ∉ at_ → (writeCells cells at_ stops)[k]? = cells[k]?
  | [], cells, stops, _, _, _ => by simp [writeCells]
  | c :: cs, cells, [], _, _, few => absurd few (by simp)
  | c :: cs, cells, x :: xs, distinct, inside, few => by
    rw [List.nodup_cons] at distinct
    obtain ⟨new, distinct⟩ := distinct
    obtain ⟨written, others⟩ := writeCells_spec cs (cells.set c x) xs distinct
      (fun k later => by simpa using inside k (List.mem_cons_of_mem c later)) (Nat.le_of_succ_le_succ few)
    refine ⟨?_, fun k out => ?_⟩
    · have first : (writeCells (cells.set c x) cs xs)[c]? = some x := by
        rw [others c new]
        simp [inside c List.mem_cons_self]
      simp only [writeCells, List.map_cons, List.length_cons, List.take_succ_cons, first, written]
    · rw [List.mem_cons, not_or] at out
      rw [writeCells, others k out.2, List.getElem?_set_ne (Ne.symm out.1)]

/-- The free cells are distinct cells of the pool (R41). -/
theorem Tb.ServicesSound.free_distinct {tb : Tb} (sound : tb.ServicesSound) :
    tb.pool.free.Nodup ∧ ∀ k ∈ tb.pool.free, k < tb.pool.cells.length := by
  obtain ⟨-, -, cells, perm, -⟩ := sound
  refine ⟨((perm.nodup_iff.2 List.nodup_range).sublist (List.sublist_append_left _ _)), fun k free => ?_⟩
  rw [cells]
  exact List.mem_range.1 (perm.subset (List.mem_append_left _ free))

theorem Tb.drop_length {tb : Tb} (distinct : (tb.services.map fun w => w.number).Nodup) {v : Service}
    (stored : v ∈ tb.services) : (tb.drop v).services.length + 1 = tb.services.length := by
  have numbers : (tb.drop v).services.map (fun w => w.number) = (tb.services.map fun w => w.number).erase v.number := by
    rw [distinct.erase_eq_filter, List.filter_map]
    refine congrArg _ (List.filter_congr fun w _ => ?_)
    by_cases same : w.number = v.number <;> simp [same]
  have shorter := List.length_erase_of_mem (List.mem_map_of_mem (f := fun w : Service => w.number) stored)
  have some := List.length_pos_of_mem stored
  have lengths := congrArg List.length numbers
  simp only [List.length_map] at lengths shorter
  omega

theorem laterThan_asymm {a b : Int} {m n : Nat} (later : laterThan a m b n = true) : laterThan b n a m = false := by
  simp only [laterThan, decide_eq_true_eq, decide_eq_false_iff_not] at *
  omega

/-- The service later than every other is the latest one (R40). -/
theorem latestOf_eq (minute : Option Nat) {v : Service} : ∀ {l : List Service}, (l.map fun w => w.number).Nodup → v ∈ l →
    (∀ w ∈ l, w.number ≠ v.number → laterThan (v.key minute) v.number (w.key minute) w.number = true) →
    latestOf minute l = some v
  | w :: rest, distinct, member, later => by
    rw [List.map_cons, List.nodup_cons] at distinct
    obtain ⟨new, distinct⟩ := distinct
    obtain rfl | inRest := List.mem_cons.1 member
    · unfold latestOf
      split
      next => rfl
      next x latest =>
        have inRest := latestOf_mem minute rest x latest
        have other : x.number ≠ v.number := fun e => new (e ▸ List.mem_map_of_mem inRest)
        rw [if_neg (by simp [laterThan_asymm (later x (List.mem_cons_of_mem v inRest) other)])]
    · have other : w.number ≠ v.number := fun e => new (e ▸ List.mem_map_of_mem inRest)
      have latest := latestOf_eq minute distinct inRest fun x h => later x (List.mem_cons_of_mem w h)
      simp only [latestOf, latest, if_pos (later w List.mem_cons_self other)]

/-! ### A SERVICE that is not stored (R52 to R54) -/

theorem Tb.applyService_new {tb : Tb} {r : ServiceRecord} (new : tb.find r.number = none) (p : Profile) (sender : Nat) :
    tb.applyService p sender r = if p.platforms.contains r.platform then tb.takeIn p sender r
      else (.none { tb with refusals := refuse r.number tb.refusals }, .refused) := by
  simp only [Tb.applyService, new]

/-- What a store into the tables `from_` leaves, where the service is new there (R53). -/
theorem ServiceTaken.stored {s t : State} {c : Chain} {r : ServiceRecord} {from_ : Tb} {fx : Effect}
    (taken : ServiceTaken s t c fx) (tb : fx.tb = (from_.store s.prof c.sender r).tb) (n : Nat) :
    t.tb.find n = if r.number = n then some (r.entry c.sender (from_.pool.free.take r.stops.length))
      else from_.find n := by
  have services : t.tb.services = putService (r.entry c.sender (from_.pool.free.take r.stops.length)) from_.services := by
    rw [taken.services, tb]
    rfl
  rw [Tb.find, services]
  exact find_putService _ n from_.services

/-- Settles O38: the record is refused by its platform, or takes the first free cells. -/
theorem serviceStoredOrRefused : Obligations.ServiceStoredOrRefused := by
  intro s c r on ok record new
  have new' : (s.noted c).1.find r.number = none := by rw [State.noted_find, new]
  have applies := Tb.applyService_new new' s.prof c.sender
  refine ⟨fun outside => ?_, fun inside room => ?_⟩
  · rw [if_neg (by simp [outside])] at applies
    obtain ⟨t, ran, taken⟩ := serviceApply_taken on ok record applies rfl
    refine ⟨t, ran, taken.applied, ?_, ?_, ?_, taken.names, taken.time, taken.swept⟩
    · rw [taken.refusals, ← (s.noted_frame c).2.2.2.1]
      rfl
    · exact taken.services.trans (s.noted_frame c).1
    · exact taken.pool.trans (s.noted_frame c).2.1
  · obtain ⟨services, pool, -, refusals, -⟩ := s.noted_frame c
    have stores : (s.noted c).1.takeIn s.prof c.sender r = ((s.noted c).1.store s.prof c.sender r, .stored) :=
      if_pos (by rw [services]; exact room)
    rw [if_pos inside, stores] at applies
    obtain ⟨t, ran, taken⟩ := serviceApply_taken on ok record applies rfl
    have found := taken.stored rfl
    have poolT : t.tb.pool = s.tb.pool.take r.stops := by
      rw [taken.pool, ← pool]
      rfl
    refine ⟨t, s.tb.pool.free.take r.stops.length, ran, rfl, ?_, fun n other => ?_, ?_, by rw [poolT]; rfl, fun sound => ?_,
      ?_, taken.names, taken.time, taken.swept, ?_⟩
    · rw [found, if_pos rfl, pool]
      rfl
    · rw [found, if_neg other.symm, State.noted_find]
    · rw [taken.services, ← services]
      exact congrArg List.length (putService_new _ _ (Tb.find_none new')) |>.trans List.length_append
    · obtain ⟨distinct, inside⟩ := sound.free_distinct
      rw [poolT]
      exact writeCells_spec _ _ _ (distinct.sublist (List.take_sublist _ _))
        (fun k taken => inside k (List.mem_of_mem_take taken)) (List.length_take_le _ _)
    · rw [taken.refusals, ← refusals]
      rfl
    · simpa [Tb.store, Tb.cutReports, StopPool.freeCount] using taken.applied

/-- A full table gives up its latest service for an earlier one, or keeps it (R54). -/
theorem Tb.takeIn_full {tb : Tb} (full : tb.services.length = 64) {v : Service}
    (latest : latestOf tb.time.minute tb.services = some v) (p : Profile) (sender : Nat) (r : ServiceRecord) :
    tb.takeIn p sender r =
      if laterThan (v.key tb.time.minute) v.number (displayKey tb.time.minute r.scheduled r.expected) r.number then
        ({ (tb.drop v).store p sender r with
            messages := .releaseAll v.number :: ((tb.drop v).store p sender r).messages
            reports := .tableFull :: ((tb.drop v).store p sender r).reports }, .stored)
      else (⟨tb, [], [.tableFull], false⟩, .dropped) := by
  have none : ¬ tb.services.length < Config.serviceCapacity := by simp [full, Config.serviceCapacity]
  simp only [Tb.takeIn, if_neg none, latest]

/-- Settles O39: the latest service gives way to an earlier one, and the notice is dropped otherwise. -/
theorem fullTableEvictsLatest : Obligations.FullTableEvictsLatest := by
  intro s c r v on ok record new inside sound full stored latest
  obtain ⟨services, pool, -, refusals, -, time⟩ := s.noted_frame c
  have new' : (s.noted c).1.find r.number = none := by rw [State.noted_find, new]
  have distinct := sound.2.1
  have applies := Tb.applyService_new new' s.prof c.sender
  rw [if_pos inside, Tb.takeIn_full (by rw [services, full]) (v := v)
    (by rw [services, time]; exact latestOf_eq _ distinct stored latest), time] at applies
  refine ⟨fun later => ?_, fun earlier => ?_⟩
  · rw [if_pos later] at applies
    obtain ⟨t, ran, taken⟩ := serviceApply_taken on ok record applies rfl
    have found (n : Nat) : t.tb.find n = if r.number = n then
          some (r.entry c.sender ((v.chain ++ s.tb.pool.free).take r.stops.length))
        else if v.number = n then none else s.tb.find n := by
      rw [taken.stored (from_ := (s.noted c).1.drop v) rfl, Tb.drop_find, State.noted_find]
      simp [Tb.drop, StopPool.give]
    have other : v.number ≠ r.number := Tb.find_none new v stored
    have poolT : t.tb.pool = StopPool.take (s.tb.pool.give v.chain) r.stops := by
      rw [taken.pool, ← pool]
      rfl
    have dropped : ((s.noted c).1.drop v).services = (s.tb.drop v).services := by simp [Tb.drop]
    refine ⟨t, ran, ?_, ?_, fun m notV notR => ?_, ?_, by rw [poolT]; rfl, ?_, taken.names, taken.time, taken.swept, ?_⟩
    · rw [found, if_neg other.symm, if_pos rfl]
    · rw [found, if_pos rfl]
    · rw [found, if_neg notR.symm, if_neg notV.symm]
    · have newThere : ∀ w ∈ ((s.noted c).1.drop v).services, w.number ≠ r.number := fun w kept =>
        Tb.find_none new' w (List.mem_filter.1 kept).1
      rw [taken.services]
      refine (congrArg List.length (putService_new _ _ newThere)).trans ?_
      rw [List.length_append, dropped]
      exact (Tb.drop_length distinct stored).trans full
    · rw [taken.refusals, ← refusals]
      rfl
    · simpa [Tb.store, Tb.cutReports, StopPool.freeCount, Tb.drop, StopPool.give] using taken.applied
  · rw [if_neg (by simp [earlier])] at applies
    obtain ⟨t, ran, taken⟩ := serviceApply_taken on ok record applies rfl
    exact ⟨t, ran, ⟨taken.services.trans services, taken.pool.trans pool, taken.names, taken.refusals.trans refusals,
      taken.time⟩, taken.swept, taken.applied⟩

/-! ### A SERVICE that is stored (R52, R55, R56, R58) -/

theorem Tb.applyService_known {tb : Tb} {r : ServiceRecord} {old : Service} (stored : tb.find r.number = some old)
    (p : Profile) (sender : Nat) : tb.applyService p sender r =
      if editionOlder r.edition old.edition then (.none tb, .older)
      else if !p.platforms.contains r.platform then
        ({ tb.removal old with tb := { tb.drop old with refusals := refuse r.number tb.refusals } }, .movedOut)
      else if editionNewer r.edition old.edition then (tb.replace p sender old r, .replaced)
      else (tb.refresh sender old, .refreshed) := by
  simp only [Tb.applyService, stored]
  rfl

theorem editionNewer_not_older {n o : BitVec 8} (newer : editionNewer n o = true) : editionOlder n o = false := by
  simp only [editionNewer, editionOlder, decide_eq_true_eq, decide_eq_false_iff_not] at *
  omega

theorem edition_same (n : BitVec 8) : editionOlder n n = false ∧ editionNewer n n = false := by
  simp [editionOlder, editionNewer]

/-- Settles O40: by the edition and the platform. -/
theorem storedServiceUpdated : Obligations.StoredServiceUpdated := by
  intro s c r old on ok record stored
  obtain ⟨services, pool, -, refusals, -, time⟩ := s.noted_frame c
  obtain ⟨-, number⟩ := Tb.find_some stored
  have stored' : (s.noted c).1.find r.number = some old := by rw [State.noted_find, stored]
  have applies := Tb.applyService_known stored' s.prof c.sender
  refine ⟨fun older => ?_, fun young outside => ?_, fun newer inside => ?_, fun same inside => ?_⟩
  · rw [if_pos older] at applies
    exact serviceApply_ignored on ok record applies rfl
  · rw [if_neg (by simp [young]), if_pos (by simp [outside])] at applies
    obtain ⟨t, ran, taken⟩ := serviceApply_taken on ok record applies rfl
    have removed : Removed s t old := by
      refine removed_of_services (taken.services.trans ?_) (taken.pool.trans ?_) taken.names taken.time <;> simp [Tb.drop]
    refine ⟨t, ran, removed, ?_, taken.swept, number ▸ taken.applied⟩
    rw [taken.refusals, ← refusals]
    rfl
  · rw [if_neg (by simp [editionNewer_not_older newer]), if_neg (by simp [inside]), if_pos newer] at applies
    obtain ⟨t, ran, taken⟩ := serviceApply_taken on ok record applies rfl
    let v := r.entry c.sender ((old.chain ++ s.tb.pool.free).take r.stops.length)
    have put : t.tb.services = putService v s.tb.services := by
      rw [taken.services, ← services]
      simp [v, Tb.replace, Tb.write, StopPool.give]
    obtain ⟨found, others⟩ := found_of_put put
    refine ⟨t, ran, found, others, ?_, taken.refusals.trans refusals, taken.names, taken.time, taken.swept, ?_⟩
    · rw [taken.pool, ← pool]
      rfl
    · simpa [Tb.replace, Tb.cutReports, StopPool.freeCount, StopPool.give] using taken.applied
  · obtain ⟨notOlder, notNewer⟩ := edition_same old.edition
    rw [same, if_neg (by simp [notOlder]), if_neg (by simp [inside]), if_neg (by simp [notNewer])] at applies
    obtain ⟨t, ran, taken⟩ := serviceApply_taken on ok record applies rfl
    let v : Service := { old with mark := true, owner := c.sender, refresh := .running }
    have put : t.tb.services = putService v s.tb.services := by
      rw [taken.services, ← services]
      rfl
    obtain ⟨found, others⟩ := found_of_put put
    have numbered : v.number = r.number := number
    rw [numbered] at found others
    exact ⟨t, ran, found, others, taken.pool.trans pool, taken.refusals.trans refusals, taken.names, taken.time,
      taken.swept, taken.applied⟩

end Sys2Proof.Machine
end

