-- ==== Sys2Proof/Proofs/FeedersAndSweeps.lean ====
section
/-! SUPPORT. The feeder table entry by entry (R71 to R74), and the applies of SWEEP-OPEN, of header-only chains and of
SWEEP-CLOSE (R75 to R78). -/

namespace Sys2Proof.Machine

/-! ### Lookups in the feeder table -/

/-- Looking a node up after its entry, or another's, is changed. -/
theorem Tb.updateFeeder_feeder (tb : Tb) (n : Nat) {f : Feeder → Feeder} (node : ∀ x, (f x).node = x.node) (m : Nat) :
    (tb.updateFeeder n f).feeder m = if m = n then (tb.feeder m).map f else tb.feeder m := by
  have same (x : Feeder) : (if x.node = n then f x else x).node = x.node := by
    split
    · exact node x
    · rfl
  simp only [Tb.updateFeeder, Tb.feeder, List.find?_map, Function.comp_def, same]
  cases found : tb.feeders.find? (fun x => x.node == m) with
  | none => simp
  | some x =>
    have is : x.node = m := by simpa using List.find?_some found
    by_cases h : m = n <;> simp [is, h]

/-- A new entry at the end is found where the node had none. -/
theorem find_append_new {tb : Tb} {x : Feeder} (new : tb.feeder x.node = none) (m : Nat) :
    (tb.feeders ++ [x]).find? (fun y => y.node == m) = if m = x.node then some x else tb.feeder m := by
  rw [List.find?_append]
  by_cases same : m = x.node
  · subst same
    rw [show tb.feeders.find? (fun y => y.node == x.node) = none from new]
    simp
  · have other : (x.node == m) = false := by simpa using Ne.symm same
    simp only [List.find?_cons, other, List.find?_nil, Option.or_none, if_neg same]
    rfl

/-- The entry of one node reused for another that had none. -/
theorem find_reused {l : List Feeder} {x : Feeder} {old : Nat} (new : ∀ y ∈ l, y.node ≠ x.node)
    (used : ∃ y ∈ l, y.node = old) (m : Nat) :
    (l.map fun y => if y.node = old then x else y).find? (fun y => y.node == m) =
      if m = x.node then some x else if m = old then none else l.find? fun y => y.node == m := by
  split
  next same =>
    subst same
    obtain ⟨y, listed, is⟩ := used
    have member : x ∈ l.map fun y => if y.node = old then x else y := List.mem_map.2 ⟨y, listed, if_pos is⟩
    cases found : (l.map fun y => if y.node = old then x else y).find? (fun y => y.node == x.node) with
    | none => exact absurd (List.find?_eq_none.1 found x member) (by simp)
    | some z =>
      have node : z.node = x.node := by simpa using List.find?_some found
      obtain ⟨w, inL, rfl⟩ := List.mem_map.1 (List.mem_of_find?_eq_some found)
      split at node
      next reused => rw [if_pos reused]
      next => exact absurd node (new w inL)
  next other =>
    have passes (y : Feeder) : ((if y.node = old then x else y).node == m) = (decide (y.node ≠ old) && (y.node == m)) := by
      by_cases is : y.node = old
      · simpa [is] using Ne.symm other
      · simp [is]
    simp only [List.find?_map, Function.comp_def, passes]
    split
    next gone =>
      subst gone
      have none : l.find? (fun y => decide (y.node ≠ m) && (y.node == m)) = none := by
        refine List.find?_eq_none.2 fun y _ => ?_
        by_cases is : y.node = m <;> simp [is]
      rw [none]
      rfl
    next stands =>
      have same : (fun y : Feeder => decide (y.node ≠ old) && (y.node == m)) = fun y => y.node == m := by
        funext y
        by_cases is : y.node = m <;> simp [is, stands]
      rw [same]
      cases found : l.find? (fun y => y.node == m) with
      | none => rfl
      | some y =>
        have node : y.node = m := by simpa using List.find?_some found
        simp [node, stands]

/-! ### The header note (R71 to R74) -/

theorem Feeder.gap_eq (f : Feeder) (q : BitVec 8) : f.gap q = f.expectedSequence.any fun e => e != q := by
  unfold Feeder.gap
  cases f.expectedSequence with
  | none => rfl
  | some e =>
    by_cases same : e = q <;> simp [same]

section
variable {tb : Tb} {n : Nat}

theorem Tb.learn_known {f : Feeder} (known : tb.feeder n = some f) :
    tb.learn n = ({ tb with staleOrder := tb.staleOrder.erase n }, true) := by
  simp only [Tb.learn, known]

theorem Tb.learn_new (unknown : tb.feeder n = none) (room : tb.feeders.length < 8) :
    tb.learn n = ({ tb with feeders := tb.feeders ++ [Feeder.fresh n] }, true) := by
  simp [Tb.learn, unknown, Config.feederCapacity, room]

theorem Tb.learn_reuse (unknown : tb.feeder n = none) (full : tb.feeders.length = 8) {old : Nat} {rest : List Nat}
    (stale : tb.staleOrder = old :: rest) : tb.learn n =
      ({ tb with feeders := tb.feeders.map (fun x => if x.node = old then Feeder.fresh n else x)
                 staleOrder := rest }, true) := by
  simp [Tb.learn, unknown, Config.feederCapacity, full, stale]

theorem Tb.learn_full (unknown : tb.feeder n = none) (full : tb.feeders.length = 8) (stale : tb.staleOrder = []) :
    tb.learn n = (tb, false) := by
  simp [Tb.learn, unknown, Config.feederCapacity, full, stale]

/-- The note of a feeder that has an entry `f` once it is learnt (R73). -/
theorem Tb.note_of_learn {t : Tb} {f : Feeder} (learnt : tb.learn n = (t, true)) (entry : t.feeder n = some f)
    (q : BitVec 8) : (tb.note n q).1.feeder n = some (f.noted q) ∧
      (∀ m, m ≠ n → (tb.note n q).1.feeder m = t.feeder m) ∧ (tb.note n q).1.staleOrder = t.staleOrder ∧
      (tb.note n q).1.knownFeeders = t.knownFeeders ∧
      (tb.note n q).2 = if (f.expectedSequence.any fun e => e != q) then [.seqGap] else [] := by
  have note : tb.note n q = (t.updateFeeder n fun f => f.noted q,
      if (f.expectedSequence.any fun e => e != q) then [.seqGap] else []) := by
    simp only [Tb.note, learnt, entry, Feeder.gap_eq]
  have found (m : Nat) : (t.updateFeeder n fun f => f.noted q).feeder m =
      if m = n then (t.feeder m).map fun f => f.noted q else t.feeder m :=
    t.updateFeeder_feeder n (f := fun f => f.noted q) (fun _ => rfl) m
  rw [note]
  refine ⟨?_, fun m other => ?_, rfl, ?_, rfl⟩
  · rw [found, if_pos rfl, entry]
    rfl
  · rw [found, if_neg other]
  · simp [Tb.knownFeeders, Tb.updateFeeder]

end

/-- The entry a note leaves where the feeder was new. -/
theorem Feeder.fresh_noted (n : Nat) (q : BitVec 8) :
    (Feeder.fresh n).noted q = ⟨n, some (q + 1), false, 0, 0, false, .running, .stopped⟩ := rfl

/-- Settles O44: the entry is known, new, reused, or there is none to take. -/
theorem headerNoteTracksFeeder : Obligations.HeaderNoteTracksFeeder := by
  intro tb n q sound
  obtain ⟨-, -, staleDistinct, inUse, -, -⟩ := sound
  refine ⟨fun f known => ?_, fun unknown room => ?_, fun unknown full old rest stale => ?_,
    fun unknown full stale => ?_, fun free m other => ?_⟩
  · obtain ⟨entry, -, stale, -, reports⟩ := Tb.note_of_learn (Tb.learn_known known) (f := f) known q
    refine ⟨entry.trans ?_, stale.trans ?_, reports⟩
    · rw [Feeder.noted, Feeder.gap_eq, Bool.and_comm]
    · rw [staleDistinct.erase_eq_filter]
      exact List.filter_congr fun m _ => by by_cases same : m = n <;> simp [same]
  · have found := (find_append_new (x := Feeder.fresh n) unknown n).trans (if_pos rfl)
    obtain ⟨entry, -, stale, feeders, reports⟩ := Tb.note_of_learn (Tb.learn_new unknown room) found q
    exact ⟨entry, feeders.trans (by simp [Tb.knownFeeders]), stale, reports⟩
  · have used : ∃ y ∈ tb.feeders, y.node = old := List.mem_map.1 (inUse old (by simp [stale]))
    have other : old ≠ n := by
      obtain ⟨y, listed, is⟩ := used
      exact is ▸ Tb.feeder_none unknown y listed
    have reused := find_reused (x := Feeder.fresh n) (Tb.feeder_none unknown) used
    obtain ⟨entry, others, order, feeders, reports⟩ :=
      Tb.note_of_learn (Tb.learn_reuse unknown full stale) ((reused n).trans (if_pos rfl)) q
    refine ⟨entry, ?_, feeders.trans (by simp [Tb.knownFeeders, full]), order, reports, fun m notN notOld => ?_⟩
    · exact (others old other).trans ((reused old).trans ((if_neg other).trans (if_pos rfl)))
    · exact (others m notN).trans ((reused m).trans ((if_neg notN).trans (if_neg notOld)))
  · simp [Tb.note, Tb.learn_full unknown full stale]
  · cases known : tb.feeder n with
    | some f =>
      obtain ⟨-, others, -⟩ := Tb.note_of_learn (Tb.learn_known known) (f := f) known q
      exact others m other
    | none =>
      have found := find_append_new (x := Feeder.fresh n) known
      obtain ⟨-, others, -⟩ := Tb.note_of_learn (Tb.learn_new known (free.resolve_left (absurd known)))
        ((found n).trans (if_pos rfl)) q
      exact (others m other).trans ((found m).trans (if_neg other))

/-! ### SWEEP-OPEN and header-only chains (R71, R75, R76) -/

/-- A sweep opens in its sender's entry, and the marks of the sender's services clear. -/
theorem Tb.sweepOpenWork_known {tb : Tb} {sender : Nat} {f : Feeder} (entry : tb.feeder sender = some f)
    (body : List Byte) : tb.sweepOpenWork sender body = .none { tb.updateFeeder sender (fun g =>
        { g with sweeping := true, epoch := byteAt body 0, count := 0, spoiled := false, limit := .running }) with
      services := tb.services.map fun v => if v.owner = sender then { v with mark := false } else v } := by
  simp only [Tb.sweepOpenWork, entry]

/-- Settles O45: the sender's entry is found, or there is none; a header-only SERVICE counts. -/
theorem sweepOpenAndHeaderOnly : Obligations.SweepOpenAndHeaderOnly := by
  refine ⟨fun s c on => ?_, fun s c working inWork mark => ?_⟩
  · obtain ⟨services, pool, names, refusals, -, time⟩ := s.noted_frame c
    cases entry : (s.noted c).1.feeder c.sender with
    | none =>
      have work : (s.noted c).1.sweepOpenWork c.sender c.body = .none (s.noted c).1 := by
        simp only [Tb.sweepOpenWork, entry]
      obtain ⟨t, ran, h1, h2, h3, h4, h5, h6, h7, applied⟩ := (ApplyWork.sweepOpen on).takesEffect work
      refine ⟨t, ran, (nomatch ·), fun _ => h1.trans services, h5.trans ?_, h6, h2.trans pool, h3.trans names,
        h4.trans refusals, h7.trans time, applied⟩
      refine ((List.map_id' _).symm.trans (List.map_congr_left fun f listed => ?_))
      rw [if_neg (Tb.feeder_none entry f listed)]
    | some f =>
      have work := Tb.sweepOpenWork_known entry c.body
      obtain ⟨t, ran, h1, h2, h3, h4, h5, h6, h7, applied⟩ := (ApplyWork.sweepOpen on).takesEffect work
      refine ⟨t, ran, fun _ => h1.trans ?_, (nomatch ·), h5, h6, h2.trans pool, h3.trans names,
        h4.trans refusals, h7.trans time, applied⟩
      rw [← services]
      rfl
  · obtain ⟨services, pool, names, refusals, -, time⟩ := s.noted_frame c
    by_cases service : c.kind = some .service
    · have work := (if_pos service : (s.noted c).1.headerOnlyWork c.sender c.kind = _)
      obtain ⟨t, ran, takes⟩ := (ApplyWork.headerOnly working inWork mark).takesEffect work
      obtain ⟨h1, h2, h3, h4, h5, h6, h7, applied⟩ := takes
      exact ⟨t, ran, ⟨h1.trans services, h2.trans pool, h3.trans names, h4.trans refusals, h7.trans time⟩, applied,
        fun _ => ⟨h6, h5.trans (Tb.countSweep_feeders _ _)⟩, fun other => absurd service other⟩
    · obtain ⟨t, ran, applied, kept, noted⟩ := (ApplyWork.headerOnly working inWork mark).onlyNoted (if_neg service)
      exact ⟨t, ran, kept, applied, fun is => absurd is service, fun _ => noted⟩

/-! ### SWEEP-CLOSE (R77, R78) -/

/-- Services dropped one after another are gone, and the others stand. -/
theorem foldDrop_services (gone : List Service) (tb : Tb) : (gone.foldl Tb.drop tb).services =
    tb.services.filter fun v => decide (∀ g ∈ gone, v.number ≠ g.number) := by
  induction gone generalizing tb with
  | nil => exact (List.filter_eq_self.2 fun v _ => decide_eq_true fun g none => absurd none List.not_mem_nil).symm
  | cons g rest ih =>
    rw [List.foldl_cons, ih]
    simp only [Tb.drop, List.filter_filter]
    refine List.filter_congr fun v _ => ?_
    by_cases same : v.number = g.number <;> simp [same]

/-- Their chains join the free list, and the cells stand. -/
theorem foldDrop_pool (gone : List Service) (tb : Tb) : (gone.foldl Tb.drop tb).pool.cells = tb.pool.cells ∧
    (gone.foldl Tb.drop tb).pool.free.Perm (gone.flatMap (fun v => v.chain) ++ tb.pool.free) := by
  induction gone generalizing tb with
  | nil => exact ⟨rfl, List.Perm.refl _⟩
  | cons g rest ih =>
    obtain ⟨cells, free⟩ := ih (tb.drop g)
    refine ⟨cells, free.trans ?_⟩
    show (_ ++ (g.chain ++ tb.pool.free)).Perm ((g.chain ++ rest.flatMap fun v => v.chain) ++ tb.pool.free)
    rw [← List.append_assoc]
    exact List.perm_append_comm.append_right _

/-- In a table of distinct numbers the unannounced services alone are removed (R78). -/
theorem Tb.unannounced_dropped {tb : Tb} (distinct : (tb.services.map fun w => w.number).Nodup) (sender : Nat) :
    ((tb.unannounced sender).foldl Tb.drop tb).services =
      tb.services.filter fun v => !(v.owner == sender && !v.mark) := by
  rw [foldDrop_services]
  refine List.filter_congr fun v stored => ?_
  have removed : (∃ g ∈ tb.unannounced sender, v.number = g.number) ↔ (v.owner == sender && !v.mark) = true := by
    constructor
    · rintro ⟨g, listed, same⟩
      obtain ⟨inTable, mine⟩ := List.mem_filter.1 listed
      rwa [eq_of_nodup_map distinct stored inTable same]
    · exact fun mine => ⟨v, List.mem_filter.2 ⟨stored, mine⟩, rfl⟩
  rw [Bool.eq_iff_iff, decide_eq_true_eq, Bool.not_eq_true', ← Bool.not_eq_true, ← removed]
  simp

/-- Settles O46: by the sender's entry, its epoch, the spoiled flag and the count. -/
theorem sweepCloseDecided : Obligations.SweepCloseDecided := by
  intro s c on
  obtain ⟨services, pool, names, refusals, -, time⟩ := s.noted_frame c
  refine ⟨fun idle => ?_, fun f entry sweeping epoch => ⟨fun spoiled => ?_, fun clean counted sound => ?_⟩⟩
  · refine (ApplyWork.sweepClose on).onlyNoted ?_
    obtain none | ⟨f, entry, closed⟩ := idle
    · simp only [Tb.sweepCloseWork, none]
      rfl
    · have stops : (!f.sweeping || decide (f.epoch ≠ byteAt c.body 0)) = true := by simpa using closed
      simp only [Tb.sweepCloseWork, entry, if_pos stops]
      rfl
  · have open_ : ¬ (!f.sweeping || decide (f.epoch ≠ byteAt c.body 0)) = true := by simp [sweeping, epoch]
    have spoils : (f.spoiled || decide (f.count ≠ num2 c.body 1)) = true := by simpa using spoiled
    have work : (s.noted c).1.sweepCloseWork c.sender c.body =
        ⟨(s.noted c).1.updateFeeder c.sender Feeder.idle, [], [.sweepSpoiled], false⟩ := by
      simp only [Tb.sweepCloseWork, entry, if_neg open_, if_pos spoils]
    obtain ⟨t, ran, h1, h2, h3, h4, h5, h6, h7, applied⟩ := (ApplyWork.sweepClose on).takesEffect work
    exact ⟨t, ran, ⟨h1.trans services, h2.trans pool, h3.trans names, h4.trans refusals, h7.trans time⟩, h5, h6, applied⟩
  · have open_ : ¬ (!f.sweeping || decide (f.epoch ≠ byteAt c.body 0)) = true := by simp [sweeping, epoch]
    have holds : ¬ (f.spoiled || decide (f.count ≠ num2 c.body 1)) = true := by simp [clean, counted]
    have work : (s.noted c).1.sweepCloseWork c.sender c.body = (s.noted c).1.acceptSweep c.sender := by
      simp only [Tb.sweepCloseWork, entry, if_neg open_, if_neg holds]
    obtain ⟨t, ran, h1, h2, h3, h4, h5, h6, h7, applied⟩ := (ApplyWork.sweepClose on).takesEffect work
    have gone : (s.noted c).1.unannounced c.sender = s.tb.unannounced c.sender := by simp only [Tb.unannounced, services]
    obtain ⟨cells, free⟩ := foldDrop_pool (s.tb.unannounced c.sender) (s.noted c).1
    have distinct : ((s.noted c).1.services.map fun w => w.number).Nodup := services ▸ sound.2.1
    have dropped := Tb.unannounced_dropped distinct c.sender
    rw [gone, services] at dropped
    simp only [Tb.acceptSweep, gone, Tb.updateFeeder_frame] at h1 h2 h3 h4 h6 h7 applied
    refine ⟨t, s.tb.unannounced c.sender, ran, rfl, h1.trans dropped, ?_, ?_, ?_, ?_, ?_, ?_, ?_, applied⟩
    · rw [h2, cells, pool]
    · rw [h2, ← pool]
      exact free
    · rw [h5]
      simp [Tb.acceptSweep, Tb.updateFeeder, Feeder.idle]
    · simpa using h6
    · simpa using h3
    · simpa using h4
    · simpa using h7

end Sys2Proof.Machine
end

