-- ==== Sys2Proof/Proofs/TimersAndArbitration.lean ====
section
/-! SUPPORT. The timers of the Table Builder claim table works, the works of expiries complete, and the arbitration
settles who holds the tables next (R48 to R50, R61, R74, R79, R83, R90 to R92). -/

namespace Sys2Proof.Machine

/-! ### Claims (R48) -/

@[simp] theorem Tb.claim_frame (tb : Tb) (e : Expiry) :
    (tb.claim e).services = tb.services ∧ (tb.claim e).pool = tb.pool ∧ (tb.claim e).names = tb.names ∧
      (tb.claim e).refusals = tb.refusals ∧ (tb.claim e).waitingApply = tb.waitingApply ∧
      (tb.claim e).windowRequest = tb.windowRequest ∧ (tb.claim e).feeders = tb.feeders ∧
      (tb.claim e).staleOrder = tb.staleOrder ∧ (tb.claim e).time = tb.time := by
  unfold Tb.claim
  split
  · simp
  · split <;> simp

/-- A timer that has expired changes its own entry alone, and claims its work. -/
theorem Tb.claimed {before tb : Tb} (e : Expiry) (state : tb.state = before.state) (waiting : tb.waiting = before.waiting)
    (waitingApply : tb.waitingApply = before.waitingApply) (window : tb.windowRequest = before.windowRequest)
    (pool : tb.pool = before.pool) (names : tb.names = before.names) (refusals : tb.refusals = before.refusals)
    (stale : tb.staleOrder = before.staleOrder) : Claimed before (tb.claim e) e (tb.workOf e) := by
  refine ⟨?_, ?_, ?_⟩
  · rw [← state]
    unfold Tb.claim
    split
    next free => rfl
    next => split <;> rfl
  · rw [← state, ← waiting]
    unfold Tb.claim
    split
    next free => simp [free]
    next busy => split <;> next listed => simp [busy, listed]
  · simp [waitingApply, window, pool, names, refusals, stale]

theorem TimerExpiry.exec_eq {s : State} {i : Instr} {tb : Tb} {e : Expiry} (expires : TimerExpiry s i tb e) :
    exec i s = .next (s.setTb (tb.claim e)) := by
  cases expires with
  | refresh n v found running => simp only [exec, execRefreshTimerExpiry, found, if_pos running]
  | lifetime node f found running => simp only [exec, execFeederLifetimeExpiry, found, if_pos running]
  | sweepLimit node f found running => simp only [exec, execSweepLimitExpiry, found, if_pos running]
  | second running => simp only [exec, execSecondTimerExpiry, if_pos running]

/-- Settles O47: each expiry marks its timer and claims its work. -/
theorem timerExpiriesClaim : Obligations.TimerExpiriesClaim := by
  refine ⟨fun s n v found running => ?_, fun s n f found running => ?_, fun s n f found running => ?_,
    fun s running => ?_⟩
  · obtain ⟨-, number⟩ := Tb.find_some found
    let tb := { s.tb with services := putService { v with refresh := .expired } s.tb.services }
    have looked (m : Nat) : tb.find m = if n = m then some { v with refresh := .expired } else s.tb.find m :=
      number ▸ find_putService { v with refresh := .expired } m s.tb.services
    have work : tb.workOf (.refresh n) = .refresh n true := by
      simp [Tb.workOf, Tb.refreshLive, looked]
    have claims (m : Nat) : (tb.claim (.refresh n)).find m = tb.find m := Tb.find_congr (by simp) m
    refine ⟨_, (TimerExpiry.refresh n v found running).exec_eq, rfl,
      work ▸ Tb.claimed (before := s.tb) (tb := tb) (.refresh n) rfl rfl rfl rfl rfl rfl rfl rfl, ?_, ?_, ?_, fun m other => ?_⟩
    · exact (tb.claim_frame (.refresh n)).2.2.2.2.2.2.1
    · simp
    · exact (claims n).trans ((looked n).trans (if_pos rfl))
    · exact (claims m).trans ((looked m).trans (if_neg other.symm))
  · exact ⟨_, (TimerExpiry.lifetime n f found running).exec_eq, rfl,
      Tb.claimed (before := s.tb) (.lifetime n) rfl rfl rfl rfl rfl rfl rfl rfl, by simp, by simp, by simp [Tb.updateFeeder]⟩
  · exact ⟨_, (TimerExpiry.sweepLimit n f found running).exec_eq, rfl,
      Tb.claimed (before := s.tb) (.sweepLimit n) rfl rfl rfl rfl rfl rfl rfl rfl, by simp, by simp,
      by simp [Tb.updateFeeder]⟩
  · exact ⟨_, (TimerExpiry.second running).exec_eq, rfl,
      Tb.claimed (before := s.tb) .tick rfl rfl rfl rfl rfl rfl rfl rfl, by simp, by simp, by simp⟩

/-! ### The table works of expiries (R47, R61, R74, R79, R83) -/

section
variable {s : State} {i : Instr} {fx : Effect}

theorem ExpiryWork.exec_eq (works : ExpiryWork s i fx) : exec i s = .next (s.completeExpiry fx) := by
  cases works with
  | refresh n live working => simp only [exec, execRefreshTableWork, working]
  | lifetime node working => simp only [exec, execFeederLifetimeTableWork, working]
  | sweepLimit node working => simp only [exec, execSweepLimitTableWork, working]
  | tick working => simp only [exec, execTickTableWork, working]

/-- After the table work of an expiry the tables are those of its effect, but for who holds them next. -/
structure Completes (s t : State) (fx : Effect) : Prop where
  services : t.tb.services = fx.tb.services
  pool : t.tb.pool = fx.tb.pool
  names : t.tb.names = fx.tb.names
  refusals : t.tb.refusals = fx.tb.refusals
  feeders : t.tb.feeders = fx.tb.feeders
  staleOrder : t.tb.staleOrder = fx.tb.staleOrder
  time : t.tb.time = fx.tb.time
  banners : t.bu = (s.bu.takeAll s.prof fx.messages).1
  frame : ExpiryFrame s t (s.workReports fx) fx.compose

theorem State.completeExpiry_composeAsked (window : fx.tb.windowRequest = s.tb.windowRequest) :
    ComposeAsked s (s.completeExpiry fx) fx.compose := by
  unfold State.completeExpiry
  constructor
  · intro asked
    rw [asked]
    exact State.closeWork_asked _ (by simp [State.takeEffects_co, asked])
  · rintro ⟨quiet, none⟩
    have still : (s.takeEffects fx).tb.windowRequest = false := by
      rw [State.takeEffects_tb, window, none]
    rw [quiet]
    exact (State.arbitrate_co _ still).trans (by simp [State.takeEffects_co, quiet])

theorem ExpiryWork.completes (works : ExpiryWork s i fx) : ∃ t, exec i s = .next t ∧ Completes s t fx := by
  have window : fx.tb.windowRequest = s.tb.windowRequest := by cases works <;> simp
  have tb := s.takeEffects_tb fx
  refine ⟨_, works.exec_eq, ?_, ?_, ?_, ?_, ?_, ?_, ?_, ?_, ?_, ?_, ?_, ?_, ?_, ?_, State.completeExpiry_composeAsked window⟩
  case refine_14 =>
    refine (s.takeEffects_reported fx).congr rfl rfl ?_ ?_ ?_ <;> simp [State.completeExpiry]
  all_goals simp [State.completeExpiry, tb, State.takeEffects_bu, OutsideTables]

end

theorem Tb.refreshWork_live {tb : Tb} {n : Nat} {v : Service} (found : tb.find n = some v) :
    tb.refreshWork n true = tb.removal v := by
  simp [Tb.refreshWork, found]

theorem Tb.lifetimeWork_expired {tb : Tb} {node : Nat} {f : Feeder} (found : tb.feeder node = some f)
    (expired : f.lifetime = .expired) :
    tb.lifetimeWork node =
      .none { tb.updateFeeder node Feeder.silent with staleOrder := tb.staleOrder ++ [node] } := by
  simp [Tb.lifetimeWork, found, expired]

theorem Tb.sweepLimitWork_expired {tb : Tb} {node : Nat} {f : Feeder} (found : tb.feeder node = some f)
    (sweeping : f.sweeping = true) (expired : f.limit = .expired) :
    tb.sweepLimitWork node = ⟨tb.updateFeeder node Feeder.idle, [], [.sweepSpoiled], false⟩ := by
  simp [Tb.sweepLimitWork, found, sweeping, expired]

/-- A silent feeder in the terms of the statements: its sweep ends, and a spoiled sweep is forgotten with it. -/
theorem Feeder.silent_eq (g : Feeder) : g.silent =
    { g with
      expectedSequence := none
      sweeping := false
      spoiled := g.spoiled && !g.sweeping
      lifetime := .stopped
      limit := if g.sweeping then .stopped else g.limit } := by
  unfold Feeder.silent
  cases g.sweeping <;> simp

/-- The reports of a tick: the age reaches the limit for the first time. -/
theorem turnsStale_reports (age : Nat) (stale : Bool) :
    (if (decide (age = 900) && !stale) = true then [ReportKind.clockStale] else []) =
      if age = 900 ∧ stale = false then [.clockStale] else [] := by
  simp

theorem stale_or_turnsStale (stale old : Bool) : (stale || (old && !stale)) = (stale || old) := by
  cases stale <;> simp

/-- A tick work with seconds elapsed (R83, R84). -/
theorem Tb.tickWork_elapsed {tb : Tb} {second age : Nat} (told : tb.time.second = some second)
    (elapsed : tb.time.elapsed ≠ 0) (aged : age = min 900 (tb.time.age + tb.time.elapsed)) : tb.tickWork =
      { tb := { tb with time := ⟨some ((second + tb.time.elapsed) % 86400), 0, age,
          tb.time.stale || decide (age = 900), tb.time.secondTimer⟩ }
        messages := []
        reports := if age = 900 ∧ tb.time.stale = false then [.clockStale] else []
        compose := decide (second / 60 ≠ (second + tb.time.elapsed) % 86400 / 60) } := by
  have reports : (if (decide (age = 900) && !tb.time.stale) = true then [ReportKind.clockStale] else []) =
      if age = 900 ∧ tb.time.stale = false then [.clockStale] else [] := by
    by_cases old : age = 900 <;> cases tb.time.stale <;> simp [old]
  have minutes : decide (some (second / 60) ≠ some ((second + tb.time.elapsed) % 86400 / 60)) =
      decide (second / 60 ≠ (second + tb.time.elapsed) % 86400 / 60) := decide_eq_decide.2 (by simp)
  subst aged
  rw [← reports, ← minutes, ← stale_or_turnsStale]
  simp only [Tb.tickWork, told, if_neg elapsed, StationTime.minute]
  rfl

/-- Settles O48: the work of each expiry, where it finds something to do, completes with its effect. -/
theorem expiryWorksComplete : Obligations.ExpiryWorksComplete := by
  refine ⟨fun s n v working found => ?_, fun s n f working found expired => ?_,
    fun s n f working found sweeping expired => ?_, fun s second age working told elapsed aged => ?_⟩
  · obtain ⟨-, number⟩ := Tb.find_some found
    obtain ⟨t, ran, done⟩ := (ExpiryWork.refresh n true working).completes
    rw [Tb.refreshWork_live found] at done
    refine ⟨t, ran, removed_of_services done.services done.pool done.names done.time, done.refusals, done.feeders,
      done.staleOrder, ?_, done.frame⟩
    exact number ▸ done.banners
  · obtain ⟨t, ran, done⟩ := (ExpiryWork.lifetime n working).completes
    rw [Tb.lifetimeWork_expired found expired] at done
    refine ⟨t, ran, ⟨done.services, done.pool, done.names, done.refusals, done.time⟩, done.feeders.trans ?_,
      done.staleOrder, done.banners, done.frame⟩
    simp only [Effect.none, Tb.updateFeeder, Feeder.silent_eq]
  · obtain ⟨t, ran, done⟩ := (ExpiryWork.sweepLimit n working).completes
    rw [Tb.sweepLimitWork_expired found sweeping expired] at done
    exact ⟨t, ran, ⟨done.services, done.pool, done.names, done.refusals, done.time⟩, done.feeders, done.staleOrder,
      done.banners, done.frame⟩
  · obtain ⟨t, ran, done⟩ := (ExpiryWork.tick working).completes
    obtain ⟨services, pool, names, refusals, -, -, -, -, feeders, stale⟩ := s.tb.tickWork_frame
    have some_elapsed : s.tb.time.elapsed ≠ 0 := Nat.pos_iff_ne_zero.1 elapsed
    rw [Tb.tickWork_elapsed told some_elapsed aged] at done
    have frame := done.frame
    rw [State.workReports, Bu.takeAll, List.append_nil] at frame
    exact ⟨t, ran, done.time, done.services, done.pool, done.names, done.refusals, done.feeders, done.staleOrder,
      done.banners, frame⟩

/-! ### The arbitration (R49, R50, R90 to R92) -/

/-- The expiry of a refresh finds its service still due for removal. -/
theorem Tb.workOf_refresh (tb : Tb) (n : Nat) :
    tb.workOf (.refresh n) = .refresh n (decide (∃ v, tb.find n = some v ∧ v.refresh = .expired)) := by
  simp only [Tb.workOf, Tb.refreshLive]
  split
  next found => simp [found]
  next v found => simp [found]

theorem State.beginWaiting_empty {s : State} (none : s.tb.claims = []) :
    s.beginWaiting = s.setTb { s.tb with state := .free } := by
  unfold State.beginWaiting
  rw [none]

/-- One of the waiting claims begins; a choice among several takes one free value. -/
theorem State.beginWaiting_starts {s : State} (some : s.tb.claims ≠ []) :
    ∃ c ∈ s.tb.claims, ∃ n, n ≤ s.freeCounter + 1 ∧ s.beginWaiting = { s with tb := s.tb.start c, freeCounter := n } := by
  unfold State.beginWaiting
  split
  next none => exact absurd none some
  next c claims => exact ⟨c, by simp [claims], s.freeCounter, by omega, rfl⟩
  next c d rest claims =>
    have chosen : Config.workChoice s.freeCounter % (rest.length + 2) < (c :: d :: rest).length :=
      Nat.mod_lt _ (by omega)
    refine ⟨_, ?_, s.freeCounter + 1, Nat.le_refl _, rfl⟩
    rw [getD_of_lt _ chosen, claims]
    exact List.getElem_mem chosen

/-- A work without effect leaves the arbitration alone to act. -/
theorem State.completeExpiry_none (s : State) : s.completeExpiry (.none s.tb) = s.arbitrate := rfl

/-- The read window is granted at once where the tables are FREE. -/
theorem State.askWindow_granted {s : State} (follows : s.following = true) (idle : s.co.pass = .idle)
    (requested : s.co.request = true) (unswapped : s.pa.swapPending = false) (free : s.tb.state = .free) :
    s.askWindow = { s with
      co := { s.co with request := false, pass := .reading, working := [], nameMiss := false }
      tb := { s.tb with state := .window } } := by
  rw [State.askWindow, if_pos ⟨follows, idle, requested, unswapped⟩]
  simp only [State.setCo_tb, if_pos free, State.grantWindow, State.setCo_pa, unswapped, Bool.false_eq_true, if_false]
  rfl

/-- Settles O49: the window goes before the waiting works, and a work without effect only settles the claims. -/
theorem arbitrationSettlesClaims : Obligations.ArbitrationSettlesClaims := by
  refine ⟨fun s asked unswapped => ?_, fun s asked pending => ?_, fun s unasked => ?_, fun s unclaimed nothing => ?_,
    fun s waiting => ?_, fun s unready => ?_, fun s started idle requested unswapped => ⟨fun free => ?_, fun busy => ?_⟩,
    fun s => s.tb.workOf_refresh, fun s n live working idle => ?_, fun s n working idle => ?_,
    fun s n working idle => ?_, fun s working idle => ?_⟩
  · rw [State.arbitrate, if_pos asked, State.grantWindow, if_neg (by simp [unswapped])]
    rfl
  · rw [State.arbitrate, if_pos asked, State.grantWindow, if_pos (by simpa using pending)]
    rfl
  · rw [State.arbitrate, if_neg (by simp [unasked])]
  · exact State.beginWaiting_empty (by simp [Tb.claims, unclaimed, nothing])
  · have claims : s.tb.claims ≠ [] := by
      unfold Tb.claims
      obtain apply | expiries := waiting
      · simp [apply]
      · simp [expiries]
    obtain ⟨c, mem, n, bound, begins⟩ := State.beginWaiting_starts claims
    refine ⟨n, bound, ?_⟩
    obtain ⟨rfl, apply⟩ | ⟨e, rfl, listed⟩ := Tb.mem_claims mem
    · exact Or.inl ⟨apply, begins⟩
    · exact Or.inr ⟨e, listed, begins⟩
  · rw [State.askWindow, if_neg (by rwa [s.following_iff_started])]
  · exact State.askWindow_granted (s.following_iff_started.2 started) idle requested unswapped free
  · rw [State.askWindow, if_pos ⟨s.following_iff_started.2 started, idle, requested, unswapped⟩]
    simp only [State.setCo_tb, if_neg busy]
    rfl
  · rw [(ExpiryWork.refresh n live working).exec_eq, ← s.completeExpiry_none]
    obtain rfl | missing := idle
    · rfl
    · cases live <;> simp [Tb.refreshWork, missing]
  · rw [(ExpiryWork.lifetime n working).exec_eq, ← s.completeExpiry_none]
    unfold Tb.lifetimeWork
    split
    next => rfl
    next f found => rw [if_neg (idle f found)]
  · rw [(ExpiryWork.sweepLimit n working).exec_eq, ← s.completeExpiry_none]
    unfold Tb.sweepLimitWork
    split
    next => rfl
    next f found =>
      rw [if_neg]
      rintro ⟨sweeping, expired⟩
      obtain still | running := idle f found
      · exact absurd (still.symm.trans sweeping) (by decide)
      · exact running expired
  · rw [(ExpiryWork.tick working).exec_eq, ← s.completeExpiry_none]
    unfold Tb.tickWork
    split
    next => rfl
    next second told =>
      obtain untold | fresh := idle
      · cases untold.symm.trans told
      · rw [if_pos fresh]

end Sys2Proof.Machine
end

