-- ==== Sys2Proof/Proofs/Attentions.lean ====
section
/-! SUPPORT. The messages of a change of a service, what the Banner Unit does with each (R64 to R66, R162, R163,
R166), and the parts of a pace step: the ends, the discards, the take (R165 to R173). -/

namespace Sys2Proof.Machine

/-! ### Messages (R64 to R66, R162, R163) -/

theorem listed_iff {l : List Attention} {n : Nat} : listed l n = true ↔ ∃ e ∈ l, e.service = n := by
  simp [listed]

theorem withArgument_eq (l : List Attention) (n : Nat) (a : Argument) :
    withArgument l n a = l.map fun e => if e.service = n then ⟨n, a⟩ else e := by
  refine List.map_congr_left fun e _ => ?_
  split
  next same => rw [same]
  next => rfl

theorem Bu.setGroup_own (bu : Bu) (g : Group) : bu.setGroup g (bu.group g) = bu := by cases g <;> rfl

theorem Bu.setList_group (bu : Bu) (g h : Group) (l : List Attention) : (bu.setList g l).group h = bu.group h := by
  cases g <;> rfl

/-- An examination gives the group its state by its content alone. -/
theorem Bu.examine_eq (bu : Bu) (p : Profile) (g : Group) : bu.examine p g =
    bu.setGroup g (if bu.group g = .quiet ∧ bu.hasContent p g = true then .requesting else bu.group g) := by
  unfold Bu.examine
  split
  · rfl
  · exact (bu.setGroup_own g).symm

/-- A group whose list holds an entry has content where it is enabled. -/
theorem Bu.hasContent_of_list {bu : Bu} {p : Profile} {g : Group} (some : bu.list g ≠ []) :
    bu.hasContent p g = p.groupEnabled g := by
  cases g with
  | a => simp_all [Bu.hasContent, Bu.list]
  | b => simp_all [Bu.hasContent, Bu.list]
  | c => simp_all [Bu.hasContent, Bu.list]
  | d => exact absurd rfl some

theorem Bu.raise_listed {bu : Bu} {g : Group} {n : Nat} (p : Profile) (a : Argument)
    (holds : ∃ e ∈ bu.list g, e.service = n) :
    bu.raise p g n a = (bu.setList g ((bu.list g).map fun e => if e.service = n then ⟨n, a⟩ else e), false) := by
  rw [Bu.raise, if_pos (listed_iff.2 holds), withArgument_eq]

theorem Bu.raise_joins {bu : Bu} {g : Group} {n : Nat} (p : Profile) (a : Argument) (list : g ≠ .d)
    (new : ∀ e ∈ bu.list g, e.service ≠ n) (room : (bu.list g).length < 8) :
    bu.raise p g n a = ((bu.setList g (bu.list g ++ [⟨n, a⟩])).setGroup g
      (if bu.group g = .quiet ∧ p.groupEnabled g = true then .requesting else bu.group g), false) := by
  have unlisted : ¬ listed (bu.list g) n = true := by simpa [listed_iff] using new
  have content : (bu.setList g (bu.list g ++ [⟨n, a⟩])).hasContent p g = p.groupEnabled g :=
    Bu.hasContent_of_list (by simp [Bu.setList_list, list])
  rw [Bu.raise, if_neg unlisted, if_pos (show _ < Config.attentionCapacity from room), Bu.examine_eq, content, Bu.setList_group]

theorem Bu.raise_dropped {bu : Bu} {g : Group} {n : Nat} (p : Profile) (a : Argument)
    (new : ∀ e ∈ bu.list g, e.service ≠ n) (full : 8 ≤ (bu.list g).length) : bu.raise p g n a = (bu, true) := by
  have unlisted : ¬ listed (bu.list g) n = true := by simpa [listed_iff] using new
  rw [Bu.raise, if_neg unlisted, if_neg (show ¬ _ < Config.attentionCapacity from Nat.not_lt.2 full)]

/-- Settles O59: each message goes by its own rule, and a RAISE by whether its service is listed and its list full. -/
theorem attentionMessagesTaken : Obligations.AttentionMessagesTaken := by
  refine ⟨fun threshold refused r positive => ?_, fun threshold old new => ?_,
    fun bu p g n a list => ⟨fun holds => ?_, fun fresh room => ?_, Bu.raise_dropped p a, rfl⟩,
    fun bu p n d => ⟨?_, rfl⟩, fun bu p m rest => ?_⟩
  · have low : (0 : Int) < threshold := by omega
    simp only [storeMessages, cancelMessages, delayMessages, if_pos low, Bool.not_false, Bool.true_and,
      Bool.and_false, Bool.false_eq_true, if_false, Bool.false_and, beq_iff_eq]
    congr 1
    by_cases late : (threshold : Int) ≤ delayOf r.scheduled r.expected
    · rw [if_pos late, if_neg (Int.not_lt.2 late)]
    · rw [if_neg late, if_pos (Int.not_le.1 late)]
  · unfold changeMessages
    congr 1
    · congr 1
      · simp [cancelMessages, and_comm]
      · simp [ite_not]
    · unfold delayMessages
      by_cases before : old.delay < threshold <;> by_cases after : new.delay < threshold
      · simp [before, after, Int.not_le.2 after, Int.not_le.2 before]
      · simp [before, after, Int.not_lt.1 after]
      · simp [before, after, Int.not_lt.1 before]
      · simp [before, after, Int.not_lt.1 after, Int.not_lt.1 before]
  · rw [Bu.take, Bu.raise_listed p a holds]
    exact ⟨rfl, rfl⟩
  · rw [Bu.take, Bu.raise_joins p a list fresh room]
    exact ⟨rfl, rfl⟩
  · rw [Bu.take, withArgument_eq]
  · simp only [Bu.takeAll]
    cases (bu.take p m).2 <;> rfl

/-! ### The ends of a banner (R167 (1), (2), R169) -/

section
variable {bu : Bu} {p : Profile} {p0 p1 : Pace} {b : Banner}

theorem Bu.endShowing_other (other : bu.line ≠ .showing) : bu.endShowing p p1 = bu := by
  unfold Bu.endShowing
  split
  next showing _ => exact absurd showing other
  next => rfl

theorem Bu.endGap_other (other : bu.line ≠ .gap) : bu.endGap p1 = bu := by
  unfold Bu.endGap
  split
  next gap _ => exact absurd gap other
  next => rfl

theorem Bu.endShowing_of_showing (showing : bu.line = .showing) (banner : bu.banner = some b) :
    bu.endShowing p p1 = if b.endMark ≤ (p1 - b.takePace).toNat then
      ({ bu with line := .gap }.setGroup b.group .quiet).examine p b.group else bu := by
  simp only [Bu.endShowing, showing, banner]

theorem Bu.endGap_of_gap (gap : bu.line = .gap) (banner : bu.banner = some b) :
    bu.endGap p1 = if b.gapMark ≤ (p1 - b.takePace).toNat then { bu with line := .idle, banner := none } else bu := by
  simp only [Bu.endGap, gap, banner]

/-- A banner that ends leaves its group QUIET, or REQUESTING where it has content again. -/
theorem Bu.examine_ended (bu : Bu) (p : Profile) (g : Group) :
    ({ bu with line := .gap }.setGroup g .quiet).examine p g =
      { bu.setGroup g (if bu.hasContent p g then .requesting else .quiet) with line := .gap } := by
  have content : ({ bu with line := .gap }.setGroup g .quiet).hasContent p g = bu.hasContent p g := by
    cases g <;> rfl
  rw [Bu.examine_eq, content]
  cases g <;> cases bu.hasContent p _ <;> rfl

/-- The ends of a pace step are those the rules name. -/
theorem EndsReached.eq {ended : Bu} (held : bu.line = .idle ∨ bu.banner ≠ none) (ends : EndsReached bu p p1 ended) :
    (bu.endShowing p p1).endGap p1 = ended := by
  obtain ⟨atRest, running⟩ := ends
  by_cases idle : bu.line = .idle
  · rw [Bu.endShowing_other (by simp [idle]), Bu.endGap_other (by simp [idle]), atRest idle]
  obtain ⟨b, banner⟩ := Option.ne_none_iff_exists'.1 (held.resolve_left idle)
  obtain ⟨stays, waits, clears, ends⟩ := running b banner
  cases line : bu.line with
  | idle => exact absurd line idle
  | gap =>
    rw [Bu.endShowing_other (by simp [line]), Bu.endGap_of_gap line banner]
    by_cases reached : b.gapMark ≤ (p1 - b.takePace).toNat
    · rw [if_pos reached, clears line reached]
    · rw [if_neg reached, waits line (Nat.not_le.1 reached)]
  | showing =>
    rw [Bu.endShowing_of_showing line banner]
    by_cases reached : b.endMark ≤ (p1 - b.takePace).toNat
    · rw [if_pos reached, ends line reached, Bu.examine_ended]
      have kept (g : Group) (x : GroupState) : (bu.setGroup g x).banner = some b := by cases g <;> exact banner
      let gap := { bu.setGroup b.group (if bu.hasContent p b.group then .requesting else .quiet) with line := .gap }
      refine (Bu.endGap_of_gap (bu := gap) rfl (kept _ _)).trans ?_
      split
      · rfl
      · simp only [gap, kept, banner]
    · rw [if_neg reached, Bu.endGap_other (by simp [line]), stays line (Nat.not_le.1 reached)]

/-! ### The take boundary (R165, R170) -/

theorem Discarded.eq {kept : Bu} (discarded : Discarded bu p kept) : kept = bu.discard p := by
  obtain ⟨frame, length, slots⟩ := discarded
  have same : kept.slots = (bu.discard p).slots := by
    refine List.ext_getElem (by simp [length, Bu.discard]) fun k inKept _ => ?_
    have slot := slots k (length ▸ inKept)
    rw [getD_of_lt _ inKept, getD_of_lt _ (length ▸ inKept)] at slot
    simp [slot, Bu.discard]
  rw [frame, same]
  rfl

theorem Bu.firstRequesting_none (quiet : ∀ g, bu.group g ≠ .requesting) : bu.firstRequesting = none := by
  have a := quiet .a
  have b := quiet .b
  have c := quiet .c
  have d := quiet .d
  simp only [Bu.group] at a b c d
  rw [Bu.firstRequesting, if_neg a, if_neg b, if_neg c, if_neg d]

theorem Bu.firstRequesting_some {g : Group} (requests : bu.group g = .requesting)
    (first : ∀ h, (h = .a ∨ h = .b ∧ g ≠ .a ∨ h = .c ∧ g = .d) → h ≠ g → bu.group h ≠ .requesting) :
    bu.firstRequesting = some g := by
  have a := first .a (.inl rfl)
  have b (later : g ≠ .a) := first .b (.inr (.inl ⟨rfl, later⟩))
  have c (last : g = .d) := first .c (.inr (.inr ⟨rfl, last⟩))
  cases g <;> simp_all [Bu.firstRequesting, Bu.group]

/-! ### The text of a take (R171, R172) -/

theorem eligible_eq (rows : List ServiceRow) (l : List Attention) :
    eligible rows l = l.filter fun e => decide (∃ r ∈ rows, r.service = e.service) := by
  refine List.filter_congr fun e _ => ?_
  rw [Bool.eq_iff_iff]
  simp

theorem chooseRow_nil (rows : List ServiceRow) : chooseRow [] rows = none := by
  induction rows with
  | nil => rfl
  | cons r rest ih => exact ih

/-- Rows without an entry are passed, and the first row with one is chosen. -/
theorem chooseRow_first {l : List Attention} {e : Attention} (r : ServiceRow) (after : List ServiceRow)
    (found : l.find? (fun x => x.service == r.service) = some e) :
    ∀ before : List ServiceRow, (∀ q ∈ before, ∀ x ∈ l, x.service ≠ q.service) →
      chooseRow l (before ++ r :: after) = some (r, e)
  | [], _ => by simp [chooseRow, found]
  | q :: before, passed => by
    have skips : l.find? (fun x => x.service == q.service) = none := by simpa using passed q List.mem_cons_self
    simp only [List.cons_append, chooseRow, skips]
    exact chooseRow_first r after found before fun x mem => passed x (List.mem_cons_of_mem _ mem)

/-- Where no two entries are of one service, the search finds the entry of the service. -/
theorem find_service {l : List Attention} {e : Attention} {n : Nat} (mem : e ∈ l) (service : e.service = n)
    (distinct : (l.map fun x => x.service).Nodup) : l.find? (fun x => x.service == n) = some e := by
  cases found : l.find? (fun x => x.service == n) with
  | none => exact absurd service (by simpa using List.find?_eq_none.1 found e mem)
  | some x =>
    have same : x.service = n := by simpa using List.find?_some found
    rw [eq_of_nodup_map distinct (List.mem_of_find?_eq_some found) mem (same.trans service.symm)]

theorem Bu.chooseText_list {g : Group} (shown : Option AdoptedSet) (list : g ≠ .d) :
    bu.chooseText p shown g = bu.takeList g shown := by
  cases g with
  | d => exact absurd rfl list
  | a | b | c => rfl

theorem Bu.takeList_default {g : Group} {shown : Option AdoptedSet} {remaining : List Attention}
    (eligible : remaining = eligible (shownServiceRows shown) (bu.list g))
    (nothing : chooseRow remaining (shownServiceRows shown) = none) :
    bu.takeList g shown = (bu.setList g remaining, defaultText g) := by
  simp only [Bu.takeList, ← eligible, nothing]

theorem Bu.takeList_chosen {g : Group} {shown : Option AdoptedSet} {remaining : List Attention} {r : ServiceRow}
    {e : Attention} (eligible : remaining = eligible (shownServiceRows shown) (bu.list g))
    (chosen : chooseRow remaining (shownServiceRows shown) = some (r, e)) :
    bu.takeList g shown = (bu.setList g (withoutService remaining e.service), bannerText g r e.argument) := by
  simp only [Bu.takeList, ← eligible, chosen]

theorem Bu.slotReady_iff (bu : Bu) (p : Profile) (k : Nat) :
    bu.slotReady p k = true ↔ p.slotEnabled k = true ∧ bu.slots.getD k none ≠ none := by
  rw [Bu.slotReady, Bool.and_eq_true, Option.isSome_iff_ne_none]

/-- The take of group D is of the first slot that is enabled and filled. -/
theorem Bu.takeSlot_first {k : Nat} {m : StaffMessage} (slot : k < 8) (enabled : p.slotEnabled k = true)
    (filled : bu.slots.getD k none = some m)
    (first : ∀ j, j < k → p.slotEnabled j = true → bu.slots.getD j none = none) :
    bu.takeSlot p = ({ bu with
      slots := bu.slots.set k (if m.repeats ≤ 1 then none else some { m with repeats := m.repeats - 1 }) }, m.text) := by
  have ready : bu.slotReady p k = true := (bu.slotReady_iff p k).2 ⟨enabled, filled ▸ Option.some_ne_none m⟩
  have found : (List.range 8).find? (bu.slotReady p) = some k := by
    refine List.find?_range_eq_some.2 ⟨ready, List.mem_range.2 slot, fun j before => ?_⟩
    rw [Bool.not_eq_true', ← Bool.not_eq_true, bu.slotReady_iff]
    rintro ⟨on, some⟩
    exact some (first j before on)
  simp only [Bu.takeSlot, found, filled]

theorem Bu.takeSlot_default (empty : ∀ k, k < 8 → p.slotEnabled k = true → bu.slots.getD k none = none) :
    bu.takeSlot p = (bu, defaultText .d) := by
  have none : (List.range 8).find? (bu.slotReady p) = none := by
    refine List.find?_eq_none.2 fun k mem => ?_
    rw [bu.slotReady_iff]
    rintro ⟨on, some⟩
    exact some (empty k (List.mem_range.1 mem) on)
  simp only [Bu.takeSlot, none]

end

/-- A pace step after its ends (R167, R170). -/
theorem Bu.paceStep_ended {bu ended : Bu} {p : Profile} {p1 : Pace} (shown : Option AdoptedSet) (p0 : Pace)
    (ends : (bu.endShowing p p1).endGap p1 = ended) :
    bu.paceStep p shown p0 p1 = ended.boundary p shown p0 p1 := by rw [Bu.paceStep, ends]

/-- Settles O60: the ends come first, and on an IDLE line the take boundary discards and takes. -/
theorem bannerPaceStep : Obligations.BannerPaceStep := by
  refine fun bu p shown p0 p1 => ⟨fun ended held ends => ?_, fun g remaining list rest => ?_,
    fun k m slot enabled filled first => Bu.takeSlot_first slot enabled filled first, Bu.takeSlot_default⟩
  · rw [Bu.paceStep_ended shown p0 (ends.eq held)]
    refine ⟨fun stays => Bu.boundary_of_not_crosses (by simp [stays]), fun kept crosses discarded => ?_⟩
    obtain rfl := discarded.eq
    have groups (h : Group) : (ended.discard p).group h = ended.group h := by cases h <;> rfl
    refine ⟨fun busy => ?_, fun idle quiet => ?_, fun idle g requests first => ?_⟩
    · rw [Bu.boundary, if_pos crosses]
      exact if_neg busy
    · rw [Bu.boundary_of_crosses crosses idle, Bu.makeTake]
      have none : (ended.discard p).firstRequesting = none :=
        Bu.firstRequesting_none fun g => groups g ▸ quiet g
      rw [none]
    · rw [Bu.boundary_of_crosses crosses idle, Bu.makeTake]
      have some : (ended.discard p).firstRequesting = some g :=
        Bu.firstRequesting_some ((groups g).trans requests) fun h before other => groups h ▸ first h before other
      rw [some]
  · rw [← eligible_eq] at rest
    rw [Bu.chooseText_list shown list]
    refine ⟨fun empty => ?_, fun before r after e rows mem service distinct passed => ?_⟩
    · subst empty
      exact Bu.takeList_default rest (chooseRow_nil _)
    · have chosen : chooseRow remaining (shownServiceRows shown) = some (r, e) :=
        rows ▸ chooseRow_first r after (find_service mem service distinct) before passed
      rw [Bu.takeList_chosen rest chosen, service]
      rfl

end Sys2Proof.Machine
end

