-- ==== Sys2Proof/Proofs/DirectNotices.lean ====
section
/-! SUPPORT. The notices completed at their delivery: the direct note, the work of the owning block, and the
completion of the chain (R28, R71 (2)); DIM, STAFF and RESTART on them (R157, R164, R198). -/

namespace Sys2Proof.Machine

/-! ### The direct note (R71 (2)) -/

section
variable {s t : State} {c : Chain}

theorem State.directNote_tb (s : State) (c : Chain) : (s.directNote c).tb = (s.noted c).1 := by
  simp [State.directNote, State.noted]

theorem State.directNote_reported (s : State) (c : Chain) : Reported s (s.directNote c) (s.noted c).2 :=
  (State.raiseAll_reported (s.setTb (s.noted c).1) (s.noted c).2).congr rfl rfl rfl rfl rfl

/-- A notice completed at its delivery, before its completion: what neither its note nor its owner's work touches. -/
structure Worked (s t : State) (c : Chain) : Prop where
  tb : t.tb = (s.noted c).1
  ring : t.lc.ring = s.lc.ring
  fifo : t.lc.fifo = s.lc.fifo
  receiver : t.lc.receiver = s.lc.receiver
  watch : t.lc.watch = s.lc.watch
  sc : t.sc = s.sc
  co : t.co = s.co
  au : t.au = s.au
  pending : t.pending = s.pending
  freeCounter : t.freeCounter = s.freeCounter

theorem State.directNote_worked (s : State) (c : Chain) : Worked s (s.directNote c) c := by
  constructor <;> simp [s.directNote_tb c]

theorem Worked.raise (worked : Worked s t c) (k : ReportKind) : Worked s (t.raise k) c := by
  obtain ⟨tb, ring, fifo, receiver, watch, sc, co, au, pending, free⟩ := worked
  constructor <;> simp_all

theorem Worked.offerStatus (worked : Worked s t c) (keep : BitVec 19) : Worked s (t.offerStatus keep) c := by
  obtain ⟨tb, ring, fifo, receiver, watch, sc, co, au, pending, free⟩ := worked
  constructor <;> simp_all

theorem State.noted_kept (s : State) (c : Chain) : (s.noted c).1.services = s.tb.services ∧
    (s.noted c).1.pool = s.tb.pool ∧ (s.noted c).1.names = s.tb.names ∧
    (s.noted c).1.refusals = s.tb.refusals ∧ (s.noted c).1.time = s.tb.time := by
  obtain ⟨services, pool, names, refusals, -, -, -, -, time⟩ := Tb.note_frame s.tb c.sender c.sequence
  exact ⟨services, pool, names, refusals, time⟩

theorem Worked.chainCompleted (worked : Worked s t c) : ChainCompleted s t.completeNotice := by
  obtain ⟨ring, fifo⟩ := State.completeNotice_ring_congr (s := s) (t := t) worked.ring worked.fifo
  exact ⟨ring, fifo, by simp [worked.receiver], by simp [worked.watch]⟩

theorem Worked.feedersNoted (worked : Worked s t c) : FeedersNoted s t.completeNotice c := by
  simp [FeedersNoted, worked.tb]

/-- The completion of the chain leaves the note and the reports of the work. -/
theorem Worked.noticed (worked : Worked s t c) {own : List ReportKind} (reported : Reported s t ((s.noted c).2 ++ own)) :
    Noticed s t.completeNotice c own := by
  obtain ⟨services, pool, names, refusals, time⟩ := s.noted_kept c
  refine ⟨?_, worked.feedersNoted, worked.chainCompleted,
    reported.congr rfl rfl (by simp) (by simp) (by simp), ?_, ?_, ?_, ?_, ?_⟩
  · simp [TablesKept, worked.tb, services, pool, names, refusals, time]
  · simp [worked.sc]
  · simp [worked.co]
  · simp [worked.au]
  · simp [worked.pending]
  · simp [worked.freeCounter]

/-- A notice that is only noted. -/
theorem State.directNote_noticed (s : State) (c : Chain) : Noticed s (s.directNote c).completeNotice c [] :=
  (s.directNote_worked c).noticed (by simpa using s.directNote_reported c)

/-- A notice refused with one report of its own. -/
theorem State.directNote_raise_noticed (s : State) (c : Chain) (k : ReportKind) :
    Noticed s ((s.directNote c).raise k).completeNotice c [k] :=
  ((s.directNote_worked c).raise k).noticed ((s.directNote_reported c).append (State.raise_reported _ k))

end

/-! ### DIM and STAFF (R157, R164) -/

theorem dimOk_iff (body : List Byte) : dimOk body = true ↔ num1 body 0 ≤ 15 := decide_eq_true_iff

theorem staffOk_iff (body : List Byte) : staffOk body = true ↔ 1 ≤ num1 body 0 ∧ num1 body 0 ≤ 8 ∧
    1 ≤ num1 body 1 ∧ num1 body 1 ≤ 15 ∧ ∀ x ∈ staffText body, 0x20 ≤ x.toNat ∧ x.toNat ≤ 0xBF := by
  simp only [staffOk, Bool.and_eq_true, decide_eq_true_eq, List.all_eq_true, codeOk, and_assoc]

theorem execStaffNotice_of_delivered {s : State} {c : Chain} (arrived : s.Delivered .staff c) :
    exec .staffNotice s = .next ((s.directNote c).applyStaff c.body).completeNotice := by
  simp only [exec, execStaffNotice, (s.delivered_iff .staff c).2 arrived]

/-- A STAFF text fills its slot, and an enabled slot that is filled makes a QUIET group D request. -/
theorem Bu.staff_eq (bu : Bu) (p : Profile) (k repeats : Nat) (text : Text) :
    bu.staff p k repeats text = { bu with
      slots := bu.slots.set k (if text = [] then none else some ⟨text, repeats⟩)
      groupD := (bu.staff p k repeats text).groupD } := by
  unfold Bu.staff
  split
  next => rfl
  next =>
    dsimp only
    split
    · rw [Bu.examine_eq]
      simp_all [Bu.setGroup]
    · simp_all

/-- An enabled slot that is filled gives group D content. -/
theorem Bu.hasContent_of_slot {bu : Bu} {p : Profile} {k : Nat} {m : StaffMessage} (slot : k < 8)
    (enabled : p.slotEnabled k = true) (filled : bu.slots.getD k none = some m) : bu.hasContent p .d = true := by
  have some_enabled : p.slotEnables ≠ 0 := fun zero => by simp [Profile.slotEnabled, zero] at enabled
  have ready : bu.slotReady p k = true := (bu.slotReady_iff p k).2 ⟨enabled, filled ▸ Option.some_ne_none m⟩
  have listed : (List.range 8).any (bu.slotReady p) = true := List.any_eq_true.2 ⟨k, List.mem_range.2 slot, ready⟩
  simp only [Bu.hasContent, Profile.groupEnabled, listed, Bool.and_true, decide_eq_true_eq]
  exact some_enabled

theorem Bu.staff_groupD {bu : Bu} (p : Profile) {k : Nat} (repeats : Nat) (text : Text) (slot : k < 8)
    (slots : bu.slots.length = 8) : (bu.staff p k repeats text).groupD =
      if text ≠ [] ∧ p.slotEnabled k = true ∧ bu.groupD = .quiet then .requesting else bu.groupD := by
  unfold Bu.staff
  by_cases empty : text = []
  · simp [empty]
  by_cases enabled : p.slotEnabled k = true
  · have content : Bu.hasContent { bu with slots := bu.slots.set k (some ⟨text, repeats⟩) } p .d = true :=
      Bu.hasContent_of_slot (m := ⟨text, repeats⟩) slot enabled (by simp [slots, slot])
    simp only [if_neg empty, if_pos enabled, Bu.examine_eq, content, and_true]
    by_cases quiet : bu.groupD = .quiet <;> simp [Bu.setGroup, Bu.group, empty, enabled, quiet]
  · simp [empty, enabled]

/-- Settles O56: the direct note comes first, and the brightness or the slot follows where the body is in range. -/
theorem dimAndStaffAct : Obligations.DimAndStaffAct := by
  refine ⟨fun s c arrived => ?_, fun s c text arrived texted => ?_⟩
  · refine ⟨_, execDim_of_delivered arrived, by simp, fun inRange => ?_, fun beyond => ?_⟩
    · rw [State.applyDim, if_pos ((dimOk_iff c.body).2 inRange)]
      refine ⟨by simp, Worked.noticed (own := []) ?_ ?_⟩
      · obtain ⟨tb, ring, fifo, receiver, watch, sc, co, au, pending, free⟩ := s.directNote_worked c
        constructor <;> assumption
      · rw [List.append_nil]
        exact (s.directNote_reported c).congr rfl rfl rfl rfl rfl
    · rw [State.applyDim, if_neg (by rw [dimOk_iff]; omega)]
      exact ⟨by simp, s.directNote_raise_noticed c _⟩
  · subst texted
    refine ⟨_, execStaffNotice_of_delivered arrived, by simp, staffOk_iff c.body, fun bad => ?_, fun good => ?_⟩
    · rw [State.applyStaff, if_neg (by simp [bad])]
      exact ⟨by simp, s.directNote_raise_noticed c _⟩
    · obtain ⟨first, last, -⟩ := (staffOk_iff c.body).1 good
      have slot : num1 c.body 0 - 1 < 8 := by omega
      have after : ((s.directNote c).applyStaff c.body).completeNotice.bu =
          s.bu.staff s.prof (num1 c.body 0 - 1) (num1 c.body 1) (staffText c.body) := by
        simp [State.applyStaff, good, State.prof]
      rw [after]
      refine ⟨?_, ?_, ?_, fun slots => Bu.staff_groupD _ _ _ slot slots⟩
      · rw [State.applyStaff, if_pos good]
        refine Worked.noticed (own := []) ?_ ?_
        · obtain ⟨tb, ring, fifo, receiver, watch, sc, co, au, pending, free⟩ := s.directNote_worked c
          constructor <;> assumption
        · rw [List.append_nil]
          exact (s.directNote_reported c).congr rfl rfl rfl rfl rfl
      · rw [Bu.staff_eq]
      · rw [Bu.staff_eq]
        rfl

/-! ### RESTART (R198) -/

theorem targetOk_iff (body : List Byte) : targetOk body = true ↔ 1 ≤ num1 body 0 ∧ num1 body 0 ≤ 63 :=
  decide_eq_true_iff

theorem targetOk_false {body : List Byte} (bad : num1 body 0 = 0 ∨ 64 ≤ num1 body 0) : ¬ targetOk body = true := by
  rw [targetOk_iff]
  omega

theorem State.directNote_named (s : State) (c : Chain) (target group : Nat) :
    (s.directNote c).named target group = s.named target group := by
  have sc : (s.directNote c).sc = s.sc := by simp
  unfold State.named State.prof
  rw [sc]

/-- A RESTART that does not name the part, or is malformed. -/
theorem execRestart_completed {s : State} {c : Chain} (arrived : s.Delivered .restart c) :
    (targetOk c.body = true → s.named (num1 c.body 0) c.group = false →
      exec .restart s = .next (s.directNote c).completeNotice) ∧
    (¬ targetOk c.body = true → exec .restart s = .next ((s.directNote c).raise .lineCrc).completeNotice) := by
  simp only [exec, execRestart, (s.delivered_iff .restart c).2 arrived, s.directNote_named]
  refine ⟨fun good other => ?_, fun bad => if_neg bad⟩
  rw [if_pos good, if_neg (by simp [other])]

/-- Settles O58: the direct note comes first, and the warm restart takes every block's values. -/
theorem restartTakesWarmValues : Obligations.RestartTakesWarmValues := by
  refine ⟨fun s c restarting => ⟨_, execRestart_of_restarting restarting, ?_⟩, fun s c arrived =>
    ⟨fun good other => ⟨_, (execRestart_completed arrived).1 good other, s.directNote_noticed c, by simp, by simp⟩,
      fun bad => ⟨_, (execRestart_completed arrived).2 (targetOk_false bad), s.directNote_raise_noticed c _,
        by simp, by simp⟩⟩⟩
  obtain ⟨counts, cut, marks, unreported⟩ := s.directNote_reported c
  have sc : (s.directNote c).sc = s.sc := by simp
  have lc : (s.directNote c).lc.receiver = s.lc.receiver ∧ (s.directNote c).lc.ring = s.lc.ring := by simp
  have pa : (s.directNote c).pa = s.pa := by simp
  refine ⟨?_, ?_, rfl, ?_, rfl, rfl, rfl, Tb.reset_atReset, rfl, rfl, rfl, ?_, rfl, counts, cut, rfl, rfl, ?_, ?_, ?_, ?_⟩
  · simp [State.warmRestart, sc]
  · simp [State.warmRestart, Lc.restart, lc, Receiver.toDiscard, Header.cleared]
  · simp [State.warmRestart, Lc.restart, lc, Ring.fillPosition, Config.ringSlots]
  · simp [State.warmRestart, Pa.restart, pa, State.prof, sc]
  · simp [State.warmRestart, Ru.restart, marks]
  · intro none
    obtain ⟨ru, -⟩ := unreported none
    simp [State.warmRestart, Ru.restart, ru]
  · simp [State.warmRestart]
  · simp [State.warmRestart]

end Sys2Proof.Machine
end

