-- ==== Sys2Proof/Proofs/QueryAndIntervals.lean ====
section
/-! SUPPORT. Events counted together, the expiries of intervals of length 0 that follow them, and the STATUS of a QUERY
or of an interval (R179 to R184). -/

namespace Sys2Proof.Machine

/-! ### Events counted together (R179) -/

/-- The interval timers after the events of some kinds, where the part may send. -/
def Profile.startTimers (p : Profile) (timers : List Bool) (ks : List ReportKind) : List Bool :=
  ks.foldl (fun l k => l.set (p.intervalOf k) true) timers

theorem Profile.startTimers_iff (p : Profile) (ks : List ReportKind) : ∀ (timers : List Bool) (i : Nat),
    (p.startTimers timers ks).getD i false = true ↔
      timers.getD i false = true ∨ i < timers.length ∧ ∃ k ∈ ks, p.intervalOf k = i := by
  induction ks with
  | nil => simp [Profile.startTimers]
  | cons k rest ih =>
    intro timers i
    refine (ih (timers.set (p.intervalOf k) true) i).trans ?_
    simp only [List.getD_eq_getElem?_getD, List.getElem?_set, List.length_set, List.mem_cons, exists_eq_or_imp]
    by_cases same : p.intervalOf k = i
    · by_cases inside : i < timers.length
      · simp [same, inside]
      · simp [same, inside, List.getElem?_eq_none (Nat.not_lt.1 inside)]
    · simp [same]

/-- The flags set after the events of some kinds. -/
def setFlags (pending : BitVec 19) (ks : List ReportKind) : BitVec 19 := ks.foldl (fun p k => p ||| k.bit) pending

theorem kindBit_setFlags (k : ReportKind) (ks : List ReportKind) : ∀ pending : BitVec 19,
    kindBit (setFlags pending ks) k = true ↔ kindBit pending k = true ∨ k ∈ ks := by
  induction ks with
  | nil => simp [setFlags]
  | cons j rest ih =>
    intro pending
    refine (ih (pending ||| j.bit)).trans ?_
    simp [or_assoc]

theorem State.foldCount_eq (ks : List ReportKind) : ∀ {s : State}, s.maySend = true → ks.foldl State.count s =
    { s with ru := { s.ru with
        counts := countsAfter s.ru.counts ks
        pending := setFlags s.ru.pending ks
        timers := s.prof.startTimers s.ru.timers ks } } := by
  induction ks with
  | nil => exact fun _ => rfl
  | cons k rest ih =>
    intro s may
    have counted : s.count k = { s with ru := { s.ru with
        counts := s.ru.counts.modify k.number bump
        pending := s.ru.pending ||| k.bit
        timers := s.ru.timers.set (s.prof.intervalOf k) true } } := by
      have may' : (s.setRu { s.ru with counts := s.ru.counts.modify k.number bump }).maySend = true := may
      simp only [State.count, State.flag, if_pos may']
      rfl
    rw [List.foldl_cons, ih (counted ▸ may), counted]
    rfl

theorem State.raiseAll_of_ne_nil {s : State} {ks : List ReportKind} (some : ks ≠ []) :
    s.raiseAll ks = (ks.foldl State.count s).expireZeros := by
  cases ks with
  | nil => exact absurd rfl some
  | cons k rest => rfl

/-! ### Intervals of length 0 (R181) -/

/-- Interval `i` is of length 0 and its timer runs. -/
def State.Expires (s : State) (i : Nat) : Prop :=
  s.ru.timers.getD i false = true ∧ s.prof.intervalLengths.getD i 0 = 0

/-- A pending kind bound to interval `i` is not masked. -/
def State.Unmasked (s : State) (i : Nat) : Prop :=
  ∃ k, s.prof.intervalOf k = i ∧ kindBit s.ru.pending k = true ∧ kindBit s.prof.masks k = false

theorem State.not_unmasked_iff (s : State) (i : Nat) : ¬ s.Unmasked i ↔
    ∀ k, s.prof.intervalOf k = i → kindBit s.ru.pending k = true → kindBit s.prof.masks k = true := by
  simp [State.Unmasked]

theorem State.expireInterval_quiet {s : State} {i : Nat} (quiet : ¬ s.Unmasked i) :
    s.expireInterval i = s.setRu { s.ru with timers := s.ru.timers.set i false } :=
  if_pos ((noneDue_iff s i).2 ((s.not_unmasked_iff i).1 quiet))

theorem State.expireInterval_offers {s : State} {i : Nat} (due : s.Unmasked i) :
    s.expireInterval i = (s.setRu { s.ru with timers := s.ru.timers.set i false }).offerStatus s.prof.masks :=
  if_neg fun none => (s.not_unmasked_iff i).2 ((noneDue_iff s i).1 none) due

theorem State.expireZeros_still {s : State} (still : ∀ i, i < 3 → ¬ s.Expires i) : s.expireZeros = s := by
  have waits (i : Nat) (index : i < 3) : s.expireIfZero i = s := if_neg (still i index)
  rw [State.expireZeros, waits 0 (by decide), waits 1 (by decide), waits 2 (by decide)]

/-! A transmitter that holds a notice: each expiry replaces the STATUS in the queue, and no kind leaves the field. -/

/-- Between `s` and `t` the transmitter stands, and so does the pending field of a STATUS offered. -/
def FieldStands (s t : State) : Prop :=
  t.lc.transmitter = s.lc.transmitter ∧ t.ru.pendingField = s.ru.pendingField

theorem State.expireIfZero_busy {s : State} (may : s.maySend = true) (busy : s.lc.transmitter.state ≠ .idle) (i : Nat) :
    FieldStands s (s.expireIfZero i) := by
  unfold State.expireIfZero
  split
  next =>
    by_cases due : s.Unmasked i
    · rw [State.expireInterval_offers due,
        State.offerStatus_busy (s.setRu { s.ru with timers := s.ru.timers.set i false }) _ may busy]
      refine ⟨rfl, kindBit_ext fun k => ?_⟩
      simp only [Ru.pendingField, State.setRu_ru, kindBit_or, kindBit_and]
      cases kindBit s.ru.pending k <;> simp
    · rw [State.expireInterval_quiet due]
      exact ⟨rfl, rfl⟩
  next => exact ⟨rfl, rfl⟩

theorem State.expireIfZero_maySend (s : State) (i : Nat) : (s.expireIfZero i).maySend = s.maySend :=
  State.maySend_congr (by simp)

theorem State.expireZeros_busy {s : State} (may : s.maySend = true) (busy : s.lc.transmitter.state ≠ .idle) :
    FieldStands s s.expireZeros := by
  have step (t : State) (stands : FieldStands s t) (may' : t.maySend = true) (i : Nat) :
      FieldStands s (t.expireIfZero i) ∧ (t.expireIfZero i).maySend = true := by
    obtain ⟨transmitter, field⟩ := stands
    obtain ⟨transmitter', field'⟩ := State.expireIfZero_busy may' (by rwa [transmitter]) i
    exact ⟨⟨transmitter'.trans transmitter, field'.trans field⟩, (t.expireIfZero_maySend i).trans may'⟩
  obtain ⟨first, may₁⟩ := step s ⟨rfl, rfl⟩ may 0
  obtain ⟨second, may₂⟩ := step _ first may₁ 1
  exact (step _ second may₂ 2).1

/-! An IDLE transmitter with an empty queue: the first expiry with an unmasked kind offers a STATUS that is taken, and
then no unmasked kind is pending. -/

/-- From `s` only interval timers have stopped. -/
def TimersOnly (s t : State) : Prop := t = { s with ru := { s.ru with timers := t.ru.timers } }

/-- From `s` a STATUS of every pending kind was offered and taken, and the unmasked flags are cleared. -/
def StatusTaken (s t : State) : Prop := t = { s with
  lc := { s.lc with transmitter := ⟨.wait, some (.status s.prof.segmentIndex s.statusReport), 0, 0, [], false⟩ }
  ru := { s.ru with timers := t.ru.timers, listed := 0, pending := s.ru.pending &&& s.prof.masks } }

/-- After such a STATUS every pending kind is masked. -/
theorem StatusTaken.quiet {s t : State} (taken : StatusTaken s t) (i : Nat) : ¬ t.Unmasked i := by
  rw [taken, State.not_unmasked_iff]
  intro k _ pending
  have both : kindBit (s.ru.pending &&& s.prof.masks) k = true := pending
  rw [kindBit_and, Bool.and_eq_true] at both
  exact both.2

section
variable {s t : State} (may : s.maySend = true) (idle : s.lc.transmitter.state = .idle) (empty : s.lc.queue = [])
include may idle empty

/-- An expiry with an unmasked kind offers the STATUS. -/
theorem TimersOnly.expireInterval_offers {i : Nat} (only : TimersOnly s t) (due : s.Unmasked i) :
    StatusTaken s (t.expireInterval i) := by
  let running := { s with ru := { s.ru with timers := t.ru.timers } }
  have same : t = running := only
  have offers : running.expireInterval i = _ := State.expireInterval_offers (s := running) due
  rw [same, offers, State.offerStatus_taken (running.setRu { s.ru with timers := t.ru.timers.set i false }) _ may idle empty]
  rfl

theorem TimersOnly.expireIfZero (only : TimersOnly s t) (i : Nat) :
    (TimersOnly s (t.expireIfZero i) ∧ ∀ j, j ≠ i → t.Expires j → (t.expireIfZero i).Expires j) ∨
      StatusTaken s (t.expireIfZero i) := by
  unfold State.expireIfZero
  split
  next =>
    by_cases due : s.Unmasked i
    · exact Or.inr (only.expireInterval_offers may idle empty due)
    · have quiet : ¬ t.Unmasked i := by
        rw [only]
        exact due
      rw [State.expireInterval_quiet quiet]
      refine Or.inl ⟨?_, fun j other expires => ?_⟩
      · rw [only]
        rfl
      · obtain ⟨running, zero⟩ := expires
        refine ⟨?_, zero⟩
        rw [← running]
        simp [List.getElem?_set, Ne.symm other]
  next => exact Or.inl ⟨only, fun _ _ expires => expires⟩

omit may idle empty in
theorem StatusTaken.expireIfZero (taken : StatusTaken s t) (i : Nat) : StatusTaken s (t.expireIfZero i) := by
  unfold State.expireIfZero
  split
  next =>
    rw [State.expireInterval_quiet (taken.quiet i), taken]
    rfl
  next => exact taken

/-- Where interval `j` of length 0 runs for an unmasked kind, the expiries lead to the STATUS. -/
theorem State.expireZeros_taken {j : Nat} (index : j < 3) (expires : s.Expires j) (due : s.Unmasked j) :
    StatusTaken s s.expireZeros := by
  have fresh : TimersOnly s s := rfl
  have still {t : State} (i : Nat) (other : j ≠ i) (turn : (TimersOnly s t ∧ t.Expires j) ∨ StatusTaken s t) :
      (TimersOnly s (t.expireIfZero i) ∧ (t.expireIfZero i).Expires j) ∨ StatusTaken s (t.expireIfZero i) := by
    obtain ⟨only, runs⟩ | taken := turn
    · exact (only.expireIfZero may idle empty i).imp_left fun ⟨kept, others⟩ => ⟨kept, others j other runs⟩
    · exact Or.inr (taken.expireIfZero i)
  have ends {t : State} (turn : (TimersOnly s t ∧ t.Expires j) ∨ StatusTaken s t) : StatusTaken s (t.expireIfZero j) := by
    obtain ⟨only, runs⟩ | taken := turn
    · have expires : t.expireIfZero j = t.expireInterval j := if_pos runs
      rw [expires]
      exact only.expireInterval_offers may idle empty due
    · exact taken.expireIfZero j
  have start : (TimersOnly s s ∧ s.Expires j) ∨ StatusTaken s s := Or.inl ⟨fresh, expires⟩
  obtain rfl | rfl | rfl : j = 0 ∨ j = 1 ∨ j = 2 := by omega
  · exact ((ends start).expireIfZero 1).expireIfZero 2
  · exact (ends (still 0 (by decide) start)).expireIfZero 2
  · exact ends (still 1 (by decide) (still 0 (by decide) start))

end

/-! ### The STATUS of a QUERY (R184) -/

section
variable {s t : State} {c : Chain}

/-- What a STATUS offered after the direct note says. -/
theorem Worked.statusReport (worked : Worked s t c) (may : s.maySend = true)
    (reported : Reported s t (s.noted c).2) : t.statusReport =
      { node := .run, agreement := s.au.agreement, shownDigest := s.au.shownDigest.getD 0
        pendingKinds := t.ru.pendingField, counts := countsAfter s.ru.counts (s.noted c).2
        geometryCut := s.ru.geometryCut, profileSource := s.sc.profileSource.getD .builtIn
        fontSource := s.sc.fontSource.getD .builtIn, knownFeeders := (s.noted c).1.feeders.length } := by
  obtain ⟨run, -⟩ := s.maySend_iff.1 may
  obtain ⟨counts, cut, -⟩ := reported
  simp only [State.statusReport, worked.sc, worked.au, worked.tb, counts, cut, run, Tb.knownFeeders]

/-- The state of the direct note before any expiry. -/
def State.countedNote (s : State) (c : Chain) : State := (s.noted c).2.foldl State.count (s.setTb (s.noted c).1)

theorem State.countedNote_eq (may : s.maySend = true) : s.countedNote c = { s with
    tb := (s.noted c).1
    ru := { s.ru with
      counts := countsAfter s.ru.counts (s.noted c).2
      pending := setFlags s.ru.pending (s.noted c).2
      timers := s.prof.startTimers s.ru.timers (s.noted c).2 } } :=
  State.foldCount_eq (s.noted c).2 (s := s.setTb (s.noted c).1) may

theorem State.directNote_silent (none : (s.noted c).2 = []) : s.directNote c = s.countedNote c := by
  have none' : (s.tb.note c.sender c.sequence).2 = [] := none
  rw [State.directNote, State.countedNote, none, none']
  rfl

theorem State.directNote_expires (some : (s.noted c).2 ≠ []) : s.directNote c = (s.countedNote c).expireZeros :=
  State.raiseAll_of_ne_nil some

theorem State.directNote_busy (may : s.maySend = true) (busy : s.lc.transmitter.state ≠ .idle) :
    FieldStands (s.countedNote c) (s.directNote c) := by
  by_cases none : (s.noted c).2 = []
  · rw [State.directNote_silent none]
    exact ⟨rfl, rfl⟩
  · rw [State.directNote_expires none]
    refine State.expireZeros_busy ?_ ?_ <;> rwa [State.countedNote_eq may]

/-- Where no interval of length 0 runs, the direct note is counted and no STATUS of its own is offered. -/
theorem State.directNote_still (may : s.maySend = true) (still : (s.noted c).2 ≠ [] → ∀ i, i < 3 →
      s.prof.intervalLengths.getD i 0 = 0 →
        s.ru.timers.getD i false = false ∧ ∀ k ∈ (s.noted c).2, s.prof.intervalOf k ≠ i) :
    s.directNote c = s.countedNote c := by
  by_cases none : (s.noted c).2 = []
  · exact State.directNote_silent none
  · rw [State.directNote_expires none]
    refine State.expireZeros_still fun i index => ?_
    rw [State.countedNote_eq may]
    rintro ⟨running, zero⟩
    obtain ⟨stopped, unbound⟩ := still none i index zero
    obtain runs | ⟨-, k, mem, bound⟩ := (s.prof.startTimers_iff _ _ _).1 running
    · rw [stopped] at runs
      cases runs
    · exact unbound k mem bound

/-- What a STATUS says that is offered after the direct note and before any expiry. -/
def State.noteReport (s : State) (c : Chain) : StatusReport where
  node := .run
  agreement := s.au.agreement
  shownDigest := s.au.shownDigest.getD 0
  pendingKinds := setFlags s.ru.pending (s.noted c).2 ||| s.ru.listed
  counts := countsAfter s.ru.counts (s.noted c).2
  geometryCut := s.ru.geometryCut
  profileSource := s.sc.profileSource.getD .builtIn
  fontSource := s.sc.fontSource.getD .builtIn
  knownFeeders := (s.noted c).1.feeders.length

theorem State.countedNote_statusReport (may : s.maySend = true) : (s.countedNote c).statusReport = s.noteReport c := by
  obtain ⟨run, -⟩ := s.maySend_iff.1 may
  rw [State.countedNote_eq may]
  simp only [State.statusReport, run]
  rfl

theorem State.directNote_statusReport (may : s.maySend = true) :
    (s.directNote c).statusReport = { s.noteReport c with pendingKinds := (s.directNote c).ru.pendingField } :=
  (s.directNote_worked c).statusReport may (s.directNote_reported c)

theorem State.directNote_prof (s : State) (c : Chain) : (s.directNote c).prof = s.prof := by simp [State.prof]

theorem State.directNote_maySend (s : State) (c : Chain) : (s.directNote c).maySend = s.maySend :=
  State.maySend_congr (by simp)

/-- A QUERY while a notice is sent: the STATUS waits in the queue. -/
theorem State.answer_busy (may : s.maySend = true) (busy : s.lc.transmitter.state ≠ .idle) :
    BoardNotice.status s.prof.segmentIndex (s.noteReport c) ∈ ((s.directNote c).offerStatus 0).lc.queue ∧
      ((s.directNote c).offerStatus 0).lc.transmitter = s.lc.transmitter ∧
      ((s.directNote c).offerStatus 0).ru.listed = setFlags s.ru.pending (s.noted c).2 ||| s.ru.listed := by
  have may' := (s.directNote_maySend c).trans may
  obtain ⟨transmitter, field⟩ := State.directNote_busy (c := c) may busy
  rw [State.countedNote_eq may] at transmitter field
  have same : (s.directNote c).statusReport = s.noteReport c := by
    rw [State.directNote_statusReport may, field]
    rfl
  rw [State.offerStatus_busy _ 0 may' (by rwa [transmitter]), same, s.directNote_prof]
  exact ⟨mem_placeNotice_status _ _ _, transmitter, field⟩

/-- A QUERY to an IDLE transmitter, where its note starts no interval of length 0: the STATUS is taken. -/
theorem State.answer_taken (may : s.maySend = true) (idle : s.lc.transmitter.state = .idle) (empty : s.lc.queue = [])
    (still : s.directNote c = s.countedNote c) :
    ((s.directNote c).offerStatus 0).lc.transmitter =
        ⟨.wait, some (.status s.prof.segmentIndex (s.noteReport c)), 0, 0, [], false⟩ ∧
      ((s.directNote c).offerStatus 0).lc.queue = [] ∧ ((s.directNote c).offerStatus 0).ru.listed = 0 := by
  have counted := State.countedNote_eq (c := c) may
  rw [still, State.offerStatus_taken (s.countedNote c) 0 (by rwa [counted]) (by rwa [counted]) (by rwa [counted]),
    State.countedNote_statusReport may, counted]
  exact ⟨rfl, empty, rfl⟩

/-- A QUERY to an IDLE transmitter, where its note starts an interval of length 0 for an unmasked kind: the STATUS of
the interval is taken, and that of the QUERY waits. -/
theorem State.answer_second (may : s.maySend = true) (idle : s.lc.transmitter.state = .idle) (empty : s.lc.queue = [])
    {k : ReportKind} (mem : k ∈ (s.noted c).2) (length : s.ru.timers.length = 3) (index : s.prof.intervalOf k < 3)
    (zero : s.prof.intervalLengths.getD (s.prof.intervalOf k) 0 = 0) (unmasked : kindBit s.prof.masks k = false) :
    ((s.directNote c).offerStatus 0).lc.transmitter =
        ⟨.wait, some (.status s.prof.segmentIndex (s.noteReport c)), 0, 0, [], false⟩ ∧
      ((s.directNote c).offerStatus 0).lc.queue = [.status s.prof.segmentIndex
        { s.noteReport c with pendingKinds := setFlags s.ru.pending (s.noted c).2 &&& s.prof.masks }] ∧
      ((s.directNote c).offerStatus 0).ru.listed = setFlags s.ru.pending (s.noted c).2 &&& s.prof.masks := by
  have may' := (s.directNote_maySend c).trans may
  have counted := State.countedNote_eq (c := c) may
  have expires : (s.countedNote c).Expires (s.prof.intervalOf k) := by
    rw [counted]
    exact ⟨(s.prof.startTimers_iff _ _ _).2 (Or.inr ⟨length ▸ index, k, mem, rfl⟩), zero⟩
  have due : (s.countedNote c).Unmasked (s.prof.intervalOf k) := by
    rw [counted]
    exact ⟨k, rfl, (kindBit_setFlags _ _ _).2 (Or.inr mem), unmasked⟩
  have taken : StatusTaken (s.countedNote c) (s.directNote c) := by
    rw [State.directNote_expires (List.ne_nil_of_mem mem)]
    refine State.expireZeros_taken ?_ ?_ ?_ index expires due <;> rwa [counted]
  have transmitter : (s.directNote c).lc.transmitter =
      ⟨.wait, some (.status s.prof.segmentIndex (s.noteReport c)), 0, 0, [], false⟩ := by
    rw [taken, State.countedNote_statusReport may, counted]
    rfl
  have queue : (s.directNote c).lc.queue = [] := by
    rw [taken, counted]
    exact empty
  have left : (s.directNote c).ru.pendingField = setFlags s.ru.pending (s.noted c).2 &&& s.prof.masks := by
    rw [taken, counted]
    exact BitVec.or_zero
  rw [State.offerStatus_busy _ 0 may' (by simp [transmitter]), State.directNote_statusReport may, left, s.directNote_prof]
  refine ⟨transmitter, ?_, left⟩
  rw [queue]
  rfl

theorem State.offerStatus_pending (may : s.maySend = true) : (s.offerStatus 0).ru.pending = 0 := by
  rw [State.offerStatus, if_pos may]
  simp

theorem State.offerStatus_silent (silent : s.maySend = false) (keep : BitVec 19) : s.offerStatus keep = s :=
  if_neg (by simp [silent])

theorem execQuery_of_delivered (arrived : s.Delivered .query c) :
    exec .query s = .next ((s.directNote c).applyQuery c.group c.body).completeNotice := by
  simp only [exec, execQuery, (s.delivered_iff .query c).2 arrived]

theorem State.applyQuery_named (good : targetOk c.body = true) (named : s.named (num1 c.body 0) c.group = true) :
    (s.directNote c).applyQuery c.group c.body = (s.directNote c).offerStatus 0 := by
  rw [State.applyQuery, if_pos good, if_pos ((s.directNote_named c _ _).trans named)]

end

theorem State.named_iff (s : State) (target group : Nat) : s.named target group = true ↔
    (1 ≤ target ∧ target ≤ 62 ∧ target = s.sc.nodeNumber.toNat) ∨
      (target = 63 ∧ (group = 0 ∨ group = s.prof.group)) := decide_eq_true_iff

theorem execIntervalTimerExpiry_running {s : State} {i : Nat} (running : s.ru.timers[i]? = some true) :
    exec (.intervalTimerExpiry i) s = .next (s.expireInterval i) :=
  if_pos (by simp [running])

/-- What a STATUS offered in RUN says. -/
theorem State.statusReport_describedBy {s : State} (may : s.maySend = true) : s.DescribedBy s.statusReport := by
  obtain ⟨run, -⟩ := s.maySend_iff.1 may
  exact ⟨run, rfl, rfl, rfl, rfl, rfl⟩

/-- Settles O57: a QUERY offers the STATUS of everything counted, after the expiries of its own note; an interval offers
one where an unmasked kind is pending. -/
theorem queryAndIntervalReport : Obligations.QueryAndIntervalReport := by
  refine ⟨fun s c arrived => ⟨_, execQuery_of_delivered arrived, ?_, ?_, fun bad => ?_, fun low high silent => ?_,
    fun low high named may ks noted r noticed bits described => ?_⟩, State.named_iff,
    fun s i running => ⟨fun masked => ?_, fun due may busy => ?_, fun due may idle empty => ?_⟩⟩
  · simp
  · simp
  · rw [State.applyQuery, if_neg (targetOk_false bad)]
    exact s.directNote_raise_noticed c _
  · have still : (s.directNote c).applyQuery c.group c.body = s.directNote c := by
      rw [State.applyQuery, if_pos ((targetOk_iff c.body).2 ⟨low, high⟩), s.directNote_named]
      obtain unnamed | silent := silent
      · rw [if_neg (by simp [unnamed])]
      · rw [State.offerStatus_silent ((s.directNote_maySend c).trans silent), ite_self]
    rw [still]
    exact s.directNote_noticed c
  · have flags : noted = setFlags s.ru.pending ks := kindBit_ext fun k => by
      rw [Bool.eq_iff_iff, bits, kindBit_setFlags]
    subst noticed flags
    obtain rfl : r = s.noteReport c := described
    rw [State.applyQuery_named ((targetOk_iff c.body).2 ⟨low, high⟩) named]
    have worked := (s.directNote_worked c).offerStatus 0
    obtain ⟨counts, cut, marks, -⟩ := s.directNote_reported c
    refine ⟨worked.chainCompleted, worked.feedersNoted, by simp [counts, State.noteReport], by simp [cut],
      by simp [marks], ?_, fun busy => ?_, fun quiet => ?_, fun idle empty length k mem index zero unmasked => ?_⟩
    · simpa using State.offerStatus_pending ((s.directNote_maySend c).trans may)
    · simpa using State.answer_busy may busy
    · have still := State.directNote_still may quiet
      refine ⟨?_, fun idle empty => ?_⟩
      · simp only [State.completeNotice_frame, State.offerStatus_frame, still, State.countedNote_eq may]
        rfl
      · simpa using State.answer_taken may idle empty still
    · simpa using State.answer_second may idle empty mem length index zero unmasked
  · rw [execIntervalTimerExpiry_running running, State.expireInterval_quiet ((s.not_unmasked_iff i).2 masked)]
    rfl
  · let stopped := s.setRu { s.ru with timers := s.ru.timers.set i false }
    have may' : stopped.maySend = true := may
    rw [execIntervalTimerExpiry_running running, State.expireInterval_offers due,
      State.offerStatus_busy stopped _ may' busy]
    exact ⟨_, rfl, rfl, stopped.statusReport, mem_placeNotice_status _ _ _, State.statusReport_describedBy may',
      rfl, rfl, rfl⟩
  · let stopped := s.setRu { s.ru with timers := s.ru.timers.set i false }
    have may' : stopped.maySend = true := may
    refine ⟨stopped.statusReport, State.statusReport_describedBy may', rfl, rfl, rfl, ?_⟩
    rw [execIntervalTimerExpiry_running running, State.expireInterval_offers due,
      State.offerStatus_taken stopped _ may' idle empty]
    rfl

end Sys2Proof.Machine
end

