-- ==== Sys2Proof/Proofs/Agreement.lean ====
section
/-! SUPPORT. The Agreement Unit: the pace a notice brings, the check for adoption and the evaluation in their cases, and
the board notices and the timers on them (R116 to R133). -/

namespace Sys2Proof.Machine

/-! ### The pace (R130 to R132) -/

section
variable {s : State}

theorem State.changePace_eq (s : State) (q : Pace) : s.changePace q = { s with
    au := { s.au with pace := q }
    bu := if s.sc.node = .run then s.bu.paceStep s.prof s.au.shown s.au.pace q else s.bu } := by
  simp only [State.changePace]
  split <;> rfl

/-- A notice's pace shows in the pace and the banners alone. -/
theorem State.adoptPace_only (s : State) (q : Pace) : s.adoptPace q = { s with
    au := { s.au with pace := (s.adoptPace q).au.pace }, bu := (s.adoptPace q).bu } := by
  unfold State.adoptPace
  split
  · rw [State.changePace_eq]
  · rfl

theorem State.adoptPace_taken (s : State) (q : Pace) : PaceTaken s (s.adoptPace q) q := by
  unfold State.adoptPace PaceTaken
  split
  next ahead =>
    rw [State.changePace_eq]
    simp only [ahead, true_and]
  next behind => simp [behind]

/-! ### The agreement rules (R119 to R129) -/

/-- The choice of an origin looks at the peers and the own proposal alone. -/
theorem Au.agreedOrigin_congr {a b : Au} (p : Profile) (peers : a.peers = b.peers) (own : a.ownProposal = b.ownProposal) :
    a.agreedOrigin p = b.agreedOrigin p := by
  have peer (i : Nat) : a.peer i = b.peer i := by rw [Au.peer, peers, Au.peer]
  have considered (i : Nat) : a.considered p i = b.considered p i := by rw [Au.considered, peer, Au.considered]
  have candidate : a.candidate p = b.candidate p := funext fun i => by
    rw [Au.candidate, own, peer, considered, Au.candidate]
  rw [Au.agreedOrigin, candidate, Au.agreedOrigin]

theorem allHold_congr {s t : State} {d : Digest} (peers : t.au.peers = s.au.peers) (prof : t.prof = s.prof) :
    AllHold t d ↔ AllHold s d := by
  unfold AllHold Au.peer
  rw [peers, prof]

/-- The check for adoption adopts where every considered peer holds the digest. -/
theorem State.checkAdoption_adopts {set : ComposedSet} (pending : s.au.agreement = .pending)
    (composed : s.co.composed = some set) (digest : s.au.composedDigest = some set.digest) (hold : AllHold s set.digest) :
    s.checkAdoption = { s with
      au := { s.au with
        swapBuffer := some (set.adopt (s.au.agreedOrigin s.prof)), shownDigest := some set.digest
        agreement := .agreed, agreementTimer := false }
      pa := { s.pa with swapPending := true } } := by
  have holds : s.au.allHold s.prof (s.au.composedDigest.getD 0) = true := by
    rw [digest]
    exact (Au.allHold_iff s _).2 hold
  simp only [State.checkAdoption, if_pos (And.intro pending holds), State.adopt, composed]
  rfl

theorem State.checkAdoption_waits {d : Digest} (digest : s.au.composedDigest = some d) (missing : ¬ AllHold s d) :
    s.checkAdoption = s := by
  refine if_neg fun ⟨_, holds⟩ => missing ?_
  rw [digest] at holds
  exact (Au.allHold_iff s _).1 holds

theorem Au.evaluation_holds {d : Digest} (shown : s.au.shownDigest = some d) (hold : AllHold s d) :
    s.au.evaluation s.prof = .agreed := by
  simp only [Au.evaluation, shown, (Au.allHold_iff s d).2 hold, if_true]

theorem Au.evaluation_misses {d : Digest} (shown : s.au.shownDigest = some d) (missing : ¬ AllHold s d) :
    s.au.evaluation s.prof = .diverged := by
  simp only [Au.evaluation, shown, if_neg fun holds => missing ((Au.allHold_iff s d).1 holds)]

/-- A change of the agreement state other than an entry into DIVERGED reports nothing. -/
theorem State.setAgreement_silent {x : AgreementState} (quiet : x ≠ .diverged ∨ s.au.agreement = .diverged) :
    s.setAgreement x = s.setAu { s.au with agreement := x } :=
  if_neg fun ⟨entered, from_elsewhere⟩ => quiet.elim (· entered) from_elsewhere

theorem State.setAgreement_enters (elsewhere : s.au.agreement ≠ .diverged) :
    s.setAgreement .diverged = (s.setAu { s.au with agreement := .diverged }).raise .agreeDiverged :=
  if_pos ⟨rfl, elsewhere⟩

theorem State.setAgreement_same : s.setAgreement s.au.agreement = s := by
  rw [State.setAgreement_silent]
  · rfl
  · by_cases diverged : s.au.agreement = .diverged
    · exact Or.inr diverged
    · exact Or.inl diverged

/-- An entry into DIVERGED is counted, and otherwise only the agreement state changes. -/
theorem State.setAgreement_enters_reported (elsewhere : s.au.agreement ≠ .diverged) :
    Reported s (s.setAgreement .diverged) [.agreeDiverged] := by
  rw [State.setAgreement_enters elsewhere]
  exact (State.raise_reported (s.setAu { s.au with agreement := .diverged }) .agreeDiverged).congr rfl rfl rfl rfl rfl

theorem Reported.none {s t : State} (ru : t.ru = s.ru) (queue : t.lc.queue = s.lc.queue)
    (transmitter : t.lc.transmitter = s.lc.transmitter) : Reported s t [] :=
  ⟨by rw [ru]; rfl, by rw [ru], by rw [ru], fun _ => ⟨ru, queue, transmitter⟩⟩

end

/-! ### Board notices (R116, R117, R131) -/

section
variable {s t : State} {k : NoticeKind} {c : Chain}

/-- Whether the apply of the next chain begins depends on the ring, the FIFO and the tables alone. -/
theorem State.completeNotice_tb_congr (tb : t.tb = s.tb) (ring : t.lc.ring = s.lc.ring) (fifo : t.lc.fifo = s.lc.fifo) :
    t.completeNotice.tb = s.completeNotice.tb := by
  have dispatch (a b : State) (tables : a.tb = b.tb) (rings : a.lc.ring = b.lc.ring) :
      a.dispatch.tb = b.dispatch.tb := by
    unfold State.dispatch
    rw [rings]
    cases b.lc.ring.inWork with
    | some _ => exact tables
    | none =>
      cases b.lc.ring.ready with
      | nil => exact tables
      | cons d _ => cases owner : d.forTables <;> simp [owner, tables]
  obtain ⟨drained, -⟩ := Lc.drain_congr (a := { t.lc with ring := t.lc.ring.freeInWork })
    (b := { s.lc with ring := s.lc.ring.freeInWork }) (by simp [ring]) fifo
  exact dispatch _ _ tb drained

/-- What a board notice leaves, whatever the Agreement Unit makes of it. -/
theorem State.takeBoardNotice_frames (s : State) (k : NoticeKind) (c : Chain) :
    BoardFrame s (s.takeBoardNotice k c) ∧ PaceTaken s (s.takeBoardNotice k c) (paceAt c.body 1) := by
  have tb := State.completeNotice_tb_congr (s := s)
    (t := (s.adoptPace (paceAt c.body 1)).judgeBoardNotice k c.sender c.body) (by simp) (by simp) (by simp)
  obtain ⟨ring, fifo⟩ := State.completeNotice_ring_congr (s := s)
    (t := (s.adoptPace (paceAt c.body 1)).judgeBoardNotice k c.sender c.body) (by simp) (by simp)
  obtain ⟨pace, bu⟩ := s.adoptPace_taken (paceAt c.body 1)
  refine ⟨⟨?_, tb, ?_, ?_, ?_, ring, fifo, ?_, ?_⟩, ?_, ?_⟩
  · simp [State.takeBoardNotice]
  · simp [State.takeBoardNotice]
  · simp [State.takeBoardNotice]
  · simp [State.takeBoardNotice]
  · simp [State.takeBoardNotice]
  · simp [State.takeBoardNotice]
  · simpa [State.takeBoardNotice] using pace
  · simpa [State.takeBoardNotice] using bu

theorem exec_boardNotice {i : Instr} (arrived : s.Delivered k c)
    (delivers : (k, i) ∈ [(NoticeKind.digest, Instr.digestNotice), (.pace, .paceNotice), (.status, .statusNotice)]) :
    exec i s = .next (s.takeBoardNotice k c) := by
  have taken := (s.delivered_iff k c).2 arrived
  simp only [List.mem_cons, Prod.mk.injEq, List.not_mem_nil, or_false] at delivers
  obtain ⟨rfl, rfl⟩ | ⟨rfl, rfl⟩ | ⟨rfl, rfl⟩ := delivers
  · simp only [exec, execDigestNotice, taken]
  · simp only [exec, execPaceNotice, taken]
  · simp only [exec, execStatusNotice, taken]

theorem State.isClash_iff (s : State) (i sender : Nat) : s.isClash i sender = true ↔
    s.prof.segmentCount ≤ i ∨ i = s.prof.segmentIndex ∨
      ((s.au.peer i).live = true ∧ (s.au.peer i).node ≠ some sender) := decide_eq_true_iff

theorem State.judgeBoardNotice_malformed {sender : Nat} {body : List Byte} (bad : boardNoticeOk k body = false) :
    s.judgeBoardNotice k sender body = s.raise .lineCrc := by
  rw [State.judgeBoardNotice, if_pos (by simp [bad])]

theorem State.judgeBoardNotice_clash {sender : Nat} {body : List Byte} (good : boardNoticeOk k body = true)
    (clash : s.isClash (num1 body 0) sender = true) :
    s.judgeBoardNotice k sender body = s.raise .segmentClash := by
  rw [State.judgeBoardNotice, if_neg (by simp [good]), if_pos clash]

/-- The Agreement Unit with the entry of a peer. -/
def State.withPeer (s : State) (i : Nat) (entry : Peer) : State :=
  s.setAu { s.au with peers := s.au.peers.set i entry }

/-- The peer entry is updated, and a DIGEST in RUN runs the agreement rule. -/
theorem State.judgeBoardNotice_updates {sender : Nat} {body : List Byte} {entry : Peer}
    (good : boardNoticeOk k body = true) (heard : s.isClash (num1 body 0) sender = false)
    (updated : entry = (s.au.peer (num1 body 0)).update sender (if k = .digest then some (digestFields body) else none))
    (q : Pace) : (s.adoptPace q).judgeBoardNotice k sender body =
      if k = .digest ∧ s.sc.node = .run then ((s.adoptPace q).withPeer (num1 body 0) entry).agreementAfterDigest
      else (s.adoptPace q).withPeer (num1 body 0) entry := by
  have heard' : (s.adoptPace q).isClash (num1 body 0) sender = false := by
    rw [State.adoptPace_only]
    exact heard
  have peers : (s.adoptPace q).au.peers = s.au.peers := by simp
  have node : (s.adoptPace q).sc = s.sc := by simp
  rw [State.judgeBoardNotice, if_neg (by simp [good]), if_neg (by simp [heard'])]
  simp only [State.withPeer, updated, Au.peer, peers, node]

theorem State.takeBoardNotice_au (s : State) (k : NoticeKind) (c : Chain) :
    (s.takeBoardNotice k c).au = ((s.adoptPace (paceAt c.body 1)).judgeBoardNotice k c.sender c.body).au ∧
    (s.takeBoardNotice k c).pa = ((s.adoptPace (paceAt c.body 1)).judgeBoardNotice k c.sender c.body).pa := by
  simp [State.takeBoardNotice]

theorem State.takeBoardNotice_reported {ks : List ReportKind} (reported : Reported (s.adoptPace (paceAt c.body 1))
      ((s.adoptPace (paceAt c.body 1)).judgeBoardNotice k c.sender c.body) ks) :
    Reported s (s.takeBoardNotice k c) ks :=
  reported.congr (by simp) (by simp) (by simp [State.takeBoardNotice]) (by simp [State.takeBoardNotice])
    (by simp [State.takeBoardNotice])

/-- A board notice that is refused with a report. -/
theorem State.takeBoardNotice_refused {r : ReportKind}
    (judged : (s.adoptPace (paceAt c.body 1)).judgeBoardNotice k c.sender c.body =
      (s.adoptPace (paceAt c.body 1)).raise r) :
    Reported s (s.takeBoardNotice k c) [r] ∧ (s.takeBoardNotice k c).pa = s.pa ∧
      (s.takeBoardNotice k c).au = { s.au with pace := (s.takeBoardNotice k c).au.pace } := by
  obtain ⟨au, pa⟩ := s.takeBoardNotice_au k c
  refine ⟨State.takeBoardNotice_reported (judged ▸ State.raise_reported _ r), by simp [pa, judged], ?_⟩
  have same : (s.takeBoardNotice k c).au = (s.adoptPace (paceAt c.body 1)).au := by simp [au, judged]
  rw [same, State.adoptPace_only]

/-- The updated entry: what a notice without a digest leaves of it stands. -/
theorem Peer.update_eq (q : Peer) (sender : Nat) (k : NoticeKind) (body : List Byte) :
    { q with
      live := true
      node := some sender
      digest := if k = .digest then some (BitVec.ofNat 16 (num2 body 7)) else q.digest
      origin := if k = .digest then some (paceAt body 9) else q.origin } =
    q.update sender (if k = .digest then some (digestFields body) else none) := by
  split <;> rfl

end

/-- Settles O52: the pace comes first; then a body out of range, a clash, or the update of the entry. -/
theorem boardNoticesUpdatePeers : Obligations.BoardNoticesUpdatePeers := by
  intro s c k i entry arrived delivers described
  obtain ⟨frame, paced⟩ := s.takeBoardNotice_frames k c
  obtain ⟨au, pa⟩ := s.takeBoardNotice_au k c
  refine ⟨_, exec_boardNotice arrived delivers, frame, paced, fun bad => ?_, fun good clash => ?_,
    fun good inside other heard => ?_⟩
  · have judged := State.judgeBoardNotice_malformed (s := s.adoptPace (paceAt c.body 1)) (sender := c.sender) bad
    obtain ⟨reported, pa, au⟩ := State.takeBoardNotice_refused judged
    exact ⟨reported, pa, au.trans rfl⟩
  · have clashes : (s.adoptPace (paceAt c.body 1)).isClash (num1 c.body 0) c.sender = true := by
      rw [State.adoptPace_only]
      exact (s.isClash_iff _ _).2 clash
    obtain ⟨reported, pa, au⟩ := State.takeBoardNotice_refused (State.judgeBoardNotice_clash good clashes)
    exact ⟨reported, pa, au.trans rfl⟩
  · have known : s.isClash (num1 c.body 0) c.sender = false := by
      rw [Bool.eq_false_iff, Ne, s.isClash_iff]
      rintro (beyond | own | ⟨live, stranger⟩)
      · exact absurd inside (Nat.not_lt.2 beyond)
      · exact other own
      · exact stranger (heard live)
    have judged := State.judgeBoardNotice_updates good known (described.trans (Peer.update_eq _ _ _ _)) (paceAt c.body 1)
    refine ⟨?_, fun quiet => ?_⟩
    · rw [au, judged]
      split <;> simp [State.withPeer]
    · rw [if_neg fun ⟨digest, run⟩ => quiet.elim (· digest) (· run)] at judged
      refine ⟨State.takeBoardNotice_reported ?_, by simp [pa, judged, State.withPeer], ?_⟩
      · rw [judged]
        exact .none rfl rfl rfl
      · rw [au, judged, State.withPeer, State.adoptPace_only]
        rfl

/-! ### The agreement rule after a DIGEST (R119 to R121, R127, R129) -/

section
variable {s : State}

theorem State.agreementAfterDigest_pending (pending : s.au.agreement = .pending) :
    s.agreementAfterDigest = s.checkAdoption := by
  simp only [State.agreementAfterDigest, pending]

theorem State.setAgreement_au (s : State) (x : AgreementState) :
    (s.setAgreement x).au = { s.au with agreement := x } := by
  simp only [State.setAgreement]
  split
  · simp
  · rfl

/-- Outside EMPTY and PENDING the rule moves the agreement state alone. -/
theorem State.agreementAfterDigest_settled (settled : s.au.agreement = .agreed ∨ s.au.agreement = .diverged) :
    s.agreementAfterDigest.pa = s.pa ∧
      s.agreementAfterDigest.au = { s.au with agreement := s.agreementAfterDigest.au.agreement } := by
  obtain agreed | diverged := settled
  · simp only [State.agreementAfterDigest, agreed]
    split
    · exact ⟨rfl, rfl⟩
    · exact ⟨by simp, by rw [State.setAgreement_au]⟩
  · simp only [State.agreementAfterDigest, diverged]
    exact ⟨by simp, by rw [State.setAgreement_au]⟩

/-- Outside PENDING, where every considered peer holds the shown digest, the part AGREES and reports nothing. -/
theorem State.agreementAfterDigest_holds {d : Digest} (settled : s.au.agreement = .agreed ∨ s.au.agreement = .diverged)
    (shown : s.au.shownDigest = some d) (hold : AllHold s d) :
    s.agreementAfterDigest = s.setAu { s.au with agreement := .agreed } := by
  have silent : s.setAgreement (s.au.evaluation s.prof) = s.setAu { s.au with agreement := .agreed } := by
    rw [Au.evaluation_holds shown hold, State.setAgreement_silent (.inl (by decide))]
  obtain agreed | diverged := settled
  · simp only [State.agreementAfterDigest, agreed]
    rw [if_neg (by simp [Au.evaluation_holds shown hold]), silent]
  · simp only [State.agreementAfterDigest, diverged]
    exact silent

theorem State.agreementAfterDigest_diverged {d : Digest} (diverged : s.au.agreement = .diverged)
    (shown : s.au.shownDigest = some d) (missing : ¬ AllHold s d) : s.agreementAfterDigest = s := by
  simp only [State.agreementAfterDigest, diverged]
  rw [Au.evaluation_misses shown missing, ← diverged, State.setAgreement_same]

/-- A move from AGREED to DIVERGED waits while a compose is requested or a pass is in flight (R129). -/
theorem State.agreementAfterDigest_agreed {d : Digest} (agreed : s.au.agreement = .agreed)
    (shown : s.au.shownDigest = some d) (missing : ¬ AllHold s d) :
    s.agreementAfterDigest = if s.co.busy = true then s else s.setAgreement .diverged := by
  simp only [State.agreementAfterDigest, agreed, Au.evaluation_misses shown missing, true_and]

end

/-- A DIGEST heard in RUN: the rule acts on `u`, the state with the updated entry, but for the pace and the banners. -/
theorem State.takeBoardNotice_digest {s u : State} {c : Chain} {entry : Peer} (run : s.sc.node = .run)
    (good : boardNoticeOk .digest c.body = true) (heard : s.isClash (num1 c.body 0) c.sender = false)
    (described : entry = ⟨true, some c.sender, some (BitVec.ofNat 16 (num2 c.body 7)), some (paceAt c.body 9)⟩)
    (updated : u = { s with au := { s.au with peers := s.au.peers.set (num1 c.body 0) entry } }) :
    ∃ v : State, v = { u with au := { u.au with pace := v.au.pace }, bu := v.bu } ∧
      (s.takeBoardNotice .digest c).au = v.agreementAfterDigest.au ∧
      (s.takeBoardNotice .digest c).pa = v.agreementAfterDigest.pa ∧
      ∀ ks, Reported v v.agreementAfterDigest ks → Reported s (s.takeBoardNotice .digest c) ks := by
  have judged := State.judgeBoardNotice_updates good heard (entry := entry) described (paceAt c.body 1)
  rw [if_pos ⟨rfl, run⟩] at judged
  obtain ⟨au, pa⟩ := s.takeBoardNotice_au .digest c
  rw [judged] at au pa
  refine ⟨(s.adoptPace (paceAt c.body 1)).withPeer (num1 c.body 0) entry, ?_, au, pa, fun ks reported =>
    State.takeBoardNotice_reported ?_⟩
  · rw [State.adoptPace_only, updated]
    rfl
  · rw [judged]
    exact reported.congr rfl rfl rfl rfl rfl

/-- Settles O53: the rule acts on the updated entry; the pace a notice brings takes no part in it. -/
theorem digestRunsAgreementRule : Obligations.DigestRunsAgreementRule := by
  intro s c entry u arrived run good heard described updated
  obtain ⟨v, only, au, pa, report⟩ := State.takeBoardNotice_digest run good heard described updated
  refine ⟨_, exec_boardNotice arrived (by decide), ?_⟩
  generalize s.takeBoardNotice .digest c = t at au pa report
  have vau : v.au = { u.au with pace := v.au.pace } := congrArg State.au only
  have vpa : v.pa = s.pa := (congrArg State.pa only).trans (by rw [updated])
  have vco : v.co = s.co := (congrArg State.co only).trans (by rw [updated])
  have agreement : v.au.agreement = s.au.agreement := by rw [vau, updated]
  have shownDigest : v.au.shownDigest = s.au.shownDigest := by rw [vau, updated]
  have composedDigest : v.au.composedDigest = s.au.composedDigest := by rw [vau, updated]
  have prof : v.prof = s.prof := by rw [only, updated]; rfl
  have holds (d : Digest) : AllHold v d ↔ AllHold u d := allHold_congr (by rw [vau]) (by rw [only]; rfl)
  have origin : v.au.agreedOrigin v.prof = u.au.agreedOrigin s.prof := by
    rw [prof]
    exact Au.agreedOrigin_congr _ (by rw [vau]) (by rw [vau])
  have still (stays : v.agreementAfterDigest = v) :
      Reported s t [] ∧ t.pa = s.pa ∧ t.au = { u.au with pace := t.au.pace } := by
    rw [stays] at au pa report
    exact ⟨report _ (.none rfl rfl rfl), pa.trans vpa, by rw [au]; exact vau⟩
  have peers : t.au.peers = u.au.peers := by
    rw [au]
    simp only [State.agreementAfterDigest_frame]
    rw [vau]
  refine ⟨peers, fun empty => still ?_, fun pending set composed digest => ?_, fun d settled shown => ?_⟩
  · simp only [State.agreementAfterDigest, agreement, empty]
  · have rule := State.agreementAfterDigest_pending (agreement.trans pending)
    refine ⟨fun hold => ?_, fun missing => ?_⟩
    · rw [rule, State.checkAdoption_adopts (agreement.trans pending) (by rw [vco, composed])
        (composedDigest.trans digest) ((holds _).2 hold), origin] at au pa report
      refine ⟨report _ (.none rfl rfl rfl), ⟨by rw [au]; rfl, by rw [au], by rw [pa]⟩, by rw [pa, vpa], ?_⟩
      rw [au]
      simp only
      rw [vau]
    · have stays := State.checkAdoption_waits (composedDigest.trans digest) (missing ∘ (holds _).1)
      exact still (rule.trans stays)
  · have shown' := shownDigest.trans shown
    have settled' : v.au.agreement = .agreed ∨ v.au.agreement = .diverged := by rwa [agreement]
    obtain ⟨rulePa, ruleAu⟩ := State.agreementAfterDigest_settled settled'
    refine ⟨pa.trans (rulePa.trans vpa), ?_, fun hold => ?_, fun missing diverged => ?_, fun missing agreed =>
      ⟨fun busy => ?_, fun requested idle => ?_⟩⟩
    · rw [au, ruleAu]
      simp only
      rw [vau]
    · rw [State.agreementAfterDigest_holds settled' shown' ((holds d).2 hold)] at au report
      exact ⟨by rw [au]; rfl, report _ (.none rfl rfl rfl)⟩
    · obtain ⟨reported, -⟩ := still
        (State.agreementAfterDigest_diverged (agreement.trans diverged) shown' (missing ∘ (holds d).1))
      exact ⟨by rw [au, State.agreementAfterDigest_diverged (agreement.trans diverged) shown'
        (missing ∘ (holds d).1), agreement, diverged], reported⟩
    · have rule := State.agreementAfterDigest_agreed (agreement.trans agreed) shown' (missing ∘ (holds d).1)
      rw [if_pos (by rw [vco]; simpa [Co.busy] using busy)] at rule
      obtain ⟨reported, -⟩ := still rule
      exact ⟨by rw [au, rule, agreement, agreed], reported⟩
    · have rule := State.agreementAfterDigest_agreed (agreement.trans agreed) shown' (missing ∘ (holds d).1)
      rw [if_neg (by rw [vco]; simp [Co.busy, requested, idle])] at rule
      rw [rule] at au report
      have elsewhere : v.au.agreement ≠ .diverged := by rw [agreement, agreed]; decide
      exact ⟨by rw [au, State.setAgreement_au], report _ (State.setAgreement_enters_reported elsewhere)⟩

/-! ### The timers (R118, R127 to R130, R132, R133) -/

section
variable {s : State}

theorem exec_peerLifetimeExpiry {i : Nat} (live : (s.au.peer i).live = true) {u : State}
    (expired : u = { s with au := { s.au with peers := s.au.peers.set i ⟨false, (s.au.peer i).node, none, none⟩ } }) :
    exec (.peerLifetimeExpiry i) s = .next (if s.sc.node = .run then u.agreementAfterExpiry else u) := by
  subst expired
  simp only [exec, execPeerLifetimeExpiry, if_pos live]
  rw [apply_ite Host.Outcome.next]
  rfl

theorem State.agreementAfterExpiry_still (still : s.au.agreement = .empty ∨ s.au.agreement = .agreed) :
    s.agreementAfterExpiry = s := by
  obtain empty | agreed := still
  · simp only [State.agreementAfterExpiry, empty]
  · simp only [State.agreementAfterExpiry, agreed]

theorem State.agreementAfterExpiry_pending (pending : s.au.agreement = .pending) :
    s.agreementAfterExpiry = s.checkAdoption := by
  simp only [State.agreementAfterExpiry, pending]

theorem State.agreementAfterExpiry_diverged (diverged : s.au.agreement = .diverged) :
    s.agreementAfterExpiry = s.setAgreement (s.au.evaluation s.prof) := by
  simp only [State.agreementAfterExpiry, diverged]

theorem exec_agreementTimerExpiry (running : s.au.agreementTimer = true) (pending : s.au.agreement = .pending) :
    exec .agreementTimerExpiry s =
      .next (((s.setAu { s.au with agreementTimer := false }).adopt s.au.ownOrigin).setAgreement .diverged) := by
  simp only [exec, execAgreementTimerExpiry, if_pos running, if_pos pending]

theorem State.adopt_eq {set : ComposedSet} (composed : s.co.composed = some set) (origin : Pace) :
    s.adopt origin = { s with
      au := { s.au with swapBuffer := some (set.adopt origin), shownDigest := some set.digest }
      pa := { s.pa with swapPending := true } } := by
  simp only [State.adopt, composed]
  rfl

theorem exec_beaconTimerExpiry (running : s.au.beaconTimer = true) : exec .beaconTimerExpiry s =
    .next ((if s.au.sent then s else s.offer (.pace s.prof.segmentIndex)).setAu
      { (if s.au.sent then s else s.offer (.pace s.prof.segmentIndex)).au with sent := false }) := by
  simp only [exec, execBeaconTimerExpiry, if_pos running]

/-- An offer to an IDLE transmitter with an empty queue is taken. -/
theorem State.offer_taken (may : s.maySend = true) (idle : s.lc.transmitter.state = .idle) (empty : s.lc.queue = [])
    {n : BoardNotice} (unlisted : n.kind ≠ .status) : s.offer n = { s with
      lc := { s.lc with transmitter := ⟨.wait, some n, 0, 0, [], false⟩ } } := by
  have queue : placeNotice s.lc.queue n = [n] := by rw [empty, placeNotice_of_new (by simp)]; rfl
  rw [State.offer, if_pos may, queue]
  refine (State.takeNotice_next (s := s.setLc { s.lc with queue := [n] }) idle may rfl).trans ?_
  rw [if_neg unlisted, ← empty]
  rfl

end

/-- Settles O54: an expired peer no longer counts; the agreement timer adopts the own proposal; the pace and the beacon
go on. -/
theorem agreementUnitTimersExpire : Obligations.AgreementUnitTimersExpire := by
  refine ⟨fun s i u live expired => ⟨fun still => ?_, fun run pending set composed digest => ?_,
    fun run diverged d shown => ?_⟩, fun s set o running pending composed own => ?_, fun s running => ?_,
    fun s running => ⟨fun nothing => ?_, fun unsent may busy unlisted => ?_, fun unsent may idle empty => ?_⟩⟩
  · rw [exec_peerLifetimeExpiry live expired]
    split
    next run =>
      rw [State.agreementAfterExpiry_still]
      rw [expired]
      exact still.resolve_left (· run)
    next => rfl
  · have pending' : u.au.agreement = .pending := by rw [expired]; exact pending
    have digest' : u.au.composedDigest = some set.digest := by rw [expired]; exact digest
    have composed' : u.co.composed = some set := by rw [expired]; exact composed
    rw [exec_peerLifetimeExpiry live expired, if_pos run, State.agreementAfterExpiry_pending pending']
    refine ⟨fun missing => ?_, fun hold => ?_⟩
    · rw [State.checkAdoption_waits digest' missing]
    · refine ⟨_, rfl, ?_⟩
      have prof : u.prof = s.prof := by rw [expired]; rfl
      have pa : u.pa = s.pa := by rw [expired]
      rw [State.checkAdoption_adopts pending' composed' digest' hold, prof, pa]
      exact ⟨⟨rfl, rfl, rfl⟩, rfl⟩
  · have diverged' : u.au.agreement = .diverged := by rw [expired]; exact diverged
    have shown' : u.au.shownDigest = some d := by rw [expired]; exact shown
    rw [exec_peerLifetimeExpiry live expired, if_pos run, State.agreementAfterExpiry_diverged diverged']
    refine ⟨fun hold => ?_, fun missing => ?_⟩
    · rw [Au.evaluation_holds shown' hold, State.setAgreement_silent (.inl (by decide))]
      rfl
    · rw [Au.evaluation_misses shown' missing, ← diverged', State.setAgreement_same]
  · refine ⟨_, exec_agreementTimerExpiry running pending, ?_⟩
    have adopted := State.adopt_eq (s := s.setAu { s.au with agreementTimer := false }) composed s.au.ownOrigin
    have origin : s.au.ownOrigin = o := by rw [Au.ownOrigin, own]; rfl
    rw [origin] at adopted ⊢
    rw [adopted]
    have elsewhere : s.au.agreement ≠ .diverged := by rw [pending]; decide
    have reported := State.setAgreement_enters_reported (s := { s with
      au := { s.au with agreementTimer := false, swapBuffer := some (set.adopt o), shownDigest := some set.digest }
      pa := { s.pa with swapPending := true } }) elsewhere
    refine ⟨⟨?_, ?_, ?_⟩, reported.congr rfl rfl rfl rfl rfl, ?_, ?_, ?_⟩
    · rw [State.setAgreement_au]
      rfl
    · rw [State.setAgreement_au]
    · simp
    · simp
    · rw [State.setAgreement_au]
      rfl
    · simp
  · simp only [exec, execPaceTick, if_pos running, State.changePace_eq]
  · rw [exec_beaconTimerExpiry running]
    have stands (offered : s.au.sent = false → s.offer (.pace s.prof.segmentIndex) = s) :
        (if s.au.sent then s else s.offer (.pace s.prof.segmentIndex)) = s := by
      split
      next => rfl
      next unsent => exact offered (by simpa using unsent)
    rw [stands fun unsent => ?_]
    · rfl
    · obtain sent | silent | ⟨busy, listed⟩ := nothing
      · exact absurd (unsent.symm.trans sent) (by decide)
      · exact State.offer_refused silent _
      · by_cases may : s.maySend = true
        · rw [State.offer_busy may busy, placeNotice_pace listed rfl]
        · exact State.offer_refused (by simpa using may) _
  · rw [exec_beaconTimerExpiry running, if_neg (by simp [unsent]), State.offer_busy may busy, placeNotice_of_new unlisted]
    rfl
  · rw [exec_beaconTimerExpiry running, if_neg (by simp [unsent]), State.offer_taken may idle empty (by simp [BoardNotice.kind])]
    rfl

end Sys2Proof.Machine
end

