-- ==== Sys2Proof/Proofs/ComposeCompletion.lean ====
section
/-! SUPPORT. The completion of a pass: what the Agreement Unit makes of the composed set alone and with peers, and the
choice of an origin (R95, R119 to R127). -/

namespace Sys2Proof.Machine

/-! ### The choice of an origin (R121 (1)) -/

section
variable {base : Pace}

/-- Within half a cycle, ahead is further from the base. -/
theorem paceAhead_within {q p : Pace} (near : (q - base).toNat < 2 ^ 31) (near' : (p - base).toNat < 2 ^ 31) :
    paceAhead q p = true ↔ (p - base).toNat < (q - base).toNat := by
  rw [paceAhead_iff]
  bv_omega

/-- The running choice is the candidate furthest from the base. -/
theorem chooseOrigin_furthest : ∀ (l : List Pace) {r : Pace}, (r - base).toNat < 2 ^ 31 →
    (∀ x ∈ l, (x - base).toNat < 2 ^ 31) →
    ∃ o, chooseOrigin (some r) l = some o ∧ o ∈ r :: l ∧ ∀ x ∈ r :: l, (x - base).toNat ≤ (o - base).toNat
  | [], r, _, _ => ⟨r, rfl, by simp, by simp⟩
  | c :: rest, r, near, nears => by
    have nearC := nears c List.mem_cons_self
    have nearRest (x : Pace) (mem : x ∈ rest) := nears x (List.mem_cons_of_mem c mem)
    by_cases ahead : paceAhead c r = true
    · obtain ⟨o, chosen, mem, furthest⟩ := chooseOrigin_furthest rest nearC nearRest
      have passed := (paceAhead_within nearC near).1 ahead
      have c_le := furthest c List.mem_cons_self
      refine ⟨o, by simp only [chooseOrigin, if_pos ahead, chosen], List.mem_cons_of_mem r mem, ?_⟩
      rw [List.forall_mem_cons]
      exact ⟨by omega, furthest⟩
    · obtain ⟨o, chosen, mem, furthest⟩ := chooseOrigin_furthest rest near nearRest
      have behind := Nat.not_lt.1 (mt (paceAhead_within nearC near).2 ahead)
      rw [List.forall_mem_cons] at furthest
      obtain ⟨r_le, rest_le⟩ := furthest
      refine ⟨o, by simp only [chooseOrigin, if_neg ahead, chosen], ?_, ?_⟩
      · obtain rfl | later := List.mem_cons.1 mem
        · exact List.mem_cons_self
        · exact List.mem_cons_of_mem r (List.mem_cons_of_mem c later)
      · rw [List.forall_mem_cons, List.forall_mem_cons]
        exact ⟨r_le, Nat.le_trans behind r_le, rest_le⟩

end

/-- Of candidates within half a cycle the one that none is ahead of is chosen. -/
theorem chooseOrigin_ahead {l : List Pace} (some_candidate : l ≠ [])
    (near : ∃ base : Pace, ∀ x ∈ l, (x - base).toNat < 2 ^ 31) :
    ∃ o ∈ l, chooseOrigin none l = some o ∧ ∀ x ∈ l, paceAhead x o = false := by
  obtain ⟨base, near⟩ := near
  cases l with
  | nil => exact absurd rfl some_candidate
  | cons r rest =>
    obtain ⟨o, chosen, mem, furthest⟩ := chooseOrigin_furthest rest (near r List.mem_cons_self)
      fun x later => near x (List.mem_cons_of_mem r later)
    refine ⟨o, mem, chosen, fun x member => ?_⟩
    rw [← Bool.not_eq_true, paceAhead_within (near x member) (near o mem)]
    exact Nat.not_lt.2 (furthest x member)

/-! ### The agreement rules of a completion (R125 to R127) -/

section
variable {s : State} {set : ComposedSet}

/-- Outside EMPTY, where the set is the one shown, the state is judged again, and a wait for peers ends. -/
theorem State.agreeWithPeers_shown {d : Digest} (adopted : s.au.agreement ≠ .empty) (shown : s.au.shownDigest = some d) :
    s.agreeWithPeers d = (s.setAu { s.au with
      agreementTimer := s.au.agreementTimer && decide (s.au.agreement ≠ .pending) }).setAgreement
        (s.au.evaluation s.prof) := by
  by_cases pending : s.au.agreement = .pending
  · simp only [State.agreeWithPeers, pending, if_pos shown]
    simp
  · have still : s.setAu { s.au with
        agreementTimer := s.au.agreementTimer && decide (s.au.agreement ≠ .pending) } = s := by
      simp [pending, State.setAu]
    rw [still]
    unfold State.agreeWithPeers
    split
    next waits => exact absurd waits pending
    next empty => exact absurd empty adopted
    next => exact if_pos shown
    next => exact if_pos shown

/-- A set that is not shown waits for the peers, from then on or already, and the peers may all hold it. -/
theorem State.agreeWithPeers_new {d : Digest} (new : s.au.agreement = .empty ∨ s.au.shownDigest ≠ some d) :
    s.agreeWithPeers d = (s.setAu { s.au with
      agreement := .pending
      agreementTimer := s.au.agreementTimer || decide (s.au.agreement ≠ .pending) }).checkAdoption := by
  cases agreement : s.au.agreement with
  | empty => simp [State.agreeWithPeers, agreement]
  | pending =>
    have unshown : s.au.shownDigest ≠ some d := new.resolve_left (by simp [agreement])
    simp only [State.agreeWithPeers, agreement, if_neg unshown]
    simp [State.setAu, ← agreement]
  | agreed =>
    have unshown : s.au.shownDigest ≠ some d := new.resolve_left (by simp [agreement])
    simp [State.agreeWithPeers, agreement, unshown]
  | diverged =>
    have unshown : s.au.shownDigest ≠ some d := new.resolve_left (by simp [agreement])
    simp [State.agreeWithPeers, agreement, unshown]

theorem State.agreeWithPeers_adopts (new : s.au.agreement = .empty ∨ s.au.shownDigest ≠ some set.digest)
    (composed : s.co.composed = some set) (digest : s.au.composedDigest = some set.digest) (hold : AllHold s set.digest) :
    s.agreeWithPeers set.digest = { s with
      au := { s.au with
        swapBuffer := some (set.adopt (s.au.agreedOrigin s.prof)), shownDigest := some set.digest
        agreement := .agreed, agreementTimer := false }
      pa := { s.pa with swapPending := true } } := by
  let waiting := s.setAu { s.au with
    agreement := .pending, agreementTimer := s.au.agreementTimer || decide (s.au.agreement ≠ .pending) }
  have origin : waiting.au.agreedOrigin waiting.prof = s.au.agreedOrigin s.prof := Au.agreedOrigin_congr _ rfl rfl
  rw [State.agreeWithPeers_new new, State.checkAdoption_adopts (s := waiting) rfl composed digest hold, origin]
  rfl

theorem State.agreeWithPeers_waits {d : Digest} (new : s.au.agreement = .empty ∨ s.au.shownDigest ≠ some d)
    (digest : s.au.composedDigest = some d) (missing : ¬ AllHold s d) :
    s.agreeWithPeers d = s.setAu { s.au with
      agreement := .pending, agreementTimer := s.au.agreementTimer || decide (s.au.agreement ≠ .pending) } := by
  let waiting := s.setAu { s.au with
    agreement := .pending, agreementTimer := s.au.agreementTimer || decide (s.au.agreement ≠ .pending) }
  rw [State.agreeWithPeers_new new]
  exact State.checkAdoption_waits (s := waiting) digest missing

/-- What a rule of the Agreement Unit reports: an entry into DIVERGED, and nothing otherwise. -/
def Settles (s t : State) : Prop :=
  ((t.au.agreement ≠ .diverged ∨ s.au.agreement = .diverged) ∧ t.lc = s.lc ∧ t.ru = s.ru) ∨
    (t.au.agreement = .diverged ∧ s.au.agreement ≠ .diverged ∧
      t.ru.counts = countsAfter s.ru.counts [.agreeDiverged])

theorem Settles.counts {t : State} (settles : Settles s t) : t.ru.counts = countsAfter s.ru.counts
    (if t.au.agreement = .diverged ∧ s.au.agreement ≠ .diverged then [.agreeDiverged] else []) := by
  obtain ⟨quiet, -, ru⟩ | ⟨entered, elsewhere, counts⟩ := settles
  · rw [if_neg fun ⟨entered, elsewhere⟩ => quiet.elim (· entered) elsewhere, ru]
    rfl
  · rw [if_pos ⟨entered, elsewhere⟩, counts]

theorem Settles.lc {t : State} (settles : Settles s t) (quiet : t.au.agreement ≠ .diverged ∨ s.au.agreement = .diverged) :
    t.lc = s.lc := by
  obtain ⟨-, lc, -⟩ | ⟨entered, elsewhere, -⟩ := settles
  · exact lc
  · exact absurd entered (quiet.resolve_right elsewhere)

theorem State.setAgreement_settles (s : State) (x : AgreementState) : Settles s (s.setAgreement x) := by
  by_cases quiet : x ≠ .diverged ∨ s.au.agreement = .diverged
  · rw [State.setAgreement_silent quiet]
    exact Or.inl ⟨quiet, rfl, rfl⟩
  · simp only [not_or, ne_eq, Classical.not_not] at quiet
    obtain ⟨rfl, elsewhere⟩ := quiet
    obtain ⟨counts, -⟩ := State.setAgreement_enters_reported elsewhere
    exact Or.inr ⟨by rw [State.setAgreement_au], elsewhere, counts⟩

theorem State.agreeAlone_new {d : Digest} (new : s.au.agreement = .empty ∨ s.au.shownDigest ≠ some d)
    (composed : s.co.composed = some set) : s.agreeAlone d = { s with
      au := { s.au with
        swapBuffer := some (set.adopt s.au.ownOrigin), shownDigest := some set.digest, agreement := .agreed }
      pa := { s.pa with swapPending := true } } := by
  rw [State.agreeAlone, if_pos new, State.adopt_eq composed]
  rfl

theorem State.agreeWithPeers_settles (composed : s.co.composed = some set)
    (digest : s.au.composedDigest = some set.digest) : Settles s (s.agreeWithPeers set.digest) := by
  by_cases new : s.au.agreement = .empty ∨ s.au.shownDigest ≠ some set.digest
  · by_cases hold : AllHold s set.digest
    · rw [State.agreeWithPeers_adopts new composed digest hold]
      exact Or.inl ⟨.inl (by simp), rfl, rfl⟩
    · rw [State.agreeWithPeers_waits new digest hold]
      exact Or.inl ⟨.inl (by simp), rfl, rfl⟩
  · simp only [not_or, ne_eq, Classical.not_not] at new
    obtain ⟨adopted, shown⟩ := new
    rw [State.agreeWithPeers_shown adopted shown]
    exact State.setAgreement_settles (s.setAu { s.au with
      agreementTimer := s.au.agreementTimer && decide (s.au.agreement ≠ .pending) }) _

theorem State.agreeAlone_shown {d : Digest} (adopted : s.au.agreement ≠ .empty) (shown : s.au.shownDigest = some d) :
    s.agreeAlone d = s := if_neg (by simp [adopted, shown])

end

/-! ### The completion of a pass (R95, R124) -/

section
variable {s t : State} {n : BoardNotice}

theorem State.offer_lc_congr (lc : t.lc = s.lc) (sc : t.sc = s.sc) : (t.offer n).lc = (s.offer n).lc := by
  have may' : t.maySend = s.maySend := State.maySend_congr sc
  by_cases may : s.maySend = true
  · by_cases idle : s.lc.transmitter.state = .idle
    · rw [State.offer, State.offer, if_pos may, if_pos (may'.trans may), lc]
      cases placed : placeNotice s.lc.queue n with
      | nil => rw [State.takeNotice_empty rfl, State.takeNotice_empty rfl]; rfl
      | cons m rest =>
        rw [State.takeNotice_next (s := t.setLc { s.lc with queue := m :: rest }) idle (may'.trans may) rfl,
          State.takeNotice_next (s := s.setLc { s.lc with queue := m :: rest }) idle may rfl]
        rfl
    · rw [State.offer_busy (may'.trans may) (by rwa [lc]), State.offer_busy may idle, lc]
  · rw [State.offer_refused (may'.trans (by simpa using may)), State.offer_refused (by simpa using may), lc]

/-- Where the part may not send, a report leaves the transmit queue and the transmitter. -/
theorem State.raise_silent (silent : s.maySend = false) (k : ReportKind) : (s.raise k).lc = s.lc := by
  have step (u : State) (quiet : u.maySend = false) (i : Nat) :
      (u.expireIfZero i).lc = u.lc ∧ (u.expireIfZero i).maySend = false := by
    refine ⟨?_, (u.expireIfZero_maySend i).trans quiet⟩
    unfold State.expireIfZero State.expireInterval
    split
    · dsimp only
      split
      · rfl
      · rw [State.offerStatus_silent (s := u.setRu { u.ru with timers := u.ru.timers.set i false }) quiet]
        rfl
    · rfl
  have counted : (s.count k).maySend = false := silent
  obtain ⟨first, quiet₁⟩ := step _ counted 0
  obtain ⟨second, quiet₂⟩ := step _ quiet₁ 1
  obtain ⟨third, -⟩ := step _ quiet₂ 2
  exact third.trans (second.trans first)

end

section
variable {s : State}

/-- The pass with its set. -/
def State.kept (s : State) : State :=
  s.setCo { s.co with composed := some s.completedSet, number := s.completedSet.number }

/-- The pass with its set, and NAME_MISS where a name was missing, before the Agreement Unit takes it. -/
def State.passed (s : State) : State := if s.co.nameMiss then s.kept.raise .nameMiss else s.kept

/-- The reports of a pass before the Agreement Unit takes it. -/
def Co.missed (co : Co) : List ReportKind := if co.nameMiss then [.nameMiss] else []

theorem State.passed_frame (s : State) : s.passed.sc = s.sc ∧ s.passed.au = s.au ∧ s.passed.pa = s.pa ∧
    s.passed.co = { s.co with composed := some s.completedSet, number := s.completedSet.number } := by
  unfold State.passed
  split <;> simp [State.kept]

theorem State.passed_counts (s : State) : s.passed.ru.counts = countsAfter s.ru.counts s.co.missed := by
  unfold State.passed Co.missed
  split
  · obtain ⟨counts, -⟩ := State.raise_reported s.kept .nameMiss
    exact counts
  · rfl

theorem State.passed_lc (quiet : s.co.nameMiss = false ∨ s.maySend = false) : s.passed.lc = s.lc := by
  unfold State.passed
  split
  next missed =>
    have silent : s.kept.maySend = false := quiet.resolve_left (by simp [missed])
    rw [State.raise_silent silent]
    rfl
  next => rfl

/-- The pass whose DIGEST is offered, before an agreement rule. -/
def State.offered (s : State) (o : Pace) : State :=
  (s.passed.setAu { s.au with composedDigest := some s.completedSet.digest, ownProposal := some o }).offer
    (.digest s.prof.segmentIndex s.completedSet.number s.completedSet.digest o s.completedSet.rowCount
      s.completedSet.boardWidth)

theorem State.offered_frame (s : State) (o : Pace) : (s.offered o).sc = s.sc ∧
    (s.offered o).au = { s.au with composedDigest := some s.completedSet.digest, ownProposal := some o } ∧
    (s.offered o).pa = s.pa ∧ (s.offered o).co.composed = some s.completedSet ∧
    (s.offered o).ru.counts = countsAfter s.ru.counts s.co.missed := by
  obtain ⟨sc, -, pa, co⟩ := s.passed_frame
  unfold State.offered
  simp [sc, pa, co, s.passed_counts]

theorem State.offered_lc (named : s.co.nameMiss = false) (o : Pace) : (s.offered o).lc =
    (s.offer (.digest s.prof.segmentIndex s.completedSet.number s.completedSet.digest o s.completedSet.rowCount
      s.completedSet.boardWidth)).lc := by
  obtain ⟨sc, -⟩ := s.passed_frame
  exact State.offer_lc_congr (State.passed_lc (.inl named)) sc

/-- The completion of a pass in RUN and elsewhere. -/
theorem State.completePass_run (run : s.sc.node = .run) {o : Pace} (proposal : o = s.au.pace + BitVec.ofNat 32 s.prof.leadIn) :
    s.completePass = if s.prof.segmentCount = 1 then (s.offered o).agreeAlone s.completedSet.digest
      else (s.offered o).agreeWithPeers s.completedSet.digest := by
  obtain ⟨sc, au, -, -⟩ := s.passed_frame
  have prof : s.passed.prof = s.prof := by rw [State.prof, sc, State.prof]
  have same : s.completePass = s.passed.takeCompletion s.completedSet := by
    rw [State.completePass, if_pos run]
    rfl
  rw [same, State.takeCompletion, prof, au, ← proposal]
  rfl

theorem State.completePass_elsewhere (elsewhere : s.sc.node ≠ .run) : s.completePass = s.passed := if_neg elsewhere

theorem State.completePass_co (s : State) :
    s.completePass.co.composed = some s.completedSet ∧ s.completePass.co.number = s.completedSet.number := by
  obtain ⟨-, -, -, co⟩ := s.passed_frame
  by_cases run : s.sc.node = .run
  · have taken : s.completePass = s.passed.takeCompletion s.completedSet := by
      rw [State.completePass, if_pos run]
      rfl
    rw [taken]
    simp [co]
  · rw [State.completePass_elsewhere run, co]
    exact ⟨rfl, rfl⟩

/-- After the completion the Composer is IDLE, and asks again where it may (R90, R95). -/
def State.passEnded (s : State) : State := (s.completePass.setCo { s.completePass.co with pass := .idle }).askWindow

theorem exec_composeComplete (digesting : s.co.pass = .digesting) : exec .composeComplete s = .next s.passEnded :=
  if_pos digesting

theorem State.passEnded_frame (s : State) : s.passEnded.au = s.completePass.au ∧ s.passEnded.pa = s.completePass.pa ∧
    s.passEnded.lc = s.completePass.lc ∧ s.passEnded.ru = s.completePass.ru ∧
    s.passEnded.co.composed = s.completePass.co.composed ∧ s.passEnded.co.number = s.completePass.co.number := by
  simp [State.passEnded]

theorem State.passEnded_unasked (unasked : s.co.request = false) :
    s.passEnded.co.pass = .idle ∧ s.passEnded.tb = s.tb := by
  have still : s.passEnded = s.completePass.setCo { s.completePass.co with pass := .idle } :=
    if_neg fun asks => by simp [unasked] at asks
  rw [still]
  simp

/-- The completion in RUN settles the agreement state. -/
theorem State.completePass_settles (run : s.sc.node = .run) {o : Pace}
    (proposal : o = s.au.pace + BitVec.ofNat 32 s.prof.leadIn) : Settles (s.offered o) s.completePass := by
  obtain ⟨sc, au, pa, composed, -⟩ := s.offered_frame o
  have digest : (s.offered o).au.composedDigest = some s.completedSet.digest := by rw [au]
  rw [State.completePass_run run proposal]
  split
  · by_cases new : (s.offered o).au.agreement = .empty ∨ (s.offered o).au.shownDigest ≠ some s.completedSet.digest
    · rw [State.agreeAlone_new new composed]
      exact Or.inl ⟨.inl (by simp), rfl, rfl⟩
    · simp only [not_or, ne_eq, Classical.not_not] at new
      obtain ⟨adopted, shown⟩ := new
      rw [State.agreeAlone_shown adopted shown]
      exact Or.inl ⟨(Classical.em _).symm, rfl, rfl⟩
  · exact State.agreeWithPeers_settles composed digest

theorem State.passEnded_alone (run : s.sc.node = .run) {o : Pace}
    (proposal : o = s.au.pace + BitVec.ofNat 32 s.prof.leadIn) (alone : s.prof.segmentCount = 1) :
    (s.au.agreement = .empty ∨ s.au.shownDigest ≠ some s.completedSet.digest →
      Adopted s.passEnded s.completedSet o ∧ s.passEnded.au = { s.au with
        composedDigest := some s.completedSet.digest, ownProposal := some o
        swapBuffer := s.passEnded.au.swapBuffer, shownDigest := some s.completedSet.digest, agreement := .agreed } ∧
      s.passEnded.pa = { s.pa with swapPending := true }) ∧
    (s.au.agreement ≠ .empty → s.au.shownDigest = some s.completedSet.digest →
      s.passEnded.pa = s.pa ∧ s.passEnded.au = { s.au with
        composedDigest := some s.completedSet.digest, ownProposal := some o }) := by
  obtain ⟨endAu, endPa, -⟩ := s.passEnded_frame
  obtain ⟨-, au, pa, composed, -⟩ := s.offered_frame o
  have pass := State.completePass_run run proposal
  rw [if_pos alone] at pass
  unfold Adopted
  rw [endAu, endPa, pass]
  refine ⟨fun new => ?_, fun adopted shown => ?_⟩
  · rw [State.agreeAlone_new (by rw [au]; exact new) composed, au, pa]
    exact ⟨⟨rfl, rfl, rfl⟩, rfl, rfl⟩
  · rw [State.agreeAlone_shown (by rw [au]; exact adopted) (by rw [au]; exact shown), au, pa]
    exact ⟨rfl, rfl⟩

theorem State.passEnded_peers (run : s.sc.node = .run) {o : Pace}
    (proposal : o = s.au.pace + BitVec.ofNat 32 s.prof.leadIn) (peers : s.prof.segmentCount ≠ 1) :
    (s.au.agreement = .empty ∨ s.au.shownDigest ≠ some s.completedSet.digest → AllHold s s.completedSet.digest →
      Adopted s.passEnded s.completedSet (Au.agreedOrigin { s.au with ownProposal := some o } s.prof) ∧
      s.passEnded.au = { s.au with
        composedDigest := some s.completedSet.digest, ownProposal := some o
        swapBuffer := s.passEnded.au.swapBuffer, shownDigest := some s.completedSet.digest
        agreement := .agreed, agreementTimer := false } ∧
      s.passEnded.pa = { s.pa with swapPending := true }) ∧
    (s.au.agreement = .empty ∨ s.au.shownDigest ≠ some s.completedSet.digest → ¬ AllHold s s.completedSet.digest →
      s.passEnded.pa = s.pa ∧ s.passEnded.au = { s.au with
        composedDigest := some s.completedSet.digest, ownProposal := some o, agreement := .pending
        agreementTimer := s.au.agreementTimer || decide (s.au.agreement ≠ .pending) }) ∧
    (s.au.agreement ≠ .empty → s.au.shownDigest = some s.completedSet.digest →
      s.passEnded.pa = s.pa ∧ s.passEnded.au = { s.au with
        composedDigest := some s.completedSet.digest, ownProposal := some o
        agreement := s.passEnded.au.agreement
        agreementTimer := s.au.agreementTimer && decide (s.au.agreement ≠ .pending) } ∧
      (AllHold s s.completedSet.digest → s.passEnded.au.agreement = .agreed) ∧
      (¬ AllHold s s.completedSet.digest → s.passEnded.au.agreement = .diverged)) := by
  obtain ⟨endAu, endPa, -⟩ := s.passEnded_frame
  obtain ⟨sc, au, pa, composed, -⟩ := s.offered_frame o
  have pass := State.completePass_run run proposal
  rw [if_neg peers] at pass
  have prof : (s.offered o).prof = s.prof := by rw [State.prof, sc, State.prof]
  have digest : (s.offered o).au.composedDigest = some s.completedSet.digest := by rw [au]
  have holds (d : Digest) : AllHold (s.offered o) d ↔ AllHold s d := allHold_congr (by rw [au]) prof
  have origin : (s.offered o).au.agreedOrigin (s.offered o).prof =
      Au.agreedOrigin { s.au with ownProposal := some o } s.prof := by
    rw [prof]
    exact Au.agreedOrigin_congr _ (by rw [au]) (by rw [au])
  unfold Adopted
  rw [endAu, endPa, pass]
  refine ⟨fun new hold => ?_, fun new missing => ?_, fun adopted shown => ?_⟩
  · rw [State.agreeWithPeers_adopts (by rw [au]; exact new) composed digest ((holds _).2 hold), origin, au, pa]
    exact ⟨⟨rfl, rfl, rfl⟩, rfl, rfl⟩
  · rw [State.agreeWithPeers_waits (by rw [au]; exact new) digest (missing ∘ (holds _).1), au]
    exact ⟨pa, rfl⟩
  · have shown' : (s.offered o).au.shownDigest = some s.completedSet.digest := by rw [au]; exact shown
    rw [State.agreeWithPeers_shown (by rw [au]; exact adopted) shown']
    refine ⟨by simp [pa], by rw [State.setAgreement_au, au]; rfl, fun hold => ?_, fun missing => ?_⟩
    · rw [State.setAgreement_au, Au.evaluation_holds shown' ((holds _).2 hold)]
    · rw [State.setAgreement_au, Au.evaluation_misses shown' (missing ∘ (holds _).1)]

end

/-- Settles O51: NAME_MISS and the offer come first, then the agreement rule; the origin is the candidate no other is
ahead of. -/
theorem composeCompletes : Obligations.ComposeCompletes := by
  refine ⟨fun s c digesting described => ?_, fun l some_candidate near => chooseOrigin_ahead some_candidate near⟩
  obtain rfl : c = s.completedSet := described
  obtain ⟨endAu, endPa, endLc, endRu, endComposed, endNumber⟩ := s.passEnded_frame
  obtain ⟨composed, number⟩ := s.completePass_co
  refine ⟨_, exec_composeComplete digesting, endComposed.trans composed, endNumber.trans number, ?_, ?_, ?_, ?_, ?_, ?_,
    ?_, State.passEnded_unasked, fun listen => ?_, fun run o proposal => ⟨fun named quiet => ?_, ?_,
    State.passEnded_alone run proposal, State.passEnded_peers run proposal⟩⟩
  · simp [State.passEnded]
  · simp [State.passEnded]
  · simp [State.passEnded]
  · simp [TablesKept, State.passEnded]
  · simp [State.passEnded]
  · simp [State.passEnded]
  · simp [State.passEnded]
  · have elsewhere : s.sc.node ≠ .run := by simp [listen]
    have silent : s.maySend = false := by simp [State.maySend, listen]
    obtain ⟨-, au, pa, -⟩ := s.passed_frame
    rw [endAu, endPa, endLc, endRu, State.completePass_elsewhere elsewhere]
    exact ⟨au, pa, State.passed_lc (.inr silent), s.passed_counts⟩
  · have settles := State.completePass_settles run proposal
    obtain ⟨-, au, -⟩ := s.offered_frame o
    rw [endLc, settles.lc (by rw [← endAu, au]; exact quiet), State.offered_lc named]
  · have settles := State.completePass_settles run proposal
    obtain ⟨-, au, -, -, counts⟩ := s.offered_frame o
    rw [endAu, endRu, settles.counts, counts, au, countsAfter, countsAfter, countsAfter, ← List.foldl_append]
    rfl

end Sys2Proof.Machine
end

