-- ==== Sys2Proof/Proofs/BoardRows.lean ====
section
/-! SUPPORT. Sorting by insertion, the services a board shows in their order, and the rows built from them (R97 to
R110). -/

namespace Sys2Proof.Machine

/-! ### Sorting by insertion -/

section
variable {α : Type} {before : α → α → Bool}

theorem insertBy_perm (before : α → α → Bool) (x : α) : ∀ l : List α, (insertBy before x l).Perm (x :: l)
  | [] => List.Perm.refl _
  | y :: rest => by
    unfold insertBy
    split
    · exact List.Perm.refl _
    · exact ((insertBy_perm before x rest).cons y).trans (List.Perm.swap x y rest)

theorem sortBy_perm (before : α → α → Bool) : ∀ l : List α, (sortBy before l).Perm l
  | [] => List.Perm.refl _
  | x :: rest => (insertBy_perm before x (sortBy before rest)).trans ((sortBy_perm before rest).cons x)

theorem insertBy_pairwise (trans : ∀ a b c, before a b = true → before b c = true → before a c = true) {x : α} :
    ∀ {l : List α}, (∀ y ∈ l, before x y = true ∨ before y x = true) → l.Pairwise (fun a b => before a b = true) →
      (insertBy before x l).Pairwise fun a b => before a b = true
  | [], _, _ => List.pairwise_singleton _ _
  | y :: rest, total, sorted => by
    rw [List.pairwise_cons] at sorted
    obtain ⟨first, sorted⟩ := sorted
    unfold insertBy
    split
    next precedes =>
      refine List.pairwise_cons.2 ⟨List.forall_mem_cons.2 ⟨precedes, fun z later => ?_⟩,
        List.pairwise_cons.2 ⟨first, sorted⟩⟩
      exact trans x y z precedes (first z later)
    next follows =>
      have after := (total y List.mem_cons_self).resolve_left follows
      refine List.pairwise_cons.2 ⟨fun z mem => ?_,
        insertBy_pairwise trans (fun z later => total z (List.mem_cons_of_mem y later)) sorted⟩
      obtain rfl | later := insertBy_mem before x z mem
      · exact after
      · exact first z later

/-- A list whose elements any order tells apart is sorted by it. -/
theorem sortBy_pairwise (trans : ∀ a b c, before a b = true → before b c = true → before a c = true) :
    ∀ {l : List α}, l.Pairwise (fun a b => before a b = true ∨ before b a = true) →
      (sortBy before l).Pairwise fun a b => before a b = true
  | [], _ => List.Pairwise.nil
  | x :: rest, apart => by
    rw [List.pairwise_cons] at apart
    obtain ⟨first, apart⟩ := apart
    exact insertBy_pairwise trans (fun y mem => first y ((sortBy_perm before rest).mem_iff.1 mem))
      (sortBy_pairwise trans apart)

end

/-! ### The services of a board (R97 to R99) -/

section
variable {minute : Option Nat} {u v w : Service}

theorem rowBefore_iff : rowBefore minute v w = true ↔
    v.key minute < w.key minute ∨ (v.key minute = w.key minute ∧ v.number < w.number) := decide_eq_true_iff

theorem rowBefore_trans (first : rowBefore minute u v = true) (second : rowBefore minute v w = true) :
    rowBefore minute u w = true := by
  rw [rowBefore_iff] at *
  omega

theorem rowBefore_total (other : v.number ≠ w.number) : rowBefore minute v w = true ∨ rowBefore minute w v = true := by
  rw [rowBefore_iff, rowBefore_iff]
  omega

theorem Service.selected_iff (v : Service) (minute : Option Nat) (hideMinutes : Nat) :
    v.selected minute hideMinutes = true ↔ v.status ≠ .departed ∧
      ∀ m, minute = some m → -(hideMinutes : Int) ≤ minuteOffset (v.expected.getD v.scheduled) m := by
  unfold Service.selected
  cases minute with
  | none => simp
  | some m =>
    rw [Bool.and_eq_true, decide_eq_true_eq]
    simp only [v.key_some, Option.some.injEq, forall_eq']
    exact and_congr_right fun _ => decide_eq_true_iff

/-- The selected services, in their order (R97, R98). -/
def sortedServices (services : List Service) (minute : Option Nat) (hideMinutes : Nat) : List Service :=
  sortBy (rowBefore minute) (services.filter fun v => v.selected minute hideMinutes)

theorem boardServices_eq (services : List Service) (minute : Option Nat) (hideMinutes rows : Nat) :
    boardServices services minute hideMinutes rows = (sortedServices services minute hideMinutes).take rows := rfl

theorem mem_sortedServices {services : List Service} {hideMinutes : Nat} :
    v ∈ sortedServices services minute hideMinutes ↔ v ∈ services ∧ v.selected minute hideMinutes = true := by
  rw [sortedServices, (sortBy_perm _ _).mem_iff, List.mem_filter]

theorem sortedServices_pairwise {services : List Service} (distinct : (services.map fun v => v.number).Nodup)
    (minute : Option Nat) (hideMinutes : Nat) :
    (sortedServices services minute hideMinutes).Pairwise fun v w => rowBefore minute v w = true := by
  have apart : services.Pairwise fun v w => v.number ≠ w.number := List.pairwise_map.1 distinct
  have ordered : (services.filter fun v => v.selected minute hideMinutes).Pairwise
      fun v w => rowBefore minute v w = true ∨ rowBefore minute w v = true :=
    (apart.filter fun v => v.selected minute hideMinutes).imp fun {v w} other => rowBefore_total (v := v) (w := w) other
  exact sortBy_pairwise (before := rowBefore minute)
    (fun u v w => rowBefore_trans (minute := minute) (u := u) (v := v) (w := w)) ordered

/-- What is not among the first of a sorted list comes after them. -/
theorem pairwise_take_of_not_mem {α : Type} {r : α → α → Prop} {l : List α} (sorted : l.Pairwise r) {n : Nat} {a b : α}
    (first : a ∈ l.take n) (mem : b ∈ l) (later : b ∉ l.take n) : r a b := by
  rw [← List.take_append_drop n l, List.pairwise_append] at sorted
  obtain ⟨-, -, across⟩ := sorted
  rw [← List.take_append_drop n l, List.mem_append] at mem
  exact across a first b (mem.resolve_left later)

end

/-! ### The rows (R99, R100, R104, R110) -/

section
variable {p : Profile} {rowCount : Nat} {tb : Tb} {width : Text → Nat}

theorem rowMisses_iff (names : List (Nat × Text)) (v : Service) : rowMisses names v = true ↔
    nameText names v.destination = [] ∨ ∃ n, v.via = some n ∧ nameText names n = [] := by
  unfold rowMisses
  cases v.via <;> simp

theorem buildRows_empty (none : boardServices tb.services tb.time.minute p.hideMinutes rowCount = []) :
    buildRows p rowCount tb width = (.phrase noDeparturesText :: List.replicate (rowCount - 1) .blank, false) := by
  simp only [buildRows, none]

theorem buildRows_lead {v : Service} {rest : List Service}
    (board : boardServices tb.services tb.time.minute p.hideMinutes rowCount = v :: rest) :
    buildRows p rowCount tb width =
      (.lead (serviceRowOf p tb.names v) (callingLine p tb v).1 (width (callingLine p tb v).1) ::
          (rest.map (fun w => .follow (serviceRowOf p tb.names w)) ++
            List.replicate (rowCount - 1 - rest.length) .blank),
        (v :: rest).any (rowMisses tb.names) || (callingLine p tb v).2) := by
  simp only [buildRows, board, List.cons_append]

theorem buildRows_length (row : 1 ≤ rowCount) : (buildRows p rowCount tb width).1.length = rowCount := by
  cases board : boardServices tb.services tb.time.minute p.hideMinutes rowCount with
  | nil =>
    rw [buildRows_empty board, List.length_cons, List.length_replicate]
    omega
  | cons v rest =>
    have few : (v :: rest).length ≤ rowCount := board ▸ List.length_take_le _ _
    rw [List.length_cons] at few
    rw [buildRows_lead board]
    simp only [List.length_cons, List.length_append, List.length_map, List.length_replicate]
    omega

end

/-- Settles O50: the board is a sorted list's beginning, and the rows follow its services. -/
theorem windowReleaseBuildsRows : Obligations.WindowReleaseBuildsRows := by
  intro s board reading row described
  have mem {v : Service} (shown : v ∈ board) :
      v ∈ s.tb.services ∧ v.selected s.tb.time.minute s.prof.hideMinutes = true := by
    rw [described, boardServices_eq] at shown
    exact mem_sortedServices.1 (List.mem_of_mem_take shown)
  refine ⟨fun v shown => ?_, ?_, fun distinct => ⟨?_, fun w stored selected unshown v shown => ?_⟩,
    s.buildWorking.1, s.buildWorking.2, ?_, buildRows_length row, fun empty => ?_, fun v rest lead => ?_⟩
  · obtain ⟨stored, selected⟩ := mem shown
    exact ⟨stored, (v.selected_iff _ _).1 selected⟩
  · rw [described, boardServices_eq, List.length_take, sortedServices, (sortBy_perm _ _).length_eq]
  · rw [described, boardServices_eq]
    exact (sortedServices_pairwise distinct _ _).sublist (List.take_sublist _ _)
  · rw [described, boardServices_eq] at shown unshown
    exact pairwise_take_of_not_mem (sortedServices_pairwise distinct _ _) shown
      (mem_sortedServices.2 ⟨stored, selected⟩) unshown
  · simp only [exec, execWindowRelease, if_pos reading]
    rfl
  · rw [State.buildWorking, buildRows_empty (described.symm.trans empty)]
    exact ⟨rfl, rfl⟩
  · rw [State.buildWorking, buildRows_lead (described.symm.trans lead)]
    refine ⟨rfl, ?_⟩
    simp only [Bool.or_eq_true, List.any_eq_true, rowMisses_iff, lead]
    exact or_comm

end Sys2Proof.Machine
end

