-- ==== Sys2Proof/Proofs/BusyPeriods.lean ====
section
/-! SUPPORT. The line-busy watch: what it counts, when it comes to stand at its limit, and BUSY_PERIOD_LIMIT in DISCARD,
in HUNT and in reception (R30). -/

namespace Sys2Proof.Machine

/-! ### What the watch counts -/

section
variable {w : Watch}

theorem ReceiverState.inFrame_iff (x : ReceiverState) : x.inFrame = true ↔
    x ∈ [ReceiverState.header, .store, .foreign, .skip, .lockout] := by cases x <;> simp [ReceiverState.inFrame]

/-- A bit adds one at most to the run of 1 bits. -/
theorem Watch.follow_idleRun_le (bits : List Bool) : ∀ w : Watch, (w.follow bits).idleRun ≤ w.idleRun + bits.length := by
  induction bits with
  | nil => exact fun w => Nat.le_refl _
  | cons b rest ih =>
    intro w
    have step : (w.count b).idleRun ≤ w.idleRun + 1 := by
      unfold Watch.count idleBits
      dsimp only
      split <;> omega
    have later := ih (w.count b)
    rw [List.length_cons]
    exact Nat.le_trans later (by omega)

theorem Watch.count_false (w : Watch) : (w.count false).idleRun = 0 := rfl

/-- A 0 bit within 64 bit times breaks the idle line. -/
theorem Watch.follow_broken {bits : List Bool} (short : bits.length ≤ 64) (broken : false ∈ bits) (w : Watch) :
    (w.follow bits).idleRun < 64 := by
  obtain ⟨before, after, rfl⟩ := List.append_of_mem broken
  rw [Watch.follow_append]
  have later := Watch.follow_idleRun_le after ((w.follow before).count false)
  have zero := (w.follow before).count_false
  have restarts : (w.follow before).follow (false :: after) = ((w.follow before).count false).follow after := rfl
  simp only [List.length_append, List.length_cons] at short
  rw [restarts]
  omega

/-- After 64 bit times or more the run is full exactly where the last 64 were at 1. -/
theorem Watch.follow_full {bits : List Bool} (long : 64 ≤ bits.length) (w : Watch) :
    (w.follow bits).idleRun = 64 ↔ bits.drop (bits.length - 64) = List.replicate 64 true := by
  have split := List.take_append_drop (bits.length - 64) bits
  have length : (bits.drop (bits.length - 64)).length = 64 := by
    rw [List.length_drop]
    omega
  have follows : w.follow bits = (w.follow (bits.take (bits.length - 64))).follow (bits.drop (bits.length - 64)) := by
    rw [← Watch.follow_append, split]
  rw [follows]
  constructor
  · intro full
    refine List.eq_replicate_iff.2 ⟨length, fun b mem => ?_⟩
    cases b with
    | true => rfl
    | false => exact absurd full (Nat.ne_of_lt (Watch.follow_broken (Nat.le_of_eq length) mem _))
  · intro ones
    rw [ones, Watch.follow_ones 64 _ (by decide)]
    omega

/-- After a 0 bit the run counts the bits since. -/
theorem Watch.follow_since {bits : List Bool} (zero : bits.getLast? = some false) {n : Nat} (few : n ≤ 64) (w : Watch) :
    (w.follow (bits ++ List.replicate n true)).idleRun = n := by
  obtain ⟨before, rfl⟩ := List.getLast?_eq_some_iff.1 zero
  have last : (w.follow (before ++ [false])).idleRun = 0 := by
    rw [Watch.follow_append]
    rfl
  rw [Watch.follow_append]
  cases n with
  | zero => exact last
  | succ n =>
    rw [Watch.follow_ones (n + 1) _ (Nat.succ_pos n), last]
    omega

theorem Watch.settle_false (w : Watch) : w.settle false = if w.idleRun = 64 then ⟨64, 0, false, w.ahead⟩ else w := by
  unfold Watch.settle idleBits
  by_cases full : w.idleRun = 64 <;> simp [full]

theorem Watch.settle_of_short (short : w.idleRun < 64) (inFrame : Bool) : w.settle inFrame = w :=
  if_neg fun ⟨full, _⟩ => Nat.ne_of_lt short full

/-- One bit taken outside a frame. -/
theorem Watch.settle_count (w : Watch) (b inFrame : Bool) : (w.count b).settle inFrame =
    if b = true ∧ 63 ≤ w.idleRun ∧ inFrame = false then ⟨64, 0, false, w.ahead⟩
    else ⟨if b then min 64 (w.idleRun + 1) else 0, min 5000 (w.busyBits + 1), w.reported, w.ahead⟩ := by
  unfold Watch.settle Watch.count idleBits stuckBits
  cases b with
  | false => simp
  | true =>
    by_cases full : 63 ≤ w.idleRun
    · have run : min 64 (w.idleRun + 1) = 64 := by omega
      cases inFrame <;> simp [full, run]
    · have run : min 64 (w.idleRun + 1) ≠ 64 := by omega
      simp [full, run]

end

/-! ### The limit of a busy period -/

section
variable {s : State} {w : Watch}

theorem State.tally_stuck (limit : w.busyBits = 5000) (unreported : w.reported = false) : s.tally w =
    { s with lc := { s.lc with watch := { w with reported := true } } }.raise .lineStuck := if_pos ⟨limit, unreported⟩

theorem State.tally_below (below : w.busyBits ≠ 5000 ∨ w.reported = true) :
    s.tally w = { s with lc := { s.lc with watch := w } } :=
  if_neg fun ⟨limit, unreported⟩ => below.elim (· limit) (by simp [unreported])

theorem State.tally_stuck_reported (limit : w.busyBits = 5000) (unreported : w.reported = false) :
    Reported s (s.tally w) [.lineStuck] := by
  rw [State.tally_stuck limit unreported]
  exact (State.raise_reported { s with lc := { s.lc with watch := { w with reported := true } } } .lineStuck).after
    rfl rfl rfl

theorem State.tally_below_reported (below : w.busyBits ≠ 5000 ∨ w.reported = true) : Reported s (s.tally w) [] := by
  rw [State.tally_below below]
  exact .none rfl rfl rfl

/-- The bits not yet counted of a unit bring the period to its limit. -/
theorem State.watchBits_stuck {bits : List Bool} (unreported : s.lc.watch.reported = false)
    (some : s.lc.watch.ahead < bits.length) (limit : 5000 ≤ s.lc.watch.busyBits + (bits.length - s.lc.watch.ahead)) :
    Reported s (s.watchBits bits) [.lineStuck] ∧ (s.watchBits bits).lc.watch.busyBits = 5000 ∧
      (s.watchBits bits).lc.watch.reported = true := by
  have left : bits.drop s.lc.watch.ahead ≠ [] := by simpa using some
  obtain ⟨-, busy, reported⟩ := Watch.follow_counts (bits.drop s.lc.watch.ahead) { s.lc.watch with ahead := 0 } left
  have full : (({ s.lc.watch with ahead := 0 } : Watch).follow (bits.drop s.lc.watch.ahead)).busyBits = 5000 := by
    rw [busy, List.length_drop]
    exact Nat.min_eq_left limit
  refine ⟨State.tally_stuck_reported full (reported.trans unreported), ?_, ?_⟩
  · rw [State.watchBits, State.tally_watch]
    exact full
  · rw [State.watchBits, State.tally_watch]
    simp [full, stuckBits]

/-- A period reported before the last bit of its frame is not reported with it. -/
theorem State.watchEnd_quiet {bits : List Bool} {b : Bool} (busy : (s.watchBits bits).lc.watch.busyBits = 5000)
    (reported : (s.watchBits bits).lc.watch.reported = true) :
    Reported (s.watchBits bits) (s.watchEnd (bits ++ [b])) [] := by
  have last : (bits ++ [b]).drop ((bits ++ [b]).length - 1) = [b] := by simp
  rw [State.watchEnd, List.dropLast_concat, last]
  refine State.tally_below_reported ?_
  obtain ⟨stands, -⟩ := Watch.follow_keeps [b] (s.watchBits bits).lc.watch
  rw [Watch.settle_false]
  split
  · exact Or.inl (by simp)
  · exact Or.inr (stands.trans reported)

theorem State.watchEnd_stands (s : State) (bits : List Bool) (b : Bool) :
    WatchStands (s.watchBits bits) (s.watchEnd (bits ++ [b]))
      (((s.watchBits bits).lc.watch.follow [b]).settle false) := by
  have last : (bits ++ [b]).drop ((bits ++ [b]).length - 1) = [b] := by simp
  rw [State.watchEnd, List.dropLast_concat, last]
  exact State.tally_stands _ _

/-- A tally of the watch as it stands changes nothing where nothing is due. -/
theorem State.tally_own (below : s.lc.watch.busyBits ≠ 5000 ∨ s.lc.watch.reported = true) : s.tally s.lc.watch = s :=
  State.tally_below below

end

/-! ### DISCARD and HUNT -/

section
variable {s : State}

/-- The states a receiver that samples bit by bit passes through. -/
def ReceiverState.sampling (x : ReceiverState) : Prop := x = .discard ∨ x = .hunt ∨ x = .header

theorem State.sampleBits_sampling (bits : List Bool) : ∀ {s : State}, s.lc.receiver.state.sampling →
    (s.sampleBits bits).lc.receiver.state.sampling := by
  induction bits with
  | nil => exact id
  | cons b rest ih =>
    intro s sampling
    refine ih ?_
    rw [State.sampleBit_receiver]
    split
    next takes => exact s.lc.receiver.sample_state b takes
    next => exact sampling

theorem ReceiverState.sampling.takes {x : ReceiverState} (sampling : x.sampling) (other : x ≠ .header) :
    x = .discard ∨ x = .hunt := by
  obtain discard | hunt | header := sampling
  · exact Or.inl discard
  · exact Or.inr hunt
  · exact absurd header other

/-- One more bit on a line that is not idle. -/
theorem State.sampleBits_snoc {bits : List Bool} {b : Bool}
    (takes : (s.sampleBits bits).lc.receiver.state = .discard ∨ (s.sampleBits bits).lc.receiver.state = .hunt)
    (watch : (s.sampleBits bits).lc.watch = s.lc.watch.follow bits) (short : (s.lc.watch.follow (bits ++ [b])).idleRun < 64) :
    s.sampleBits (bits ++ [b]) = ((s.sampleBits bits).setReceiver ((s.sampleBits bits).lc.receiver.sample b)).tally
      (s.lc.watch.follow (bits ++ [b])) := by
  have counted : (s.sampleBits bits).lc.watch.count b = s.lc.watch.follow (bits ++ [b]) := by
    rw [watch, Watch.follow_append]
    rfl
  have one : (s.sampleBits bits).sampleBits [b] = (s.sampleBits bits).sampleBit b := rfl
  rw [State.sampleBits_append, one, State.sampleBit, if_pos takes, counted]
  dsimp only
  rw [Watch.settle_of_short short]

/-- Bits taken below the limit of a busy period change the receiver and the watch alone. -/
theorem State.sampleBits_quiet (sampling : s.lc.receiver.state.sampling) (bits : List Bool) :
    s.lc.watch.busyBits + bits.length < 5000 →
    (∀ n, n ≤ bits.length → (s.lc.watch.follow (bits.take n)).idleRun < 64) →
    (∀ n, n < bits.length → (s.sampleBits (bits.take n)).lc.receiver.state ≠ .header) →
    s.sampleBits bits = { s with lc := { s.lc with
      receiver := (s.sampleBits bits).lc.receiver, watch := s.lc.watch.follow bits } } := by
  induction bits using snoc_induction with
  | nil => exact fun _ _ _ => rfl
  | snoc bits b ih =>
    intro below short frames
    rw [List.length_append, List.length_singleton] at below short frames
    have first := ih (by omega)
      (fun n le => by simpa [List.take_append_of_le_length le] using short n (by omega))
      (fun n lt => by simpa [List.take_append_of_le_length (Nat.le_of_lt lt)] using frames n (by omega))
    have other : (s.sampleBits bits).lc.receiver.state ≠ .header := by simpa using frames bits.length (by omega)
    have takes := (State.sampleBits_sampling bits sampling).takes other
    have watch : (s.sampleBits bits).lc.watch = s.lc.watch.follow bits := by rw [first]
    have room : (s.lc.watch.follow (bits ++ [b])).busyBits ≠ 5000 := by
      obtain ⟨-, busy, -⟩ := Watch.follow_counts (bits ++ [b]) s.lc.watch (by simp)
      rw [busy, List.length_append, List.length_singleton]
      omega
    have whole : (s.lc.watch.follow (bits ++ [b])).idleRun < 64 := by
      simpa [List.take_of_length_le] using short (bits.length + 1) (Nat.le_refl _)
    rw [State.sampleBits_snoc takes watch whole, State.tally_below (.inl room)]
    simp only [State.setReceiver, State.setLc_lc]
    rw [first]
    rfl

/-- The last bit before the limit reports the period. -/
theorem State.sampleBits_stuck (sampling : s.lc.receiver.state.sampling) {bits : List Bool} (some : bits ≠ [])
    (limit : s.lc.watch.busyBits + bits.length = 5000) (unreported : s.lc.watch.reported = false)
    (short : ∀ n, n ≤ bits.length → (s.lc.watch.follow (bits.take n)).idleRun < 64)
    (frames : ∀ n, n < bits.length → (s.sampleBits (bits.take n)).lc.receiver.state ≠ .header) :
    Reported s (s.sampleBits bits) [.lineStuck] ∧
      (s.sampleBits bits).lc.watch = { s.lc.watch.follow bits with reported := true } := by
  obtain ⟨bits, b, rfl⟩ := exists_snoc some
  obtain ⟨-, busy, reported⟩ := Watch.follow_counts (bits ++ [b]) s.lc.watch some
  rw [List.length_append, List.length_singleton] at limit short frames busy
  have quiet := State.sampleBits_quiet sampling bits (by omega)
    (fun n le => by simpa [List.take_append_of_le_length le] using short n (by omega))
    (fun n lt => by simpa [List.take_append_of_le_length (Nat.le_of_lt lt)] using frames n (by omega))
  have other : (s.sampleBits bits).lc.receiver.state ≠ .header := by simpa using frames bits.length (by omega)
  have takes := (State.sampleBits_sampling bits sampling).takes other
  have watch : (s.sampleBits bits).lc.watch = s.lc.watch.follow bits := by rw [quiet]
  have whole : (s.lc.watch.follow (bits ++ [b])).idleRun < 64 := by
    simpa [List.take_of_length_le] using short (bits.length + 1) (Nat.le_refl _)
  have full : (s.lc.watch.follow (bits ++ [b])).busyBits = 5000 := by
    rw [busy]
    omega
  have silent := reported.trans unreported
  rw [State.sampleBits_snoc takes watch whole]
  refine ⟨(State.tally_stuck_reported full silent).after ?_ ?_ ?_, ?_⟩
  · rw [quiet]
    rfl
  · rw [quiet]
    rfl
  · rw [quiet]
    rfl
  · rw [State.tally_watch]
    simp [full, stuckBits]

end

/-! ### BUSY_PERIOD_LIMIT -/

section
variable {s : State}

theorem exec_busyPeriodLimit_inFrame (started : s.started) (inFrame : s.lc.receiver.state.inFrame = true)
    (bits : List Bool) : exec (.busyPeriodLimit bits) s = .next (s.watchAhead bits) := by
  simp only [exec, execBusyPeriodLimit, if_pos (s.following_iff_started.2 started), if_pos inFrame]

theorem exec_busyPeriodLimit_outside (started : s.started) (outside : ¬ s.lc.receiver.state.inFrame = true)
    (bits : List Bool) : exec (.busyPeriodLimit bits) s =
      .next ((s.sampleBits bits).tally (s.sampleBits bits).lc.watch) := by
  simp only [exec, execBusyPeriodLimit, if_pos (s.following_iff_started.2 started), if_neg outside]

theorem State.watchAhead_nil (s : State) : s.watchAhead [] = s.tally s.lc.watch := by
  simp [State.watchAhead, Watch.follow]

/-- Where no bit is taken, the command looks at the watch as it stands. -/
theorem exec_busyPeriodLimit_tally (started : s.started) {bits : List Bool}
    (idle : bits = [] ∨ s.lc.receiver.state = .off ∨ s.lc.receiver.state = .suspended) :
    exec (.busyPeriodLimit bits) s = .next (s.tally s.lc.watch) := by
  by_cases inFrame : s.lc.receiver.state.inFrame = true
  · obtain rfl | off | suspended := idle
    · rw [exec_busyPeriodLimit_inFrame started inFrame, State.watchAhead_nil]
    · simp [off, ReceiverState.inFrame] at inFrame
    · simp [suspended, ReceiverState.inFrame] at inFrame
  · have stays : s.sampleBits bits = s := by
      obtain rfl | off | suspended := idle
      · rfl
      · exact s.sampleBits_elsewhere (by simp [off]) (by simp [off]) bits
      · exact s.sampleBits_elsewhere (by simp [suspended]) (by simp [suspended]) bits
    rw [exec_busyPeriodLimit_outside started inFrame, stays]

/-- The bits of a unit that the receiver is taking, in the words of the statement. -/
theorem Receiver.unitBits_of_inFrame {r : Receiver} (inFrame : r.state.inFrame = true) :
    r.unitBits = if r.state = .header then 40 else if r.remaining = 0 then 16 else 8 := by
  unfold Receiver.unitBits
  cases state : r.state <;> simp_all [ReceiverState.inFrame]

theorem State.watchAhead_short {bits : List Bool} (short : s.lc.watch.ahead + bits.length < s.lc.receiver.unitBits) :
    s.watchAhead bits =
      s.tally { s.lc.watch.follow bits with ahead := s.lc.watch.ahead + bits.length } := by
  have whole : bits.take (s.lc.receiver.unitBits - 1 - s.lc.watch.ahead) = bits := List.take_of_length_le (by omega)
  simp only [State.watchAhead, whole]

end

theorem exec_receiveByte_foreign {s : State} (more : s.lc.receiver.remaining ≠ 0) (foreign : s.lc.receiver.state = .foreign)
    (b : Byte) : exec (.receiveByte b) s = .next ((s.watchBits (byteBits b)).feedByte b) := by
  rw [exec_receiveByte more]
  simp only [foreign]

theorem exec_receiveByte_skips {s : State} (more : s.lc.receiver.remaining ≠ 0)
    (skips : s.lc.receiver.state = .skip ∨ s.lc.receiver.state = .lockout) (b : Byte) :
    exec (.receiveByte b) s = .next ((s.watchBits (byteBits b)).setReceiver
      { s.lc.receiver with remaining := s.lc.receiver.remaining - 1 }) := by
  rw [exec_receiveByte more]
  obtain skip | lockout := skips
  · simp only [skip]
  · simp only [lockout]

/-- The receiver takes no part in what is reported. -/
theorem Reported.setReceiver {s t : State} {ks : List ReportKind} (reported : Reported s t ks) (r : Receiver) :
    Reported s (t.setReceiver r) ks := reported

theorem byteBits_length (b : Byte) : (byteBits b).length = 8 := by simp [byteBits]

theorem checkBits_length (v : Digest) : (checkBits v).length = 16 := by
  simp [checkBits, toLe, byteBits_length]

/-- The check bits of a frame skipped bring the period to its limit before the last of them. -/
theorem State.watchEnd_stuck {s : State} {bits : List Bool} (some : bits ≠ []) (unreported : s.lc.watch.reported = false)
    (few : s.lc.watch.ahead < bits.length - 1)
    (limit : 5000 ≤ s.lc.watch.busyBits + (bits.length - 1 - s.lc.watch.ahead)) :
    Reported s (s.watchEnd bits) [.lineStuck] := by
  obtain ⟨bits, b, rfl⟩ := exists_snoc some
  rw [List.length_append, List.length_singleton, Nat.add_sub_cancel] at few limit
  obtain ⟨reported, busy, told⟩ := State.watchBits_stuck unreported few limit
  exact reported.append (State.watchEnd_quiet busy told)

/-- In reception the body bits counted ahead leave what the byte's own command makes of the watch. -/
theorem State.watchAhead_byte {s : State} (b : Byte) {n : Nat} (short : s.lc.watch.ahead + n < 8)
    (unit : s.lc.receiver.unitBits = 8) :
    let t := s.watchAhead (((byteBits b).drop s.lc.watch.ahead).take n)
    (t.watchBits (byteBits b)).lc.watch = (s.watchBits (byteBits b)).lc.watch ∧
      (t.watchBits (byteBits b)).ru.counts = (s.watchBits (byteBits b)).ru.counts :=
  State.watchAhead_watchBits s (byteBits b) n (by rwa [byteBits_length]) (by rw [unit, byteBits_length])

/-- Settles O33: the watch counts every bit time once, and what brings a period to its limit reports it. -/
theorem busyPeriodReportedOnce : Obligations.BusyPeriodReportedOnce := by
  refine ⟨fun lc => ?_, fun w bits some => ?_, Watch.settle_false, fun s bits => State.tally_stands _ _,
    State.watchEnd_stands, fun s b v skipping unreported => ⟨fun more few limit => ?_, fun last few limit => ?_⟩,
    fun s b i takes => ?_, fun s t bits started ran => ?_, fun s bits started idle limit unreported => ?_,
    fun s bits started takes some limit unreported short frames => ?_, fun s bits w started inFrame short stands => ?_,
    fun s b n started follows more short => ?_⟩
  · rw [Lc.lineIdle_iff, ← ReceiverState.inFrame_iff, Bool.not_eq_true]
  · obtain ⟨-, busy, reported⟩ := Watch.follow_counts bits w some
    exact ⟨busy, reported, fun long => Watch.follow_full long w, fun n zero few => Watch.follow_since zero few w⟩
  · obtain ⟨reported, -⟩ := State.watchBits_stuck (s := s) (bits := byteBits b) unreported few limit
    refine ⟨(s.watchBits (byteBits b)).setReceiver { s.lc.receiver with remaining := s.lc.receiver.remaining - 1 }, ?_,
      reported.setReceiver _⟩
    exact exec_receiveByte_skips more skipping b
  · have check : (checkBits v).length - 1 = 15 := by rw [checkBits_length]
    have reported := State.watchEnd_stuck (s := s) (bits := checkBits v) (List.ne_nil_of_length_pos (by simp [checkBits_length]))
      unreported (by rwa [check]) (by rwa [check])
    refine ⟨(s.watchEnd (checkBits v)).toHunt, ?_, reported.setReceiver _⟩
    rw [exec_frameEnd last]
    obtain skip | lockout := skipping
    · simp only [skip]
    · simp only [lockout]
  · have sampling : s.lc.receiver.state = .discard ∨ s.lc.receiver.state = .hunt := takes.imp And.left And.left
    have ran : exec i s = .next (s.sampleBit b) := by
      obtain ⟨discard, rfl⟩ | ⟨hunt, rfl⟩ := takes
      · exact if_pos discard
      · exact if_pos hunt
    obtain ⟨receiver, stands⟩ := s.sampleBit_stands b sampling
    have outside : (s.lc.receiver.sample b).state.inFrame = false ↔ (s.lc.receiver.sample b).state ≠ .header := by
      obtain h | h | h := s.lc.receiver.sample_state b sampling <;> simp [h, ReceiverState.inFrame]
    refine ⟨_, ran, ?_⟩
    simp only [Watch.settle_count, outside] at stands
    rw [receiver]
    exact stands
  · by_cases discard : s.lc.receiver.state = .discard
    · rw [if_pos discard] at ran
      obtain rfl : s.sampleBits bits = t := by simpa [exec, execDiscardEnd, discard] using ran
      exact ⟨_, exec_busyPeriodLimit_outside started (by simp [discard, ReceiverState.inFrame]) bits, State.tally_stands _ _⟩
    · rw [if_neg discard] at ran
      by_cases hunt : s.lc.receiver.state = .hunt
      · rw [if_pos hunt] at ran
        obtain rfl : s.sampleBits bits = t := by simpa [exec, execStartMark, hunt] using ran
        exact ⟨_, exec_busyPeriodLimit_outside started (by simp [hunt, ReceiverState.inFrame]) bits, State.tally_stands _ _⟩
      · rw [if_neg hunt] at ran
        obtain ⟨rfl, idle⟩ := ran
        exact ⟨_, exec_busyPeriodLimit_tally started idle, State.tally_stands _ _⟩
  · rw [exec_busyPeriodLimit_tally started idle, State.tally_stuck limit unreported]
  · have sampling : s.lc.receiver.state = .discard ∨ s.lc.receiver.state = .hunt := by simpa using takes
    have outside : ¬ s.lc.receiver.state.inFrame = true := by
      obtain h | h := sampling <;> simp [h, ReceiverState.inFrame]
    obtain ⟨reported, watch⟩ := State.sampleBits_stuck (sampling.imp id .inl) some limit unreported short frames
    refine ⟨s.sampleBits bits, ?_, reported, watch, rfl, State.sampleBits_receiverOnly s bits⟩
    rw [exec_busyPeriodLimit_outside started outside, State.tally_own (.inr (by rw [watch]))]
  · have inFrame' := (ReceiverState.inFrame_iff _).2 inFrame
    refine ⟨_, exec_busyPeriodLimit_inFrame started inFrame' bits, ?_⟩
    rw [State.watchAhead_short (by rwa [Receiver.unitBits_of_inFrame inFrame']), stands]
    exact State.tally_stands _ _
  · have inFrame : s.lc.receiver.state.inFrame = true :=
      (ReceiverState.inFrame_iff _).2 (List.mem_cons_of_mem _ (List.mem_cons_of_mem _ follows))
    have other : s.lc.receiver.state ≠ .header := fun header => by simp [header] at follows
    have unit : s.lc.receiver.unitBits = 8 := by
      rw [Receiver.unitBits_of_inFrame inFrame, if_neg other, if_neg more]
    obtain ⟨watch, counts⟩ := s.watchAhead_byte b short unit
    have receiver : (s.watchAhead (((byteBits b).drop s.lc.watch.ahead).take n)).lc.receiver = s.lc.receiver := by simp
    generalize ahead : s.watchAhead (((byteBits b).drop s.lc.watch.ahead).take n) = t at watch counts receiver
    have ran : exec (.busyPeriodLimit (((byteBits b).drop s.lc.watch.ahead).take n)) s = .next t :=
      ahead ▸ exec_busyPeriodLimit_inFrame started inFrame _
    simp only [List.mem_cons, List.not_mem_nil, or_false] at follows
    obtain foreign | skips := follows
    · refine ⟨t, _, _, ran, exec_receiveByte_foreign (by rwa [receiver]) (by rwa [receiver]) b,
        exec_receiveByte_foreign more foreign b, ?_⟩
      simp [State.feedByte, State.setReceiver, watch, counts, receiver]
    · refine ⟨t, _, _, ran, exec_receiveByte_skips (by rwa [receiver]) (by rwa [receiver]) b,
        exec_receiveByte_skips more skips b, ?_⟩
      simp [State.setReceiver, watch, counts, receiver]

end Sys2Proof.Machine
end

