-- ==== Sys2Proof/Proofs/BoardFrames.lean ====
section
/-! SUPPORT. The frames the part sends, read back by the reception's own readers: the header, the body and the check of
a board notice (R2, R4, R11, R12, R33). -/

namespace Sys2Proof.Machine

/-! ### Fields of a body -/

theorem byteAt_append_right (front body : List Byte) (i : Nat) : byteAt (front ++ body) (front.length + i) = byteAt body i := by
  rw [byteAt, List.getD_eq_getElem?_getD, List.getElem?_append_right (Nat.le_add_right _ _), Nat.add_sub_cancel_left,
    ← List.getD_eq_getElem?_getD, byteAt]

theorem leNat_toLe_of_lt {k n : Nat} (bound : n < 256 ^ k) : leNat (toLe k n) = n := by
  rw [leNat_toLe, Nat.mod_eq_of_lt bound]

theorem ofNat_leNat_toLe_pace (p : Pace) : BitVec.ofNat 32 (leNat (toLe 4 p.toNat)) = p := by
  rw [leNat_toLe_of_lt p.isLt, BitVec.ofNat_toNat, BitVec.setWidth_eq]

theorem leNat_toLe_digest (d : Digest) : leNat (toLe 2 d.toNat) = d.toNat := leNat_toLe_of_lt d.isLt

theorem toNat_ofNat_of_le {n : Nat} (bound : n ≤ 255) : (BitVec.ofNat 8 n).toNat = n := by
  rw [BitVec.toNat_ofNat]
  exact Nat.mod_eq_of_lt (by omega)

/-! ### Bodies of board notices (R11, R12) -/

/-- The body length of each kind of board notice (R3). -/
def BoardNotice.bodyLength : BoardNotice → Nat
  | .digest _ _ _ _ _ _ => 16
  | .pace _ => 5
  | .status _ _ => 55

section
variable {n : BoardNotice} (inRange : n.InRange) (pace : Pace)
include inRange

theorem BoardNotice.length_body : (n.body pace).length = n.bodyLength := by
  cases n with
  | digest => rfl
  | pace => rfl
  | status segment r =>
    obtain ⟨-, nineteen, -⟩ := inRange
    rw [BoardNotice.status_body]
    simp [-List.length_flatMap, StatusReport.length_front, StatusReport.back, length_flatMap_toLe, nineteen, BoardNotice.bodyLength]

end

theorem BoardNotice.paceAt_body (n : BoardNotice) (pace : Pace) : paceAt (n.body pace) 1 = pace := by
  cases n <;> exact ofNat_leNat_toLe_pace pace

theorem BoardNotice.countsAgree_body (n : BoardNotice) (pace : Pace) : countsAgree n.kind (n.body pace) = true := by
  cases n <;> rfl

theorem NodeState.code_le (x : NodeState) : x.code.toNat ≤ 3 := by cases x <;> decide

theorem AgreementState.code_le (x : AgreementState) : x.code.toNat ≤ 3 := by cases x <;> decide

theorem Source.code_le (x : Source) : x.code.toNat ≤ 1 := by cases x <;> decide

section
variable {segment : Nat} {r : StatusReport} (nineteen : r.counts.length = 19) (pace : Pace)
include nineteen

/-- The three last bytes of a STATUS body. -/
theorem BoardNotice.status_body_back (i : Nat) :
    byteAt ((BoardNotice.status segment r).body pace) (52 + i) = byteAt r.back i := by
  have length : (r.front segment pace ++ (toLe 3 r.pendingKinds.toNat ++ (r.counts.flatMap (toLe 2) ++
      toLe 2 r.geometryCut))).length = 52 := by
    simp [-List.length_flatMap, StatusReport.length_front, length_flatMap_toLe, nineteen]
  have back := byteAt_append_right (r.front segment pace ++ (toLe 3 r.pendingKinds.toNat ++ (r.counts.flatMap (toLe 2) ++
    toLe 2 r.geometryCut))) r.back i
  rw [length] at back
  rw [BoardNotice.status_body, ← back]
  simp only [List.append_assoc]

end

/-- The last byte of the pending field holds the kinds 16 to 18. -/
theorem BoardNotice.status_body_pendingTop (segment : Nat) (r : StatusReport) (pace : Pace) :
    num1 ((BoardNotice.status segment r).body pace) 11 ≤ 7 := by
  have top : num1 ((BoardNotice.status segment r).body pace) 11 =
      (BitVec.ofNat 8 (r.pendingKinds.toNat / 256 / 256)).toNat := rfl
  have bound := r.pendingKinds.isLt
  rw [top, BitVec.toNat_ofNat]
  omega

/-- Every field of the body of a board notice reads back. -/
theorem BoardNotice.readBack {n : BoardNotice} (inRange : n.InRange) (pace : Pace) : n.ReadBack (n.body pace) := by
  cases n with
  | digest segment number value origin rows width =>
    obtain ⟨low, -, few, -, narrow⟩ := inRange
    refine ⟨toNat_ofNat_of_le (by omega), leNat_toLe_digest number, ?_, toNat_ofNat_of_le (by omega),
      leNat_toLe_of_lt (k := 2) (Nat.lt_of_le_of_lt narrow (by decide))⟩
    have digest : num2 ((BoardNotice.digest segment number value origin rows width).body pace) 7 = value.toNat :=
      leNat_toLe_digest value
    have from_ : paceAt ((BoardNotice.digest segment number value origin rows width).body pace) 9 = origin :=
      ofNat_leNat_toLe_pace origin
    rw [digestFields, digest, from_, BitVec.ofNat_toNat, BitVec.setWidth_eq]
  | pace segment => exact toNat_ofNat_of_le (Nat.le_trans inRange (by decide))
  | status segment r =>
    obtain ⟨low, nineteen, counts, cut, feeders⟩ := inRange
    refine ⟨toNat_ofNat_of_le (by omega), rfl, rfl, leNat_toLe_digest r.shownDigest,
      BoardNotice.status_body_pendingKinds segment r pace, fun k inside => ?_, ?_,
      BoardNotice.status_body_back nineteen pace 0, BoardNotice.status_body_back nineteen pace 1, ?_⟩
    · have listed : k < r.counts.length := nineteen ▸ inside
      have bound : r.counts.getD k 0 ≤ 65535 := by
        rw [← List.getElem_eq_getD (h := listed)]
        exact counts _ (List.getElem_mem listed)
      rw [BoardNotice.status_body_count segment r pace listed]
      exact Nat.mod_eq_of_lt (Nat.lt_succ_of_le bound)
    · have cutField := BoardNotice.status_body_geometryCut segment r pace
      rw [nineteen] at cutField
      exact cutField.trans (Nat.mod_eq_of_lt (Nat.lt_succ_of_le cut))
    · rw [num1, BoardNotice.status_body_back nineteen pace 2]
      exact toNat_ofNat_of_le (by omega)

/-- The body of a board notice in its ranges is well-formed. -/
theorem BoardNotice.boardNoticeOk_body {n : BoardNotice} (inRange : n.InRange) (pace : Pace) :
    boardNoticeOk n.kind (n.body pace) = true := by
  have read := BoardNotice.readBack inRange pace
  cases n with
  | digest segment number value origin rows width =>
    obtain ⟨index, -, -, rowCount, boardWidth⟩ := read
    obtain ⟨low, two, eight, one, narrow⟩ := inRange
    simp [boardNoticeOk, BoardNotice.kind, index, rowCount, boardWidth, low, two, eight, one, narrow]
  | pace segment =>
    have index : num1 ((BoardNotice.pace segment).body pace) 0 = segment := read
    have low : segment ≤ 7 := inRange
    simp [boardNoticeOk, BoardNotice.kind, index, low]
  | status segment r =>
    obtain ⟨index, node, agreement, -, -, -, -, profile, font, known⟩ := read
    obtain ⟨low, -, -, -, feeders⟩ := inRange
    have top := BoardNotice.status_body_pendingTop segment r pace
    have node' : num1 ((BoardNotice.status segment r).body pace) 5 ≤ 3 := by
      rw [num1, node]
      exact r.node.code_le
    have agreement' : num1 ((BoardNotice.status segment r).body pace) 6 ≤ 3 := by
      rw [num1, agreement]
      exact r.agreement.code_le
    have profile' : num1 ((BoardNotice.status segment r).body pace) 52 ≤ 1 := by
      rw [num1, profile]
      exact r.profileSource.code_le
    have font' : num1 ((BoardNotice.status segment r).body pace) 53 ≤ 1 := by
      rw [num1, font]
      exact r.fontSource.code_le
    simp [boardNoticeOk, BoardNotice.kind, index, low, node', agreement', top, profile', font', known, feeders]

/-! ### Frames (R2, R4, R33) -/

/-- The bytes the check of a frame covers. -/
def coveredBytes (n : BoardNotice) (pace : Pace) (node group : Nat) : List Byte :=
  [n.code, BitVec.ofNat 8 node, BitVec.ofNat 8 group, 0, BitVec.ofNat 8 (n.body pace).length] ++ n.body pace

theorem frameBytes_eq (n : BoardNotice) (pace : Pace) (node group : Nat) : frameBytes n pace node group =
    coveredBytes n pace node group ++ toLe 2 (crcValue (coveredBytes n pace node group)).toNat := rfl

theorem headerOf_frameBytes (n : BoardNotice) (pace : Pace) (node group : Nat) :
    headerOf (frameBytes n pace node group) =
      ⟨n.code, BitVec.ofNat 8 node, BitVec.ofNat 8 group, 0, BitVec.ofNat 8 (n.body pace).length⟩ := rfl

theorem drop_frameBytes (n : BoardNotice) (pace : Pace) (node group : Nat) : (frameBytes n pace node group).drop 5 =
    n.body pace ++ toLe 2 (crcValue (coveredBytes n pace node group)).toNat := rfl

/-- The header of a board notice passes, with the notice's kind. -/
theorem BoardNotice.examine_header {n : BoardNotice} {node group : Nat} (sender : 1 ≤ node ∧ node ≤ 62)
    (addressed : 1 ≤ group ∧ group ≤ 15) :
    Header.examine ⟨n.code, BitVec.ofNat 8 node, BitVec.ofNat 8 group, 0, BitVec.ofNat 8 n.bodyLength⟩ = some n.kind := by
  rw [Header.examine_iff]
  have node' : (BitVec.ofNat 8 node).toNat = node := toNat_ofNat_of_le (by omega)
  have group' : (BitVec.ofNat 8 group).toNat = group := toNat_ofNat_of_le (by omega)
  rw [node', group', NoticeKind.groupOk_iff]
  refine ⟨?_, sender, ?_, ?_⟩
  · cases n <;> rfl
  · cases n <;> simp [BoardNotice.kind, addressed]
  · cases n <;> rfl

/-- Settles O21: the body reads back field by field, and the frame is the header, the body and the check over both. -/
theorem boardFramesReadBack : Obligations.BoardFramesReadBack := by
  intro n pace node group inRange node_low node_high group_low group_high
  have length := BoardNotice.length_body inRange pace
  have small : n.bodyLength ≤ 55 := by cases n <;> simp [BoardNotice.bodyLength]
  have lengthByte : (BitVec.ofNat 8 (n.body pace).length).toNat = (n.body pace).length := toNat_ofNat_of_le (by omega)
  have body : ((frameBytes n pace node group).drop 5).take (n.body pace).length = n.body pace := by
    rw [drop_frameBytes, List.take_left']
    rfl
  have covered : (coveredBytes n pace node group).length = 5 + (n.body pace).length := by
    rw [coveredBytes, List.length_append]
    rfl
  simp only [headerOf_frameBytes, lengthByte, body]
  refine ⟨length ▸ BoardNotice.examine_header ⟨node_low, node_high⟩ ⟨group_low, group_high⟩,
    toNat_ofNat_of_le (by omega), toNat_ofNat_of_le (by omega), trivial, ?_, ?_, BoardNotice.boardNoticeOk_body inRange pace,
    n.countsAgree_body pace, n.paceAt_body pace, BoardNotice.readBack inRange pace⟩
  · rw [frameBytes_eq, List.length_append, covered, length_toLe]
  · rw [num2_eq_numN, frameBytes_eq, ← covered, ← Nat.add_zero (List.length _), numN_append_right,
      ← List.append_nil (toLe 2 _), numN_toLe_append]
    exact Nat.mod_eq_of_lt (BitVec.isLt _)

end Sys2Proof.Machine
end

