-- ==== Sys2Proof/Proofs/StartMarks.lean ====
section
/-! SUPPORT. The look for a start mark, bit by bit: alternating runs, the mark after them, and the receiver in DISCARD and
HUNT (R16). -/

namespace Sys2Proof.Machine

/-! ### Alternating bits -/

/-- No bit equals the one before it. -/
def Alternates (l : List Bool) : Prop := ∀ i, i + 1 < l.length → l[i]? ≠ l[i + 1]?

theorem alternates_nil : Alternates [] := fun _ inside => absurd inside (by simp)

theorem Alternates.of_append {l m : List Bool} (alternates : Alternates (l ++ m)) : Alternates l := by
  intro i inside
  have whole := alternates i (by rw [List.length_append]; omega)
  rwa [List.getElem?_append_left (by omega), List.getElem?_append_left inside] at whole

/-- One more bit, where it differs from the last one. -/
theorem alternates_snoc {l : List Bool} {b : Bool} : Alternates (l ++ [b]) ↔ Alternates l ∧ l.getLast? ≠ some b := by
  constructor
  · refine fun alternates => ⟨alternates.of_append, fun last => ?_⟩
    obtain ⟨before, rfl⟩ := List.getLast?_eq_some_iff.1 last
    refine alternates before.length (by simp) ?_
    simp
  · rintro ⟨alternates, other⟩ i inside
    rw [List.length_append, List.length_singleton] at inside
    by_cases within : i + 1 < l.length
    · rw [List.getElem?_append_left (by omega), List.getElem?_append_left within]
      exact alternates i within
    · have last : i = l.length - 1 := by omega
      have next : (l ++ [b])[i + 1]? = some b := by
        rw [List.getElem?_append_right (by omega), show i + 1 - l.length = 0 by omega]
        rfl
      rw [next, List.getElem?_append_left (by omega), last, ← List.getLast?_eq_getElem?]
      exact other

/-- Alternating bits go on as long as one likes. -/
theorem Alternates.extend {l : List Bool} (alternates : Alternates l) : ∀ n, ∃ more : List Bool,
    more.length = n ∧ Alternates (l ++ more)
  | 0 => ⟨[], rfl, by simpa using alternates⟩
  | n + 1 => by
    obtain ⟨more, length, goes⟩ := alternates.extend n
    refine ⟨more ++ [!(l ++ more).getLast?.getD true], by simp [length], ?_⟩
    rw [← List.append_assoc]
    refine alternates_snoc.2 ⟨goes, ?_⟩
    cases (l ++ more).getLast? with
    | none => simp
    | some x => cases x <;> simp

/-- Alternating bits may be the beginning of a start pattern. -/
theorem Alternates.begins {l : List Bool} (alternates : Alternates l) : BeginsPattern l := by
  obtain ⟨more, length, goes⟩ := alternates.extend 8
  have some : (l ++ more).getLast? ≠ none := by
    rw [Ne, List.getLast?_eq_none_iff]
    exact List.ne_nil_of_length_pos (by rw [List.length_append]; omega)
  obtain ⟨x, last⟩ := Option.ne_none_iff_exists'.1 some
  cases x with
  | false =>
    exact ⟨more ++ [false, false, true, true], l ++ more, by rw [List.length_append]; omega, goes, last, by simp⟩
  | true =>
    refine ⟨more ++ [false] ++ [false, false, true, true], l ++ more ++ [false], ?_,
      alternates_snoc.2 ⟨goes, by simp [last]⟩, by simp, by simp⟩
    simp only [List.length_append]
    omega

/-! ### The look over several bits -/

/-- The look after some bits, or none where one of them completes the start mark. -/
def Hunt.feed (h : Hunt) : List Bool → Option Hunt
  | [] => some h
  | b :: rest => (h.next b).bind fun x => x.feed rest

theorem Hunt.feed_append (a b : List Bool) : ∀ h : Hunt, h.feed (a ++ b) = (h.feed a).bind fun x => x.feed b := by
  induction a with
  | nil => exact fun _ => rfl
  | cons x rest ih =>
    intro h
    simp only [List.cons_append, Hunt.feed, Option.bind_assoc]
    congr 1
    exact funext ih

theorem Hunt.feed_snoc {h x : Hunt} {bits : List Bool} (fed : h.feed bits = some x) (b : Bool) :
    h.feed (bits ++ [b]) = x.next b := by
  rw [Hunt.feed_append, fed]
  show (x.next b).bind some = x.next b
  cases x.next b <;> rfl

/-- The look at the beginning, counting alternating bits. -/
theorem Hunt.feed_alternating {l : List Bool} : Alternates l →
    Hunt.fresh.feed l = some ⟨min 8 l.length, l.getLast?.getD false, 0⟩ := by
  induction l using snoc_induction with
  | nil => exact fun _ => rfl
  | snoc l b ih =>
    intro alternates
    obtain ⟨before, other⟩ := alternates_snoc.1 alternates
    rw [Hunt.feed_snoc (ih before)]
    have goesOn : min 8 l.length = 0 ∨ b ≠ l.getLast?.getD false := by
      cases last : l.getLast? with
      | none => simp [List.getLast?_eq_none_iff.1 last]
      | some x => exact Or.inr fun same => other (by rw [last, same]; rfl)
    simp only [Hunt.next, if_pos goesOn]
    simp only [List.length_append, List.length_singleton, List.getLast?_append, List.getLast?_singleton]
    congr 2
    omega

/-- A run long enough for the mark: alternating bits, 8 or more, the last a 0. -/
structure MarkRun (run : List Bool) : Prop where
  long : 8 ≤ run.length
  alternates : Alternates run
  last : run.getLast? = some false

theorem startPattern_iff (bits : List Bool) :
    StartPattern bits ↔ ∃ run, MarkRun run ∧ bits = run ++ [false, false, true, true] :=
  ⟨fun ⟨run, long, alternates, last, is⟩ => ⟨run, ⟨long, alternates, last⟩, is⟩,
    fun ⟨run, ⟨long, alternates, last⟩, is⟩ => ⟨run, long, alternates, last, is⟩⟩

section
variable {run : List Bool} (mark : MarkRun run)
include mark

theorem MarkRun.feed : Hunt.fresh.feed run = some ⟨8, false, 0⟩ := by
  rw [Hunt.feed_alternating mark.alternates, mark.last, Nat.min_eq_left mark.long]
  rfl

/-- The bits of the mark after its run. -/
theorem MarkRun.feed_mark : Hunt.fresh.feed (run ++ [false]) = some ⟨8, false, 1⟩ ∧
    Hunt.fresh.feed (run ++ [false, false]) = some ⟨8, false, 2⟩ ∧
    Hunt.fresh.feed (run ++ [false, false, true]) = some ⟨8, false, 3⟩ ∧
    Hunt.fresh.feed (run ++ [false, false, true, true]) = none := by
  simp only [Hunt.feed_append, mark.feed]
  decide

end

/-- The bits before a start mark is complete: alternating bits, or a run and the first bits of the mark. -/
theorem BeginsPattern.cases {bits : List Bool} (begins : BeginsPattern bits) (incomplete : ¬ StartPattern bits) :
    Alternates bits ∨ ∃ run, MarkRun run ∧
      (bits = run ++ [false] ∨ bits = run ++ [false, false] ∨ bits = run ++ [false, false, true]) := by
  obtain ⟨more, pattern⟩ := begins
  obtain ⟨run, mark, whole⟩ := (startPattern_iff _).1 pattern
  obtain ⟨left, rfl, -⟩ | ⟨part, rfl, is⟩ := List.append_eq_append_iff.1 whole
  · exact Or.inl mark.alternates.of_append
  · have taken : part = [false, false, true, true].take part.length := by rw [is, List.take_left]
    have short : part.length ≤ 4 := by
      have := congrArg List.length is
      simp at this
      omega
    have lengths : part.length = 0 ∨ part.length = 1 ∨ part.length = 2 ∨ part.length = 3 ∨ part.length = 4 := by omega
    obtain length | length | length | length | length := lengths <;> rw [length] at taken <;> subst taken
    · exact Or.inl (by simpa using mark.alternates)
    · exact Or.inr ⟨run, mark, .inl rfl⟩
    · exact Or.inr ⟨run, mark, .inr (.inl rfl)⟩
    · exact Or.inr ⟨run, mark, .inr (.inr rfl)⟩
    · exact absurd ((startPattern_iff _).2 ⟨run, mark, rfl⟩) incomplete

/-- A run with the first bits of the mark may be the beginning of a start pattern. -/
theorem MarkRun.begins {run part more : List Bool} (mark : MarkRun run) (is : part ++ more = [false, false, true, true]) :
    BeginsPattern (run ++ part) :=
  ⟨more, (startPattern_iff _).2 ⟨run, mark, by rw [List.append_assoc, is]⟩⟩

/-- While bits may be the beginning of a start pattern, the look goes on; a bit with which they are none any more
is the first of a new look. -/
theorem BeginsPattern.feed {bits : List Bool} (begins : BeginsPattern bits) (incomplete : ¬ StartPattern bits) :
    ∃ h, Hunt.fresh.feed bits = some h ∧
      ∀ b, ¬ BeginsPattern (bits ++ [b]) → h.next b = some (.afresh b) := by
  obtain alternates | ⟨run, mark, rfl | rfl | rfl⟩ := begins.cases incomplete
  · refine ⟨_, Hunt.feed_alternating alternates, fun b broken => ?_⟩
    have repeats : bits.getLast? = some b := by
      refine Decidable.byContradiction fun other => ?_
      exact broken (alternates_snoc.2 ⟨alternates, other⟩).begins
    have some_bits : bits.length ≠ 0 := fun none => by simp [List.length_eq_zero_iff.1 none] at repeats
    have still : ¬ (min 8 bits.length = 0 ∨ b ≠ bits.getLast?.getD false) := by
      rw [repeats]
      simp [some_bits]
    have no_mark : ¬ (min 8 bits.length = 8 ∧ b = false) := by
      rintro ⟨long, rfl⟩
      exact broken (MarkRun.begins (more := [false, true, true]) ⟨by omega, alternates, repeats⟩ rfl)
    simp only [Hunt.next, if_neg still, if_neg no_mark]
  · refine ⟨_, mark.feed_mark.1, fun b broken => ?_⟩
    cases b with
    | true => rfl
    | false =>
      refine absurd ?_ broken
      rw [List.append_assoc]
      exact mark.begins (more := [true, true]) rfl
  · refine ⟨_, mark.feed_mark.2.1, fun b broken => ?_⟩
    cases b with
    | false => rfl
    | true =>
      refine absurd ?_ broken
      rw [List.append_assoc]
      exact mark.begins (more := [true]) rfl
  · refine ⟨_, mark.feed_mark.2.2.1, fun b broken => ?_⟩
    cases b with
    | false => rfl
    | true =>
      refine absurd ?_ broken
      rw [List.append_assoc]
      exact mark.begins (more := []) rfl

/-! ### The receiver in DISCARD and HUNT -/

section
variable {s : State}

theorem exec_discardEnd (discard : s.lc.receiver.state = .discard) (bits : List Bool) :
    exec (.discardEnd bits) s = .next (s.sampleBits bits) := if_pos discard

theorem exec_startMark (hunt : s.lc.receiver.state = .hunt) (bits : List Bool) :
    exec (.startMark bits) s = .next (s.sampleBits bits) := if_pos hunt

/-- The receiver after bits depends on the receiver before them alone. -/
theorem State.sampleBits_receiver_congr (bits : List Bool) : ∀ {s t : State}, t.lc.receiver = s.lc.receiver →
    (t.sampleBits bits).lc.receiver = (s.sampleBits bits).lc.receiver := by
  induction bits with
  | nil => exact id
  | cons b rest ih =>
    intro s t same
    exact ih (by rw [State.sampleBit_receiver, State.sampleBit_receiver, same])

/-- In HUNT the look alone goes on until a bit completes the mark. -/
theorem State.sampleBit_hunt (hunt : s.lc.receiver.state = .hunt) {h : Hunt} {b : Bool}
    (next : s.lc.receiver.hunt.next b = some h) :
    (s.sampleBit b).lc.receiver = { s.lc.receiver with hunt := h } := by
  rw [State.sampleBit_receiver, if_pos (.inr hunt)]
  simp only [Receiver.sample, hunt, next]

theorem State.sampleBit_mark (hunt : s.lc.receiver.state = .hunt) {b : Bool} (next : s.lc.receiver.hunt.next b = none) :
    (s.sampleBit b).lc.receiver = { s.lc.receiver with
      state := .header, headerRegister := .cleared, checkRegister := crcStart } := by
  rw [State.sampleBit_receiver, if_pos (.inr hunt)]
  simp only [Receiver.sample, hunt, next]

theorem State.sampleBits_hunt (bits : List Bool) : ∀ {s : State} {h : Hunt}, s.lc.receiver.state = .hunt →
    s.lc.receiver.hunt.feed bits = some h → (s.sampleBits bits).lc.receiver = { s.lc.receiver with hunt := h } := by
  induction bits with
  | nil =>
    intro s h _ fed
    obtain rfl : s.lc.receiver.hunt = h := Option.some.inj fed
    rfl
  | cons b rest ih =>
    intro s h hunt fed
    obtain ⟨x, next, fed⟩ := Option.bind_eq_some_iff.1 fed
    have one := State.sampleBit_hunt hunt next
    rw [State.sampleBits_cons, ih (by rw [one]; exact hunt) (by rw [one]; exact fed), one]

/-- A receiver in HUNT or HEADER, where bits do not lead back to DISCARD. -/
theorem State.sampleBits_past_discard (bits : List Bool) : ∀ {s : State},
    s.lc.receiver.state = .hunt ∨ s.lc.receiver.state = .header →
    (s.sampleBits bits).lc.receiver.state = .hunt ∨ (s.sampleBits bits).lc.receiver.state = .header := by
  induction bits with
  | nil => exact id
  | cons b rest ih =>
    rintro s (hunt | header)
    · rw [State.sampleBits_cons]
      refine ih ?_
      cases next : s.lc.receiver.hunt.next b with
      | some h => exact Or.inl (by rw [State.sampleBit_hunt hunt next]; exact hunt)
      | none => exact Or.inr (by rw [State.sampleBit_mark hunt next])
    · rw [State.sampleBits_elsewhere s (by simp [header]) (by simp [header])]
      exact Or.inr header

/-- After a start pattern the receiver is in HEADER, with the header register and the check register set. -/
theorem StartPattern.receiver {bits : List Bool} (pattern : StartPattern bits) (hunt : s.lc.receiver.state = .hunt)
    (fresh : s.lc.receiver.hunt = .fresh) : (s.sampleBits bits).lc.receiver = { s.lc.receiver with
      state := .header, headerRegister := .cleared, checkRegister := crcStart, hunt := ⟨8, false, 3⟩ } := by
  obtain ⟨run, mark, rfl⟩ := (startPattern_iff bits).1 pattern
  obtain ⟨-, -, fed, -⟩ := mark.feed_mark
  have before := State.sampleBits_hunt (run ++ [false, false, true]) hunt (h := ⟨8, false, 3⟩) (by rw [fresh]; exact fed)
  have whole : run ++ [false, false, true, true] = (run ++ [false, false, true]) ++ [true] := by simp
  rw [whole, State.sampleBits_append]
  refine (State.sampleBit_mark (by rw [before]; exact hunt) (by rw [before]; rfl)).trans ?_
  rw [before]

/-- Bits that begin a start pattern, then one that breaks it: the receiver is where it would be after that one alone. -/
theorem BeginsPattern.broken {bits : List Bool} {b : Bool} (begins : BeginsPattern bits)
    (incomplete : ¬ StartPattern bits) (broken : ¬ BeginsPattern (bits ++ [b])) (hunt : s.lc.receiver.state = .hunt)
    (fresh : s.lc.receiver.hunt = .fresh) :
    ((s.sampleBits bits).sampleBit b).lc.receiver = (s.sampleBit b).lc.receiver := by
  obtain ⟨h, fed, breaks⟩ := begins.feed incomplete
  have before := State.sampleBits_hunt bits hunt (h := h) (by rw [fresh]; exact fed)
  have alone : s.lc.receiver.hunt.next b = some (.afresh b) := by
    rw [fresh]
    rfl
  rw [State.sampleBit_hunt hunt alone,
    State.sampleBit_hunt (by rw [before]; exact hunt) (by rw [before]; exact breaks b broken), before]

end

/-- Settles O26: DISCARD counts, bits in two parts act as in a row, and HUNT follows the pattern bit by bit. -/
theorem discardAndHuntFollowTheLine : Obligations.DiscardAndHuntFollowTheLine := by
  refine ⟨fun s discard few => ⟨?_, ?_⟩, fun s t a b => ⟨fun discard ran => ?_, fun hunt ran => ?_⟩,
    fun s bits hunt fresh => ⟨fun pattern => ?_, fun begins incomplete => ⟨?_, fun b broken rest t u first second => ?_⟩⟩⟩
  · refine ⟨_, exec_discardEnd discard _, ?_, State.sampleBits_receiverOnly s [false]⟩
    show (s.sampleBit false).lc.receiver = _
    rw [State.sampleBit_receiver, if_pos (.inl discard)]
    simp [Receiver.sample, discard]
  · have one : (s.sampleBits [true]).lc.receiver = s.lc.receiver.sample true := by
      show (s.sampleBit true).lc.receiver = _
      rw [State.sampleBit_receiver, if_pos (.inl discard)]
    refine ⟨_, exec_discardEnd discard _, State.sampleBits_receiverOnly s [true], fun below => ?_, fun reached => ?_⟩
    · rw [one]
      simp [Receiver.sample, discard, Nat.not_le.2 below]
    · rw [one]
      simp [Receiver.sample, discard, reached, Hunt.fresh]
  · rw [exec_discardEnd discard] at ran ⊢
    obtain rfl : s.sampleBits a = t := by simpa using ran
    rw [State.sampleBits_append]
    split
    next stays => rw [exec_discardEnd stays]
    next left =>
      split
      next hunts => rw [exec_startMark hunts]
      next elsewhere => rw [State.sampleBits_elsewhere _ left elsewhere]
  · rw [exec_startMark hunt] at ran ⊢
    obtain rfl : s.sampleBits a = t := by simpa using ran
    rw [State.sampleBits_append]
    split
    next stays => rw [exec_startMark stays]
    next left =>
      have header := (State.sampleBits_past_discard a (Or.inl hunt)).resolve_left left
      rw [State.sampleBits_elsewhere _ (by simp [header]) left]
  · refine ⟨_, exec_startMark hunt bits, State.sampleBits_receiverOnly s bits, ?_⟩
    rw [pattern.receiver hunt fresh]
    rfl
  · obtain ⟨h, fed, -⟩ := begins.feed incomplete
    have receiver := State.sampleBits_hunt bits hunt (h := h) (by rw [fresh]; exact fed)
    refine ⟨_, exec_startMark hunt bits, State.sampleBits_receiverOnly s bits, ?_⟩
    rw [receiver]
  · rw [exec_startMark hunt] at first second
    obtain rfl : s.sampleBits (bits ++ b :: rest) = t := by simpa using first
    obtain rfl : s.sampleBits (b :: rest) = u := by simpa using second
    rw [State.sampleBits_append, State.sampleBits_cons, State.sampleBits_cons]
    exact State.sampleBits_receiver_congr rest (begins.broken incomplete broken hunt fresh)

end Sys2Proof.Machine
end

