-- ==== Sys2Proof/Proofs/EntryToRun.lean ====
section
/-! SUPPORT. The entry to RUN: the start-up kinds, the interval timers they start and those of other pending kinds, and
the expiries of length 0 after each (R185, R186, R197, log entry 9). -/

namespace Sys2Proof.Machine

/-! ### The expiries of length 0 (R181) -/

/-- An expiry of length 0 stops its own timer. -/
theorem State.expireIfZero_timers (s : State) (i : Nat) : (s.expireIfZero i).ru.timers =
    if s.ru.timers.getD i false = true ∧ s.prof.intervalLengths.getD i 0 = 0 then s.ru.timers.set i false
    else s.ru.timers := by
  unfold State.expireIfZero
  split
  next =>
    by_cases due : s.Unmasked i
    · rw [State.expireInterval_offers due]
      simp
    · rw [State.expireInterval_quiet due]
      rfl
  next => rfl

theorem State.expireIfZero_prof (s : State) (i : Nat) : (s.expireIfZero i).prof = s.prof := by simp [State.prof]

theorem State.expireZeros_prof (s : State) : s.expireZeros.prof = s.prof := by simp [State.prof]

theorem State.expireIfZero_timer (s : State) (i j : Nat) : (s.expireIfZero i).ru.timers.getD j false = true ↔
    s.ru.timers.getD j false = true ∧ ¬ (i = j ∧ s.prof.intervalLengths.getD j 0 = 0) := by
  rw [State.expireIfZero_timers]
  by_cases same : i = j
  · subst same
    split
    next expires =>
      have zero := expires.2
      by_cases inside : i < s.ru.timers.length <;> simp_all [List.getElem?_set]
    next stays => simp_all
  · split <;> simp [same, List.getElem?_set]

/-- After them the timer of an interval runs where it ran, and its length is not 0. -/
theorem State.expireZeros_timer (s : State) {j : Nat} (index : j < 3) : s.expireZeros.ru.timers.getD j false = true ↔
    s.ru.timers.getD j false = true ∧ s.prof.intervalLengths.getD j 0 ≠ 0 := by
  simp only [State.expireZeros, State.expireIfZero_timer, State.expireIfZero_prof, and_assoc, and_congr_right_iff]
  intro _
  obtain rfl | rfl | rfl : j = 0 ∨ j = 1 ∨ j = 2 := by omega
  all_goals simp

theorem State.expireZeros_timers_length (s : State) : s.expireZeros.ru.timers.length = s.ru.timers.length := by
  have one (t : State) (i : Nat) : (t.expireIfZero i).ru.timers.length = t.ru.timers.length := by
    rw [State.expireIfZero_timers]
    split <;> simp
  rw [State.expireZeros, one, one, one]

theorem TimersOnly.refl (s : State) : TimersOnly s s := rfl

theorem TimersOnly.trans {s t u : State} (first : TimersOnly s t) (second : TimersOnly t u) : TimersOnly s u := by
  rw [TimersOnly, second, first]

theorem TimersOnly.prof {s t : State} (only : TimersOnly s t) : t.prof = s.prof := by rw [only]; rfl

theorem TimersOnly.pending {s t : State} (only : TimersOnly s t) : t.ru.pending = s.ru.pending := by rw [only]

theorem TimersOnly.unmasked_iff {s t : State} (only : TimersOnly s t) (i : Nat) : t.Unmasked i ↔ s.Unmasked i := by
  rw [State.Unmasked, State.Unmasked, only.prof, only.pending]

theorem StatusTaken.andTimers {s t u : State} (taken : StatusTaken s t) (only : TimersOnly t u) : StatusTaken s u := by
  rw [StatusTaken, only, taken]

theorem TimersOnly.andTaken {s t u : State} (only : TimersOnly s t) (taken : StatusTaken t u) : StatusTaken s u := by
  rw [StatusTaken, taken, only]
  rfl

/-- Where the kinds bound to each expiring interval are masked, timers only stop. -/
theorem State.expireZeros_quiet {s : State} (quiet : ∀ i, i < 3 → s.Expires i → ¬ s.Unmasked i) :
    TimersOnly s s.expireZeros := by
  have step {t : State} (only : TimersOnly s t) (fewer : ∀ i, t.Expires i → s.Expires i) (i : Nat) (index : i < 3) :
      TimersOnly s (t.expireIfZero i) ∧ ∀ j, (t.expireIfZero i).Expires j → s.Expires j := by
    refine ⟨?_, fun j ⟨running, zero⟩ => fewer j ⟨((t.expireIfZero_timer i j).1 running).1, ?_⟩⟩
    · unfold State.expireIfZero
      split
      next expires =>
        rw [State.expireInterval_quiet (mt (only.unmasked_iff i).1 (quiet i index (fewer i expires)))]
        exact only.trans rfl
      next => exact only
    · rwa [State.expireIfZero_prof] at zero
  obtain ⟨first, fewer₁⟩ := step (TimersOnly.refl s) (fun _ => id) 0 (by decide)
  obtain ⟨second, fewer₂⟩ := step first fewer₁ 1 (by decide)
  exact (step second fewer₂ 2 (by decide)).1

/-! ### The start-up kinds (R186) -/

theorem State.foldCount_silent (ks : List ReportKind) : ∀ {s : State}, s.maySend = false → ks.foldl State.count s =
    { s with ru := { s.ru with counts := countsAfter s.ru.counts ks, pending := setFlags s.ru.pending ks } } := by
  induction ks with
  | nil => exact fun _ => rfl
  | cons k rest ih =>
    intro s silent
    have counted : s.count k = { s with ru := { s.ru with
        counts := s.ru.counts.modify k.number bump, pending := s.ru.pending ||| k.bit } } := by
      have silent' : (s.setRu { s.ru with counts := s.ru.counts.modify k.number bump }).maySend = false := silent
      simp only [State.count, State.flag, silent', Bool.false_eq_true, if_false]
      rfl
    rw [List.foldl_cons, ih (counted ▸ silent), counted]
    rfl

/-- The kinds whose flags the start-up marks set: that of GEOMETRY_CUT is PROFILE_DEFAULT's (R180, R186). -/
def StartMarks.flagged (m : StartMarks) : List ReportKind :=
  m.kinds ++ if m.geometryCut then [.profileDefault] else []

theorem setFlags_append (pending : BitVec 19) (a b : List ReportKind) :
    setFlags pending (a ++ b) = setFlags (setFlags pending a) b := List.foldl_append

theorem Profile.startTimers_append (p : Profile) (timers : List Bool) (a b : List ReportKind) :
    p.startTimers timers (a ++ b) = p.startTimers (p.startTimers timers a) b := List.foldl_append

theorem Profile.startTimers_length (p : Profile) (ks : List ReportKind) : ∀ timers : List Bool,
    (p.startTimers timers ks).length = timers.length := by
  induction ks with
  | nil => exact fun _ => rfl
  | cons k rest ih => exact fun timers => (ih _).trans (by simp)

section
variable {s : State}

/-- The fold of counts, where the part may send or not. -/
theorem State.foldCount (ks : List ReportKind) : ks.foldl State.count s = s.setRu { s.ru with
    counts := countsAfter s.ru.counts ks
    pending := setFlags s.ru.pending ks
    timers := if s.maySend then s.prof.startTimers s.ru.timers ks else s.ru.timers } := by
  cases may : s.maySend with
  | false => exact State.foldCount_silent ks may
  | true => exact State.foldCount_eq ks may

theorem State.countGeometryCut_setRu (ru : Ru) : (s.setRu ru).countGeometryCut = s.setRu { ru with
    geometryCut := bump ru.geometryCut
    pending := ru.pending ||| ReportKind.profileDefault.bit
    timers := if s.maySend then ru.timers.set (s.prof.intervalOf .profileDefault) true else ru.timers } := rfl

theorem State.raiseStartKinds_eq : s.raiseStartKinds = s.setRu { s.ru with
    counts := countsAfter s.ru.counts s.ru.marks.kinds
    geometryCut := if s.ru.marks.geometryCut then bump s.ru.geometryCut else s.ru.geometryCut
    marks := .clear
    pending := setFlags s.ru.pending s.ru.marks.flagged
    timers := if s.maySend then s.prof.startTimers s.ru.timers s.ru.marks.flagged else s.ru.timers } := by
  unfold State.raiseStartKinds StartMarks.flagged
  rw [setFlags_append, Profile.startTimers_append, State.foldCount]
  cases s.ru.marks.geometryCut with
  | false => rfl
  | true =>
    simp only [if_true, State.countGeometryCut_setRu]
    cases s.maySend <;> rfl

/-! ### The interval timers of pending kinds (R185) -/

theorem boundTo_ne_zero_iff (pending : BitVec 19) (p : Profile) (i : Nat) : pending &&& p.boundTo i ≠ 0 ↔
    ∃ k, p.intervalOf k = i ∧ kindBit pending k = true := by
  have zero : pending &&& p.boundTo i = 0 ↔ ∀ k, kindBit (pending &&& p.boundTo i) k = false :=
    ⟨fun none k => by rw [none]; exact kindBit_zero k,
      fun none => kindBit_ext fun k => (none k).trans (kindBit_zero k).symm⟩
  rw [Ne, zero]
  simp [and_comm]

theorem State.startInterval_timersOnly (s : State) (i : Nat) : TimersOnly s (s.startInterval i) := by
  unfold State.startInterval
  split <;> rfl

theorem State.startInterval_timer (may : s.maySend = true) (i j : Nat) (inside : j < s.ru.timers.length) :
    (s.startInterval i).ru.timers.getD j false = true ↔ s.ru.timers.getD j false = true ∨
      i = j ∧ ∃ k, s.prof.intervalOf k = i ∧ kindBit s.ru.pending k = true := by
  unfold State.startInterval
  by_cases bound : ∃ k, s.prof.intervalOf k = i ∧ kindBit s.ru.pending k = true
  · rw [if_pos ⟨may, (boundTo_ne_zero_iff _ _ _).2 bound⟩]
    by_cases same : i = j
    · subst same
      simp [bound, inside]
    · simp [same, List.getElem?_set]
  · rw [if_neg fun due => bound ((boundTo_ne_zero_iff _ _ _).1 due.2)]
    simp only [bound, and_false, or_false]

theorem TimersOnly.maySend {s t : State} (only : TimersOnly s t) : t.maySend = s.maySend := by rw [only]; rfl

theorem State.startIntervals_timersOnly (s : State) : TimersOnly s s.startIntervals :=
  ((s.startInterval_timersOnly 0).trans (State.startInterval_timersOnly _ 1)).trans (State.startInterval_timersOnly _ 2)

theorem State.startInterval_length (s : State) (i : Nat) :
    (s.startInterval i).ru.timers.length = s.ru.timers.length := by
  unfold State.startInterval
  split <;> simp

theorem State.startIntervals_timer (may : s.maySend = true) (length : s.ru.timers.length = 3) {j : Nat} (index : j < 3) :
    s.startIntervals.ru.timers.getD j false = true ↔ s.ru.timers.getD j false = true ∨
      ∃ k, s.prof.intervalOf k = j ∧ kindBit s.ru.pending k = true := by
  have first := s.startInterval_timersOnly 0
  have second := first.trans (State.startInterval_timersOnly _ 1)
  unfold State.startIntervals
  rw [State.startInterval_timer (second.maySend.trans may) 2 j (by simp only [State.startInterval_length]; omega),
    State.startInterval_timer (first.maySend.trans may) 1 j (by simp only [State.startInterval_length]; omega),
    State.startInterval_timer may 0 j (by omega), first.prof, first.pending, second.prof, second.pending]
  obtain rfl | rfl | rfl : j = 0 ∨ j = 1 ∨ j = 2 := by omega
  all_goals simp

/-! ### The Report Unit at the entry to RUN -/

/-- The expiries of the start-up kinds and the start of the other interval timers, and the expiries of those. -/
def State.intervalsAtRun (s : State) : State := s.expireZeros.startIntervals.expireZeros

theorem State.reportsAtRun_eq : s.reportsAtRun = s.raiseStartKinds.intervalsAtRun := rfl

/-- The start-up kinds already lead to a STATUS. -/
def State.OffersFirst (s : State) : Prop := ∃ i, i < 3 ∧ s.Expires i ∧ s.Unmasked i

/-- Where the part may not send, no interval timer starts or expires. -/
theorem State.intervalsAtRun_silent (silent : s.maySend = false) (none : true ∉ s.ru.timers) : s.intervalsAtRun = s := by
  have still : s.expireZeros = s := by
    refine State.expireZeros_still fun i _ ⟨running, _⟩ => none ?_
    rw [List.getD_eq_getElem?_getD] at running
    cases found : s.ru.timers[i]? with
    | none => simp [found] at running
    | some b =>
      obtain rfl : b = true := by simpa [found] using running
      exact List.mem_of_getElem? found
  have unstarted (i : Nat) : s.startInterval i = s := if_neg (by simp [silent])
  simp only [State.intervalsAtRun, still, State.startIntervals, unstarted]

section
variable (may : s.maySend = true) (length : s.ru.timers.length = 3)
include may length

theorem State.intervalsAtRun_timer {j : Nat} (index : j < 3) : s.intervalsAtRun.ru.timers.getD j false = true ↔
    s.prof.intervalLengths.getD j 0 ≠ 0 ∧ (s.ru.timers.getD j false = true ∨
      ∃ k, s.prof.intervalOf k = j ∧ kindBit s.expireZeros.ru.pending k = true) := by
  have may' : s.expireZeros.maySend = true := (State.maySend_congr (by simp)).trans may
  unfold State.intervalsAtRun
  rw [State.expireZeros_timer _ index,
    State.startIntervals_timer may' (s.expireZeros_timers_length.trans length) index, State.expireZeros_timer _ index,
    s.expireZeros.startIntervals_timersOnly.prof, State.expireZeros_prof]
  exact ⟨fun ⟨runs, length⟩ => ⟨length, runs.imp_left And.left⟩,
    fun ⟨length, runs⟩ => ⟨runs.imp_left fun ran => ⟨ran, length⟩, length⟩⟩

omit may length in
theorem State.intervalsAtRun_quiet (quiet : ∀ i, i < 3 → s.prof.intervalLengths.getD i 0 = 0 → ¬ s.Unmasked i) :
    TimersOnly s s.intervalsAtRun ∧ s.expireZeros.ru.pending = s.ru.pending := by
  have first := State.expireZeros_quiet fun i index ⟨_, zero⟩ => quiet i index zero
  have second := first.trans s.expireZeros.startIntervals_timersOnly
  refine ⟨second.trans (State.expireZeros_quiet fun i index ⟨_, zero⟩ => ?_), first.pending⟩
  rw [second.unmasked_iff]
  exact quiet i index (by rwa [second.prof] at zero)

theorem State.intervalsAtRun_taken (idle : s.lc.transmitter.state = .idle) (empty : s.lc.queue = [])
    {i : Nat} (index : i < 3) (zero : s.prof.intervalLengths.getD i 0 = 0) (due : s.Unmasked i) :
    StatusTaken s s.intervalsAtRun ∧
      (s.OffersFirst → s.expireZeros.ru.pending = s.ru.pending &&& s.prof.masks) ∧
      (¬ s.OffersFirst → s.expireZeros.ru.pending = s.ru.pending) := by
  have start := s.expireZeros.startIntervals_timersOnly
  by_cases early : s.OffersFirst
  · obtain ⟨j, inside, expires, unmasked⟩ := early
    have taken := State.expireZeros_taken may idle empty inside expires unmasked
    have rest : TimersOnly s.expireZeros.startIntervals s.intervalsAtRun :=
      State.expireZeros_quiet fun j _ _ => mt (start.unmasked_iff j).1 (taken.quiet j)
    refine ⟨(taken.andTimers start).andTimers rest, fun _ => ?_, fun late => absurd ⟨j, inside, expires, unmasked⟩ late⟩
    rw [taken]
  · have only := State.expireZeros_quiet fun j inside expires unmasked => early ⟨j, inside, expires, unmasked⟩
    have before := only.trans start
    have runs : s.expireZeros.startIntervals.Expires i := by
      obtain ⟨k, bound, pending, -⟩ := due
      refine ⟨(State.startIntervals_timer (only.maySend.trans may)
        (s.expireZeros_timers_length.trans length) index).2 (Or.inr ⟨k, ?_, ?_⟩), ?_⟩
      · rw [only.prof]
        exact bound
      · rw [only.pending]
        exact pending
      · rw [before.prof]
        exact zero
    refine ⟨before.andTaken (State.expireZeros_taken (before.maySend.trans may) ?_ ?_ index runs
      ((before.unmasked_iff i).2 due)), fun first => absurd first early, fun _ => only.pending⟩
    · rw [before]
      exact idle
    · rw [before]
      exact empty

end

end

/-! ### What the entry reports -/

section
variable {s : State}

/-- In RUN, the start-up kinds counted, before any expiry. -/
def State.startCounted (s : State) : State := s.inRun.raiseStartKinds

theorem State.enterRun_eq (s : State) : s.enterRun = s.startCounted.intervalsAtRun.askWindow := rfl

theorem State.startCounted_eq (s : State) : s.startCounted = s.inRun.setRu { s.ru with
    counts := countsAfter s.ru.counts s.ru.marks.kinds
    geometryCut := if s.ru.marks.geometryCut then bump s.ru.geometryCut else s.ru.geometryCut
    marks := .clear
    pending := setFlags s.ru.pending s.ru.marks.flagged
    timers := if s.inRun.maySend then s.prof.startTimers s.ru.timers s.ru.marks.flagged else s.ru.timers } :=
  State.raiseStartKinds_eq

theorem State.startCounted_prof (s : State) : s.startCounted.prof = s.prof := by
  rw [State.startCounted_eq]
  rfl

theorem State.startCounted_lc (s : State) : s.startCounted.lc = s.lc := by
  rw [State.startCounted_eq]
  rfl

theorem StartMarks.mem_flagged (m : StartMarks) (k : ReportKind) :
    k ∈ m.flagged ↔ k ∈ m.kinds ∨ m.geometryCut = true ∧ k = .profileDefault := by
  unfold StartMarks.flagged
  cases m.geometryCut <;> simp

theorem State.startCounted_pending (s : State) (k : ReportKind) : kindBit s.startCounted.ru.pending k = true ↔
    kindBit s.ru.pending k = true ∨ k ∈ s.ru.marks.flagged := by
  rw [State.startCounted_eq]
  exact kindBit_setFlags k _ _

theorem State.inRun_maySend (s : State) : s.inRun.maySend = true ↔ s.sc.nodeNumber ≠ 0 ∧ s.sc.nodeNumber ≠ 63 :=
  (State.maySend_iff _).trans ⟨fun ⟨_, may⟩ => may, fun may => ⟨rfl, may⟩⟩

theorem State.startCounted_maySend (s : State) : s.startCounted.maySend = s.inRun.maySend := by
  rw [State.startCounted_eq]
  rfl

/-- The entry to RUN reports through the expiries; asking for the read window leaves that be. -/
theorem State.enterRun_reports (s : State) :
    s.enterRun.lc = s.startCounted.intervalsAtRun.lc ∧ s.enterRun.ru = s.startCounted.intervalsAtRun.ru := by
  simp [State.enterRun_eq]

theorem State.intervalsAtRun_counts (s : State) : s.intervalsAtRun.ru.counts = s.ru.counts ∧
    s.intervalsAtRun.ru.geometryCut = s.ru.geometryCut ∧ s.intervalsAtRun.ru.marks = s.ru.marks := by
  simp only [State.intervalsAtRun, State.expireZeros_frame]
  rw [s.expireZeros.startIntervals_timersOnly]
  simp

/-- The counts and marks at the entry to RUN. -/
theorem State.enterRun_counts (s : State) : s.enterRun.ru.counts = countsAfter s.ru.counts s.ru.marks.kinds ∧
    s.enterRun.ru.geometryCut = (if s.ru.marks.geometryCut then bump s.ru.geometryCut else s.ru.geometryCut) ∧
    s.enterRun.ru.marks = .clear := by
  obtain ⟨-, ru⟩ := s.enterRun_reports
  obtain ⟨counts, cut, marks⟩ := s.startCounted.intervalsAtRun_counts
  rw [ru, counts, cut, marks, State.startCounted_eq]
  exact ⟨rfl, rfl, rfl⟩

theorem State.startCounted_unmasked (i : Nat) : s.startCounted.Unmasked i ↔ ∃ k, s.prof.intervalOf k = i ∧
    kindBit s.startCounted.ru.pending k = true ∧ kindBit s.prof.masks k = false := by
  rw [State.Unmasked, State.startCounted_prof]

section
variable (may : s.inRun.maySend = true) (stopped : s.ru.timers = [false, false, false])
include may stopped

theorem State.startCounted_timer {j : Nat} (index : j < 3) : s.startCounted.ru.timers.getD j false = true ↔
    ∃ k ∈ s.ru.marks.flagged, s.prof.intervalOf k = j := by
  have timers : s.startCounted.ru.timers = s.prof.startTimers [false, false, false] s.ru.marks.flagged := by
    rw [State.startCounted_eq, ← stopped]
    exact if_pos may
  have still : [false, false, false].getD j false = false := by
    obtain rfl | rfl | rfl : j = 0 ∨ j = 1 ∨ j = 2 := by omega
    all_goals rfl
  rw [timers, Profile.startTimers_iff, still]
  simp [index]

theorem State.startCounted_timers_length : s.startCounted.ru.timers.length = 3 := by
  have timers : s.startCounted.ru.timers = s.prof.startTimers s.ru.timers s.ru.marks.flagged := by
    rw [State.startCounted_eq]
    exact if_pos may
  rw [timers, Profile.startTimers_length, stopped]
  rfl

theorem State.startCounted_offersFirst : s.startCounted.OffersFirst ↔ ∃ i first k, i < 3 ∧
    s.prof.intervalLengths.getD i 0 = 0 ∧ s.prof.intervalOf first = i ∧ first ∈ s.ru.marks.flagged ∧
    s.prof.intervalOf k = i ∧ kindBit s.startCounted.ru.pending k = true ∧ kindBit s.prof.masks k = false := by
  constructor
  · rintro ⟨i, index, ⟨running, zero⟩, due⟩
    rw [State.startCounted_prof] at zero
    obtain ⟨first, mem, starts⟩ := (State.startCounted_timer may stopped index).1 running
    obtain ⟨k, bound, pending, unmasked⟩ := (s.startCounted_unmasked i).1 due
    exact ⟨i, first, k, index, zero, starts, mem, bound, pending, unmasked⟩
  · rintro ⟨i, first, k, index, zero, starts, mem, bound, pending, unmasked⟩
    refine ⟨i, index, ⟨(State.startCounted_timer may stopped index).2 ⟨first, mem, starts⟩, ?_⟩,
      (s.startCounted_unmasked i).2 ⟨k, bound, pending, unmasked⟩⟩
    rwa [State.startCounted_prof]

/-- The timers of the intervals after the entry. -/
theorem State.enterRun_timer {j : Nat} (index : j < 3) : s.enterRun.ru.timers.getD j false = true ↔
    s.prof.intervalLengths.getD j 0 ≠ 0 ∧ ((∃ k ∈ s.ru.marks.flagged, s.prof.intervalOf k = j) ∨
      ∃ k, s.prof.intervalOf k = j ∧ kindBit s.startCounted.expireZeros.ru.pending k = true) := by
  obtain ⟨-, ru⟩ := s.enterRun_reports
  rw [ru, State.intervalsAtRun_timer (s.startCounted_maySend.trans may)
    (State.startCounted_timers_length may stopped) index, State.startCounted_timer may stopped index, State.startCounted_prof]

/-- Where no STATUS comes before the other timers start, every pending kind's timer starts. -/
theorem State.enterRun_timer_late (late : s.startCounted.expireZeros.ru.pending = s.startCounted.ru.pending)
    {j : Nat} (index : j < 3) : s.enterRun.ru.timers.getD j false = true ↔
      s.prof.intervalLengths.getD j 0 ≠ 0 ∧
        ∃ k, s.prof.intervalOf k = j ∧ kindBit s.startCounted.ru.pending k = true := by
  rw [State.enterRun_timer may stopped index, late, and_congr_right_iff]
  refine fun _ => ⟨?_, Or.inr⟩
  rintro (⟨k, mem, bound⟩ | due)
  · exact ⟨k, bound, (s.startCounted_pending k).2 (Or.inr mem)⟩
  · exact due

/-- Where one does, the timers of kinds start that it does not clear. -/
theorem State.enterRun_timer_early
    (early : s.startCounted.expireZeros.ru.pending = s.startCounted.ru.pending &&& s.prof.masks)
    {j : Nat} (index : j < 3) : s.enterRun.ru.timers.getD j false = true ↔
      s.prof.intervalLengths.getD j 0 ≠ 0 ∧ ∃ k, s.prof.intervalOf k = j ∧
        kindBit s.startCounted.ru.pending k = true ∧ (k ∈ s.ru.marks.flagged ∨ kindBit s.prof.masks k = true) := by
  rw [State.enterRun_timer may stopped index, early, and_congr_right_iff]
  simp only [kindBit_and, Bool.and_eq_true]
  refine fun _ => ⟨?_, ?_⟩
  · rintro (⟨k, mem, bound⟩ | ⟨k, bound, pending, masked⟩)
    · exact ⟨k, bound, (s.startCounted_pending k).2 (Or.inr mem), Or.inl mem⟩
    · exact ⟨k, bound, pending, Or.inr masked⟩
  · rintro ⟨k, bound, pending, mem | masked⟩
    · exact Or.inl ⟨k, mem, bound⟩
    · exact Or.inr ⟨k, bound, pending, masked⟩

end

/-! ### The compose requested at the entry (R197) -/

theorem State.startCounted_intervals_frame (s : State) :
    s.startCounted.intervalsAtRun.co = { s.co with request := true } ∧ s.startCounted.intervalsAtRun.tb = s.tb ∧
    s.startCounted.intervalsAtRun.pa = s.pa ∧ s.startCounted.intervalsAtRun.sc.node = .run := by
  rw [State.startCounted_eq]
  simp [State.intervalsAtRun, State.inRun]

/-- The read window is granted at once. -/
theorem State.enterRun_reads (idle : s.co.pass = .idle) (unswapped : s.pa.swapPending = false)
    (free : s.tb.state = .free) :
    s.enterRun.co = { s.co with request := false, pass := .reading, working := [], nameMiss := false } ∧
      s.enterRun.tb = { s.tb with state := .window } := by
  obtain ⟨co, tb, pa, run⟩ := s.startCounted_intervals_frame
  have follows : s.startCounted.intervalsAtRun.following = true := State.following_iff_started _ |>.2 (Or.inr run)
  have granted := State.askWindow_granted follows (by rw [co]; exact idle) (by rw [co]) (by rw [pa]; exact unswapped)
    (by rw [tb]; exact free)
  rw [State.enterRun_eq, granted, co, tb]
  exact ⟨rfl, rfl⟩

/-- A pass under way goes on. -/
theorem State.enterRun_goesOn (working : s.co.pass ≠ .idle) :
    s.enterRun.co = { s.co with request := true } ∧ s.enterRun.tb = s.tb := by
  obtain ⟨co, tb, -, -⟩ := s.startCounted_intervals_frame
  rw [State.enterRun_eq, State.askWindow, if_neg fun asks => working (by simpa [co] using asks.2.1)]
  exact ⟨co, tb⟩

theorem State.enterRun_asks (s : State) : s.enterRun.co.request = true ∨ s.enterRun.co.pass = .reading := by
  obtain ⟨co, -⟩ := s.startCounted_intervals_frame
  rw [State.enterRun_eq]
  exact (State.askWindow_asked _ (by rw [co])).imp_right fun ⟨reads, _⟩ => reads

theorem State.enterRun_blocks (s : State) : s.enterRun.sc = { s.sc with node := .run, listenTimer := false } ∧
    s.enterRun.au = { s.au with beaconTimer := true, sent := false } := by simp [State.enterRun]

theorem exec_listenTimerExpiry (listen : s.sc.node = .listen) (timer : s.sc.listenTimer = true) :
    exec .listenTimerExpiry s = .next s.enterRun := if_pos ⟨listen, timer⟩

/-- What the entry leaves as it was. -/
theorem State.enterRun_tablesKept (s : State) : TablesKept s s.enterRun := by simp [TablesKept]

/-! ### The entry as a whole -/

theorem State.enterRun_silent (silent : s.inRun.maySend = false) (none : true ∉ s.ru.timers) :
    s.enterRun.ru.timers = s.ru.timers ∧ s.enterRun.lc = s.lc ∧ s.enterRun.ru.listed = s.ru.listed ∧
      s.enterRun.ru.pending = s.startCounted.ru.pending := by
  have timers : s.startCounted.ru.timers = s.ru.timers := by
    rw [State.startCounted_eq]
    simp [silent]
  obtain ⟨lc, ru⟩ := s.enterRun_reports
  rw [lc, ru, State.intervalsAtRun_silent (s.startCounted_maySend.trans silent) (by rwa [timers])]
  exact ⟨timers, s.startCounted_lc, by rw [State.startCounted_eq]; rfl, rfl⟩

section
variable (may : s.inRun.maySend = true) (stopped : s.ru.timers = [false, false, false])
include may stopped

/-- Every interval of length 0 expires for masked kinds. -/
theorem State.enterRun_quiet
    (masked : ∀ i k, i < 3 → s.prof.intervalLengths.getD i 0 = 0 → s.prof.intervalOf k = i →
      kindBit s.startCounted.ru.pending k = true → kindBit s.prof.masks k = true) :
    s.enterRun.lc = s.lc ∧ s.enterRun.ru.listed = s.ru.listed ∧
      s.enterRun.ru.pending = s.startCounted.ru.pending ∧
      ∀ i, i < 3 → (s.enterRun.ru.timers.getD i false = true ↔ s.prof.intervalLengths.getD i 0 ≠ 0 ∧
        ∃ k, s.prof.intervalOf k = i ∧ kindBit s.startCounted.ru.pending k = true) := by
  obtain ⟨only, late⟩ := s.startCounted.intervalsAtRun_quiet fun i index zero due => by
    rw [State.startCounted_prof] at zero
    obtain ⟨k, bound, pending, unmasked⟩ := (s.startCounted_unmasked i).1 due
    simp [masked i k index zero bound pending] at unmasked
  obtain ⟨lc, ru⟩ := s.enterRun_reports
  refine ⟨?_, ?_, ?_, fun i index => State.enterRun_timer_late may stopped late index⟩
  · rw [lc, only]
    exact s.startCounted_lc
  · rw [ru, only, State.startCounted_eq]
    rfl
  · rw [ru, only]

/-- An interval of length 0 expires for a kind that is not masked. -/
theorem State.enterRun_sends (idle : s.lc.transmitter.state = .idle) (empty : s.lc.queue = []) {i : Nat} (index : i < 3)
    (zero : s.prof.intervalLengths.getD i 0 = 0) {k : ReportKind} (bound : s.prof.intervalOf k = i)
    (pending : kindBit s.startCounted.ru.pending k = true) (unmasked : kindBit s.prof.masks k = false) :
    s.enterRun.lc = { s.lc with
      transmitter := ⟨.wait, some (.status s.prof.segmentIndex s.startCounted.statusReport), 0, 0, [], false⟩ } ∧
    s.enterRun.ru.listed = 0 ∧ s.enterRun.ru.pending = s.startCounted.ru.pending &&& s.prof.masks ∧
    ∀ j, j < 3 → (s.enterRun.ru.timers.getD j false = true ↔ s.prof.intervalLengths.getD j 0 ≠ 0 ∧
      ∃ k, s.prof.intervalOf k = j ∧ kindBit s.startCounted.ru.pending k = true ∧
        (s.startCounted.OffersFirst → k ∈ s.ru.marks.flagged ∨ kindBit s.prof.masks k = true)) := by
  obtain ⟨taken, early, late⟩ := State.intervalsAtRun_taken (s.startCounted_maySend.trans may)
    (State.startCounted_timers_length may stopped) (by rwa [State.startCounted_lc]) (by rwa [State.startCounted_lc])
    index (by rwa [State.startCounted_prof]) ((s.startCounted_unmasked i).2 ⟨k, bound, pending, unmasked⟩)
  rw [State.startCounted_prof] at early
  obtain ⟨lc, ru⟩ := s.enterRun_reports
  refine ⟨?_, ?_, ?_, fun j inside => ?_⟩
  · rw [lc, taken, State.startCounted_prof, State.startCounted_lc]
  · rw [ru, taken]
  · rw [ru, taken, State.startCounted_prof]
  · by_cases first : s.startCounted.OffersFirst
    · rw [State.enterRun_timer_early may stopped (early first) inside]
      simp only [first, true_implies]
    · rw [State.enterRun_timer_late may stopped (late first) inside]
      simp only [first, false_implies, and_true]

end

/-- What the STATUS of the entry says. -/
theorem State.startCounted_statusReport (may : s.inRun.maySend = true) : s.DescribedBy s.startCounted.statusReport ∧
    s.startCounted.statusReport.counts = s.enterRun.ru.counts ∧
    s.startCounted.statusReport.geometryCut = s.enterRun.ru.geometryCut ∧
    s.startCounted.statusReport.pendingKinds = s.startCounted.ru.pending ||| s.ru.listed := by
  have described := State.statusReport_describedBy (s.startCounted_maySend.trans may)
  obtain ⟨counts, cut, -⟩ := s.enterRun_counts
  rw [counts, cut]
  rw [State.startCounted_eq] at described ⊢
  exact ⟨described, rfl, rfl, rfl⟩

end

/-- Settles O25: the start-up kinds are counted, then interval timers start and expire, then a compose is requested. -/
theorem listenExpiryEntersRun : Obligations.ListenExpiryEntersRun := by
  intro s up raised pends listen timer is_up is_raised is_pends
  obtain rfl : s.ru.marks.kinds = up := is_up.symm
  obtain rfl : (fun k => k ∈ s.ru.marks.flagged) = raised :=
    funext fun k => propext ((s.ru.marks.mem_flagged k).trans (is_raised k).symm)
  obtain rfl : (fun k => kindBit s.startCounted.ru.pending k = true) = pends :=
    funext fun k => propext ((s.startCounted_pending k).trans (is_pends k).symm)
  obtain ⟨counts, cut, marks⟩ := s.enterRun_counts
  obtain ⟨sc, au⟩ := s.enterRun_blocks
  refine ⟨s.enterRun, exec_listenTimerExpiry listen timer, sc, au, marks, counts, cut, fun receive_only none => ?_,
    fun low high stopped => ?_, s.enterRun_asks, State.enterRun_reads, State.enterRun_goesOn, s.enterRun_tablesKept, ?_⟩
  · have silent : s.inRun.maySend = false := by
      rw [← Bool.not_eq_true, State.inRun_maySend]
      exact fun ⟨low, high⟩ => receive_only.elim low high
    obtain ⟨timers, lc, listed, pending⟩ := State.enterRun_silent silent none
    exact ⟨timers, lc, listed, fun k => by rw [pending]⟩
  · have may : s.inRun.maySend = true := s.inRun_maySend.2 (by bv_omega)
    refine ⟨fun masked => ?_, fun idle empty ⟨i, k, index, zero, bound, pending, unmasked⟩ => ?_⟩
    · obtain ⟨lc, listed, pending, timers⟩ := State.enterRun_quiet may stopped masked
      exact ⟨lc, listed, fun k => by rw [pending], timers⟩
    · obtain ⟨lc, listed, left, timers⟩ := State.enterRun_sends may stopped idle empty index zero bound pending unmasked
      obtain ⟨described, reported, reported_cut, kinds⟩ := State.startCounted_statusReport may
      refine ⟨⟨_, lc, described, reported, reported_cut, fun j => ?_⟩, listed, fun j => ?_, fun early is_early => ?_⟩
      · rw [kinds, kindBit_or, Bool.or_eq_true]
      · rw [left, kindBit_and, Bool.and_eq_true]
      · rw [is_early, ← State.startCounted_offersFirst may stopped]
        exact timers
  · simp only [State.enterRun_frame, and_self]

end Sys2Proof.Machine
end

