-- ==== Sys2Proof/Proofs/PanelFrames.lean ====
section
/-! SUPPORT. The frame start, the lines of the panel and the pixels of the board: the fields of a row, the calling line
and the bottom line (R134, R141 to R156). -/

namespace Sys2Proof.Machine

/-! ### Rendered texts (R148) -/

section
variable {k : Brush} {f : FrameSample} {n x : Nat}

@[simp] theorem textWidth_cons (glyphs : List Glyph) (c : Byte) (t : Text) :
    textWidth glyphs (c :: t) = codeWidth glyphs c + textWidth glyphs t := rfl

theorem textLit_beyond (glyphs : List Glyph) (n : Nat) (t : Text) : ∀ x, textWidth glyphs t ≤ x →
    textLit glyphs n t x = false := by
  induction t with
  | nil => exact fun _ _ => rfl
  | cons c rest ih =>
    intro x beyond
    rw [textWidth_cons] at beyond
    rw [textLit, if_neg (by omega)]
    exact ih _ (by omega)

theorem Brush.ink_beyond {c : TextClass} {t : Text} (beyond : textWidth k.glyphs t ≤ x) : k.ink c t n x = 0 := by
  rw [Brush.ink, textLit_beyond _ _ _ _ beyond]
  rfl

/-- What of a text is painted from column `x` on: its first codes; they end in its field, and one more would not. -/
theorem fitText_spec (k : Brush) (reserve : Nat) (t : Text) : ∀ x, ∃ m, fitText k reserve x t = t.take m ∧
    (fitText k reserve x t ≠ [] → x + textWidth k.glyphs (fitText k reserve x t) + reserve ≤ k.boardWidth) ∧
    (m < t.length → k.boardWidth < x + textWidth k.glyphs (t.take (m + 1)) + reserve) := by
  induction t with
  | nil => exact fun x => ⟨0, rfl, fun some => absurd rfl some, fun inside => absurd inside (by simp)⟩
  | cons c rest ih =>
    intro x
    by_cases fits : x + codeWidth k.glyphs c + reserve ≤ k.boardWidth
    · obtain ⟨m, is, within, exceeds⟩ := ih (x + codeWidth k.glyphs c)
      refine ⟨m + 1, ?_, fun _ => ?_, fun inside => ?_⟩
      · rw [fitText, if_pos fits, is, List.take_succ_cons]
      · rw [fitText, if_pos fits, textWidth_cons]
        by_cases none : fitText k reserve (x + codeWidth k.glyphs c) rest = []
        · rw [none]
          exact fits
        · have := within none
          omega
      · have := exceeds (by simpa using inside)
        rw [List.take_succ_cons, textWidth_cons]
        omega
    · refine ⟨0, ?_, ?_, fun _ => ?_⟩
      · rw [fitText, if_neg fits, List.take_zero]
      · rw [fitText, if_neg fits]
        exact fun some => absurd rfl some
      · have single : textWidth k.glyphs ((c :: rest).take (0 + 1)) = codeWidth k.glyphs c := by simp [textWidth]
        rw [single]
        omega

/-! ### The fields of a row (R151, R152) -/

theorem Brush.destinationPixel_left {t : Text} (left : x < k.layout.time + 4) : k.destinationPixel t n x = none :=
  if_neg (by omega)

/-- From the destination field's first column on, its text is painted, and nothing right of it. -/
theorem Brush.destinationPixel_right {t : Text} (right : k.layout.time + 4 ≤ x) :
    (k.destinationPixel t n x).getD 0 = k.ink .text (k.destination t) n (x - (k.layout.time + 4)) := by
  unfold Brush.destinationPixel
  by_cases within : x < k.layout.time + 4 + textWidth k.glyphs (k.destination t)
  · rw [if_pos ⟨right, within⟩]
    rfl
  · rw [if_neg fun reached => within reached.2, Brush.ink_beyond (by omega)]
    rfl

theorem Brush.rightPixel_within {c : TextClass} {margin : Nat} {t : Text} (left : x + margin < k.boardWidth)
    (reached : k.boardWidth ≤ x + margin + textWidth k.glyphs t) :
    k.rightPixel c margin t n x = some (k.ink c t n (x + margin + textWidth k.glyphs t - k.boardWidth)) :=
  if_pos ⟨left, reached⟩

theorem Brush.rightPixel_outside {c : TextClass} {margin : Nat} {t : Text}
    (outside : k.boardWidth ≤ x + margin ∨ x + margin + textWidth k.glyphs t < k.boardWidth) :
    k.rightPixel c margin t n x = none := if_neg (by omega)

section
variable {r : ServiceRow}

/-- The status field comes first. -/
theorem Brush.rowPixel_status (onBoard : x < k.boardWidth) (reached : k.boardWidth ≤ x + textWidth k.glyphs r.statusText) :
    k.rowPixel r n x = k.ink r.status.textClass r.statusText n (x + textWidth k.glyphs r.statusText - k.boardWidth) := by
  simp only [Brush.rowPixel, Brush.rightPixel_within (margin := 0) onBoard reached, Nat.add_zero]

/-- Left of the status field, the platform's. -/
theorem Brush.rowPixel_platform {t : Text} (left : x + textWidth k.glyphs r.statusText < k.boardWidth)
    (platform : r.platform = some t) (within : x + (k.layout.status + 4) < k.boardWidth)
    (reached : k.boardWidth ≤ x + (k.layout.status + 4) + textWidth k.glyphs t) :
    k.rowPixel r n x = k.ink .text t n (x + (k.layout.status + 4) + textWidth k.glyphs t - k.boardWidth) := by
  simp only [Brush.rowPixel, Brush.rightPixel_outside (margin := 0) (t := r.statusText) (x := x) (Or.inr left), platform,
    Option.bind_some, Brush.rightPixel_within within reached]

/-- Left of both, the time and then the destination. -/
theorem Brush.rowPixel_left (left : x + textWidth k.glyphs r.statusText < k.boardWidth)
    (outside : ∀ t, r.platform = some t → k.boardWidth ≤ x + (k.layout.status + 4) ∨
      x + (k.layout.status + 4) + textWidth k.glyphs t < k.boardWidth) :
    k.rowPixel r n x = if x < textWidth k.glyphs r.time then k.ink .time r.time n x
      else (k.destinationPixel r.destination n x).getD 0 := by
  have no_platform : (r.platform.bind fun t => k.rightPixel .text (k.layout.status + 4) t n x) = none := by
    cases platform : r.platform with
    | none => rfl
    | some t => exact Brush.rightPixel_outside (outside t platform)
  simp only [Brush.rowPixel, Brush.rightPixel_outside (margin := 0) (t := r.statusText) (x := x) (Or.inr left),
    no_platform]

end

/-! ### The text lines of the board (R141, R145) -/

theorem Brush.linePixel_dark {j : Nat} (above : j ≠ k.geometry.rowCount + 1) (dark : f.node ≠ .run ∨ f.shown = none) :
    k.linePixel f j n x = 0 := by
  rw [Brush.linePixel, if_neg above]
  split
  next run shown => obtain off | nothing := dark <;> simp_all
  next => rfl

section
variable {set : AdoptedSet} (run : f.node = .run) (shown : f.shown = some set)
include run shown

theorem Brush.linePixel_calling (rows : 1 ≤ k.geometry.rowCount) :
    k.linePixel f 1 n x = k.callingPixel set f.pace n x := by
  rw [Brush.linePixel, if_neg (by omega)]
  simp [run, shown]

/-- Text line 0 shows the first row, text lines from 2 on the others. -/
theorem Brush.linePixel_row {j : Nat} {row : Row} (place : (j = 0 ∧ set.rows[0]? = some row) ∨
      (2 ≤ j ∧ j ≤ k.geometry.rowCount ∧ set.rows[j - 1]? = some row)) :
    k.linePixel f j n x = k.firstLine row n x := by
  obtain ⟨rfl, first⟩ | ⟨low, high, later⟩ := place
  · rw [Brush.linePixel, if_neg (by omega)]
    simp [run, shown, first]
  · rw [Brush.linePixel, if_neg (by omega)]
    simp only [run, shown, if_neg (show ¬ j = 0 by omega), if_neg (show ¬ j = 1 by omega), List.getD_eq_getElem?_getD,
      later, Option.getD_some]

end

/-- Without a LEAD row first, the calling line is dark. -/
theorem Brush.callingPixel_dark {set : AdoptedSet} {p : Pace}
    (no_lead : ∀ r calling w rest, set.rows ≠ .lead r calling w :: rest) : k.callingPixel set p n x = 0 := by
  unfold Brush.callingPixel
  split
  next r calling w rest rows => exact absurd rows (no_lead r calling w rest)
  next => rfl

theorem Brush.linePixel_bottom : k.linePixel f (k.geometry.rowCount + 1) n x = k.bottomPixel f n x := if_pos rfl

/-- Outside the text lines and the window nothing is lit. -/
theorem Brush.pixel_outside {line column : Nat} (outside : line < k.geometry.topLine ∨
      k.geometry.topLine + (k.geometry.rowCount + 2) * k.height ≤ line ∨
      column < k.geometry.windowBegin ∨ k.geometry.windowEnd < column) : k.pixel f line column = 0 :=
  if_neg (by omega)

/-- On glyph row `n` of text line `j`, within the window. -/
theorem Brush.pixel_textLine {j column : Nat} (line : j ≤ k.geometry.rowCount + 1) (row : n < k.height)
    (left : k.geometry.windowBegin ≤ column) (right : column ≤ k.geometry.windowEnd) :
    k.pixel f (k.geometry.topLine + j * k.height + n) column = k.linePixel f j n
      (k.segmentIndex * k.geometry.windowWidth + (column - k.geometry.windowBegin)) := by
  have below : j * k.height + n < (k.geometry.rowCount + 2) * k.height :=
    calc j * k.height + n < j * k.height + k.height := by omega
      _ = (j + 1) * k.height := (Nat.succ_mul _ _).symm
      _ ≤ (k.geometry.rowCount + 2) * k.height := Nat.mul_le_mul_right _ (by omega)
  obtain ⟨lineOf, rowOf⟩ := textLine_of_offset (height := k.height) (j := j) (offset := j * k.height + n) (by omega)
    (by rw [Nat.succ_mul]; omega)
  have offset : k.geometry.topLine + j * k.height + n - k.geometry.topLine = j * k.height + n := by omega
  simp only [Brush.pixel]
  rw [if_pos (by omega), offset, lineOf, rowOf, Nat.add_sub_cancel_left]

/-- Above the bottom line a board that shows nothing is dark. -/
theorem Brush.pixel_dark {line column : Nat} (dark : f.node ≠ .run ∨ f.shown = none)
    (above : line < k.geometry.topLine + (k.geometry.rowCount + 1) * k.height) : k.pixel f line column = 0 := by
  simp only [Brush.pixel]
  split
  next onBoard =>
    refine Brush.linePixel_dark (Nat.ne_of_lt ?_) dark
    exact Nat.div_lt_of_lt_mul (by rw [Nat.mul_comm]; omega)
  next => rfl

/-! ### The marquee (R134) -/

theorem marqueeColumn_still {b l x : Nat} {o p : Pace} (fits : l ≤ b) :
    marqueeColumn b l o p x = if x < l then some x else none := if_pos fits

section
variable {b l x : Nat} {o p : Pace} (wider : b < l)
include wider

/-- Before the origin the line stands at the left. -/
theorem marqueeColumn_before (inside : x < b) (before : paceAhead p o = false) : marqueeColumn b l o p x = some x := by
  simp only [marqueeColumn, if_neg (Nat.not_le.2 wider), before, Bool.false_eq_true, if_false]
  rw [if_pos (by omega), Nat.add_sub_cancel]

/-- After it the line has moved on by a column each pace, and comes round. -/
theorem marqueeColumn_after (after : paceAhead p o = true) (m : Nat) : marqueeColumn b l o p x = some m ↔
    m < l ∧ m + b = x + (b + (p - o).toNat) % (l + b) := by
  simp only [marqueeColumn, if_neg (Nat.not_le.2 wider), after, if_true]
  split <;> simp only [Option.some.injEq, reduceCtorEq, false_iff] <;> omega

end

/-! ### The bottom line (R154, R156) -/

theorem hourMinuteSecond_digits (second : Nat) : hourMinuteSecond second =
    [second / 36000, second / 3600 % 10, 10, second / 600 % 6, second / 60 % 10, 10,
      second % 60 / 10, second % 10].map fun d => BitVec.ofNat 8 (0x30 + d) := by
  have hours : second / 60 / 60 / 10 = second / 36000 ∧ second / 60 / 60 % 10 = second / 3600 % 10 := by omega
  have minutes : second / 60 % 60 / 10 = second / 600 % 6 ∧ second / 60 % 60 % 10 = second / 60 % 10 := by omega
  have seconds : second % 60 % 10 = second % 10 := by omega
  simp only [hourMinuteSecond, hourMinute, twoDigits, hours, minutes, seconds]
  rfl

section
variable (run : f.node = .run)
include run

theorem Brush.bottomPixel_banner {t : Text} {take : Pace} (banner : f.banner = some (t, take)) :
    k.bottomPixel f n x = k.bannerPixel t take f.pace n x := by
  simp only [Brush.bottomPixel, run, banner]

theorem Brush.bottomPixel_clock (unbannered : f.banner = none) {second : Nat} (clock : f.second = some second) :
    k.bottomPixel f n x = k.centredPixel (if f.stale then .clockStale else .clock) (hourMinuteSecond second) n x := by
  simp only [Brush.bottomPixel, run, unbannered, clock]

theorem Brush.bottomPixel_dark (unbannered : f.banner = none) (unset : f.second = none) : k.bottomPixel f n x = 0 := by
  simp only [Brush.bottomPixel, run, unbannered, unset]

end

end

/-! ### A frame start (R122, R144, R147) -/

section
variable {s : State}

/-- The set shown from a frame start on. -/
def State.shownNext (s : State) : Option AdoptedSet := if s.pa.swapPending then s.au.swapBuffer else s.au.shown

/-- The sample a frame start takes. -/
def State.frameSample (s : State) : FrameSample where
  node := s.sc.node
  shown := s.shownNext
  pace := s.au.pace
  second := s.tb.time.second
  stale := s.tb.time.stale
  banner := s.bu.showing
  brightness := s.pa.brightness.getD 0

theorem State.frameStart_eq (s : State) : s.frameStart = { s with
    au := { s.au with
      shown := s.shownNext, swapBuffer := if s.pa.swapPending then none else s.au.swapBuffer }
    pa := { s.pa with
      swapPending := false, sample := some s.frameSample, paint := .painting
      panel := some (s.brush.paint s.frameSample) } } := by
  unfold State.frameStart State.swap State.frameSample State.shownNext
  cases pending : s.pa.swapPending with
  | true => rfl
  | false =>
    rw [if_neg Bool.false_ne_true, if_neg Bool.false_ne_true, if_neg Bool.false_ne_true, ← pending]
    rfl

theorem Bu.showing_eq (bu : Bu) :
    bu.showing = if bu.line = .showing then bu.banner.map (fun b => (b.text, b.takePace)) else none := by
  unfold Bu.showing
  cases bu.line <;> cases bu.banner <;> rfl

theorem Brush.paint_length (k : Brush) (f : FrameSample) : (k.paint f).lines.length = k.geometry.panelLines := by
  simp [Brush.paint]

theorem Brush.panelLine_length (k : Brush) (f : FrameSample) (l : Nat) :
    (k.panelLine f l).pixels.length = k.geometry.panelWidth := by simp [Brush.panelLine]

/-- Each line of a painted panel. -/
theorem Brush.paint_line (k : Brush) (f : FrameSample) {l : Nat} (inside : l < k.geometry.panelLines) :
    (k.paint f).lines[l]? = some (k.panelLine f l) := by
  simp [Brush.paint, inside]

theorem Brush.panelLine_pixel (k : Brush) (f : FrameSample) (l : Nat) {column : Nat}
    (inside : column < k.geometry.panelWidth) : (k.panelLine f l).pixels[column]? = some (k.pixel f l column) := by
  simp [Brush.panelLine, inside]

/-- After a frame start the read window is granted where a compose is requested and the tables are FREE. -/
theorem State.frameStart_granted (started : s.started) (idle : s.co.pass = .idle) (asked : s.co.request = true)
    (free : s.tb.state = .free) :
    s.frameStart.askWindow.co = { s.co with request := false, pass := .reading, working := [], nameMiss := false } ∧
      s.frameStart.askWindow.tb = { s.tb with state := .window } := by
  have start := s.frameStart_eq
  have follows : s.frameStart.following = true := by
    rw [start]
    exact s.following_iff_started.2 started
  have granted := State.askWindow_granted follows (by rw [start]; exact idle) (by rw [start]; exact asked)
    (by rw [start]) (by rw [start]; exact free)
  rw [granted, start]
  exact ⟨rfl, rfl⟩

theorem exec_frameEvent (timer : s.pa.frameTimer = true) (waiting : s.pa.paint = .waiting) :
    exec .frameEvent s = .next s.frameStart.askWindow := if_pos ⟨timer, waiting⟩

theorem exec_frameComplete (painting : s.pa.paint = .painting) :
    exec .frameComplete s = .next { s with pa := { s.pa with paint := .waiting } } := if_pos painting

theorem State.askWindow_unasked (unasked : s.co.request = false) : s.askWindow = s := if_neg (by simp [unasked])

end

/-- Settles O55: a frame start swaps, samples and paints; each pixel of the board is that of its field. -/
theorem framesSampleAndPaint : Obligations.FramesSampleAndPaint := by
  refine ⟨?_, fun s => exec_frameComplete, fun k f line column => ⟨Brush.pixel_outside, Brush.pixel_dark, ?_⟩,
    fun b l o p x inside => ⟨marqueeColumn_still, fun wider => marqueeColumn_before wider inside,
      fun wider => marqueeColumn_after wider⟩,
    fun k f j n column line row => Brush.pixel_textLine line row, fun k f set j n x run shown => ⟨?_, ?_⟩,
    fun k text right is_right => ?_, fun k c text n x => Brush.ink_beyond, fun k f n x run => ⟨?_, ?_, ?_⟩⟩
  · intro s shown f timer waiting is_shown is_f
    obtain rfl : s.shownNext = shown := is_shown.symm
    obtain rfl : s.frameSample = f := by
      rw [is_f, ← Bu.showing_eq]
      rfl
    have start := s.frameStart_eq
    refine ⟨_, s.brush.paint s.frameSample, exec_frameEvent timer waiting, ?_, ?_, rfl, s.brush.paint_length _,
      fun l inside => ⟨_, s.brush.paint_line _ inside, rfl, BitVec.toNat_ofNat _ _, s.brush.panelLine_length _ _,
        fun column => s.brush.panelLine_pixel _ l⟩, by simp, by simp, by simp, by simp, by simp,
      fun unasked => ?_, fun started asked idle free => ?_⟩
    · simp only [State.askWindow_frame, start]
    · simp only [State.askWindow_frame, start]
    · rw [State.askWindow_unasked (by rw [start]; exact unasked), start]
      exact ⟨rfl, rfl⟩
    · exact State.frameStart_granted started idle asked free
  · intro x r calling w rest run shown rows some_row left right low high
    obtain ⟨n, rfl⟩ := Nat.exists_eq_add_of_le low
    have place : k.geometry.topLine + k.height + n = k.geometry.topLine + 1 * k.height + n := by omega
    rw [place, Brush.pixel_textLine (by omega) (by omega) left right, Brush.linePixel_calling run shown some_row,
      Brush.callingPixel, rows, ← place, Nat.add_sub_cancel_left] <;> rfl
  · intro rows no_lead
    rw [Brush.linePixel_calling run shown rows, Brush.callingPixel_dark no_lead]
  · intro row place
    rw [Brush.linePixel_row run shown place]
    refine ⟨fun blank => ?_, fun text phrase => ⟨fun field => ?_, fun left => ?_⟩,
      fun r service onBoard ws wt is_ws is_wt => ?_⟩
    · rw [blank]
      rfl
    · rw [phrase]
      exact Brush.destinationPixel_right field
    · rw [phrase]
      exact congrArg (Option.getD · 0) (Brush.destinationPixel_left left)
    · subst is_ws is_wt
      have whole : k.firstLine row n x = k.rowPixel r n x := by
        obtain rfl | ⟨calling, w, rfl⟩ := service <;> rfl
      rw [whole]
      refine ⟨Brush.rowPixel_status onBoard, ?_⟩
      rintro left e rfl
      refine ⟨fun text platform within reached => ?_, fun outside => ?_⟩
      · exact Brush.rowPixel_platform left platform within reached
      · rw [Brush.rowPixel_left left outside]
        refine ⟨fun time => if_pos time, fun beyond field => ?_, fun beyond gap => ?_⟩
        · rw [if_neg (Nat.not_lt.2 beyond), Brush.destinationPixel_right field]
        · rw [if_neg (Nat.not_lt.2 beyond), Brush.destinationPixel_left gap]
          rfl
  · obtain rfl : k.reserve = right := is_right.symm
    exact fitText_spec k k.reserve text (k.layout.time + 4)
  · rintro text take banner
    rw [Brush.linePixel_bottom, Brush.bottomPixel_banner run banner]
    exact ⟨fun fits => if_pos fits, fun wider => if_neg (Nat.not_le.2 wider)⟩
  · rw [Brush.linePixel_bottom]
    exact Brush.bottomPixel_dark run
  · intro unbannered second clock _
    rw [Brush.linePixel_bottom, Brush.bottomPixel_clock run unbannered clock, hourMinuteSecond_digits]

end Sys2Proof.Machine
end
